-- ==== Sys2Proof/Word.lean ====
section
/-! DEFINITION. The word types of ACMF-1 (10_state.md R13 to R18). -/

namespace Sys2Proof

/-- One byte of host memory, and the 8-bit registers. -/
abbrev Byte := BitVec 8

/-- A 32-bit register, a table entry, the command word. -/
abbrev Word := BitVec 32

/-- A 64-bit operand or result register, and (at most ADDR_W = 64 bits) a host address. -/
abbrev DWord := BitVec 64

end Sys2Proof
end

