-- ==== Sys2Proof/Syntax.lean ====
section
/-! DEFINITION. The commands of ACMF-1: one constructor per row of spec/opcode_table.json (30_encoding.md R62). -/

namespace Sys2Proof

/-- A command word after decoding. The operands of a command stand in the registers OP0..OP3 (30_encoding.md R61), not in
the word; the three commands with a modifier carry their whole `mod` byte, whose bits 7:1 WellFormed requires to be 0. -/
inductive Instr where
  | ctxInit
  | paramsDerive
  | dictLoad (mod : Byte)
  | dictAttach
  | frameContinue
  | frameEnd
  | blockCompress (mod : Byte)
  | dmsBuild
  | winAppend
  | winEnforceMaxdist
  | winNeedsCorrection
  | winCorrectOverflow
  | tabFill (mod : Byte)
  | h1Insfind
  | dhInsfind
  | hcInsfind
  | hcSearch
  | btUpdate
  | btSearch
  | h3Insfind
  | blkMatch
  | ldmGenerate
  | ldmBlkMatch
  | seqReset
  | seqStore
  | seqLastlit
  | seqToCodes
  | litCompress
  | seqEncode
  | dbgRead
  deriving DecidableEq, Repr

end Sys2Proof
end

