-- ==== Sys2Proof/WellFormed.lean ====
section
/-! DEFINITION. When a command term stands for a legal command word (30_encoding.md R60, R62, R63). -/

namespace Sys2Proof

/-- The modifier bits a command defines: bit 0 for DICT_LOAD, BLOCK_COMPRESS, TAB_FILL, none for the others (R62). -/
def Instr.modMask : Instr → Byte
  | .dictLoad _ => 1
  | .blockCompress _ => 1
  | .tabFill _ => 1
  | _ => 0

/-- The `mod` byte a command carries; 0 for a command that defines no modifier bit. -/
def Instr.modByte : Instr → Byte
  | .dictLoad m => m
  | .blockCompress m => m
  | .tabFill m => m
  | _ => 0

/-- "bits a command does not define must be 0" (R60). -/
def Instr.wellFormed (i : Instr) : Bool :=
  (i.modByte &&& ~~~ i.modMask) == 0

abbrev Instr.WellFormed (i : Instr) : Prop := i.wellFormed = true

end Sys2Proof
end

