-- ==== Sys2Proof/Decode.lean ====
section
/-! DEFINITION. Decoding of the command word, total on any 32 bits and rejecting by name, and the encoder
(30_encoding.md R60 to R63). -/

namespace Sys2Proof

/-- Why a command word is illegal (R63). -/
inductive DecodeError where
  /-- `opcode` is not in the map of R62. -/
  | reservedOpcode
  /-- Bits 31:16 are not 0. -/
  | reservedBits
  /-- A `mod` bit the command does not define is 1. -/
  | undefinedMod
  deriving DecidableEq, Repr

/-- The outcome of decoding. -/
inductive Decoded where
  | ok (i : Instr)
  | illegal (e : DecodeError)
  deriving DecidableEq, Repr

def Decoded.toOption : Decoded → Option Instr
  | .ok i => some i
  | .illegal _ => none

/-- Bits 7:0 of the command word. -/
def wordOpcode (w : Word) : Byte := w.extractLsb' 0 8
/-- Bits 15:8 of the command word. -/
def wordMod (w : Word) : Byte := w.extractLsb' 8 8
/-- Bits 31:16 of the command word. -/
def wordReserved (w : Word) : BitVec 16 := w.extractLsb' 16 16

/-- The opcode map of R62: the command an opcode selects, given the word's `mod` byte. -/
def opcodeRow (opcode m : Byte) : Option Instr :=
  match opcode.toNat with
  | 0x01 => some .ctxInit
  | 0x02 => some .paramsDerive
  | 0x03 => some (.dictLoad m)
  | 0x04 => some .dictAttach
  | 0x05 => some .frameContinue
  | 0x06 => some .frameEnd
  | 0x07 => some (.blockCompress m)
  | 0x08 => some .dmsBuild
  | 0x10 => some .winAppend
  | 0x11 => some .winEnforceMaxdist
  | 0x12 => some .winNeedsCorrection
  | 0x13 => some .winCorrectOverflow
  | 0x20 => some (.tabFill m)
  | 0x21 => some .h1Insfind
  | 0x22 => some .dhInsfind
  | 0x23 => some .hcInsfind
  | 0x24 => some .hcSearch
  | 0x25 => some .btUpdate
  | 0x26 => some .btSearch
  | 0x27 => some .h3Insfind
  | 0x30 => some .blkMatch
  | 0x40 => some .ldmGenerate
  | 0x41 => some .ldmBlkMatch
  | 0x50 => some .seqReset
  | 0x51 => some .seqStore
  | 0x52 => some .seqLastlit
  | 0x53 => some .seqToCodes
  | 0x60 => some .litCompress
  | 0x61 => some .seqEncode
  | 0x70 => some .dbgRead
  | _ => none

/-- "the decoder looks at `opcode`, then checks `mod` and the reserved field" (R60, R63). -/
def decode (w : Word) : Decoded :=
  match opcodeRow (wordOpcode w) (wordMod w) with
  | none => .illegal .reservedOpcode
  | some i =>
    if wordMod w &&& ~~~ i.modMask ≠ 0 then .illegal .undefinedMod
    else if wordReserved w ≠ 0 then .illegal .reservedBits
    else .ok i

/-- The opcode column of R62. -/
def Instr.opcode : Instr → Byte
  | .ctxInit => 0x01
  | .paramsDerive => 0x02
  | .dictLoad _ => 0x03
  | .dictAttach => 0x04
  | .frameContinue => 0x05
  | .frameEnd => 0x06
  | .blockCompress _ => 0x07
  | .dmsBuild => 0x08
  | .winAppend => 0x10
  | .winEnforceMaxdist => 0x11
  | .winNeedsCorrection => 0x12
  | .winCorrectOverflow => 0x13
  | .tabFill _ => 0x20
  | .h1Insfind => 0x21
  | .dhInsfind => 0x22
  | .hcInsfind => 0x23
  | .hcSearch => 0x24
  | .btUpdate => 0x25
  | .btSearch => 0x26
  | .h3Insfind => 0x27
  | .blkMatch => 0x30
  | .ldmGenerate => 0x40
  | .ldmBlkMatch => 0x41
  | .seqReset => 0x50
  | .seqStore => 0x51
  | .seqLastlit => 0x52
  | .seqToCodes => 0x53
  | .litCompress => 0x60
  | .seqEncode => 0x61
  | .dbgRead => 0x70

/-- The command word of a command: reserved field 0, `mod`, `opcode` (R60). -/
def encode (i : Instr) : Word :=
  (0 : BitVec 16) ++ i.modByte ++ i.opcode

/-- The command the decoder reads from a table row's word of `nbits` bits. A command is one 32-bit register value, not
bytes in memory, so there is no byte order to lay out. -/
def decodeTableWord (nbits w : Nat) : Option Instr :=
  (decode (BitVec.ofNat 32 (w % 2 ^ nbits))).toOption

end Sys2Proof
end

