-- ==== Sys2Proof/Config.lean ====
section
/-! DEFINITION. What is fixed for ACMF-1, the OPEN implementation parameters as plain data, and the free values
(00_scope.md section 4, 92_eei_decisions.md section 2). -/

namespace Sys2Proof.Config

/-- Bytes a hash read may touch (00_scope.md section 4). -/
def hashRead : Nat := 8
/-- Stride of a fast table fill (00_scope.md section 4). -/
def fillStep : Nat := 3
/-- Skip acceleration shift of the block matchers (00_scope.md section 4). -/
def searchStrength : Nat := 8
/-- Farthest 3-byte match, exclusive (00_scope.md section 4). -/
def hash3MaxDist : Nat := 2 ^ 18
/-- The tree-table sentinel that index reduction keeps (00_scope.md section 4). -/
def unsortedMark : Nat := 1
/-- Capacity of the sequence store in triples (44_sequence_store.md R195). -/
def seqCap : Nat := 43690
/-- Capacity of the literal buffer in bytes (44_sequence_store.md R195). -/
def litCap : Nat := 131072
/-- The largest block of any configuration (48_frame_assembler.md R287). -/
def blockSizeTop : Nat := 2 ^ 17
/-- Shortest block that is sent to the matcher (00_scope.md section 4). -/
def minCBlockInput : Nat := 7
/-- Compressed size below which an all-equal block becomes an RLE block (00_scope.md section 4). -/
def rleMaxCSize : Nat := 25
/-- The pledged size that means 'unknown' (10_state.md R15). -/
def pledgeUnknown : Nat := 2 ^ 64 - 1
/-- FSE table log range (00_scope.md section 4). -/
def fseMinTableLog : Nat := 5
def fseMaxTableLog : Nat := 12
/-- Largest table log per sequence field (00_scope.md section 4). -/
def llFseLog : Nat := 9
def mlFseLog : Nat := 9
def ofFseLog : Nat := 8
/-- Largest literal-length, match-length and offset codes, and the default offset table's largest code
(44_sequence_store.md R194). -/
def maxLL : Nat := 35
def maxML : Nat := 52
def maxOff : Nat := 31
def defaultMaxOff : Nat := 28
/-- Huffman code-length limit used, and largest the format admits (46_huffman.md R232). -/
def hufTableLogDefault : Nat := 11
def hufTableLogMax : Nat := 12
/-- Bytes of a dictionary descriptor (48_frame_assembler.md R307). -/
def descriptorSize : Nat := 520

/-- One row of LEVEL_TABLE, in the column order of 48_frame_assembler.md R313. -/
structure LevelRow where
  windowLog : Nat
  chainLog : Nat
  hashLog : Nat
  searchLog : Nat
  minMatch : Nat
  targetLength : Nat
  strategy : Nat
  deriving DecidableEq, Repr

/-- Which LEVEL_TABLE the machine has: the spec's default, or any other list of rows (R313). -/
inductive LevelTable where
  | preset
  | rows (rs : List LevelRow)
  deriving DecidableEq, Repr

/-- Which HASH the machine has: the default of 41_tables.md R113, or another function (number `k` of an opaque family). -/
inductive HashFn where
  | preset
  | other (k : Nat)
  deriving DecidableEq, Repr

/-- Which CHECKSUM64 the machine has: the default (XXH64, seed 0), or another function. -/
inductive ChecksumFn where
  | preset
  | other (k : Nat)
  deriving DecidableEq, Repr

/-- Which LDM_HASH the machine has: the default of 43_ldm.md R172, or another function. -/
inductive LdmHashFn where
  | preset
  | other (k : Nat)
  deriving DecidableEq, Repr

/-- The OPEN parameters of 92_eei_decisions.md section 2, as plain data. No command changes them.
DESIGN CHOICE (log 3): they ride in State, because exec takes nothing else, so every statement over states is a statement
over every implementation. -/
structure Impl where
  addrW : Nat
  tabCap : Nat
  ldmChunk : Nat
  ldmSeqCap : Nat
  hash : HashFn
  checksum : ChecksumFn
  ldmHash : LdmHashFn
  levels : LevelTable
  deriving DecidableEq, Repr

/-- The defaults of 92_eei_decisions.md section 2. -/
def Impl.default : Impl :=
  { addrW := 64, tabCap := 2 ^ 31, ldmChunk := 2 ^ 20, ldmSeqCap := 2 ^ 20,
    hash := .preset, checksum := .preset, ldmHash := .preset, levels := .preset }

/-- A row's bounds: the part of ParamsValid (48_frame_assembler.md R282) that a preset row must pass. -/
def LevelRow.ok (r : LevelRow) : Bool :=
  decide (1 ≤ r.strategy ∧ r.strategy ≤ 8 ∧ 10 ≤ r.windowLog ∧ r.windowLog ≤ 31 ∧ 6 ≤ r.hashLog ∧ r.hashLog ≤ 30 ∧
    6 ≤ r.chainLog ∧ r.chainLog ≤ 30 ∧ 1 ≤ r.searchLog ∧ r.searchLog ≤ 30 ∧ 3 ≤ r.minMatch ∧ r.minMatch ≤ 8 ∧
    r.targetLength ≤ 131072 ∧ (if 6 ≤ r.strategy then r.chainLog - 1 else r.chainLog) ≤ r.windowLog)

/-- The constraints of 92_eei_decisions.md section 2 on the OPEN parameters. -/
def Impl.legal (c : Impl) : Bool :=
  decide (32 ≤ c.addrW ∧ c.addrW ≤ 64 ∧ 2 ^ 12 ≤ c.tabCap ∧ 2 ^ 17 ≤ c.ldmChunk ∧ 1 ≤ c.ldmSeqCap) &&
    (match c.levels with
     | .preset => true
     | .rows rs => rs.length == 23 && rs.all LevelRow.ok)

/-- Free bits: a value of `w` bits that nothing in the model constrains, one for each step counter and each tag
(logs 14, 15, 16, 27). -/
opaque freeBits (w : Nat) : Nat → Nat → BitVec w

/-- What 32 bits hold after an index or an offset that needs more was stored in them, one free value for each such number
(log 14). -/
opaque freeWord : Nat → BitVec 32

/-- A free list of normalised counts (log 16). -/
opaque freeNorm : Nat → Nat → List (BitVec 16)

/-- The other HASH functions: number, key, bytes hashed, result bits (41_tables.md R113 asks only for a total function;
the bound `2^hBits` is put on where it is used). -/
opaque hashOther : Nat → Nat → Nat → Nat → Nat

/-- The other CHECKSUM64 functions: number, bytes (30_encoding.md R71). -/
opaque checksumOther : Nat → List Byte → DWord

/-- The other LDM_HASH functions: number, the `ldmMinMatch` bytes hashed (43_ldm.md R172). -/
opaque ldmHashOther : Nat → List Byte → DWord

end Sys2Proof.Config
end

