-- ==== Sys2Proof/Machine/State.lean ====
section
/-! DEFINITION. The architectural state of ACMF-1 (10_state.md) as plain data, its value after hardware reset
(70_reset_and_hazards.md R345), and the reasons a step can stop. -/

namespace Sys2Proof.Machine

open Sys2Proof

/-- No command and no host action stops the engine with a fault: every error ends its command with a result code
(60_exceptions.md R320, R334), and `fatal` is a status bit of a machine that goes on answering (R329). -/
inductive Fault where
  deriving DecidableEq, Repr

/-- Where the model makes no claim about a launch. -/
inductive Refusal where
  /-- Raised by exec's arm of an instruction that has no meaning yet. Safe. -/
  | notModelled (mnemonic : String)
  /-- Raised by FRAME_CONTINUE, FRAME_END, BLOCK_COMPRESS, LIT_COMPRESS and SEQ_ENCODE when the destination range overlaps
  the command's source range, the current window or the content of a valid dictionary bank: "a model treats a violating
  launch as refused" (20_memory.md R47, 70_reset_and_hazards.md R356 duty 3). Safe. -/
  | destinationOverlap
  /-- Raised by the start of a command that would read the history while the host has changed a byte that is still in it:
  "the model makes no claim about a command issued in violation" (70_reset_and_hazards.md R356, duty 2: "refused launch";
  20_memory.md R48; log 13). The host's store itself runs. Safe. -/
  | historyChanged
  /-- Raised by LDM_BLK_MATCH whose `src` is not the `src` of the latest LDM_GENERATE plus what was consumed since: "a model
  treats a violating launch as refused" (43_ldm.md R177, 70_reset_and_hazards.md R356 duty 7; log 11). Safe. -/
  | ldmSourceMismatch
  /-- Raised by LDM_BLK_MATCH whose queue holds an offset reaching below `histLow`: "likewise a refused launch"
  (43_ldm.md R177, 70_reset_and_hazards.md R356 duty 7; log 11). Safe. -/
  | ldmBelowHistory
  deriving DecidableEq, Repr

/-- Host memory: (address, byte) pairs, addresses strictly rising, no entry equal to what an unlisted byte reads as. -/
abbrev Memory := List Host.Cell

/-- What a byte of host memory that nothing has written reads as. DESIGN CHOICE, unsafe (log 4). -/
def Memory.unlisted : Byte := 0

/-- What the host does next between commands (70_reset_and_hazards.md R356, R357, R345). DESIGN CHOICE (log 1). -/
inductive HostAction where
  /-- Write a register by its number; a write to register 0 (`CMD`) starts a command (10_state.md R13). -/
  | write (reg : Nat) (value : DWord)
  /-- Read a register by its number. -/
  | read (reg : Nat)
  /-- Change one byte of the host's own memory. -/
  | store (addr : DWord) (value : Byte)
  /-- Drive the hardware reset input (R345). -/
  | reset
  deriving DecidableEq, Repr

/-- The assembler stage (10_state.md R17). -/
inductive Stage where
  | created
  | initialized
  | ongoing
  | ending
  deriving DecidableEq, Repr

/-- The fields of `STATUS` (10_state.md R14); bits 31:10 read as 0. -/
structure Status where
  code : Byte
  fatal : Bool
  unspec : Bool
  deriving DecidableEq, Repr

/-- The configuration registers 16..28 (10_state.md R15). -/
structure CfgRegs where
  windowLog : Byte
  hashLog : Byte
  chainLog : Byte
  searchLog : Byte
  minMatch : Byte
  targetLength : Word
  strategy : Byte
  flags : Byte
  pledged : DWord
  ldmHashLog : Byte
  ldmBucketLog : Byte
  ldmMinMatch : BitVec 16
  ldmRateLog : Byte
  deriving DecidableEq, Repr

/-- The latched parameters (10_state.md R16). -/
structure Latched where
  windowLog : Byte
  hashLog : Byte
  chainLog : Byte
  searchLog : Byte
  minMatch : Byte
  targetLength : Word
  strategy : Byte
  contentSizeFlag : Bool
  checksumFlag : Bool
  noDictIDFlag : Bool
  ldmEnable : Bool
  pledged : DWord
  ldmHashLog : Byte
  ldmBucketLog : Byte
  ldmMinMatch : BitVec 16
  ldmRateLog : Byte
  deriving DecidableEq, Repr

/-- A Window (10_state.md R18). The three addresses are ADDR_W bits wide. -/
structure Window where
  base : DWord
  dictBase : DWord
  nextSrc : DWord
  dictLimit : Word
  lowLimit : Word
  deriving DecidableEq, Repr

/-- A table of the TAB space (10_state.md R21, R30): `size` entries of 32 bits (0 = absent), those that are not 0 listed by
rising slot number. -/
structure Table where
  size : Nat
  cells : List (Nat × Word)
  deriving DecidableEq, Repr

/-- The Match State (10_state.md R21). -/
structure MatchState where
  hashTable : Table
  chainTable : Table
  hashTable3 : Table
  nextToUpdate : Word
  nextToUpdate3 : Word
  loadedDictEnd : Word
  dmsAttached : Bool
  deriving DecidableEq, Repr

/-- The three repeat offsets, most recent first (10_state.md R28). -/
structure Reps where
  r0 : Word
  r1 : Word
  r2 : Word
  deriving DecidableEq, Repr

/-- The repeat mode of a stored table (10_state.md R28). -/
inductive RepeatMode where
  | none
  | check
  | valid
  deriving DecidableEq, Repr

/-- A stored Huffman table (10_state.md R28): `nbBits` lists the code lengths of the symbols 0 to 255. -/
structure HufState where
  nbBits : List (BitVec 4)
  maxSV : Byte
  tableLog : BitVec 4
  mode : RepeatMode
  deriving DecidableEq, Repr

/-- A stored FSE distribution (10_state.md R28): `norm` lists the signed normalised counts of symbols 0, 1, 2, …. -/
structure FseState where
  norm : List (BitVec 16)
  maxSV : Byte
  tableLog : BitVec 4
  mode : RepeatMode
  deriving DecidableEq, Repr

/-- A Compressed Block State (10_state.md R28). -/
structure BlockState where
  rep : Reps
  huf : HufState
  fseLL : FseState
  fseOF : FseState
  fseML : FseState
  deriving DecidableEq, Repr

/-- The dictionary match state bank (10_state.md R25). -/
structure DmsBank where
  valid : Bool
  p : Latched
  w : Window
  hashTable : Table
  chainTable : Table
  endIdx : Word
  bs : BlockState
  dictID : Word
  deriving DecidableEq, Repr

/-- One stored triple (10_state.md R26, 44_sequence_store.md R185). -/
structure Seq where
  offset : Word
  litLength : BitVec 16
  matchLength : BitVec 16
  deriving DecidableEq, Repr

/-- The three codes of one triple (10_state.md R26). -/
structure Codes where
  ll : Byte
  of : Byte
  ml : Byte
  deriving DecidableEq, Repr

/-- The Sequence Store (10_state.md R26). `SEQ.n` and `SEQ.litN` are the lengths of the two lists; an entry at or beyond them
is unspecified in the spec and absent here. `longLit`, `longMatch`: the position when bit 31 is 1. -/
structure SeqStore where
  seqs : List Seq
  lit : List Byte
  longLit : Option Nat
  longMatch : Option Nat
  codes : List Codes
  codesValid : Bool
  deriving DecidableEq, Repr

/-- An entry of the LDM hash table (10_state.md R32). -/
structure LdmEntry where
  offset : Word
  checksum : Word
  deriving DecidableEq, Repr

/-- A raw LDM sequence (10_state.md R32). -/
structure RawSeq where
  litLength : Word
  matchLength : Word
  offset : Word
  deriving DecidableEq, Repr

/-- The LDM State (10_state.md R32). Table entries other than {0, 0} and bucket positions other than 0 are listed by rising
number. `queueSrc` is the model's own: where the unconsumed queue begins, none before an LDM_GENERATE (log 11); `remainder` is named by R32 and touched by no rule (log 10). -/
structure LdmState where
  table : List (Nat × LdmEntry)
  bucketPos : List (Nat × Byte)
  w : Window
  seq : List RawSeq
  pos : Nat
  remainder : Word
  queueSrc : Option DWord
  deriving DecidableEq, Repr

/-- The model's own record of the host duty of 70_reset_and_hazards.md R356 duty 2 (log 13). `window` is one more than the
highest index of `W` whose byte the host changed while it was live, 0 when there is none: the window drops bytes from below
only, so a changed byte is still in it exactly while `window` is above `lowLimit`. `bank`: the host changed a byte of the
content the valid bank refers to. -/
structure Changed where
  window : Nat
  bank : Bool
  deriving DecidableEq, Repr

/-- Everything the spec gives the machine (10_state.md R10), the host's memory (R30), and the model's own fields `impl`
(log 3), `host` (log 1), `lastRead` (log 28), `freeCtr` (log 27), `changed` (log 13). -/
structure State where
  impl : Config.Impl
  host : List HostAction
  lastRead : DWord
  freeCtr : Nat
  changed : Changed
  mem : Memory
  cmd : Word
  status : Status
  op0 : DWord
  op1 : DWord
  op2 : DWord
  op3 : DWord
  res0 : DWord
  res1 : DWord
  stage : Stage
  cfg : CfgRegs
  p : Latched
  w : Window
  ms : MatchState
  optTables : List Word
  dms : DmsBank
  seq : SeqStore
  bs0 : BlockState
  bs1 : BlockState
  prevSel : Bool
  dictID : Word
  consumed : DWord
  isFirstBlock : Bool
  chk : List Byte
  ldm : LdmState
  deriving DecidableEq, Repr

/-- Reset value of the configuration registers (R15, R345). -/
def CfgRegs.zero : CfgRegs :=
  { windowLog := 0, hashLog := 0, chainLog := 0, searchLog := 0, minMatch := 0, targetLength := 0, strategy := 0,
    flags := 0, pledged := 0, ldmHashLog := 0, ldmBucketLog := 0, ldmMinMatch := 0, ldmRateLog := 0 }

/-- Reset value of the latched parameters (R16, R345). -/
def Latched.zero : Latched :=
  { windowLog := 0, hashLog := 0, chainLog := 0, searchLog := 0, minMatch := 0, targetLength := 0, strategy := 0,
    contentSizeFlag := false, checksumFlag := false, noDictIDFlag := false, ldmEnable := false, pledged := 0,
    ldmHashLog := 0, ldmBucketLog := 0, ldmMinMatch := 0, ldmRateLog := 0 }

/-- A Window after reset and after CTX_INIT (R18, R281). -/
def Window.init : Window := { base := 0, dictBase := 0, nextSrc := 1, dictLimit := 1, lowLimit := 1 }

/-- A table that is absent (R345). -/
def Table.absent : Table := { size := 0, cells := [] }

/-- The Match State after reset: tables absent (R21, R345). -/
def MatchState.reset : MatchState :=
  { hashTable := .absent, chainTable := .absent, hashTable3 := .absent, nextToUpdate := 1, nextToUpdate3 := 1,
    loadedDictEnd := 0, dmsAttached := false }

/-- A Huffman slot after reset: mode none (R345); the other fields DESIGN CHOICE 0 (log 6). -/
def HufState.reset : HufState := { nbBits := List.replicate 256 0, maxSV := 0, tableLog := 0, mode := .none }

/-- An FSE slot after reset: mode none (R345); the other fields DESIGN CHOICE 0 (log 6). -/
def FseState.reset : FseState := { norm := [], maxSV := 0, tableLog := 0, mode := .none }

/-- A Compressed Block State after reset: the four modes none (R345); the other fields DESIGN CHOICE 0 (log 6). -/
def BlockState.reset : BlockState :=
  { rep := { r0 := 0, r1 := 0, r2 := 0 }, huf := .reset, fseLL := .reset, fseOF := .reset, fseML := .reset }

/-- The bank after reset: not valid (R345); the other fields, unreadable while it is not, DESIGN CHOICE (log 9). -/
def DmsBank.reset : DmsBank :=
  { valid := false, p := .zero, w := .init, hashTable := .absent, chainTable := .absent, endIdx := 0, bs := .reset,
    dictID := 0 }

/-- The Sequence Store after reset (R26, R345). -/
def SeqStore.empty : SeqStore :=
  { seqs := [], lit := [], longLit := none, longMatch := none, codes := [], codesValid := false }

/-- The LDM State after reset (R32, R345). -/
def LdmState.reset : LdmState :=
  { table := [], bucketPos := [], w := .init, seq := [], pos := 0, remainder := 0, queueSrc := none }

/-- No live byte of the history has been changed. -/
def Changed.none : Changed := { window := 0, bank := false }

/-- The machine right after hardware reset (70_reset_and_hazards.md R345), with no host action pending and no byte of host
memory listed. -/
def State.reset : State :=
  { impl := .default, host := [], lastRead := 0, freeCtr := 0, changed := .none, mem := [], cmd := 0,
    status := { code := 0, fatal := false, unspec := false }, op0 := 0, op1 := 0, op2 := 0, op3 := 0, res0 := 0, res1 := 0,
    stage := .created, cfg := .zero, p := .zero, w := .init, ms := .reset, optTables := [], dms := .reset, seq := .empty,
    bs0 := .reset, bs1 := .reset, prevSel := false, dictID := 0, consumed := 0, isFirstBlock := true, chk := [],
    ldm := .reset }

end Sys2Proof.Machine
end

