-- ==== Sys2Proof/Machine/Ops.lean ====
section
/-! DEFINITION. The named operations over memory, tables, windows and status: what every command is built from. -/

namespace Sys2Proof.Machine

open Sys2Proof

/-! ## Numbers and bytes (00_scope.md section 5) -/

/-- `highbit(x)`: the position of the most significant set bit of `x >= 1`. -/
def highbit (x : Nat) : Nat := Nat.log2 x

/-- `LE_n(v)`: the `n` low bytes of `v`, least significant first. -/
def leBytes : Nat → Nat → List Byte
  | 0, _ => []
  | n + 1, v => BitVec.ofNat 8 v :: leBytes n (v / 256)

/-- `le(bytes)`: the inverse of `LE_n`. -/
def leVal : List Byte → Nat
  | [] => 0
  | b :: bs => b.toNat + 256 * leVal bs

/-- Store a value at a register's width. Every rule's preconditions make it fit (00_scope.md section 5); a value that does
not fit after all is a free value of the model (log 14), `tag` telling the uses of one step apart. -/
def fit (w ctr tag v : Nat) : BitVec w :=
  if v < 2 ^ w then BitVec.ofNat w v else Config.freeBits w ctr tag

/-- Store an index, a cursor or an offset at 32 bits; one that needs more is a free value of the model (log 14). -/
def word32 (v : Nat) : Word := if v < 2 ^ 32 then BitVec.ofNat 32 v else Config.freeWord v

/-! ## Sparse maps: the canonical list form of memory and tables -/

/-- What position `i` holds; `d` is what an unlisted position holds. -/
def sparseGet {α : Type} (d : α) : List (Nat × α) → Nat → α
  | [], _ => d
  | (k, v) :: rest, i => if i < k then d else if i = k then v else sparseGet d rest i

/-- Put `v` in front of `rest` at position `i`, unless it is what an unlisted position holds. -/
def sparseCons {α : Type} [DecidableEq α] (d : α) (i : Nat) (v : α) (rest : List (Nat × α)) : List (Nat × α) :=
  if v = d then rest else (i, v) :: rest

/-- Store `v` at position `i`, keeping the canonical form. -/
def sparseSet {α : Type} [DecidableEq α] (d : α) : List (Nat × α) → Nat → α → List (Nat × α)
  | [], i, v => sparseCons d i v []
  | (k, u) :: rest, i, v =>
    if i < k then sparseCons d i v ((k, u) :: rest)
    else if i = k then sparseCons d i v rest
    else (k, u) :: sparseSet d rest i v

/-- Every listed position is at least `lo`, positions rise strictly, and no listed value is `d`. -/
def sparseWfFrom {α : Type} [DecidableEq α] (d : α) : Nat → List (Nat × α) → Bool
  | _, [] => true
  | lo, (k, v) :: rest => decide (lo ≤ k) && decide (v ≠ d) && sparseWfFrom d (k + 1) rest

/-- The canonical form. -/
def sparseWf {α : Type} [DecidableEq α] (d : α) (m : List (Nat × α)) : Bool := sparseWfFrom d 0 m

/-- Apply `f` to every listed value, dropping what becomes `d`; `f d = d` in every use. -/
def sparseMap {α : Type} [DecidableEq α] (d : α) (f : α → α) : List (Nat × α) → List (Nat × α)
  | [] => []
  | (k, v) :: rest => sparseCons d k (f v) (sparseMap d f rest)

/-! ## Host memory (10_state.md R30, 20_memory.md) -/

/-- One byte of host memory. -/
def Memory.read (m : Memory) (a : Nat) : Byte := sparseGet Memory.unlisted m a

/-- Store one byte of host memory. -/
def Memory.write (m : Memory) (a : Nat) (b : Byte) : Memory := sparseSet Memory.unlisted m a b

/-- The canonical form of host memory. -/
def Memory.wf (m : Memory) : Bool := sparseWf Memory.unlisted m

/-- `MemRead`: `n` bytes from `a` up (20_memory.md R42: byte granular, no alignment). -/
def Memory.readBytes (m : Memory) : Nat → Nat → List Byte
  | _, 0 => []
  | a, n + 1 => m.read a :: Memory.readBytes m (a + 1) n

/-- `MemWrite`: the bytes in ascending address order (20_memory.md R45). -/
def Memory.writeBytes (m : Memory) : Nat → List Byte → Memory
  | _, [] => m
  | a, b :: bs => Memory.writeBytes (m.write a b) (a + 1) bs

/-! ## Tables of the TAB space (10_state.md R21) -/

/-- `T[i]`; a slot the table does not have reads as empty (no rule reads one, log 29). -/
def Table.get (t : Table) (i : Nat) : Nat := if i < t.size then (sparseGet 0 t.cells i).toNat else 0

/-- `T[i] <- v`; a slot the table does not have is not written (no rule writes one, log 29). -/
def Table.set (t : Table) (i v : Nat) : Table :=
  if i < t.size then { t with cells := sparseSet 0 t.cells i (word32 v) } else t

/-- A table of `n` entries, all 0. -/
def Table.zeros (n : Nat) : Table := { size := n, cells := [] }

/-- The canonical form of a table: listed slots rise, hold no 0 and exist. -/
def Table.wf (t : Table) : Bool := sparseWf 0 t.cells && t.cells.all (fun c => decide (c.1 < t.size))

/-! ## Address arithmetic (00_scope.md section 5: `+_ADDR_W`, `-_ADDR_W`) -/

/-- `a +_ADDR_W b`. -/
def addA (aw a b : Nat) : Nat := (a + b) % 2 ^ aw

/-- `a -_ADDR_W b`. -/
def subA (aw a b : Nat) : Nat := (a % 2 ^ aw + (2 ^ aw - b % 2 ^ aw)) % 2 ^ aw

/-- `Cur(w)` (40_window.md R90). -/
def Window.cur (aw : Nat) (w : Window) : Nat := subA aw w.nextSrc.toNat w.base.toNat

/-- `IdxW(w, a)` (40_window.md R90). -/
def Window.idx (aw : Nat) (w : Window) (a : Nat) : Nat := subA aw a w.base.toNat

/-- "An address `a` *lies in the prefix of `w`*" (40_window.md R90). -/
def Window.inPrefix (aw : Nat) (w : Window) (a : Nat) : Bool :=
  decide (w.dictLimit.toNat ≤ w.idx aw a ∧ w.idx aw a ≤ w.cur aw)

/-- The two address ranges (start, length) meet, addresses being taken modulo `2^ADDR_W`. -/
def rangesMeet (aw a la b lb : Nat) : Bool :=
  decide (0 < la ∧ 0 < lb ∧ (subA aw b a < la ∨ subA aw a b < lb))

/-- Address `a` lies in the window: prefix or external-dictionary region (20_memory.md R44 (a)). -/
def Window.covers (aw : Nat) (w : Window) (a n : Nat) : Bool :=
  rangesMeet aw a n (addA aw w.base.toNat w.dictLimit.toNat) (w.cur aw - w.dictLimit.toNat) ||
  rangesMeet aw a n (addA aw w.dictBase.toNat w.lowLimit.toNat) (w.dictLimit.toNat - w.lowLimit.toNat)

/-- The range meets the content a valid dictionary bank refers to (20_memory.md R44 (b), 70_reset_and_hazards.md R356). -/
def DmsBank.covers (aw : Nat) (d : DmsBank) (a n : Nat) : Bool :=
  d.valid && rangesMeet aw a n (addA aw d.w.base.toNat d.w.lowLimit.toNat) (d.endIdx.toNat - d.w.lowLimit.toNat)

/-- The destination range meets the source range, the window or the bank's content: the launch the model refuses
(20_memory.md R47, 70_reset_and_hazards.md R356 duty 3; log 12). -/
def State.destClash (s : State) (src n dst cap : Nat) : Bool :=
  rangesMeet s.impl.addrW dst cap src n || s.w.covers s.impl.addrW dst cap || s.dms.covers s.impl.addrW dst cap

/-- Write a unit to `DST` (20_memory.md R45). -/
def State.writeDst (s : State) (a : Nat) (bytes : List Byte) : State := { s with mem := s.mem.writeBytes a bytes }

/-! ## Ending a command with an error (60_exceptions.md) -/

/-- The error codes of 60_exceptions.md R321. -/
inductive Err where
  | generic
  | paramInvalid
  | stageWrong
  | memory
  | dstTooSmall
  | dictCorrupted
  | srcSizeMismatch
  deriving DecidableEq, Repr

def Err.code : Err → Byte
  | .generic => 1
  | .paramInvalid => 2
  | .stageWrong => 3
  | .memory => 4
  | .dstTooSmall => 5
  | .dictCorrupted => 6
  | .srcSizeMismatch => 7

/-- TAKING AN EXCEPTION on this machine: `raise X` ends the command with `STATUS.code <- code of X`. Nothing is saved, no
mode switches and control goes nowhere (R320, R334); there is no return instruction (R335). -/
def State.raise (s : State) (e : Err) : State := { s with status := { s.status with code := e.code } }

/-- A command that succeeds writes `STATUS.code` 0 (R320). -/
def State.succeed (s : State) : State := { s with status := { s.status with code := 0 } }

/-- `fatal(reason)`: the sticky bit; the command ends with `Generic` (R329). -/
def State.setFatal (s : State) : State := { s with status := { s.status with fatal := true } }

/-- The lost-frame flag (R330). -/
def State.setUnspec (s : State) : State := { s with status := { s.status with unspec := true } }

/-- How the work of a command ends. -/
inductive Done where
  | ok (s : State)
  | err (e : Err) (s : State)
  | refused (r : Refusal)

/-- The outcome of a command: success and every error are next states. -/
def Done.outcome : Done → Host.Outcome State Fault Refusal
  | .ok s => .next s.succeed
  | .err e s => .next (s.raise e)
  | .refused r => .refused r

/-- `require c else raise e`, "changing nothing" (R327 checks 1 to 5). -/
def require (c : Bool) (e : Err) (s : State) (k : Done) : Done := if c then k else .err e s

/-- The launch condition on the destination: a violating launch is refused (20_memory.md R47). -/
def requireDisjoint (s : State) (src n dst cap : Nat) (k : Done) : Done :=
  if s.destClash src n dst cap then .refused .destinationOverlap else k

/-! ## Result registers and the two block states -/

def State.setRes0 (s : State) (v : Nat) : State := { s with res0 := BitVec.ofNat 64 v }
def State.setRes1 (s : State) (v : Nat) : State := { s with res1 := BitVec.ofNat 64 v }

/-- `prev = BS[prevSel]` (10_state.md R27). -/
def State.prev (s : State) : BlockState := if s.prevSel then s.bs1 else s.bs0

/-- `next = BS[1 - prevSel]` (10_state.md R27). -/
def State.nextBs (s : State) : BlockState := if s.prevSel then s.bs0 else s.bs1

def State.setPrev (s : State) (b : BlockState) : State :=
  if s.prevSel then { s with bs1 := b } else { s with bs0 := b }

def State.setNextBs (s : State) (b : BlockState) : State :=
  if s.prevSel then { s with bs0 := b } else { s with bs1 := b }

end Sys2Proof.Machine
end

