-- ==== Sys2Proof/Machine/Operands.lean ====
section
/-! DEFINITION. Operand forms (30_encoding.md R61), derived parameters (41_tables.md R111, R112), and the host's register
map (10_state.md R13 to R29). -/

namespace Sys2Proof.Machine

open Sys2Proof

/-! ## Operands of a command -/

/-- "An operand that is a host address uses bits `ADDR_W-1:0` and bits `63:ADDR_W` must be 0" (R61). -/
def State.addrOk (s : State) (a : DWord) : Bool := decide (a.toNat < 2 ^ s.impl.addrW)

/-- A range operand pair: a legal address, and an end not past `2^ADDR_W` (R61, 20_memory.md R46). -/
def State.rangeOk (s : State) (a n : DWord) : Bool :=
  s.addrOk a && decide (a.toNat + n.toNat ≤ 2 ^ s.impl.addrW)

/-- A position or end operand: a legal address that lies in the prefix of `W` (40_window.md R90). -/
def State.posOk (s : State) (a : DWord) : Bool := s.addrOk a && s.w.inPrefix s.impl.addrW a.toNat

/-- `src` and `src + n` lie in the prefix of the window (42_block_matcher.md R141, 43_ldm.md R174, 44_sequence_store.md R188).
The two positions are judged each for itself, as these rules are written: in an address space of `2^32` bytes both can lie in a
prefix with `W.base` between them, so that `Idx(src) + n` is above `cur`, against R144. Such a command runs (log 40). -/
def State.spanOk (s : State) (w : Window) (a n : DWord) : Bool :=
  s.rangeOk a n && w.inPrefix s.impl.addrW a.toNat && w.inPrefix s.impl.addrW (a.toNat + n.toNat)

/-- `Idx(a)` (40_window.md R90). -/
def State.idx (s : State) (a : Nat) : Nat := s.w.idx s.impl.addrW a

/-- `cur` (40_window.md R90). -/
def State.cur (s : State) : Nat := s.w.cur s.impl.addrW

/-- The `level` operand of PARAMS_DERIVE, the one sign-extended operand: `sext_32(OP0[31:0])` (R61). -/
def levelOperand (v : DWord) : Int := (v.extractLsb' 0 32).toInt

/-- Modifier bit 0: `loadMode` of DICT_LOAD and TAB_FILL, `last` of BLOCK_COMPRESS (R62). -/
def modBit0 (m : Byte) : Bool := m.getLsbD 0

/-- `sel` of a 36-bit debug address (20_memory.md R49). -/
def debugSel (v : DWord) : Nat := (v.extractLsb' 32 4).toNat
/-- `index` of a 36-bit debug address (20_memory.md R49). -/
def debugIndex (v : DWord) : Nat := (v.extractLsb' 0 32).toNat

/-! ## Derived parameters -/

/-- The four table layouts (41_tables.md R111). -/
inductive Layout where
  | singleHash
  | dualHash
  | hashChain
  | binaryTree
  deriving DecidableEq, Repr

/-- Layout by strategy (41_tables.md R111). -/
def layoutOf (strategy : Nat) : Layout :=
  if strategy = 1 then .singleHash
  else if strategy = 2 then .dualHash
  else if strategy ≤ 5 then .hashChain
  else .binaryTree

def Latched.layout (p : Latched) : Layout := layoutOf p.strategy.toNat

/-- `mls = min(max(P.minMatch, 4), 8)` (41_tables.md R112). -/
def Latched.mls (p : Latched) : Nat := min (max p.minMatch.toNat 4) 8

/-- `hashLog3` (41_tables.md R112). -/
def Latched.hashLog3 (p : Latched) : Nat := if p.minMatch.toNat = 3 then min 17 p.windowLog.toNat else 0

/-- `cycleLog` (40_window.md R97). -/
def Latched.cycleLog (p : Latched) : Nat :=
  if p.layout = .binaryTree then p.chainLog.toNat - 1 else p.chainLog.toNat

/-- `windowSize = 2^P.windowLog` (10_state.md R16). -/
def Latched.windowSize (p : Latched) : Nat := 2 ^ p.windowLog.toNat

/-- `BLOCKSIZE_MAX` (48_frame_assembler.md R287). -/
def Latched.blockSizeMax (p : Latched) : Nat := min Config.blockSizeTop p.windowSize

/-- `IDX_CEILING` (40_window.md R95). -/
def Latched.idxCeiling (p : Latched) : Nat := 3 <<< 29 + p.windowSize

/-! ## The host's register map -/

/-- `SEQ.longLit`, `SEQ.longMatch` as registers: bit 31 valid, bits 30:0 position (10_state.md R26). -/
def longWord (l : Option Nat) : Nat :=
  match l with
  | none => 0
  | some k => 2 ^ 31 + k % 2 ^ 31

/-- `STAGE` as a number (10_state.md R17). -/
def Stage.num : Stage → Nat
  | .created => 0
  | .initialized => 1
  | .ongoing => 2
  | .ending => 3

/-- Pack the four frame flags as `CFG_FLAGS` has them (10_state.md R15, R16). -/
def Latched.flagsByte (p : Latched) : Nat :=
  p.contentSizeFlag.toNat + 2 * p.checksumFlag.toNat + 4 * p.noDictIDFlag.toNat + 8 * p.ldmEnable.toNat

/-- `STATUS` as a word (10_state.md R14). -/
def Status.word (t : Status) : Nat := t.code.toNat + 256 * t.fatal.toNat + 512 * t.unspec.toNat

/-- A host read: the register's value, zero-extended; "a register number this file does not define returns 0"
(10_state.md R13). -/
def State.readReg (s : State) (n : Nat) : DWord :=
  match n with
  | 0 => s.cmd.setWidth 64
  | 1 => BitVec.ofNat 64 s.status.word
  | 2 => s.op0
  | 3 => s.op1
  | 4 => s.op2
  | 5 => s.op3
  | 6 => s.res0
  | 7 => s.res1
  | 8 => BitVec.ofNat 64 s.stage.num
  | 16 => s.cfg.windowLog.setWidth 64
  | 17 => s.cfg.hashLog.setWidth 64
  | 18 => s.cfg.chainLog.setWidth 64
  | 19 => s.cfg.searchLog.setWidth 64
  | 20 => s.cfg.minMatch.setWidth 64
  | 21 => s.cfg.targetLength.setWidth 64
  | 22 => s.cfg.strategy.setWidth 64
  | 23 => s.cfg.flags.setWidth 64
  | 24 => s.cfg.pledged
  | 25 => s.cfg.ldmHashLog.setWidth 64
  | 26 => s.cfg.ldmBucketLog.setWidth 64
  | 27 => s.cfg.ldmMinMatch.setWidth 64
  | 28 => s.cfg.ldmRateLog.setWidth 64
  | 32 => s.w.base
  | 33 => s.w.dictBase
  | 34 => s.w.nextSrc
  | 35 => s.w.dictLimit.setWidth 64
  | 36 => s.w.lowLimit.setWidth 64
  | 37 => s.ms.nextToUpdate.setWidth 64
  | 38 => s.ms.nextToUpdate3.setWidth 64
  | 39 => s.ms.loadedDictEnd.setWidth 64
  | 40 => BitVec.ofNat 64 s.ms.dmsAttached.toNat
  | 41 => BitVec.ofNat 64 s.seq.seqs.length
  | 42 => BitVec.ofNat 64 s.seq.lit.length
  | 43 => BitVec.ofNat 64 (longWord s.seq.longLit)
  | 44 => BitVec.ofNat 64 (longWord s.seq.longMatch)
  | 45 => s.dictID.setWidth 64
  | 46 => s.consumed
  | 47 => BitVec.ofNat 64 s.prevSel.toNat
  | 48 => BitVec.ofNat 64 s.isFirstBlock.toNat
  | 64 => s.p.windowLog.setWidth 64
  | 65 => s.p.hashLog.setWidth 64
  | 66 => s.p.chainLog.setWidth 64
  | 67 => s.p.searchLog.setWidth 64
  | 68 => s.p.minMatch.setWidth 64
  | 69 => s.p.targetLength.setWidth 64
  | 70 => s.p.strategy.setWidth 64
  | 71 => BitVec.ofNat 64 s.p.flagsByte
  | 72 => s.p.pledged
  | 73 => s.p.ldmHashLog.setWidth 64
  | 74 => s.p.ldmBucketLog.setWidth 64
  | 75 => s.p.ldmMinMatch.setWidth 64
  | 76 => s.p.ldmRateLog.setWidth 64
  | _ => 0

/-- A host write to any register but `CMD`: the low bits at the register's width (10_state.md R15); a read-only or undefined
number ignores it (R13). -/
def State.writeReg (s : State) (n : Nat) (v : DWord) : State :=
  match n with
  | 2 => { s with op0 := v }
  | 3 => { s with op1 := v }
  | 4 => { s with op2 := v }
  | 5 => { s with op3 := v }
  | 16 => { s with cfg := { s.cfg with windowLog := v.setWidth 8 } }
  | 17 => { s with cfg := { s.cfg with hashLog := v.setWidth 8 } }
  | 18 => { s with cfg := { s.cfg with chainLog := v.setWidth 8 } }
  | 19 => { s with cfg := { s.cfg with searchLog := v.setWidth 8 } }
  | 20 => { s with cfg := { s.cfg with minMatch := v.setWidth 8 } }
  | 21 => { s with cfg := { s.cfg with targetLength := v.setWidth 32 } }
  | 22 => { s with cfg := { s.cfg with strategy := v.setWidth 8 } }
  | 23 => { s with cfg := { s.cfg with flags := v.setWidth 8 } }
  | 24 => { s with cfg := { s.cfg with pledged := v } }
  | 25 => { s with cfg := { s.cfg with ldmHashLog := v.setWidth 8 } }
  | 26 => { s with cfg := { s.cfg with ldmBucketLog := v.setWidth 8 } }
  | 27 => { s with cfg := { s.cfg with ldmMinMatch := v.setWidth 16 } }
  | 28 => { s with cfg := { s.cfg with ldmRateLog := v.setWidth 8 } }
  | _ => s

end Sys2Proof.Machine
end

