-- ==== Sys2Proof/Machine/Flags.lean ====
section
/-! DEFINITION. The flags of the machine: the gates of `STATUS.fatal` and `STATUS.unspec` and of the stage
(60_exceptions.md R327, R329, R330, 30_encoding.md R62), and the frame flags of `CFG_FLAGS` (10_state.md R15). The engine
has no carry, zero or overflow flag (10_state.md R14). -/

namespace Sys2Proof.Machine

open Sys2Proof

/-- Check 2 of R327: the fault gate, from which only DBG_READ is exempt (R329). -/
def gateFatal (s : State) (k : Done) : Done := if s.status.fatal then .err .generic s else k

/-- Check 3 of R327: the lost-frame gate (R330). -/
def gateUnspec (s : State) (k : Done) : Done := if s.status.unspec then .err .stageWrong s else k

/-- Check 4 of R327: the stage. -/
def gateStage (legal : Bool) (s : State) (k : Done) : Done := if legal then k else .err .stageWrong s

/-- Stages I and O of R62. -/
def Stage.isIO : Stage → Bool
  | .initialized => true
  | .ongoing => true
  | _ => false

/-- Checks 2 to 4 of R327 for a command legal in a set of stages and subject to both gates. -/
def gated (legal : Bool) (s : State) (k : Done) : Done := gateFatal s (gateUnspec s (gateStage legal s k))

/-- Checks 2 to 4 for a unit command: stages I and O (R62). -/
def gatedIO (s : State) (k : Done) : Done := gated s.stage.isIO s k

/-- The frame flags of `CFG_FLAGS`: bits 0 to 3 (10_state.md R15). -/
def CfgRegs.contentSizeFlag (c : CfgRegs) : Bool := c.flags.getLsbD 0
def CfgRegs.checksumFlag (c : CfgRegs) : Bool := c.flags.getLsbD 1
def CfgRegs.noDictIDFlag (c : CfgRegs) : Bool := c.flags.getLsbD 2
def CfgRegs.ldmEnable (c : CfgRegs) : Bool := c.flags.getLsbD 3

/-- The history is live: some command the two gates and the stage let through can still read the window
(70_reset_and_hazards.md R356 duty 2: "while it is reachable"). -/
def State.windowLive (s : State) : Bool := s.stage.isIO && !s.status.fatal && !s.status.unspec

end Sys2Proof.Machine
end

