-- ==== Sys2Proof/Machine/History.lean ====
section
/-! DEFINITION. The history view and what reads through it: HistByte, Key, MatchLen, the hash (42_block_matcher.md R140, R142,
R145, R146, R147, R149; 41_tables.md R113; 20_memory.md R41). -/

namespace Sys2Proof.Machine

open Sys2Proof

/-! ## HASH -/

/-- The default HASH (41_tables.md R113). -/
def hashPreset (key n hBits : Nat) : Nat :=
  match n with
  | 3 => (key * 2 ^ 8 % 2 ^ 32 * 506832829 % 2 ^ 32) >>> (32 - hBits)
  | 4 => (key * 2654435761 % 2 ^ 32) >>> (32 - hBits)
  | 5 => (key * 2 ^ 24 % 2 ^ 64 * 889523592379 % 2 ^ 64) >>> (64 - hBits)
  | 6 => (key * 2 ^ 16 % 2 ^ 64 * 227718039650203 % 2 ^ 64) >>> (64 - hBits)
  | 7 => (key * 2 ^ 8 % 2 ^ 64 * 58295818150454627 % 2 ^ 64) >>> (64 - hBits)
  | _ => (key * 0xCF1BBCDCB7A56463 % 2 ^ 64) >>> (64 - hBits)

/-- `HASH(key, n, hBits)` of the machine: "a total function into `[0, 2^hBits)`" (41_tables.md R113, 92_eei_decisions.md
section 2). -/
def hashOf (f : Config.HashFn) (key n hBits : Nat) : Nat :=
  match f with
  | .preset => hashPreset key n hBits
  | .other k => Config.hashOther k key n hBits % 2 ^ hBits

/-! ## The view -/

/-- The history modes of 42_block_matcher.md R145. -/
inductive HistMode where
  | plain
  | ext
  | dms
  deriving DecidableEq, Repr

/-- The history view, "a function of the state, evaluated at the entry of every table command and of `BlkMatch`"
(42_block_matcher.md R145), with the parameters and the dictionary tables a matcher reads. It lives inside one command. -/
structure View where
  /-- `HistByte` (R140). -/
  byte : Nat → Byte
  /-- `W.lowLimit`. -/
  low : Nat
  /-- `histLow` (R145). -/
  histLow : Nat
  mode : HistMode
  /-- `dmsDelta` (R145). -/
  dmsDelta : Nat
  p : Latched
  hash : Config.HashFn
  dms : DmsBank

/-- `SrcByte(a)` (00_scope.md section 5). -/
def State.srcByte (s : State) (a : Nat) : Byte := s.mem.read a

/-- `histMode` (R145). -/
def State.histMode (s : State) : HistMode :=
  if s.w.lowLimit.toNat < s.w.dictLimit.toNat then .ext
  else if s.ms.dmsAttached then .dms
  else .plain

/-- `dmsDelta` (R145). -/
def State.dmsDelta (s : State) : Nat := s.w.dictLimit.toNat - s.dms.endIdx.toNat

/-- `histLow` (R145). -/
def State.histLow (s : State) : Nat :=
  match s.histMode with
  | .dms => s.dms.w.lowLimit.toNat + s.dmsDelta
  | _ => s.w.lowLimit.toNat

/-- `HistByte(v)` (R140). Outside the readable indices the spec says "not defined"; there the byte is a free value (log 15). -/
def State.histByte (s : State) (v : Nat) : Byte :=
  if s.w.dictLimit.toNat ≤ v ∧ v < s.cur then s.srcByte (addA s.impl.addrW s.w.base.toNat v)
  else if s.histMode = .ext ∧ s.w.lowLimit.toNat ≤ v ∧ v < s.w.dictLimit.toNat then
    s.srcByte (addA s.impl.addrW s.w.dictBase.toNat v)
  else if s.histMode = .dms ∧ s.histLow ≤ v ∧ v < s.w.dictLimit.toNat then
    s.srcByte (addA s.impl.addrW s.dms.w.base.toNat (v - s.dmsDelta))
  else Config.freeBits 8 s.freeCtr v

/-- Evaluate the history view (R145). -/
def State.view (s : State) : View :=
  { byte := s.histByte, low := s.w.lowLimit.toNat, histLow := s.histLow, mode := s.histMode, dmsDelta := s.dmsDelta,
    p := s.p, hash := s.impl.hash, dms := s.dms }

/-! ## Keys, matches, repeat offsets -/

/-- `Key(v, n)` over a byte reader: the little-endian value of `n` bytes (20_memory.md R41). -/
def keyOf (byte : Nat → Byte) : Nat → Nat → Nat
  | _, 0 => 0
  | v, n + 1 => (byte v).toNat + 256 * keyOf byte (v + 1) n

def View.key (V : View) (v n : Nat) : Nat := keyOf V.byte v n

/-- `Slot(v, n, hBits) = HASH(Key(v, n), n, hBits)` (41_tables.md R113). -/
def View.slot (V : View) (v n hBits : Nat) : Nat := hashOf V.hash (V.key v n) n hBits

/-- The number of equal bytes at `a` and `b`, at most `fuel`. -/
def matchCount (byte : Nat → Byte) : Nat → Nat → Nat → Nat
  | 0, _, _ => 0
  | fuel + 1, a, b => if byte a = byte b then matchCount byte fuel (a + 1) (b + 1) + 1 else 0

/-- `MatchLen(ip, m, e)` (42_block_matcher.md R142). -/
def View.matchLen (V : View) (ip m e : Nat) : Nat := matchCount V.byte (e - ip) ip m

/-- `RepOk(off, at)`: `off > 0 and off <= at - histLow` (42_block_matcher.md R147). -/
def View.repOk (V : View) (off pos : Nat) : Bool := decide (0 < off ∧ off + V.histLow ≤ pos)

/-- `RepOk` and the four bytes at the repeat position equal: the test of a repeat match at `pos`. -/
def View.repHit (V : View) (off pos : Nat) : Bool :=
  V.repOk off pos && decide (V.key (pos - off) 4 = V.key pos 4)

/-- `CatchUp(ip, v, anchor, L)` (42_block_matcher.md R149): how many bytes the match grows backward. -/
def View.catchUp (V : View) (anchor : Nat) : Nat → Nat → Nat → Nat
  | 0, _, _ => 0
  | fuel + 1, ip, v =>
    if anchor < ip ∧ V.histLow < v ∧ V.byte (ip - 1) = V.byte (v - 1) then V.catchUp anchor fuel (ip - 1) (v - 1) + 1 else 0

/-- `Park(ip, rep)` (42_block_matcher.md R147): the pair of repeat offsets and the parked one. -/
def View.park (V : View) (ip : Nat) (rep : Reps) : Nat × Nat × Nat :=
  let o1 := rep.r0.toNat
  let o2 := rep.r1.toNat
  if V.mode = .plain then
    let maxRep := ip - V.histLow
    let saved2 := if o2 > maxRep then o2 else 0
    let saved := if o1 > maxRep then o1 else saved2
    (if o1 > maxRep then 0 else o1, if o2 > maxRep then 0 else o2, saved)
  else (o1, o2, 0)

/-- `Unpark(o1, o2, saved, rep)` (42_block_matcher.md R147); `rep[2]` is left as it was. -/
def unpark (o1 o2 saved : Nat) (rep : Reps) : Reps :=
  { rep with
    r0 := word32 (if o1 ≠ 0 then o1 else saved)
    r1 := word32 (if o2 ≠ 0 then o2 else saved) }

end Sys2Proof.Machine
end

