-- ==== Sys2Proof/Machine/Window.lean ====
section
/-! DEFINITION. The window and its four commands: append, enforceMaxDistance, needsOverflowCorrection, correctOverflow
(40_window.md), with the table half of a correction (41_tables.md R131). -/

namespace Sys2Proof.Machine

open Sys2Proof

/-! ## append -/

/-- The non-contiguous half of `AppendW` (R92): the old prefix becomes the external dictionary. `dist` is below `2^32` by
the caller's precondition (log 14). -/
def Window.openFresh (aw ctr : Nat) (w : Window) (src : Nat) : Window :=
  let dist := w.cur aw
  let low := if dist - w.dictLimit.toNat < Config.hashRead then dist else w.dictLimit.toNat
  { w with
    lowLimit := fit 32 ctr 0 low
    dictLimit := fit 32 ctr 1 dist
    dictBase := w.base
    base := BitVec.ofNat 64 (subA aw src dist) }

/-- The last half of `AppendW` (R92): take the bytes in, and drop what they overlap of the external dictionary. -/
def Window.extend (aw ctr : Nat) (w : Window) (src n : Nat) : Window :=
  let extLo := addA aw w.dictBase.toNat w.lowLimit.toNat
  let extHi := addA aw w.dictBase.toNat w.dictLimit.toNat
  let high := subA aw (src + n) w.dictBase.toNat
  { w with
    nextSrc := BitVec.ofNat 64 ((src + n) % 2 ^ aw)
    lowLimit := if src + n > extLo ∧ src < extHi then
        (if high > w.dictLimit.toNat then w.dictLimit else fit 32 ctr 2 high)
      else w.lowLimit }

/-- `AppendW(w, src, n)` (R92): the new window and the contiguous bit. -/
def Window.append (aw ctr : Nat) (w : Window) (src n : Nat) : Window × Bool :=
  if n = 0 then (w, true)
  else if src = w.nextSrc.toNat then (w.extend aw ctr src n, true)
  else ((w.openFresh aw ctr src).extend aw ctr src n, false)

/-- What a non-contiguous append does to the Match State (R91), with the detachment of R102. -/
def MatchState.freshPrefix (m : MatchState) (dictLimit : Word) : MatchState :=
  if m.dmsAttached ∧ dictLimit ≠ m.loadedDictEnd then
    { m with nextToUpdate := dictLimit, dmsAttached := false, loadedDictEnd := 0 }
  else { m with nextToUpdate := dictLimit }

/-- `WinAppend(src, n)` (R91): the state after and the contiguous bit. -/
def winAppend (s : State) (src n : Nat) : State × Bool :=
  let a := s.w.append s.impl.addrW s.freeCtr src n
  let s1 : State := { s with w := a.1, ms := if a.2 then s.ms else s.ms.freshPrefix a.1.dictLimit }
  let s2 : State :=
    if s.p.ldmEnable then { s1 with ldm := { s1.ldm with w := (s1.ldm.w.append s.impl.addrW s.freeCtr src n).1 } } else s1
  (s2, a.2)

/-- `WIN_APPEND` (R91). -/
def execWinAppend (s : State) : Host.Outcome State Fault Refusal :=
  (gatedIO s <|
    require (s.rangeOk s.op0 s.op1) .paramInvalid s <|
    require (decide (s.cur + s.op1.toNat < 2 ^ 32)) .paramInvalid s <|
    let r := winAppend s s.op0.toNat s.op1.toNat
    .ok (r.1.setRes0 r.2.toNat)).outcome

/-! ## enforceMaxDistance -/

/-- The test of `EnforceMaxDistW` (R94). -/
def maxDistFires (endIdx maxDist dictEnd : Nat) : Bool := decide (endIdx > maxDist + dictEnd)

/-- `EnforceMaxDistW` (R94) when it fires. -/
def Window.dropBelow (ctr : Nat) (w : Window) (newLow : Nat) : Window :=
  let low := if w.lowLimit.toNat < newLow then fit 32 ctr 3 newLow else w.lowLimit
  { w with lowLimit := low, dictLimit := if w.dictLimit.toNat < low.toNat then low else w.dictLimit }

/-- `EnforceMaxDistW(w, endIdx, maxDist, dictEnd)` (R94): the window after. -/
def Window.enforceMaxDist (ctr : Nat) (w : Window) (endIdx maxDist dictEnd : Nat) : Window :=
  if maxDistFires endIdx maxDist dictEnd then w.dropBelow ctr (endIdx - maxDist) else w

/-- `WinEnforceMaxDist(end, maxDist)` (R93), on the end's index. -/
def winEnforceMaxDist (s : State) (endIdx maxDist : Nat) : State :=
  if maxDistFires endIdx maxDist s.ms.loadedDictEnd.toNat then
    { s with
      w := s.w.enforceMaxDist s.freeCtr endIdx maxDist s.ms.loadedDictEnd.toNat
      ms := { s.ms with loadedDictEnd := 0, dmsAttached := false } }
  else s

/-- `WIN_ENFORCE_MAXDIST` (R93). -/
def execWinEnforceMaxdist (s : State) : Host.Outcome State Fault Refusal :=
  (gatedIO s <|
    require (s.posOk s.op0) .paramInvalid s <|
    .ok (winEnforceMaxDist s (s.idx s.op0.toNat) s.op1.toNat)).outcome

/-! ## needsOverflowCorrection -/

/-- `NeedsCorrectionW` (R95) against the latched parameters. -/
def Latched.needsCorrection (p : Latched) (endIdx : Nat) : Bool := decide (endIdx > p.idxCeiling)

/-- `WIN_NEEDS_CORRECTION` (R95). -/
def execWinNeedsCorrection (s : State) : Host.Outcome State Fault Refusal :=
  (gatedIO s <|
    require (s.posOk s.op0) .paramInvalid s <|
    .ok (s.setRes0 (s.p.needsCorrection (s.idx s.op0.toNat)).toNat)).outcome

/-! ## correctOverflow -/

/-- `newCur` of `CorrectW` (R99): where the current position lands. -/
def newCurOf (cycleLog maxDist curIdx : Nat) : Nat :=
  (if curIdx % 2 ^ cycleLog = 0 then 2 ^ cycleLog else curIdx % 2 ^ cycleLog) + maxDist

/-- The correction `corr` of `CorrectW` (R99). -/
def corrOf (cycleLog maxDist curIdx : Nat) : Nat := curIdx - newCurOf cycleLog maxDist curIdx

/-- A limit after a correction: it never becomes 0 (R99). -/
def lowered (limit : Word) (corr : Nat) : Word :=
  if limit.toNat ≤ corr then 1 else BitVec.ofNat 32 (limit.toNat - corr)

/-- The window half of `CorrectW` (R99). -/
def Window.shift (aw : Nat) (w : Window) (corr : Nat) : Window :=
  { w with
    base := BitVec.ofNat 64 (addA aw w.base.toNat corr)
    dictBase := BitVec.ofNat 64 (addA aw w.dictBase.toNat corr)
    lowLimit := lowered w.lowLimit corr
    dictLimit := lowered w.dictLimit corr }

/-- A table entry after an index reduction (41_tables.md R131). -/
def reduceEntry (corr : Nat) (e : Word) : Word :=
  if e.toNat < corr then 0 else BitVec.ofNat 32 (e.toNat - corr)

/-- The same, keeping the mark of a tree table (41_tables.md R131). -/
def reduceTreeEntry (corr : Nat) (e : Word) : Word :=
  if e.toNat = Config.unsortedMark then e else reduceEntry corr e

/-- Reduce every slot of a table; an empty slot stays empty. -/
def Table.reduce (t : Table) (f : Word → Word) : Table := { t with cells := sparseMap 0 f t.cells }

/-- `TabReduce(corr)` (41_tables.md R131). -/
def MatchState.reduce (m : MatchState) (layout : Layout) (corr : Nat) : MatchState :=
  { m with
    hashTable := m.hashTable.reduce (reduceEntry corr)
    hashTable3 := m.hashTable3.reduce (reduceEntry corr)
    chainTable := m.chainTable.reduce (if layout = .binaryTree then reduceTreeEntry corr else reduceEntry corr) }

/-- `satsub` at a register (00_scope.md section 5). -/
def satsubWord (v : Word) (n : Nat) : Word := BitVec.ofNat 32 (v.toNat - n)

/-- `WinCorrectOverflow(cycleLog, maxDist, src)` (R98), on the index of `src`: the state after; the correction is
`corrOf cycleLog maxDist curIdx`. -/
def winCorrectOverflow (s : State) (cycleLog maxDist curIdx : Nat) : State :=
  let corr := corrOf cycleLog maxDist curIdx
  { s with
    w := s.w.shift s.impl.addrW corr
    ms := { (s.ms.reduce s.p.layout corr) with
      nextToUpdate := satsubWord s.ms.nextToUpdate corr
      nextToUpdate3 := satsubWord s.ms.nextToUpdate3 corr
      loadedDictEnd := 0
      dmsAttached := false } }

/-- `WIN_CORRECT_OVERFLOW` (R98). -/
def execWinCorrectOverflow (s : State) : Host.Outcome State Fault Refusal :=
  (gatedIO s <|
    require (decide (s.op0.toNat ≤ 30)) .paramInvalid s <|
    require (s.posOk s.op2) .paramInvalid s <|
    require (decide (newCurOf s.op0.toNat s.op1.toNat (s.idx s.op2.toNat) < s.idx s.op2.toNat)) .paramInvalid s <|
    .ok ((winCorrectOverflow s s.op0.toNat s.op1.toNat (s.idx s.op2.toNat)).setRes0
      (corrOf s.op0.toNat s.op1.toNat (s.idx s.op2.toNat)))).outcome

end Sys2Proof.Machine
end

