-- ==== Sys2Proof/Machine/Tables.lean ====
section
/-! DEFINITION. The four table layouts: ingestion, lookup, bulk fill, and their commands (41_tables.md). Every procedure here
works on indices, over a history view and a Match State, so the same text fills the engine's tables and the dictionary
bank's. -/

namespace Sys2Proof.Machine

open Sys2Proof

/-! ## Entry of a table command (R117) -/

/-- `nextToUpdate <- max(nextToUpdate, W.lowLimit)`: "never catch up through dropped history". -/
def MatchState.raiseNext (m : MatchState) (low : Nat) : MatchState :=
  { m with nextToUpdate := word32 (max m.nextToUpdate.toNat low) }

/-- The same for `nextToUpdate3` (R126). -/
def MatchState.raiseNext3 (m : MatchState) (low : Nat) : MatchState :=
  { m with nextToUpdate3 := word32 (max m.nextToUpdate3.toNat low) }

/-- `TabEntry` (R117) after the gates: the command's layout, a position (and end) in the prefix, room for a hash read; then
the work, given the position's and the end's indices. -/
def tabEntry (legal : Bool) (s : State) (p e : Nat) (ok : Bool) (k : Done) : Done :=
  require legal .paramInvalid s <| require ok .paramInvalid s <| require (decide (p + Config.hashRead ≤ e)) .paramInvalid s k

/-- The Match State a table command works on (R117). -/
def State.entryMs (s : State) : MatchState := s.ms.raiseNext s.w.lowLimit.toNat

/-! ## Single-hash (R116) -/

def MatchState.setHash (m : MatchState) (i v : Nat) : MatchState := { m with hashTable := m.hashTable.set i v }
def MatchState.setChain (m : MatchState) (i v : Nat) : MatchState := { m with chainTable := m.chainTable.set i v }

/-- The slot of the short hash in `hashTable`. -/
def View.shortSlot (V : View) (p : Nat) : Nat := V.slot p V.p.mls V.p.hashLog.toNat

/-- `H1InsFind(p)` (R116): the tables after, and the previous occupant. -/
def h1InsFind (V : View) (m : MatchState) (p : Nat) : MatchState × Nat :=
  (m.setHash (V.shortSlot p) p, m.hashTable.get (V.shortSlot p))

/-- `H1_INSFIND` (R116). -/
def execH1Insfind (s : State) : Host.Outcome State Fault Refusal :=
  (gatedIO s <|
    tabEntry (decide (s.p.layout = .singleHash)) s (s.idx s.op0.toNat) s.cur (s.posOk s.op0) <|
    let r := h1InsFind s.view s.entryMs (s.idx s.op0.toNat)
    .ok ({ s with ms := r.1 }.setRes0 r.2)).outcome

/-! ## Dual-hash (R118) -/

/-- The slot of the long hash in `hashTable`. -/
def View.dualLong (V : View) (p : Nat) : Nat := V.slot p 8 V.p.hashLog.toNat
/-- The slot of the short hash in `chainTable`. -/
def View.dualShort (V : View) (p : Nat) : Nat := V.slot p V.p.mls V.p.chainLog.toNat

/-- Insert a position in both tables of the dual-hash layout. -/
def dhInsert (V : View) (m : MatchState) (p : Nat) : MatchState :=
  (m.setHash (V.dualLong p) p).setChain (V.dualShort p) p

/-- `DhInsFind(p)` (R118): the tables after, and the previous occupants of the long and of the short slot. -/
def dhInsFind (V : View) (m : MatchState) (p : Nat) : MatchState × Nat × Nat :=
  (dhInsert V m p, m.hashTable.get (V.dualLong p), m.chainTable.get (V.dualShort p))

/-- `DH_INSFIND` (R118). -/
def execDhInsfind (s : State) : Host.Outcome State Fault Refusal :=
  (gatedIO s <|
    tabEntry (decide (s.p.layout = .dualHash)) s (s.idx s.op0.toNat) s.cur (s.posOk s.op0) <|
    let r := dhInsFind s.view s.entryMs (s.idx s.op0.toNat)
    .ok (({ s with ms := r.1 }.setRes0 r.2.1).setRes1 r.2.2)).outcome

/-! ## Hash-chain (R119 to R121) -/

/-- Push position `idx` on its chain (R120). -/
def hcInsert (V : View) (m : MatchState) (idx : Nat) : MatchState :=
  let h := V.shortSlot idx
  (m.setChain (idx % 2 ^ V.p.chainLog.toNat) (m.hashTable.get h)).setHash h idx

/-- Insert `n` positions from `idx` up, in ascending order. -/
def insertRun (ins : MatchState → Nat → MatchState) : Nat → Nat → MatchState → MatchState
  | 0, _, m => m
  | n + 1, idx, m => insertRun ins n (idx + 1) (ins m idx)

/-- Insert every position of `[nextToUpdate, p)`, then move `nextToUpdate` up to `p` (R120, R124). -/
def catchUpTo (ins : MatchState → Nat → MatchState) (m : MatchState) (p : Nat) : MatchState :=
  (insertRun ins (p - m.nextToUpdate.toNat) m.nextToUpdate.toNat m).raiseNext p

/-- `HcInsFind(p)` (R120): the tables after, and the head of the chain. -/
def hcInsFind (V : View) (m : MatchState) (p : Nat) : MatchState × Nat :=
  let m' := catchUpTo (hcInsert V) m p
  (m', m'.hashTable.get (V.shortSlot p))

/-- `HC_INSFIND` (R120). -/
def execHcInsfind (s : State) : Host.Outcome State Fault Refusal :=
  (gatedIO s <|
    tabEntry (decide (s.p.layout = .hashChain)) s (s.idx s.op0.toNat) s.cur (s.posOk s.op0) <|
    let r := hcInsFind s.view s.entryMs (s.idx s.op0.toNat)
    .ok ({ s with ms := r.1 }.setRes0 r.2)).outcome

/-- The best match of a search: its length and its index. -/
structure Best where
  len : Nat
  idx : Nat
  deriving DecidableEq, Repr

/-- No match. -/
def Best.none : Best := { len := 0, idx := 0 }

/-- Ties go to the candidate met first (R121). -/
def Best.improve (b : Best) (len idx : Nat) : Best := if len > b.len then { len := len, idx := idx } else b

/-- One walk of `HcSearch` (R121): candidates `c` with `lo <= c < hi`, read at `c + delta`, linked by `next`, down to
`last`, at most the given number; what is left of the number, and the best match. -/
def hcWalk (V : View) (p e lo hi delta last : Nat) (next : Nat → Nat) : Nat → Nat → Best → Nat × Best
  | 0, _, b => (0, b)
  | k + 1, c, b =>
    if lo ≤ c ∧ c < hi then
      let b' := if V.key (c + delta) 4 = V.key p 4 then b.improve (V.matchLen p (c + delta) e) (c + delta) else b
      if p + b'.len = e ∨ c ≤ last then (k, b') else hcWalk V p e lo hi delta last next k (next c) b'
    else (k + 1, b)

/-- The index below which a walk through a table that wraps after `size` positions stops (R119). -/
def walkFloor (p size : Nat) : Nat := if p > size then p - size else 0

/-- `Slot(p, DMS.mls, DMS.P.hashLog)`: "the bytes at p, the dictionary's parameters". -/
def View.dmsSlot (V : View) (p : Nat) : Nat := V.slot p V.dms.p.mls V.dms.p.hashLog.toNat

/-- The dictionary half of `HcSearch` (R121). -/
def hcDmsWalk (V : View) (p e : Nat) (r : Nat × Best) : Best :=
  if V.mode = .dms ∧ 0 < r.1 ∧ ¬ (3 < r.2.len ∧ p + r.2.len = e) then
    (hcWalk V p e V.dms.w.lowLimit.toNat V.dms.endIdx.toNat V.dmsDelta
      (walkFloor V.dms.endIdx.toNat (2 ^ V.dms.p.chainLog.toNat))
      (fun c => V.dms.chainTable.get (c % 2 ^ V.dms.p.chainLog.toNat)) r.1 (V.dms.hashTable.get (V.dmsSlot p)) r.2).2
  else r.2

/-- `HcSearch(p, e)` (R121): the tables after, and the best match (`Best.none` when none of at least 4 bytes). -/
def hcSearch (V : View) (m : MatchState) (p e : Nat) : MatchState × Best :=
  let r := hcInsFind V m p
  let b := hcDmsWalk V p e (hcWalk V p e V.low p 0 (walkFloor p (2 ^ V.p.chainLog.toNat))
    (fun c => r.1.chainTable.get (c % 2 ^ V.p.chainLog.toNat)) (2 ^ V.p.searchLog.toNat) r.2 { len := 3, idx := 0 })
  (r.1, if b.len ≤ 3 then .none else b)

/-- `HC_SEARCH` (R121). -/
def execHcSearch (s : State) : Host.Outcome State Fault Refusal :=
  (gatedIO s <|
    tabEntry (decide (s.p.layout = .hashChain)) s (s.idx s.op0.toNat) (s.idx s.op1.toNat) (s.posOk s.op0 && s.posOk s.op1) <|
    let r := hcSearch s.view s.entryMs (s.idx s.op0.toNat) (s.idx s.op1.toNat)
    .ok (({ s with ms := r.1 }.setRes0 r.2.len).setRes1 r.2.idx)).outcome

/-! ## Binary tree (R122 to R125) -/

/-- `btMask` (R111). -/
def treeMask (p : Latched) : Nat := 2 ^ (p.chainLog.toNat - 1) - 1

/-- The first of a position's two child slots (R111). -/
def childSlot (p : Latched) (i : Nat) : Nat := 2 * (i % 2 ^ (p.chainLog.toNat - 1))

/-- The walk of `BtInsert` (R123): `smaller` and `larger` are the two child slots still open; the tree table after, the best
match met, and the compares left. A slot still open when the walk ends is zeroed. -/
def btWalk (V : View) (p e btLow : Nat) : Nat → Table → Nat → Nat → Nat → Best → Table × Best × Nat
  | 0, bt, _, smaller, larger, b => ((bt.set smaller 0).set larger 0, b, 0)
  | k + 1, bt, c, smaller, larger, b =>
    if V.low ≤ c ∧ c < p then
      let L := V.matchLen p c e
      let b' := b.improve L c
      if p + L = e then ((bt.set smaller 0).set larger 0, b', k)
      else if (V.byte (c + L)).toNat < (V.byte (p + L)).toNat then
        let bt' := bt.set smaller c
        if c ≤ btLow then (bt'.set larger 0, b', k)
        else btWalk V p e btLow k bt' (bt'.get (childSlot V.p c + 1)) (childSlot V.p c + 1) larger b'
      else
        let bt' := bt.set larger c
        if c ≤ btLow then (bt'.set smaller 0, b', k)
        else btWalk V p e btLow k bt' (bt'.get (childSlot V.p c)) smaller (childSlot V.p c) b'
    else ((bt.set smaller 0).set larger 0, b, k + 1)

/-- `BtInsert(p, e)` (R123): the tables after, the best match met, the compares left. -/
def btInsert (V : View) (m : MatchState) (p e : Nat) : MatchState × Best × Nat :=
  let h := V.shortSlot p
  let r := btWalk V p e (p - treeMask V.p) (2 ^ V.p.searchLog.toNat) m.chainTable (m.hashTable.get h)
    (childSlot V.p p) (childSlot V.p p + 1) .none
  ({ (m.setHash h p) with chainTable := r.1 }, r.2)

/-- `BtUpdate(p, e)` (R124). -/
def btUpdate (V : View) (m : MatchState) (p e : Nat) : MatchState :=
  catchUpTo (fun m idx => (btInsert V m idx e).1) m p

/-- `BT_UPDATE` (R124). -/
def execBtUpdate (s : State) : Host.Outcome State Fault Refusal :=
  (gatedIO s <|
    tabEntry (decide (s.p.layout = .binaryTree)) s (s.idx s.op0.toNat) (s.idx s.op1.toNat) (s.posOk s.op0 && s.posOk s.op1) <|
    .ok { s with ms := btUpdate s.view s.entryMs (s.idx s.op0.toNat) (s.idx s.op1.toNat) }).outcome

/-- The walk of `BtSearch` through the dictionary's tree, which is "only read, never re-hung" (R125). -/
def btDmsWalk (V : View) (p e low stop : Nat) : Nat → Nat → Best → Best
  | 0, _, b => b
  | k + 1, c, b =>
    if V.dms.w.lowLimit.toNat ≤ c ∧ c < stop then
      let v := c + V.dmsDelta
      let L := V.matchLen p v e
      let b' := b.improve L v
      if p + L = e ∨ c ≤ low then b'
      else if (V.byte (v + L)).toNat < (V.byte (p + L)).toNat then
        btDmsWalk V p e low stop k (V.dms.chainTable.get (childSlot V.dms.p c + 1)) b'
      else btDmsWalk V p e low stop k (V.dms.chainTable.get (childSlot V.dms.p c)) b'
    else b

/-- `dBtLow` (R125). -/
def dmsTreeFloor (d : DmsBank) : Nat :=
  if treeMask d.p ≥ d.endIdx.toNat - d.w.lowLimit.toNat then d.w.lowLimit.toNat else d.endIdx.toNat - treeMask d.p

/-! ### The 3-byte table (R126) -/

/-- The slot of the 3-byte hash. -/
def View.slot3 (V : View) (p : Nat) : Nat := V.slot p 3 V.p.hashLog3

/-- Insert one position in the 3-byte table. -/
def h3Insert (V : View) (m : MatchState) (idx : Nat) : MatchState :=
  { m with hashTable3 := m.hashTable3.set (V.slot3 idx) idx }

/-- `H3InsFind(p)` (R126): the tables after, and the latest earlier position. -/
def h3InsFind (V : View) (m : MatchState) (p : Nat) : MatchState × Nat :=
  let m' := (insertRun (h3Insert V) (p - m.nextToUpdate3.toNat) m.nextToUpdate3.toNat m).raiseNext3 p
  (m', m'.hashTable3.get (V.slot3 p))

/-- `H3_INSFIND` (R126). -/
def execH3Insfind (s : State) : Host.Outcome State Fault Refusal :=
  (gatedIO s <|
    tabEntry (decide (0 < s.p.hashLog3)) s (s.idx s.op0.toNat) s.cur (s.posOk s.op0) <|
    let r := h3InsFind s.view (s.entryMs.raiseNext3 s.w.lowLimit.toNat) (s.idx s.op0.toNat)
    .ok ({ s with ms := r.1 }.setRes0 r.2)).outcome

/-! ### Search (R125) -/

/-- The dictionary part of `BtSearch` (R125): `r` holds the best match so far and the compares left. -/
def btDmsPart (V : View) (p e minLen : Nat) (r : Best × Nat) : Best :=
  if V.mode = .dms ∧ 0 < r.2 ∧ ¬ (minLen ≤ r.1.len ∧ p + r.1.len = e) then
    btDmsWalk V p e (dmsTreeFloor V.dms) V.dms.endIdx.toNat r.2 (V.dms.hashTable.get (V.dmsSlot p)) r.1
  else r.1

/-- The 3-byte part of `BtSearch` (R125). -/
def btShortPart (V : View) (m : MatchState) (p e : Nat) (b : Best) : MatchState × Best :=
  if V.p.minMatch.toNat = 3 ∧ b.len < 3 then
    let r := h3InsFind V m p
    if V.low ≤ r.2 ∧ r.2 < p ∧ p - r.2 < Config.hash3MaxDist ∧ 3 ≤ V.matchLen p r.2 e then
      (r.1, { len := V.matchLen p r.2 e, idx := r.2 })
    else (r.1, b)
  else (m, b)

/-- `BtSearch(p, e)` (R125): the tables after, and the best match (`Best.none` when none long enough). -/
def btSearch (V : View) (m : MatchState) (p e : Nat) : MatchState × Best :=
  if p < m.nextToUpdate.toNat then (m, .none)
  else
    let r := btInsert V (btUpdate V m p e) p e
    let minLen := if V.p.minMatch.toNat = 3 then 3 else 4
    let q := btShortPart V { r.1 with nextToUpdate := word32 (p + 1) } p e (btDmsPart V p e minLen r.2)
    (q.1, if q.2.len < minLen then .none else q.2)

/-- `BT_SEARCH` (R125). -/
def execBtSearch (s : State) : Host.Outcome State Fault Refusal :=
  (gatedIO s <|
    tabEntry (decide (s.p.layout = .binaryTree)) s (s.idx s.op0.toNat) (s.idx s.op1.toNat) (s.posOk s.op0 && s.posOk s.op1) <|
    let r := btSearch s.view s.entryMs (s.idx s.op0.toNat) (s.idx s.op1.toNat)
    .ok (({ s with ms := r.1 }.setRes0 r.2.len).setRes1 r.2.idx)).outcome

/-! ## Bulk fill (R130) -/

/-- Write a slot of `hashTable` only when it is empty: "fill holes only". -/
def MatchState.fillHole (m : MatchState) (i v : Nat) : MatchState := if m.hashTable.get i = 0 then m.setHash i v else m

/-- One stride of the single-hash fill (R130). -/
def fillSingle (V : View) (full : Bool) (m : MatchState) (p : Nat) : MatchState :=
  let m1 := m.setHash (V.shortSlot p) p
  if full then (m1.fillHole (V.shortSlot (p + 1)) (p + 1)).fillHole (V.shortSlot (p + 2)) (p + 2) else m1

/-- One stride of the dual-hash fill (R130). -/
def fillDual (V : View) (full : Bool) (m : MatchState) (p : Nat) : MatchState :=
  let m1 := (m.setChain (V.dualShort p) p).setHash (V.dualLong p) p
  if full then (m1.fillHole (V.dualLong (p + 1)) (p + 1)).fillHole (V.dualLong (p + 2)) (p + 2) else m1

/-- Strides at `p`, `p + FILL_STEP`, … while `p + FILL_STEP < lim + 2`, which is `p + FILL_STEP - 1 <= lim` (R130). -/
def strideRun (lim : Nat) (stride : MatchState → Nat → MatchState) : Nat → Nat → MatchState → MatchState
  | 0, _, m => m
  | k + 1, p, m =>
    if p + Config.fillStep < lim + 2 then strideRun lim stride k (p + Config.fillStep) (stride m p) else m

/-- `TabFill(e, loadMode)` (R130). -/
def tabFill (V : View) (m : MatchState) (e : Nat) (full : Bool) : MatchState :=
  let lim := e - Config.hashRead
  let p := m.nextToUpdate.toNat
  if e < Config.hashRead ∨ p > lim then m
  else
    let m' := match V.p.layout with
      | .singleHash => strideRun lim (fillSingle V full) (lim + 2 - p) p m
      | .dualHash => strideRun lim (fillDual V full) (lim + 2 - p) p m
      | .hashChain => (hcInsFind V m lim).1
      | .binaryTree => btUpdate V m lim e
    { m' with nextToUpdate := word32 e }

/-- `TAB_FILL` (R130). -/
def execTabFill (m : Byte) (s : State) : Host.Outcome State Fault Refusal :=
  (gatedIO s <|
    require (s.posOk s.op0) .paramInvalid s <|
    .ok { s with ms := tabFill s.view s.entryMs (s.idx s.op0.toNat) (modBit0 m) }).outcome

end Sys2Proof.Machine
end

