-- ==== Sys2Proof/Machine/SeqStore.lean ====
section
/-! DEFINITION. The Sequence Store, its four commands, the code tables, and Replay, which says what a store means
(44_sequence_store.md). -/

namespace Sys2Proof.Machine

open Sys2Proof

/-- `n` bytes of a byte reader, from `v` up. -/
def bytesFrom (byte : Nat → Byte) : Nat → Nat → List Byte
  | _, 0 => []
  | v, n + 1 => byte v :: bytesFrom byte (v + 1) n

/-! ## StoreSeq -/

/-- A stored triple (R185): the low 16 bits of each length. -/
def mkSeq (litLen offsetCode mlBase : Nat) : Seq :=
  { offset := word32 offsetCode, litLength := BitVec.ofNat 16 litLen, matchLength := BitVec.ofNat 16 mlBase }

/-- A length that needs the long flag (R188): "`> 65535`". -/
def isLong (len : Nat) : Bool := decide (len > 65535)

/-- `StoreSeq` (R188) over a byte reader: the store after, and whether it ended in `fatal(...)`, in which case what the
pseudocode did before that line is done. -/
def SeqStore.store (byte : Nat → Byte) (q : SeqStore) (litLen litIdx offsetCode mlBase : Nat) : SeqStore × Bool :=
  let q1 := { q with lit := q.lit ++ bytesFrom byte litIdx litLen }
  if isLong litLen && q.longLit.isSome then (q1, true)
  else
    let q2 := if isLong litLen then { q1 with longLit := some q.seqs.length } else q1
    if isLong mlBase && q.longMatch.isSome then (q2, true)
    else
      let q3 := if isLong mlBase then { q2 with longMatch := some q.seqs.length } else q2
      ({ q3 with seqs := q.seqs ++ [mkSeq litLen offsetCode mlBase], codesValid := false }, false)

/-- `SEQ_STORE` (R188). -/
def execSeqStore (s : State) : Host.Outcome State Fault Refusal :=
  (gatedIO s <|
    require (s.spanOk s.w s.op1 s.op0) .paramInvalid s <|
    require (decide (1 ≤ s.op2.toNat ∧ s.op2.toNat < 2 ^ 32)) .paramInvalid s <|
    require (decide (s.op0.toNat < 2 ^ 17 ∧ s.op3.toNat < 2 ^ 17)) .paramInvalid s <|
    require (decide (s.seq.seqs.length < Config.seqCap ∧ s.seq.lit.length + s.op0.toNat ≤ Config.litCap)) .paramInvalid s <|
    let r := s.seq.store s.histByte s.op0.toNat (s.idx s.op1.toNat) s.op2.toNat s.op3.toNat
    if r.2 then .err .generic { s with seq := r.1 }.setFatal else .ok { s with seq := r.1 }).outcome

/-! ## Reset and the last literals -/

/-- `SeqReset()` (R186). -/
def State.seqReset (s : State) : State := { s with seq := .empty }

/-- `SEQ_RESET` (R186). -/
def execSeqReset (s : State) : Host.Outcome State Fault Refusal :=
  (gatedIO s <| .ok s.seqReset).outcome

/-- `SeqLastLit(litIdx, n)` (R189). -/
def SeqStore.lastLit (byte : Nat → Byte) (q : SeqStore) (litIdx n : Nat) : SeqStore :=
  { q with lit := q.lit ++ bytesFrom byte litIdx n }

/-- `SEQ_LASTLIT` (R189). -/
def execSeqLastlit (s : State) : Host.Outcome State Fault Refusal :=
  (gatedIO s <|
    require (s.spanOk s.w s.op0 s.op1) .paramInvalid s <|
    require (decide (s.seq.lit.length + s.op1.toNat ≤ Config.litCap)) .paramInvalid s <|
    .ok { s with seq := s.seq.lastLit s.histByte (s.idx s.op0.toNat) s.op1.toNat }).outcome

/-! ## Codes -/

/-- `LL_CODE[0..63]` (R191). -/
def llCodeTable : List Nat :=
  [0, 1, 2, 3, 4, 5, 6, 7, 8, 9, 10, 11, 12, 13, 14, 15] ++ [16, 16, 17, 17, 18, 18, 19, 19, 20, 20, 20, 20, 21, 21, 21, 21] ++
  List.replicate 8 22 ++ List.replicate 8 23 ++ List.replicate 16 24

/-- `ML_CODE[0..127]` (R192). -/
def mlCodeTable : List Nat :=
  List.range 32 ++ [32, 32, 33, 33, 34, 34, 35, 35, 36, 36, 36, 36, 37, 37, 37, 37] ++
  List.replicate 8 38 ++ List.replicate 8 39 ++ List.replicate 16 40 ++ List.replicate 16 41 ++ List.replicate 32 42

/-- `LLCode(v)` (R191). -/
def llCode (v : Nat) : Nat := if v ≤ 63 then llCodeTable.getD v 0 else highbit v + 19

/-- `MLCode(v)`, on `v = matchLength - 3` (R192). -/
def mlCode (v : Nat) : Nat := if v ≤ 127 then mlCodeTable.getD v 0 else highbit v + 36

/-- `LL_BITS[0..35]` (R193). -/
def llBitsTable : List Nat :=
  List.replicate 16 0 ++ [1, 1, 1, 1, 2, 2, 3, 3, 4, 6, 7, 8, 9, 10, 11, 12, 13, 14, 15, 16]

/-- `ML_BITS[0..52]` (R193). -/
def mlBitsTable : List Nat :=
  List.replicate 32 0 ++ [1, 1, 1, 1, 2, 2, 3, 3, 4, 4, 5, 7, 8, 9, 10, 11, 12, 13, 14, 15, 16]

def llBits (c : Nat) : Nat := llBitsTable.getD c 0
def mlBits (c : Nat) : Nat := mlBitsTable.getD c 0

/-- The three codes of a triple before the long positions are patched (R190). -/
def Seq.codes (t : Seq) : Codes :=
  { ll := BitVec.ofNat 8 (llCode t.litLength.toNat)
    of := BitVec.ofNat 8 (highbit t.offset.toNat)
    ml := BitVec.ofNat 8 (mlCode t.matchLength.toNat) }

/-- `SEQ.longLit`, `SEQ.longMatch` name triple `k` (R185). -/
def isAt (long : Option Nat) (k : Nat) : Bool := long == some k

/-- The codes of triple `k` (R190). -/
def SeqStore.codesAt (q : SeqStore) (k : Nat) (t : Seq) : Codes :=
  { ll := if isAt q.longLit k then BitVec.ofNat 8 Config.maxLL else t.codes.ll
    of := t.codes.of
    ml := if isAt q.longMatch k then BitVec.ofNat 8 Config.maxML else t.codes.ml }

/-- The codes of the triples from number `k` on. -/
def SeqStore.codesFrom (q : SeqStore) : Nat → List Seq → List Codes
  | _, [] => []
  | k, t :: ts => q.codesAt k t :: SeqStore.codesFrom q (k + 1) ts

/-- `SeqToCodes()` (R190). -/
def SeqStore.toCodes (q : SeqStore) : SeqStore := { q with codes := q.codesFrom 0 q.seqs, codesValid := true }

/-- `SEQ_TO_CODES` (R190). -/
def execSeqToCodes (s : State) : Host.Outcome State Fault Refusal :=
  (gatedIO s <| .ok { s with seq := s.seq.toCodes }).outcome

/-! ## Replay (R197): what a store means. No command runs it. -/

/-- `LitLen(k)` (R185). -/
def SeqStore.litLen (q : SeqStore) (k : Nat) (t : Seq) : Nat := t.litLength.toNat + if isAt q.longLit k then 65536 else 0

/-- `MatchLen3(k) + 3` (R185). -/
def SeqStore.matchLen (q : SeqStore) (k : Nat) (t : Seq) : Nat :=
  t.matchLength.toNat + (if isAt q.longMatch k then 65536 else 0) + 3

/-- The offset a stored code denotes, and the three repeat offsets after it (R197). -/
def repeatStep (rep : Nat × Nat × Nat) (ll oc : Nat) : Nat × Nat × Nat × Nat :=
  if oc > 3 then (oc - 3, oc - 3, rep.1, rep.2.1)
  else
    match (oc - 1) + (if ll = 0 then 1 else 0) with
    | 0 => (rep.1, rep)
    | 1 => (rep.2.1, rep.2.1, rep.1, rep.2.2)
    | 2 => (rep.2.2, rep.2.2, rep.1, rep.2.1)
    | _ => (rep.1 - 1, rep.1 - 1, rep.1, rep.2.1)

/-- `B(i)` (R197): a byte already produced, or a byte of the history. A byte not yet produced, which an offset that comes out
0 names (stored offset 3 after no literals with `rep[0] = 1`), has no value in R197; it is a free value (log 15). -/
def replayByte (byte : Nat → Byte) (istart : Nat) (out : List Byte) (i : Nat) : Byte :=
  if i < istart then byte i else out.getD (i - istart) (Config.freeBits 8 0 i)

/-- Produce `n` bytes, each `off` back (R197): "byte by byte: may overlap itself". -/
def replayCopy (byte : Nat → Byte) (istart off : Nat) : Nat → List Byte → List Byte
  | 0, out => out
  | n + 1, out =>
    replayCopy byte istart off n (out ++ [replayByte byte istart out (istart + out.length - off)])

/-- The loop of `Replay` (R197) from triple `k` on: the bytes produced, the literals left, the repeat offsets. -/
def SeqStore.replayFrom (byte : Nat → Byte) (istart : Nat) (q : SeqStore) :
    Nat → List Seq → List Byte → List Byte → Nat × Nat × Nat → List Byte × List Byte × (Nat × Nat × Nat)
  | _, [], lits, out, rep => (out, lits, rep)
  | k, t :: ts, lits, out, rep =>
    let ll := q.litLen k t
    let r := repeatStep rep ll t.offset.toNat
    SeqStore.replayFrom byte istart q (k + 1) ts (lits.drop ll)
      (replayCopy byte istart r.1 (q.matchLen k t) (out ++ lits.take ll)) r.2

/-- `Replay(istart, rep)` (R197): the produced bytes, trailing literals included, and the repeat offsets. -/
def SeqStore.replay (byte : Nat → Byte) (istart : Nat) (q : SeqStore) (rep : Nat × Nat × Nat) :
    List Byte × (Nat × Nat × Nat) :=
  let r := q.replayFrom byte istart 0 q.seqs q.lit [] rep
  (r.1 ++ r.2.1, r.2.2)

end Sys2Proof.Machine
end

