-- ==== Sys2Proof/Machine/Matcher.lean ====
section
/-! DEFINITION. The block matchers and BLK_MATCH (42_block_matcher.md). One scan serves the four layouts: a layout supplies
what it inserts at each visited position, how it finds a match there, and what it inserts after one. -/

namespace Sys2Proof.Machine

open Sys2Proof

/-- What a matcher changes: the tables and the Sequence Store; `failed` once `StoreSeq` has ended in `fatal`, after which
nothing more happens (60_exceptions.md R329, log 18). -/
structure Work where
  ms : MatchState
  seq : SeqStore
  failed : Bool

/-- `StoreSeq` inside a matcher. -/
def Work.store (V : View) (w : Work) (litLen litIdx offsetCode mlBase : Nat) : Work :=
  let r := w.seq.store V.byte litLen litIdx offsetCode mlBase
  { w with seq := r.1, failed := r.2 }

/-- The cursors of a matcher (R141): they live inside the command. -/
structure Cursor where
  ip : Nat
  anchor : Nat
  o1 : Nat
  o2 : Nat
  deriving DecidableEq, Repr

/-- A match: where it starts, the index it copies from, its length. -/
structure Found where
  start : Nat
  from_ : Nat
  len : Nat
  deriving DecidableEq, Repr

/-- What a layout supplies to the scan. -/
structure Finder where
  /-- Insert the visited position; what stood in its long and short slot. -/
  probe : MatchState → Nat → MatchState × Nat × Nat
  /-- Find a match at the visited position, given the probe's candidates. -/
  find : MatchState → Nat → Nat × Nat → MatchState × Option Found
  /-- The least stride after no match. -/
  stride : Nat
  /-- Insert positions spanning a match: the visited position and the match's end. -/
  reseed : MatchState → Nat → Nat → MatchState
  /-- Insert the start of an adjacent repeat. -/
  insertRep : MatchState → Nat → MatchState

/-- The length of a repeat match at `pos` with offset `off`, whose first four bytes were compared (R148). -/
def View.repLen (V : View) (off pos iend : Nat) : Nat := V.matchLen (pos + 4) (pos + 4 - off) iend + 4

/-- The adjacent-repeat loop (R148, R150, R152). -/
def adjacentRepeats (V : View) (F : Finder) (iend : Nat) : Nat → Work → Cursor → Work × Cursor
  | 0, w, c => (w, c)
  | k + 1, w, c =>
    if !w.failed ∧ c.ip ≤ iend - Config.hashRead ∧ V.repHit c.o2 c.ip then
      let rl := V.repLen c.o2 c.ip iend
      adjacentRepeats V F iend k ({ w with ms := F.insertRep w.ms c.ip }.store V 0 c.anchor 1 (rl - 3))
        { ip := c.ip + rl, anchor := c.ip + rl, o1 := c.o2, o2 := c.o1 }
    else (w, c)

/-- After a match that ends at `c.ip`, found at the visited position `cur0`: re-seed the tables, then take adjacent repeats. -/
def afterMatch (V : View) (F : Finder) (iend cur0 : Nat) (w : Work) (c : Cursor) : Work × Cursor :=
  if !w.failed ∧ c.ip ≤ iend - Config.hashRead then
    adjacentRepeats V F iend (iend - c.ip) { w with ms := F.reseed w.ms cur0 c.ip } c
  else (w, c)

/-- The scan at one position (R148, R150, R152): a repeat match at the next position, else a match the layout finds, else a
stride. -/
def scanAt (V : View) (F : Finder) (iend : Nat) (w : Work) (c : Cursor) : Work × Cursor :=
  let p := F.probe w.ms c.ip
  if V.repHit c.o1 (c.ip + 1) then
    let L := V.repLen c.o1 (c.ip + 1) iend
    afterMatch V F iend c.ip ({ w with ms := p.1 }.store V (c.ip + 1 - c.anchor) c.anchor 1 (L - 3))
      { c with ip := c.ip + 1 + L, anchor := c.ip + 1 + L }
  else
    let r := F.find p.1 c.ip p.2
    match r.2 with
    | none => ({ w with ms := r.1 }, { c with ip := c.ip + (c.ip - c.anchor) / 2 ^ Config.searchStrength + F.stride })
    | some f =>
      let back := V.catchUp c.anchor f.start f.start f.from_
      let start := f.start - back
      let L := f.len + back
      let offset := f.start - f.from_
      afterMatch V F iend c.ip ({ w with ms := r.1 }.store V (start - c.anchor) c.anchor (offset + 3) (L - 3))
        { ip := start + L, anchor := start + L, o1 := offset, o2 := c.o1 }

/-- The scan: `while ip < ilimit`. -/
def scan (V : View) (F : Finder) (iend : Nat) : Nat → Work → Cursor → Work × Cursor
  | 0, w, c => (w, c)
  | k + 1, w, c =>
    if !w.failed ∧ c.ip < iend - Config.hashRead then
      let r := scanAt V F iend w c
      scan V F iend k r.1 r.2
    else (w, c)

/-! ## The four layouts -/

/-- `LocalOk(c, at)` (R150), the candidate validity of 41_tables.md R115. -/
def View.localOk (V : View) (c pos : Nat) : Bool := decide (V.low ≤ c ∧ c < pos)

/-- A value read from a table of the dictionary, as a virtual index, when it is acceptable (41_tables.md R115, R146). -/
def View.dmsCand (V : View) (t : Table) (slot : Nat) : Option Nat :=
  if V.mode = .dms ∧ V.dms.w.lowLimit.toNat ≤ t.get slot ∧ t.get slot < V.dms.endIdx.toNat then some (t.get slot + V.dmsDelta)
  else none

/-- `v = none or Key(v, n) != Key(at, n)`: the candidate, when its first `n` bytes are those at `pos`. -/
def View.verify (V : View) (n pos : Nat) (v : Option Nat) : Option Nat := v.filter (fun c => V.key c n = V.key pos n)

/-- The match of a verified candidate, whose first `n` bytes were compared. -/
def View.found (V : View) (iend n pos v : Nat) : Found :=
  { start := pos, from_ := v, len := V.matchLen (pos + n) (v + n) iend + n }

/-- The single-hash candidate at `ip` (R148). -/
def View.singleCand (V : View) (ip cand : Nat) : Option Nat :=
  if V.localOk cand ip then some cand else V.dmsCand V.dms.hashTable (V.dmsSlot ip)

/-- `MatchSingle`'s layout (R148). -/
def singleFinder (V : View) (iend : Nat) : Finder :=
  { probe := fun m ip => let r := h1InsFind V m ip; (r.1, r.2, 0)
    find := fun m ip c => (m, (V.verify 4 ip (V.singleCand ip c.1)).map (V.found iend 4 ip))
    stride := max V.p.targetLength.toNat 1
    reseed := fun m cur0 ip => (h1InsFind V (h1InsFind V m (cur0 + 2)).1 (ip - 2)).1
    insertRep := fun m ip => (h1InsFind V m ip).1 }

/-- The long candidate at `pos`: local, else `DmsLong` (R150). -/
def View.longCand (V : View) (pos cand : Nat) : Option Nat :=
  if V.localOk cand pos then some cand else V.dmsCand V.dms.hashTable (V.slot pos 8 V.dms.p.hashLog.toNat)

/-- The short candidate at `pos`: local, else `DmsShort` (R150). -/
def View.shortCand (V : View) (pos cand : Nat) : Option Nat :=
  if V.localOk cand pos then some cand else V.dmsCand V.dms.chainTable (V.slot pos V.dms.p.mls V.dms.p.chainLog.toNat)

/-- Steps (b), (c), (d) of `MatchDual` (R150); "the one-position-ahead probe inserts too". -/
def dualFind (V : View) (iend : Nat) (m : MatchState) (ip : Nat) (c : Nat × Nat) : MatchState × Option Found :=
  match V.verify 8 ip (V.longCand ip c.1) with
  | some v => (m, some (V.found iend 8 ip v))
  | none =>
    match V.verify 4 ip (V.shortCand ip c.2) with
    | none => (m, none)
    | some vS =>
      let m' := m.setHash (V.dualLong (ip + 1)) (ip + 1)
      match V.verify 8 (ip + 1) (V.longCand (ip + 1) (m.hashTable.get (V.dualLong (ip + 1)))) with
      | some v3 => (m', some (V.found iend 8 (ip + 1) v3))
      | none => (m', some (V.found iend 4 ip vS))

/-- `MatchDual`'s layout (R150). -/
def dualFinder (V : View) (iend : Nat) : Finder :=
  { probe := dhInsFind V
    find := dualFind V iend
    stride := 1
    reseed := fun m cur0 ip => dhInsert V (dhInsert V m (cur0 + 2)) (ip - 2)
    insertRep := dhInsert V }

/-- `MatchGreedy`'s layout over a search (R152). -/
def greedyFinder (search : MatchState → Nat → MatchState × Best) : Finder :=
  { probe := fun m _ => (m, 0, 0)
    find := fun m ip _ =>
      let r := search m ip
      (r.1, if r.2.len = 0 then none else some { start := ip, from_ := r.2.idx, len := r.2.len })
    stride := 1
    reseed := fun m _ _ => m
    insertRep := fun m _ => m }

/-- The layout's finder (R111, R141). -/
def finderOf (V : View) (iend : Nat) : Finder :=
  match V.p.layout with
  | .singleHash => singleFinder V iend
  | .dualHash => dualFinder V iend
  | .hashChain => greedyFinder (fun m ip => hcSearch V m ip iend)
  | .binaryTree => greedyFinder (fun m ip => btSearch V m ip iend)

/-- The result of a matcher run: the tables and the store, the repeat offsets, the index of the first byte no sequence
covers. -/
structure MatchRun where
  work : Work
  rep : Reps
  anchor : Nat

/-- `BlkCore(istart, iend, rep)` (R141). -/
def blkCore (V : View) (w : Work) (istart iend : Nat) (rep : Reps) : MatchRun :=
  let ip := if istart = V.histLow then istart + 1 else istart
  let k := V.park ip rep
  let r := scan V (finderOf V iend) iend (iend - istart) w { ip := ip, anchor := istart, o1 := k.1, o2 := k.2.1 }
  { work := r.1, rep := unpark r.2.o1 r.2.o2 k.2.2 rep, anchor := r.2.anchor }

/-- The work a block starts with (R141): `nextToUpdate` raised, `nextToUpdate3` set to it. -/
def State.blockWork (s : State) : Work :=
  let m := s.ms.raiseNext s.w.lowLimit.toNat
  { ms := { m with nextToUpdate3 := m.nextToUpdate }, seq := s.seq, failed := false }

/-- `BlkMatch(src, n, rep)` (R141), on the index of `src`. -/
def blkMatch (s : State) (istart n : Nat) (rep : Reps) : MatchRun := blkCore s.view s.blockWork istart (istart + n) rep

/-- Put a run's tables and store into the state. -/
def State.withWork (s : State) (w : Work) : State := { s with ms := w.ms, seq := w.seq }

/-- `next.rep <- rep`. -/
def State.setNextRep (s : State) (rep : Reps) : State := s.setNextBs { s.nextBs with rep := rep }

/-- The end of `BLK_MATCH` and of `LDM_BLK_MATCH` (R141): the tail's length and address, unless `fatal` ended the command. -/
def finishMatch (s : State) (iend : Nat) (r : MatchRun) : Done :=
  if r.work.failed then .err .generic (s.withWork r.work).setFatal
  else
    .ok ((((s.withWork r.work).setNextRep r.rep).setRes0 (iend - r.anchor)).setRes1
      (addA s.impl.addrW s.w.base.toNat r.anchor))

/-- The preconditions of `BLK_MATCH` (R141). -/
def State.blockOk (s : State) (src n : DWord) : Bool :=
  s.spanOk s.w src n && decide (n.toNat ≤ s.p.blockSizeMax ∧ s.seq.lit.length + n.toNat ≤ Config.litCap ∧
    s.seq.seqs.length + n.toNat / 3 ≤ Config.seqCap)

/-- `BLK_MATCH` (R141). -/
def execBlkMatch (s : State) : Host.Outcome State Fault Refusal :=
  (gatedIO s <|
    require (s.blockOk s.op0 s.op1) .paramInvalid s <|
    finishMatch s (s.idx s.op0.toNat + s.op1.toNat)
      (blkMatch s (s.idx s.op0.toNat) s.op1.toNat s.prev.rep)).outcome

end Sys2Proof.Machine
end

