-- ==== Sys2Proof/Machine/Ldm.lean ====
section
/-! DEFINITION. The long-distance matcher and its two commands (43_ldm.md). -/

namespace Sys2Proof.Machine

open Sys2Proof

/-! ## Bytes, hash, parts -/

/-- `LdmByte(v)` (R172). Outside `LDM.W.lowLimit <= v < Cur(LDM.W)` the spec gives no byte; there it is a free value
(log 15). -/
def ldmByte (mem : Memory) (aw ctr : Nat) (w : Window) (v : Nat) : Byte :=
  if w.dictLimit.toNat ≤ v ∧ v < w.cur aw then mem.read (addA aw w.base.toNat v)
  else if w.lowLimit.toNat ≤ v ∧ v < w.dictLimit.toNat then mem.read (addA aw w.dictBase.toNat v)
  else Config.freeBits 8 ctr v

/-- `PRIME` (R172). -/
def ldmPrime : Nat := 0xCF1BBCDCB7A56463

/-- The default LDM_HASH (R172). -/
def ldmHashPreset (bytes : List Byte) : Nat := bytes.foldl (fun h b => (h * ldmPrime + (b.toNat + 10)) % 2 ^ 64) 0

/-- `LDM_HASH` of the machine (R172). -/
def ldmHashOf (f : Config.LdmHashFn) (bytes : List Byte) : Nat :=
  match f with
  | .preset => ldmHashPreset bytes
  | .other k => (Config.ldmHashOther k bytes).toNat

/-- What a run of the LDM reads: `LdmByte`, `LDM.W.lowLimit`, the parameters. It lives inside one command. -/
structure LdmView where
  byte : Nat → Byte
  low : Nat
  p : Latched
  hash : Config.LdmHashFn
  ctr : Nat

/-- `LdmParts(h)` (R173): bucket number, checksum, and whether the tag makes the position a candidate. -/
def ldmParts (p : Latched) (h : Nat) : Nat × Nat × Bool :=
  let hBits := p.ldmHashLog.toNat - p.ldmBucketLog.toNat
  let r := p.ldmRateLog.toNat
  (h / 2 ^ (64 - hBits), h / 2 ^ (32 - hBits) % 2 ^ 32, decide (h / 2 ^ (32 - hBits - r) % 2 ^ r = 2 ^ r - 1))

/-- `LdmParts(LdmHash(v))`. -/
def LdmView.parts (V : LdmView) (v : Nat) : Nat × Nat × Bool :=
  ldmParts V.p (ldmHashOf V.hash (bytesFrom V.byte v V.p.ldmMinMatch.toNat))

/-! ## Buckets -/

/-- An empty entry (R170). -/
def LdmEntry.zero : LdmEntry := { offset := 0, checksum := 0 }

/-- `LDM.table[i]`. -/
def LdmState.entry (l : LdmState) (i : Nat) : LdmEntry := sparseGet .zero l.table i

/-- `LdmInsert(slot, checksum, idx)` (R176). -/
def LdmState.insert (l : LdmState) (V : LdmView) (slot checksum idx : Nat) : LdmState :=
  let b := (sparseGet 0 l.bucketPos slot).toNat
  { l with
    table := sparseSet .zero l.table (slot * 2 ^ V.p.ldmBucketLog.toNat + b)
      { offset := fit 32 V.ctr (16 + idx) idx, checksum := BitVec.ofNat 32 checksum }
    bucketPos := sparseSet 0 l.bucketPos slot (BitVec.ofNat 8 ((b + 1) % 2 ^ V.p.ldmBucketLog.toNat)) }

/-- Insert position `q` when it is a candidate (R178, R179). -/
def LdmState.insertCandidate (l : LdmState) (V : LdmView) (q : Nat) : LdmState :=
  let t := V.parts q
  if t.2.2 then l.insert V t.1 t.2.1 q else l

/-- Insert the candidates among `n` positions from `q` up. -/
def LdmState.insertCandidates (V : LdmView) : Nat → Nat → LdmState → LdmState
  | 0, _, l => l
  | n + 1, q, l => LdmState.insertCandidates V n (q + 1) (l.insertCandidate V q)

/-- `LdmFill(start, end)` (R178). -/
def LdmState.fill (l : LdmState) (V : LdmView) (start stop : Nat) : LdmState :=
  LdmState.insertCandidates V (stop + 1 - V.p.ldmMinMatch.toNat - start) start l

/-! ## Generating raw sequences -/

/-- The backward extension of R179. -/
def LdmView.back (V : LdmView) (anchor : Nat) : Nat → Nat → Nat → Nat
  | 0, _, _ => 0
  | fuel + 1, ip, c =>
    if anchor < ip ∧ V.low < c ∧ V.byte (ip - 1) = V.byte (c - 1) then V.back anchor fuel (ip - 1) (c - 1) + 1 else 0

/-- The best entry of a bucket so far: forward and backward length, and position. -/
structure LdmBest where
  fwd : Nat
  bwd : Nat
  idx : Nat
  deriving DecidableEq, Repr

/-- The search of one bucket (R179): entries from number `i` on; "first wins ties". -/
def LdmState.search (l : LdmState) (V : LdmView) (ip anchor iend chk : Nat) :
    Nat → Nat → Option LdmBest → Option LdmBest
  | 0, _, best => best
  | n + 1, i, best =>
    let e := l.entry i
    let c := e.offset.toNat
    let fwd := matchCount V.byte (iend - ip) ip c
    let bwd := V.back anchor ip ip c
    let better := match best with
      | none => true
      | some b => decide (fwd + bwd > b.fwd + b.bwd)
    let best' :=
      if e.checksum.toNat = chk ∧ V.low < c ∧ c < ip ∧ V.p.ldmMinMatch.toNat ≤ fwd ∧ better = true then
        some { fwd := fwd, bwd := bwd, idx := c }
      else best
    LdmState.search l V ip anchor iend chk n (i + 1) best'

/-- Append a raw sequence to the queue (R179). A field that does not fit 32 bits, which only an LDM_CHUNK beyond `2^32` can
give, is a free value (log 14); the tags differ from those of `LdmState.insert`, whose indices are below `2^64`. -/
def LdmState.push (l : LdmState) (ctr lit len off : Nat) : LdmState :=
  let tag := 2 ^ 65 + 3 * l.seq.length
  { l with seq := l.seq ++
      [{ litLength := fit 32 ctr tag lit, matchLength := fit 32 ctr (tag + 1) len, offset := fit 32 ctr (tag + 2) off }] }

/-- The scan of `LdmGenChunk` (R179): the LDM State after, and the anchor. -/
def LdmState.scan (V : LdmView) (iend ilimit : Nat) : Nat → LdmState → Nat → Nat → LdmState × Nat
  | 0, l, _, anchor => (l, anchor)
  | fuel + 1, l, ip, anchor =>
    if ip ≤ ilimit then
      let t := V.parts ip
      if t.2.2 then
        match l.search V ip anchor iend t.2.1 (2 ^ V.p.ldmBucketLog.toNat) (t.1 * 2 ^ V.p.ldmBucketLog.toNat) none with
        | none => LdmState.scan V iend ilimit fuel (l.insert V t.1 t.2.1 ip) (ip + 1) anchor
        | some b =>
          let l1 := (l.push V.ctr (ip - b.bwd - anchor) (b.fwd + b.bwd) (ip - b.idx)).insert V t.1 t.2.1 ip
          let l2 := if ip + b.fwd ≤ ilimit then LdmState.insertCandidates V (b.fwd - 1) (ip + 1) l1 else l1
          LdmState.scan V iend ilimit fuel l2 (ip + b.fwd) (ip + b.fwd)
      else LdmState.scan V iend ilimit fuel l (ip + 1) anchor
    else (l, anchor)

/-- `LdmGenChunk(istart, iend)` (R179): the LDM State after, and the trailing bytes not covered. -/
def LdmState.genChunk (l : LdmState) (V : LdmView) (istart iend : Nat) : LdmState × Nat :=
  let need := max V.p.ldmMinMatch.toNat Config.hashRead
  if iend - istart < need then (l, iend - istart)
  else
    let r := LdmState.scan V iend (iend - need) (iend - istart) l istart istart
    (r.1, iend - r.2)

/-- The overflow correction of the LDM (R175). -/
def LdmState.correct (l : LdmState) (aw corr : Nat) : LdmState :=
  { l with
    w := l.w.shift aw corr
    table := sparseMap .zero (fun e => { e with offset := satsubWord e.offset corr }) l.table }

/-- Add literals to the first sequence of a chunk (R174). -/
def addLeftover (ctr leftover : Nat) : List RawSeq → List RawSeq
  | [] => []
  | q :: qs => { q with litLength := fit 32 ctr 4 (q.litLength.toNat + leftover) } :: qs

/-- One chunk of `LdmGenerate` (R174), at addresses `p` to `ce`: the LDM State after, and the new `leftover`. -/
def ldmChunk (s : State) (l : LdmState) (p ce leftover : Nat) : LdmState × Nat :=
  let aw := s.impl.addrW
  let maxDist := s.p.windowSize
  let l1 := if s.p.needsCorrection (l.w.idx aw ce) then l.correct aw (corrOf 0 maxDist (l.w.idx aw p)) else l
  let l2 := { l1 with w := l1.w.enforceMaxDist s.freeCtr (l1.w.idx aw ce) maxDist 0 }
  let V : LdmView :=
    { byte := ldmByte s.mem aw s.freeCtr l2.w, low := l2.w.lowLimit.toNat, p := s.p, hash := s.impl.ldmHash, ctr := s.freeCtr }
  let first := l2.seq.length
  let r := l2.genChunk V (l2.w.idx aw p) (l2.w.idx aw ce)
  if first < r.1.seq.length then
    ({ r.1 with seq := r.1.seq.take first ++ addLeftover s.freeCtr leftover (r.1.seq.drop first) }, r.2)
  else (r.1, leftover + (ce - p))

/-- The loop of `LdmGenerate` (R174). -/
def ldmChunks (s : State) (stop : Nat) : Nat → LdmState → Nat → Nat → LdmState
  | 0, l, _, _ => l
  | fuel + 1, l, p, leftover =>
    if p < stop then
      let ce := min stop (p + s.impl.ldmChunk)
      let r := ldmChunk s l p ce leftover
      ldmChunks s stop fuel r.1 ce r.2
    else l

/-- `LdmGenerate(src, n)` (R174): the LDM State after, its queue describing `src .. src + n - 1` (log 11). -/
def ldmGenerate (s : State) (src n : Nat) : LdmState :=
  ldmChunks s (src + n) (n / s.impl.ldmChunk + 1)
    { s.ldm with seq := [], pos := 0, queueSrc := some (BitVec.ofNat 64 src) } src 0

/-- `LDM_GENERATE` (R174). -/
def execLdmGenerate (s : State) : Host.Outcome State Fault Refusal :=
  (gatedIO s <|
    require s.p.ldmEnable .paramInvalid s <|
    require (s.spanOk s.ldm.w s.op0 s.op1) .paramInvalid s <|
    require (decide (s.op1.toNat / s.p.ldmMinMatch.toNat ≤ s.impl.ldmSeqCap)) .paramInvalid s <|
    let l := ldmGenerate s s.op0.toNat s.op1.toNat
    .ok ({ s with ldm := l }.setRes0 l.seq.length)).outcome

/-! ## Splitting raw sequences -/

/-- What a walk over the unconsumed queue does: the entries it has passed, as it leaves them, and what is still unconsumed. -/
structure QueueCut where
  passed : List RawSeq
  rest : List RawSeq
  deriving DecidableEq, Repr

/-- One more entry passed before the rest of a walk. -/
def QueueCut.after (q : RawSeq) (c : QueueCut) : QueueCut := { c with passed := q :: c.passed }

/-- `LdmSkip(n)` (R180) on the unconsumed queue: every entry passed keeps what the pseudocode leaves in it, no literals and no
match, or a match too short to use. -/
def ldmSkip (minMatch ctr : Nat) : Nat → List RawSeq → QueueCut
  | _, [] => { passed := [], rest := [] }
  | n, q :: qs =>
    if n = 0 then { passed := [], rest := q :: qs }
    else if n ≤ q.litLength.toNat then
      { passed := [], rest := { q with litLength := BitVec.ofNat 32 (q.litLength.toNat - n) } :: qs }
    else
      let n1 := n - q.litLength.toNat
      if n1 < q.matchLength.toNat then
        let left := q.matchLength.toNat - n1
        let q1 : RawSeq := { q with litLength := 0, matchLength := BitVec.ofNat 32 left }
        if left < minMatch then { passed := [q1], rest := addLeftover ctr left qs } else { passed := [], rest := q1 :: qs }
      else (ldmSkip minMatch ctr (n1 - q.matchLength.toNat) qs).after { q with litLength := 0, matchLength := 0 }

/-- `LdmNext(remaining)` (R181) on the unconsumed queue: the sequence (literals, match length, offset), and the queue. -/
def ldmNext (minMatch ctr remaining : Nat) : List RawSeq → (Nat × Nat × Nat) × QueueCut
  | [] => ((0, 0, 0), { passed := [], rest := [] })
  | q :: qs =>
    let lit := q.litLength.toNat
    let ml := q.matchLength.toNat
    let off := q.offset.toNat
    if lit + ml ≤ remaining then ((lit, ml, off), { passed := [q], rest := qs })
    else if remaining ≤ lit then ((lit, ml, 0), ldmSkip minMatch ctr remaining (q :: qs))
    else ((lit, remaining - lit, if remaining - lit < minMatch then 0 else off), ldmSkip minMatch ctr remaining (q :: qs))

/-- The result of the splitting loop. -/
structure LdmRun where
  work : Work
  rep : Reps
  ip : Nat
  /-- The bytes consumed from the queue. -/
  taken : Nat
  /-- The queue's entries passed by this command, and its unconsumed part. -/
  queue : QueueCut

/-- The queue after one more walk. -/
def QueueCut.step (c d : QueueCut) : QueueCut := { passed := c.passed ++ d.passed, rest := d.rest }

/-- The loop of `LdmBlkMatch` (R177). -/
def ldmSplit (V : View) (ctr iend : Nat) : Nat → LdmRun → LdmRun
  | 0, r => r
  | fuel + 1, r =>
    if !r.work.failed ∧ r.queue.rest ≠ [] ∧ r.ip < iend then
      let x := ldmNext V.p.minMatch.toNat ctr (iend - r.ip) r.queue.rest
      let queue := r.queue.step x.2
      let lit := x.1.1
      let ml := x.1.2.1
      let off := x.1.2.2
      let taken := r.taken + min (iend - r.ip) (lit + ml)
      if off = 0 then { r with taken := taken, queue := queue }
      else
        let b := blkCore V r.work r.ip (r.ip + lit) r.rep
        if b.work.failed then { r with work := b.work, taken := taken, queue := queue }
        else
          let start := r.ip + lit
          ldmSplit V ctr iend fuel
            { work := b.work.store V (start - b.anchor) b.anchor (off + 3) (ml - 3)
              rep := { r0 := BitVec.ofNat 32 off, r1 := b.rep.r0, r2 := b.rep.r1 }
              ip := start + ml, taken := taken, queue := queue }
    else r

/-- The queue's unconsumed part. -/
def LdmState.pending (l : LdmState) : List RawSeq := l.seq.drop l.pos

/-- The LDM State once a command has consumed `n` bytes of the queue: the entries before `pos` stay, those passed stand as R180
and R181 leave them, and what is left of the queue begins `n` bytes further on (R177; log 11). -/
def LdmState.consume (l : LdmState) (c : QueueCut) (n : Nat) : LdmState :=
  { l with
    seq := l.seq.take l.pos ++ c.passed ++ c.rest
    pos := l.pos + c.passed.length
    queueSrc := l.queueSrc.map (· + BitVec.ofNat 64 n) }

/-- `LdmBlkMatch(src, n, rep)` (R177), on the index of `src`: the matcher run and the LDM State after. When `StoreSeq` ends in
`fatal`, the queue and `queueSrc` stand as the calls of `LdmNext` up to there left them (60_exceptions.md R329: "what it wrote
before stays written"; log 18). -/
def ldmBlkMatch (s : State) (istart n : Nat) (rep : Reps) : MatchRun × LdmState :=
  let r := ldmSplit s.view s.freeCtr (istart + n) (s.ldm.pending.length + 1)
    { work := s.blockWork, rep := rep, ip := istart, taken := 0, queue := { passed := [], rest := s.ldm.pending } }
  let m := if r.work.failed then { work := r.work, rep := r.rep, anchor := r.ip }
    else blkCore s.view r.work r.ip (istart + n) r.rep
  (m, s.ldm.consume r.queue r.taken)

/-- The first launch condition of `LDM_BLK_MATCH` (R177): "`src` equals the `src` of the latest `LDM_GENERATE` plus the bytes
consumed from the queue since"; with no LDM_GENERATE since `CTX_INIT` there is nothing to equal (log 11). -/
def State.queueHere (s : State) (src : DWord) : Bool := s.ldm.queueSrc.all (· == src)

/-- Some sequence of a queue that begins at index `i` has an offset reaching below `low` (R177). -/
def queueBelow (low : Nat) : Nat → List RawSeq → Bool
  | _, [] => false
  | i, q :: qs =>
    decide (i + q.litLength.toNat < q.offset.toNat + low) ||
      queueBelow low (i + q.litLength.toNat + q.matchLength.toNat) qs

/-- The second launch condition of `LDM_BLK_MATCH` (R177), violated: the "queue holds an offset reaching below `histLow`",
whether or not this block reaches that sequence. -/
def State.queueReachesBelow (s : State) (src : DWord) : Bool :=
  queueBelow s.histLow (s.idx src.toNat) s.ldm.pending

/-- `LDM_BLK_MATCH` (R177). -/
def execLdmBlkMatch (s : State) : Host.Outcome State Fault Refusal :=
  (gatedIO s <|
    require s.p.ldmEnable .paramInvalid s <|
    require (s.blockOk s.op0 s.op1) .paramInvalid s <|
    if !s.queueHere s.op0 then .refused .ldmSourceMismatch
    else if s.queueReachesBelow s.op0 then .refused .ldmBelowHistory
    else
      let r := ldmBlkMatch s (s.idx s.op0.toNat) s.op1.toNat s.prev.rep
      finishMatch { s with ldm := r.2 } (s.idx s.op0.toNat + s.op1.toNat) r.1).outcome

end Sys2Proof.Machine
end

