-- ==== Sys2Proof/Machine/Fse.lean ====
section
/-! DEFINITION. The bit writer and the FSE coder (45_fse.md). -/

namespace Sys2Proof.Machine

open Sys2Proof

/-! ## Bit writer (R201) -/

/-- A bitstream under construction: the accumulator and the number of bits put. -/
structure Bits where
  acc : Nat
  nb : Nat
  deriving DecidableEq, Repr

def Bits.empty : Bits := { acc := 0, nb := 0 }

/-- `Put(value, nbits)` (R201): the low `nbits` bits of the value, above every bit put before. -/
def Bits.put (b : Bits) (value nbits : Nat) : Bits :=
  { acc := b.acc + value % 2 ^ nbits * 2 ^ b.nb, nb := b.nb + nbits }

/-- The bits padded with 0 bits to whole bytes, least significant byte first. -/
def Bits.bytes (b : Bits) : List Byte := leBytes ((b.nb + 7) / 8) b.acc

/-- `Close()` (R201): the end mark, then the bytes. -/
def Bits.close (b : Bits) : List Byte := (b.put 1 1).bytes

/-! ## Counting and table log -/

/-- The number of elements equal to `v`. -/
def countOf (v : Nat) : List Nat → Nat
  | [] => 0
  | x :: xs => if x = v then countOf v xs + 1 else countOf v xs

/-- `count[0 .. m]` of `Count(xs, m)` (R202). -/
def counts (xs : List Nat) (m : Nat) : List Nat := (List.range (m + 1)).map (fun v => countOf v xs)

/-- The largest element of a list of numbers, 0 when it is empty. -/
def maxOf (xs : List Nat) : Nat := xs.foldl max 0

/-- The sum of a list of numbers. -/
def sumOf (xs : List Nat) : Nat := xs.foldl (· + ·) 0

/-- `OptimalTableLog(maxLog, n, maxSV, minus)` (R203). -/
def optimalTableLog (maxLog n maxSV minus : Nat) : Nat :=
  let minBits := if maxSV > 0 then min (highbit n + 1) (highbit maxSV + 2) else highbit n + 1
  let t := max minBits (min maxLog (highbit (n - 1) - minus))
  min (max t Config.fseMinTableLog) Config.fseMaxTableLog

/-! ## Normalisation (R204) -/

/-- A symbol's normalised count before the remainders are given out, and its remainder. -/
def firstShare (total L c : Nat) : Nat × Nat :=
  if c = 0 then (0, 0)
  else if c * 2 ^ L / total = 0 then (1, 0)
  else (c * 2 ^ L / total, c * 2 ^ L % total)

/-- Insert a (remainder, symbol) pair in an order by descending remainder, ascending symbol. -/
def insertByRem (x : Nat × Nat) : List (Nat × Nat) → List (Nat × Nat)
  | [] => [x]
  | y :: ys => if x.1 > y.1 ∨ (x.1 = y.1 ∧ x.2 < y.2) then x :: y :: ys else y :: insertByRem x ys

/-- The present symbols in the order of R204. -/
def remOrder (pairs : List (Nat × Nat)) : List (Nat × Nat) := pairs.foldr insertByRem []

/-- Add 1 at each of the given symbols. -/
def bumpAll (norm : List Nat) (symbols : List Nat) : List Nat :=
  symbols.foldl (fun l i => l.set i (l.getD i 0 + 1)) norm

/-- The lowest position of the largest element, from position `i` on, given the best so far. -/
def argMax : List Nat → Nat → Nat × Nat → Nat × Nat
  | [], _, best => best
  | x :: xs, i, best => argMax xs (i + 1) (if x > best.2 then (i, x) else best)

/-- The fallback of R204 (D0's `normalizeM2`): take `k` back, one at a time, from the largest. -/
def takeBack : Nat → List Nat → Option (List Nat)
  | 0, norm => some norm
  | k + 1, norm =>
    let b := argMax norm 0 (0, 0)
    if b.2 ≤ 1 then none else takeBack k (norm.set b.1 (b.2 - 1))

/-- `FseNormalize(count, maxSV, total, L)` (R204); `none` is `raise Generic`. -/
def fseNormalize (count : List Nat) (total L : Nat) : Option (List Nat) :=
  let shares := count.map (firstShare total L)
  let present := (List.range count.length).filter (fun i => count.getD i 0 > 0)
  let base := shares.map Prod.fst
  let sum := sumOf base
  if present.length > 2 ^ L then none
  else if sum ≤ 2 ^ L then
    let r := 2 ^ L - sum
    if r > present.length then none
    else some (bumpAll base (((remOrder (present.map (fun i => ((shares.getD i (0, 0)).2, i)))).take r).map Prod.snd))
  else takeBack (sum - 2 ^ L) base

/-! ## Tables (R206, R207, R211) -/

/-- An encoding table: built from a distribution, or the table of one symbol (R211). -/
inductive FseTable where
  | built (log : Nat) (norm : List Int) (states : List Nat) (dnb : List Nat) (dfs : List Int)
  | rle (s : Nat)
  deriving DecidableEq, Repr

/-- `step` of the spread (R207). -/
def spreadStep (size : Nat) : Nat := size / 2 + size / 8 + 3

/-- Put the symbols with count -1 at the top of the table (R207): the cells, and `high`. -/
def placeLow : List Int → Nat → List Nat → Nat → List Nat × Nat
  | [], _, sym, high => (sym, high)
  | n :: ns, s, sym, high => if n = -1 then placeLow ns (s + 1) (sym.set high s) (high - 1) else placeLow ns (s + 1) sym high

/-- `pos <- (pos + step) & mask`, again while `pos > high` (R207). -/
def spreadNext (size high : Nat) : Nat → Nat → Nat
  | 0, pos => pos
  | fuel + 1, pos =>
    let p := (pos + spreadStep size) % size
    if p > high then spreadNext size high fuel p else p

/-- Place symbol `s` in `n` cells (R207). -/
def spreadOne (size high s : Nat) : Nat → List Nat → Nat → List Nat × Nat
  | 0, sym, pos => (sym, pos)
  | n + 1, sym, pos => spreadOne size high s n (sym.set pos s) (spreadNext size high size pos)

/-- The spread of R207 from symbol `s` on. -/
def spreadAll (size high : Nat) : List Int → Nat → List Nat → Nat → List Nat
  | [], _, sym, _ => sym
  | n :: ns, s, sym, pos =>
    let r := spreadOne size high s n.toNat sym pos
    spreadAll size high ns (s + 1) r.1 r.2

/-- `sym[0 .. size-1]` (R207): the symbol of each cell. -/
def spreadCells (norm : List Int) (L : Nat) : List Nat :=
  let r := placeLow norm 0 (List.replicate (2 ^ L) 0) (2 ^ L - 1)
  spreadAll (2 ^ L) r.2 norm 0 r.1 0

/-- The states of one symbol's cells, ascending (R207). -/
def statesOf (sym : List Nat) (size s : Nat) : List Nat :=
  ((List.range size).filter (fun u => sym.getD u 0 = s)).map (fun u => size + u)

/-- `dnb[s]` (R207). -/
def dnbOf (L : Nat) (n : Int) : Nat :=
  if n = 0 then (L + 1) * 2 ^ 16 - 2 ^ L
  else if n = 1 ∨ n = -1 then L * 2 ^ 16 - 2 ^ L
  else (L - highbit (n.toNat - 1)) * 2 ^ 16 - n.toNat * 2 ^ (L - highbit (n.toNat - 1))

/-- `dfs[..]` (R207), `total` cells being taken by the symbols before. -/
def dfsFrom : List Int → Nat → List Int
  | [], _ => []
  | n :: ns, total => ((total : Int) - n.natAbs) :: dfsFrom ns (total + n.natAbs)

/-- `FseBuild(norm, maxSV, L)` (R207), `norm` listing the symbols 0 to `maxSV`. -/
def fseBuild (norm : List Int) (L : Nat) : FseTable :=
  let sym := spreadCells norm L
  .built L norm ((List.range norm.length).flatMap (statesOf sym (2 ^ L))) (norm.map (dnbOf L)) (dfsFrom norm 0)

/-- The table *has* the symbol (R208, R211). -/
def FseTable.has (T : FseTable) (s : Nat) : Bool :=
  match T with
  | .built _ norm _ _ _ => decide (norm.getD s 0 ≠ 0)
  | .rle s0 => s == s0

/-- The number of bits of `FlushState`. -/
def FseTable.log (T : FseTable) : Nat :=
  match T with
  | .built L _ _ _ _ => L
  | .rle _ => 0

/-- `InitState(T, s)` (R208, R211). -/
def FseTable.init (T : FseTable) (s : Nat) : Nat :=
  match T with
  | .built _ _ states dnb dfs =>
    let d := dnb.getD s 0
    let nbo := (d + 2 ^ 15) / 2 ^ 16
    let v := nbo * 2 ^ 16 - d
    states.getD (((v / 2 ^ nbo : Nat) : Int) + dfs.getD s 0).toNat 0
  | .rle _ => 0

/-- The number of bits `Encode(T, state, s)` puts (R208, R211). -/
def FseTable.nbo (T : FseTable) (state s : Nat) : Nat :=
  match T with
  | .built _ _ _ dnb _ => (state + dnb.getD s 0) / 2 ^ 16
  | .rle _ => 0

/-- The state after `Encode(T, state, s)` (R208, R211). -/
def FseTable.next (T : FseTable) (state s : Nat) : Nat :=
  match T with
  | .built _ _ states _ dfs => states.getD (((state / 2 ^ T.nbo state s : Nat) : Int) + dfs.getD s 0).toNat 0
  | .rle _ => 0

/-- `FlushState(T, state)` (R208). -/
def FseTable.flush (T : FseTable) (b : Bits) (state : Nat) : Bits := b.put state T.log

/-- The bits of encoding a list, given last to first, from a state on, with the final flush (R209). -/
def FseTable.bitsFrom (T : FseTable) : Nat → List Nat → Nat
  | _, [] => T.log
  | st, s :: ss => T.nbo st s + FseTable.bitsFrom T (T.next st s) ss

/-- `StateBits(T, codes)` (R209); `none` is "undefined". -/
def FseTable.stateBits (T : FseTable) (codes : List Nat) : Option Nat :=
  if codes.all T.has then
    match codes.reverse with
    | [] => some T.log
    | s :: ss => some (T.bitsFrom (T.init s) ss)
  else none

/-! ## Table header (R210) -/

/-- The writer of R210 between two symbols. -/
structure NCount where
  bits : Bits
  remaining : Int
  threshold : Nat
  nbBits : Nat
  prev0 : Bool

/-- `Put(0xFFFF, 16)` for every 24 zeros, `Put(3, 2)` for every 3 of the rest, then the rest (R210). -/
def putZeroRun (b : Bits) (k : Nat) : Bits :=
  let b1 := (List.range (k / 24)).foldl (fun b _ => b.put 0xFFFF 16) b
  let b2 := (List.range (k % 24 / 3)).foldl (fun b _ => b.put 3 2) b1
  b2.put (k % 24 % 3) 2

/-- `while remaining < threshold: nbBits <- nbBits - 1 ; threshold <- threshold >> 1` (R210). -/
def NCount.shrink : Nat → NCount → NCount
  | 0, c => c
  | fuel + 1, c =>
    if c.remaining < c.threshold then NCount.shrink fuel { c with nbBits := c.nbBits - 1, threshold := c.threshold / 2 } else c

/-- One count (R210); `none` is `raise Generic`. -/
def NCount.putCount (c : NCount) (n : Int) : Option NCount :=
  let mx := (2 * c.threshold - 1 : Int) - c.remaining
  let rem := c.remaining - n.natAbs
  let v := if n + 1 ≥ c.threshold then n + 1 + mx else n + 1
  if rem < 1 then none
  else some (NCount.shrink 16
    { c with
      bits := c.bits.put v.toNat (c.nbBits - if v < mx then 1 else 0)
      remaining := rem
      prev0 := decide (n = 0) })

/-- The loop of R210 over the symbols left. -/
def NCount.loop : Nat → NCount → List Int → Option NCount
  | 0, c, _ => some c
  | fuel + 1, c, ns =>
    match ns with
    | [] => some c
    | n :: rest =>
      if c.remaining ≤ 1 then some c
      else if c.prev0 then
        let zeros := ns.takeWhile (· = 0)
        match ns.drop zeros.length with
        | [] => some c
        | m :: more =>
          match ({ c with bits := putZeroRun c.bits zeros.length }).putCount m with
          | none => none
          | some c' => NCount.loop fuel c' more
      else
        match c.putCount n with
        | none => none
        | some c' => NCount.loop fuel c' rest

/-- `FseWriteNCount(norm, maxSV, L)` (R210); `none` is `raise Generic`. -/
def fseWriteNCount (norm : List Int) (L : Nat) : Option (List Byte) :=
  match NCount.loop (norm.length + 1)
    { bits := Bits.empty.put (L - Config.fseMinTableLog) 4, remaining := 2 ^ L + 1, threshold := 2 ^ L, nbBits := L + 1,
      prev0 := false } norm with
  | none => none
  | some c => if c.remaining = 1 then some c.bits.bytes else none

/-! ## Two-state stream (R212) -/

/-- The symbols of one parity, first met initialising the state: the bits after, and the states. -/
def stream2Loop (T : FseTable) : List (Nat × Bool) → Bits → Option Nat → Option Nat → Bits × Option Nat × Option Nat
  | [], b, st1, st2 => (b, st1, st2)
  | (s, even) :: rest, b, st1, st2 =>
    match (if even then st1 else st2) with
    | none => if even then stream2Loop T rest b (some (T.init s)) st2 else stream2Loop T rest b st1 (some (T.init s))
    | some st =>
      let b' := b.put st (T.nbo st s)
      if even then stream2Loop T rest b' (some (T.next st s)) st2 else stream2Loop T rest b' st1 (some (T.next st s))

/-- `FseStream2(T, xs)` (R212); `none` is "refused". -/
def fseStream2 (T : FseTable) (xs : List Nat) : Option (List Byte) :=
  if xs.length ≤ 2 then none
  else
    let marked := (xs.zip ((List.range xs.length).map (fun i => i % 2 == 0))).reverse
    let r := stream2Loop T marked Bits.empty none none
    some ((T.flush (T.flush r.1 (r.2.2.getD 0)) (r.2.1.getD 0)).close)

end Sys2Proof.Machine
end

