-- ==== Sys2Proof/Machine/Huffman.lean ====
section
/-! DEFINITION. The canonical Huffman coder (46_huffman.md). -/

namespace Sys2Proof.Machine

open Sys2Proof

/-- A Huffman table (R236): the code lengths of the 256 symbols, the largest present symbol, the longest length. -/
structure HufTable where
  nbBits : List Nat
  maxSV : Nat
  tableLog : Nat
  deriving DecidableEq, Repr

/-! ## Code lengths -/

/-- Insert a (count, symbol) pair in an order by descending count, ascending symbol (R231). -/
def insertByCount (x : Nat × Nat) : List (Nat × Nat) → List (Nat × Nat)
  | [] => [x]
  | y :: ys => if x.1 > y.1 ∨ (x.1 = y.1 ∧ x.2 < y.2) then x :: y :: ys else y :: insertByCount x ys

/-- `HufSort` (R231): the present symbols, rank 0 first, as (count, symbol). -/
def hufSort (count : List Nat) : List (Nat × Nat) :=
  (((List.range count.length).filter (fun s => count.getD s 0 > 0)).map (fun s => (count.getD s 0, s))).foldr insertByCount []

/-- A tree of the sorted merge, its leaves carrying their symbols. -/
inductive HufTree where
  | leaf (s : Nat)
  | node (a b : HufTree)
  deriving DecidableEq, Repr

/-- (symbol, depth) of every leaf. -/
def HufTree.depths : HufTree → Nat → List (Nat × Nat)
  | .leaf s, d => [(s, d)]
  | .node a b, d => a.depths (d + 1) ++ b.depths (d + 1)

/-- The two queues of R233: leaves, least frequent first, and internal nodes, oldest first. -/
structure HufQueues where
  leaves : List (Nat × HufTree)
  nodes : List (Nat × HufTree)

/-- `Pick()` (R233): "a tie takes the internal node". -/
def HufQueues.pick (q : HufQueues) : Option ((Nat × HufTree) × HufQueues) :=
  match q.leaves, q.nodes with
  | [], [] => none
  | l :: ls, [] => some (l, { q with leaves := ls })
  | [], n :: ns => some (n, { q with nodes := ns })
  | l :: ls, n :: ns => if l.1 < n.1 then some (l, { q with leaves := ls }) else some (n, { q with nodes := ns })

/-- One merge of R233. -/
def HufQueues.merge (q : HufQueues) : HufQueues :=
  match q.pick with
  | none => q
  | some (a, q1) =>
    match q1.pick with
    | none => q
    | some (b, q2) => { q2 with nodes := q2.nodes ++ [(a.1 + b.1, .node a.2 b.2)] }

/-- The merges of R233. -/
def HufQueues.run : Nat → HufQueues → HufQueues
  | 0, q => q
  | n + 1, q => HufQueues.run n q.merge

/-- `HufTree` (R233) on the ranked leaves: the depth of each, in rank order. -/
def hufDepths (ranked : List (Nat × Nat)) : List Nat :=
  let q := HufQueues.run (ranked.length - 1) { leaves := (ranked.map (fun x => (x.1, HufTree.leaf x.2))).reverse, nodes := [] }
  let ds := match q.nodes with
    | [] => []
    | t :: _ => t.2.depths 0
  ranked.map (fun x => ((ds.find? (fun d => d.1 = x.2)).getD (0, 0)).2)

/-- The rank to lengthen (R234): largest length below the limit, "on ties the largest i"; `i` counts ranks. -/
def lengthenRank (maxBits : Nat) : List Nat → Nat → Option (Nat × Nat) → Option (Nat × Nat)
  | [], _, best => best
  | n :: ns, i, best =>
    let better := match best with
      | none => true
      | some b => decide (b.2 ≤ n)
    lengthenRank maxBits ns (i + 1) (if n < maxBits ∧ better = true then some (i, n) else best)

/-- `while K > 0` of R234: the lengths and `K` after. -/
def lengthen (maxBits : Nat) : Nat → List Nat → Int → List Nat × Int
  | 0, nb, K => (nb, K)
  | fuel + 1, nb, K =>
    if K > 0 then
      match lengthenRank maxBits nb 0 none with
      | none => (nb, K)
      | some (i, n) => lengthen maxBits fuel (nb.set i (n + 1)) (K - 2 ^ (maxBits - n - 1))
    else (nb, K)

/-- `while K < 0` of R234: shorten the most frequent code at the limit. -/
def shorten (maxBits : Nat) : Nat → List Nat → List Nat
  | 0, nb => nb
  | k + 1, nb =>
    match nb.findIdx? (· = maxBits) with
    | none => nb
    | some i => shorten maxBits k (nb.set i (maxBits - 1))

/-- `HufSetMaxHeight` (R234). -/
def hufSetMaxHeight (nb : List Nat) (maxBits : Nat) : List Nat :=
  if maxOf nb ≤ maxBits then nb
  else
    let clamped := nb.map (min maxBits)
    let K : Int := (sumOf (clamped.map (fun n => 2 ^ (maxBits - n))) : Int) - 2 ^ maxBits
    let r := lengthen maxBits (nb.length * maxBits) clamped K
    shorten maxBits (-r.2).toNat r.1

/-- `newT` of 47_block_entropy.md R256. -/
def hufBuild (count : List Nat) (maxSV maxBits : Nat) : HufTable :=
  let ranked := hufSort count
  let lens := hufSetMaxHeight (hufDepths ranked) maxBits
  { nbBits := (ranked.zip lens).foldl (fun l x => l.set x.1.2 x.2) (List.replicate 256 0)
    maxSV := maxSV
    tableLog := maxOf lens }

/-! ## Codes -/

/-- `first[n]` for `n` from `tableLog` down to 1 (R235), as a list by `n`. -/
def hufFirst (nbBits : List Nat) : Nat → Nat → List Nat → List Nat
  | 0, _, first => first
  | n + 1, mn, first => hufFirst nbBits n ((mn + countOf (n + 1) nbBits) / 2) (first.set (n + 1) mn)

/-- Give out the values of each length in ascending symbol order (R235). -/
def hufVals : List Nat → List Nat → List Nat
  | [], _ => []
  | n :: ns, first => if n = 0 then 0 :: hufVals ns first else first.getD n 0 :: hufVals ns (first.set n (first.getD n 0 + 1))

/-- `HufCanonical(nbBits, tableLog)` (R235): `val[0..255]`. -/
def HufTable.vals (T : HufTable) : List Nat :=
  hufVals T.nbBits (hufFirst T.nbBits T.tableLog 0 (List.replicate (T.tableLog + 1) 0))

/-- `Covers(T, count, maxSV)` (R236). -/
def HufTable.covers (T : HufTable) (count : List Nat) (maxSV : Nat) : Bool :=
  (List.range (maxSV + 1)).all (fun s => decide (count.getD s 0 = 0 ∨ T.nbBits.getD s 0 ≠ 0))

/-- `Estimate(T, count, maxSV)` (R236). -/
def HufTable.estimate (T : HufTable) (count : List Nat) (maxSV : Nat) : Nat :=
  sumOf ((List.range (maxSV + 1)).map (fun s => count.getD s 0 * T.nbBits.getD s 0)) / 8

/-! ## Table header -/

/-- The weights of the symbols 0 to `maxSV - 1` (R237). -/
def HufTable.weights (T : HufTable) : List Nat :=
  (T.nbBits.take T.maxSV).map (fun n => if n = 0 then 0 else T.tableLog + 1 - n)

/-- How `HufCompressWeights` ends. -/
inductive WeightsOut where
  | refused
  | generic
  | bytes (bs : List Byte)

/-- `HufCompressWeights(w)` (R238). -/
def hufCompressWeights (w : List Nat) : WeightsOut :=
  let k := w.length
  let maxW := maxOf w
  let count := counts w maxW
  let largest := maxOf count
  if k ≤ 1 ∨ largest = k ∨ largest = 1 then .refused
  else
    let L := optimalTableLog 6 k maxW 2
    match fseNormalize count k L with
    | none => .generic
    | some norm =>
      let n : List Int := norm.map (fun c => (c : Int))
      match fseWriteNCount n L with
      | none => .generic
      | some hdr =>
        match fseStream2 (fseBuild n L) w with
        | none => .refused
        | some body => .bytes (hdr ++ body)

/-- Two weights a byte, the first in the high nibble (R239). -/
def packNibbles : List Nat → List Byte
  | [] => []
  | [a] => [BitVec.ofNat 8 (a * 16)]
  | a :: b :: rest => BitVec.ofNat 8 (a * 16 + b) :: packNibbles rest

/-- `HufWriteTable(T)` (R239); `none` is `raise Generic`. -/
def hufWriteTable (T : HufTable) : Option (List Byte) :=
  let direct := if T.maxSV > 128 then none else some (BitVec.ofNat 8 (128 + (T.maxSV - 1)) :: packNibbles T.weights)
  match hufCompressWeights T.weights with
  | .generic => none
  | .refused => direct
  | .bytes c => if 1 < c.length ∧ c.length < T.maxSV / 2 then some (BitVec.ofNat 8 c.length :: c) else direct

/-! ## Streams -/

/-- `Put` of the codes of the bytes, given last to first (R240). -/
def putCodes (vals lens : List Nat) : List Byte → Bits → Bits
  | [], b => b
  | x :: xs, b => putCodes vals lens xs (b.put (vals.getD x.toNat 0) (lens.getD x.toNat 0))

/-- `HufStream1(T, bytes)` (R240). -/
def hufStream1 (T : HufTable) (bytes : List Byte) : List Byte := (putCodes T.vals T.nbBits bytes.reverse Bits.empty).close

/-- `HufStream4(T, bytes)` (R241); `none` is "refused". -/
def hufStream4 (T : HufTable) (bytes : List Byte) : Option (List Byte) :=
  let n := bytes.length
  if n < 12 then none
  else
    let seg := (n + 3) / 4
    let p0 := hufStream1 T (bytes.take seg)
    let p1 := hufStream1 T ((bytes.drop seg).take seg)
    let p2 := hufStream1 T ((bytes.drop (2 * seg)).take seg)
    let p3 := hufStream1 T (bytes.drop (3 * seg))
    if p0.length > 65535 ∨ p1.length > 65535 ∨ p2.length > 65535 then none
    else some (leBytes 2 p0.length ++ leBytes 2 p1.length ++ leBytes 2 p2.length ++ p0 ++ p1 ++ p2 ++ p3)

end Sys2Proof.Machine
end

