-- ==== Sys2Proof/Machine/Entropy.lean ====
section
/-! DEFINITION. The block entropy stage: the literals and sequences sections, LIT_COMPRESS and SEQ_ENCODE
(47_block_entropy.md). -/

namespace Sys2Proof.Machine

open Sys2Proof

/-! ## Literals section -/

/-- A stored Huffman table as an encoding table (10_state.md R28). -/
def HufState.table (h : HufState) : HufTable :=
  { nbBits := h.nbBits.map BitVec.toNat, maxSV := h.maxSV.toNat, tableLog := h.tableLog.toNat }

/-- A new Huffman table as it is stored: mode *check* (R256). -/
def HufTable.stored (T : HufTable) : HufState :=
  { nbBits := T.nbBits.map (BitVec.ofNat 4), maxSV := BitVec.ofNat 8 T.maxSV, tableLog := BitVec.ofNat 4 T.tableLog,
    mode := .check }

/-- `MinGain(n)` (R259). -/
def minGain (n : Nat) : Nat := n / 64 + 2

/-- `MIN_LIT_TO_COMPRESS` (R259). -/
def minLitToCompress (m : RepeatMode) : Nat := if m = .valid then 6 else 63

/-- `RawHeader(typ, n)` (R257). -/
def rawHeader (typ n : Nat) : List Byte :=
  if n < 32 then leBytes 1 (typ + n * 2 ^ 3)
  else if n < 4096 then leBytes 2 (typ + 2 ^ 2 + n * 2 ^ 4)
  else leBytes 3 (typ + 3 * 2 ^ 2 + n * 2 ^ 4)

/-- `CompressedHeader(typ, single, n, c)` (R257). -/
def compressedHeader (typ : Nat) (single : Bool) (n c : Nat) : List Byte :=
  if n < 1024 then leBytes 3 (typ + (if single then 0 else 1) * 2 ^ 2 + n * 2 ^ 4 + c * 2 ^ 14)
  else if n < 16384 then leBytes 4 (typ + 2 * 2 ^ 2 + n * 2 ^ 4 + c * 2 ^ 18)
  else leBytes 5 (typ + 3 * 2 ^ 2 + n * 2 ^ 4 + c * 2 ^ 22)

/-- What `LitCompress` returns, and `next.huf`. -/
structure LitOut where
  bytes : List Byte
  typ : Nat
  huf : HufState

/-- `Raw()` (R256). -/
def litRaw (huf : HufState) (lit : List Byte) : LitOut :=
  { bytes := rawHeader 0 lit.length ++ lit, typ := 0, huf := huf }

/-- The literals encoded with a table, one stream below 256 of them, four from there on (R256). -/
def litStreams (T : HufTable) (lit : List Byte) : Option (List Byte) :=
  if lit.length < 256 then some (hufStream1 T lit) else hufStream4 T lit

/-- The Huffman part of `LitCompress` (R256), for a run that has passed the raw and RLE tests. -/
def litHuffman (prev : HufState) (lit : List Byte) (count : List Nat) (maxSV : Nat) : LitOut :=
  let n := lit.length
  let old := prev.table
  let usable := decide (prev.mode ≠ .none) && old.covers count maxSV
  let newT := hufBuild count maxSV (optimalTableLog Config.hufTableLogDefault n maxSV 1)
  let hdr := hufWriteTable newT
  let useOld := usable && (match hdr with
    | none => true
    | some h => decide (old.estimate count maxSV ≤ h.length + newT.estimate count maxSV ∨ h.length + 12 ≥ n))
  let headOk := useOld || (match hdr with
    | none => false
    | some h => decide (h.length + 12 < n))
  if !headOk then litRaw prev lit
  else
    match litStreams (if useOld then old else newT) lit with
    | none => litRaw prev lit
    | some body =>
      let head := if useOld then [] else hdr.getD []
      let c := head.length + body.length
      if body = [] ∨ c + minGain n ≥ n then litRaw prev lit
      else
        let typ := if useOld then 3 else 2
        { bytes := compressedHeader typ (decide (n < 256)) n c ++ head ++ body, typ := typ,
          huf := if useOld then prev else newT.stored }

/-- `LitCompress()` (R256). -/
def litCompress (prev : HufState) (lit : List Byte) : LitOut :=
  let n := lit.length
  if n ≤ minLitToCompress prev.mode then litRaw prev lit
  else
    let count := counts (lit.map BitVec.toNat) 255
    let largest := maxOf count
    if largest = n then { bytes := rawHeader 1 n ++ lit.take 1, typ := 1, huf := prev }
    else if largest ≤ n / 128 + 4 then litRaw prev lit
    else litHuffman prev lit count (maxOf (lit.map BitVec.toNat))

/-- `LIT_COMPRESS` (R256, R263). -/
def execLitCompress (s : State) : Host.Outcome State Fault Refusal :=
  (gatedIO s <|
    require (s.rangeOk s.op0 s.op1) .paramInvalid s <|
    requireDisjoint s 0 0 s.op0.toNat s.op1.toNat <|
    let r := litCompress s.prev.huf s.seq.lit
    require (decide (r.bytes.length ≤ s.op1.toNat)) .dstTooSmall s <|
    .ok ((((s.writeDst s.op0.toNat r.bytes).setNextBs { s.nextBs with huf := r.huf }).setRes0 r.bytes.length).setRes1
      r.typ)).outcome

/-! ## Default tables (R262) -/

def llDefaultNorm : List Int :=
  [4, 3, 2, 2, 2, 2, 2, 2, 2, 2, 2, 2, 2, 1, 1, 1, 2, 2, 2, 2, 2, 2, 2, 2, 2, 3, 2, 1, 1, 1, 1, 1, -1, -1, -1, -1]

def mlDefaultNorm : List Int :=
  [1, 4, 3, 2, 2, 2, 2, 2, 2, 1, 1, 1, 1, 1, 1, 1, 1, 1, 1, 1, 1, 1, 1, 1, 1, 1, 1, 1, 1, 1, 1, 1] ++
  [1, 1, 1, 1, 1, 1, 1, 1, 1, 1, 1, 1, 1, 1, -1, -1, -1, -1, -1, -1, -1]

def ofDefaultNorm : List Int :=
  [1, 1, 1, 1, 1, 1, 2, 2, 2, 1, 1, 1, 1, 1, 1, 1, 1, 1, 1, 1, 1, 1, 1, 1, -1, -1, -1, -1, -1]

def llDefault : FseTable := fseBuild llDefaultNorm 6
def mlDefault : FseTable := fseBuild mlDefaultNorm 6
def ofDefault : FseTable := fseBuild ofDefaultNorm 5

/-! ## Type selection (R268) -/

/-- A stored distribution as a list of integers, symbols 0 to `maxSV` (10_state.md R28). -/
def FseState.norms (f : FseState) : List Int := (f.norm.take (f.maxSV.toNat + 1)).map BitVec.toInt

/-- "table of prev.fse[f]" (R268). -/
def FseState.table (f : FseState) : FseTable := fseBuild f.norms f.tableLog.toNat

/-- A new distribution as it is stored: mode *check* (R268). -/
def storeNorm (norm : List Int) (maxc L : Nat) : FseState :=
  { norm := norm.map (BitVec.ofInt 16), maxSV := BitVec.ofNat 8 maxc, tableLog := BitVec.ofNat 4 L, mode := .check }

/-- A slot after *basic* or *RLE*: "mode none (other fields unspecified)" (R268): free values (log 16). -/
def freeSlot (ctr tag : Nat) : FseState :=
  { norm := Config.freeNorm ctr tag, maxSV := Config.freeBits 8 ctr tag, tableLog := Config.freeBits 4 ctr tag, mode := .none }

/-- A candidate of R268. -/
structure Cand where
  cost : Nat
  typ : Nat
  table : FseTable
  header : List Byte
  slot : FseState
  deriving DecidableEq, Repr

/-- "the candidate with the smallest cost; among equal costs the smallest preference": candidates are listed by rising
preference. -/
def cheapest : List Cand → Option Cand
  | [] => none
  | c :: cs =>
    match cheapest cs with
    | none => some c
    | some d => if c.cost ≤ d.cost then some c else some d

/-- The *basic* candidate (R268). -/
def candBasic (dflt : FseTable) (codes : List Nat) (ok : Bool) (slot : FseState) : List Cand :=
  match dflt.stateBits codes with
  | some b => if ok then [{ cost := b, typ := 0, table := dflt, header := [], slot := slot }] else []
  | none => []

/-- The *RLE* candidate (R268). -/
def candRle (codes : List Nat) (slot : FseState) : List Cand :=
  [{ cost := 8, typ := 1, table := .rle (codes.getD 0 0), header := [BitVec.ofNat 8 (codes.getD 0 0)], slot := slot }]

/-- The *repeat* candidate (R268). -/
def candRepeat (prev : FseState) (codes : List Nat) : List Cand :=
  match prev.table.stateBits codes with
  | some b => if prev.mode = .none then [] else [{ cost := b, typ := 3, table := prev.table, header := [], slot := prev }]
  | none => []

/-- The *compressed* candidate (R268); `none` is `raise Generic`. -/
def candCompressed (codes : List Nat) (maxLog : Nat) : Option Cand :=
  let maxc := maxOf codes
  let L := optimalTableLog maxLog codes.length maxc 2
  match fseNormalize (counts codes maxc) codes.length L with
  | none => none
  | some norm =>
    let n : List Int := norm.map (fun c => (c : Int))
    match fseWriteNCount n L with
    | none => none
    | some hdr =>
      let T := fseBuild n L
      some { cost := 8 * hdr.length + (T.stateBits codes).getD 0, typ := 2, table := T, header := hdr,
             slot := storeNorm n maxc L }

/-- `SelectType(f, codes, maxLog, basicAllowed)` (R268); `none` is `raise Generic` (log 19). -/
def selectType (dflt : FseTable) (prev : FseState) (codes : List Nat) (maxLog : Nat) (basicOk : Bool) (free : FseState) :
    Option Cand :=
  let basic := candBasic dflt codes basicOk free
  if countOf (codes.getD 0 0) codes = codes.length then
    cheapest (basic ++ candRle codes free ++ candRepeat prev codes)
  else
    match candCompressed codes maxLog with
    | none => none
    | some c => cheapest (basic ++ candRepeat prev codes ++ [c])

/-! ## Sequences section (R265, R266) -/

/-- `NbSeqHeader(nbSeq)` (R266). -/
def nbSeqHeader (n : Nat) : List Byte :=
  if n < 128 then leBytes 1 n
  else if n < 0x7F00 then [BitVec.ofNat 8 (n / 256 + 0x80), BitVec.ofNat 8 n]
  else 0xFF :: leBytes 2 (n - 0x7F00)

/-- The extra bits of one sequence (R266). -/
def putExtra (b : Bits) (t : Seq) (c : Codes) : Bits :=
  ((b.put t.litLength.toNat (llBits c.ll.toNat)).put t.matchLength.toNat (mlBits c.ml.toNat)).put t.offset.toNat c.of.toNat

/-- The loop of `SeqBitstream` (R266), sequences given last to first: the bits and the three states. -/
def seqLoop (tLL tOF tML : FseTable) : List (Seq × Codes) → Bits → Nat → Nat → Nat → Bits × Nat × Nat × Nat
  | [], b, sLL, sOF, sML => (b, sLL, sOF, sML)
  | (t, c) :: rest, b, sLL, sOF, sML =>
    let b1 := b.put sOF (tOF.nbo sOF c.of.toNat)
    let b2 := b1.put sML (tML.nbo sML c.ml.toNat)
    let b3 := b2.put sLL (tLL.nbo sLL c.ll.toNat)
    seqLoop tLL tOF tML rest (putExtra b3 t c) (tLL.next sLL c.ll.toNat) (tOF.next sOF c.of.toNat) (tML.next sML c.ml.toNat)

/-- `SeqBitstream(TLL, TOF, TML)` (R266). -/
def seqBitstream (tLL tOF tML : FseTable) (pairs : List (Seq × Codes)) : List Byte :=
  match pairs.reverse with
  | [] => Bits.empty.close
  | (t, c) :: rest =>
    let r := seqLoop tLL tOF tML rest (putExtra Bits.empty t c) (tLL.init c.ll.toNat) (tOF.init c.of.toNat) (tML.init c.ml.toNat)
    (tLL.flush (tOF.flush (tML.flush r.1 r.2.2.2) r.2.2.1) r.2.1).close

/-- What `SeqEncode` returns: the section, the type byte, and the three slots of `next`. -/
structure SeqOut where
  bytes : List Byte
  typeByte : Nat
  ll : FseState
  of : FseState
  ml : FseState

/-- `SeqEncode()` after `SeqToCodes` (R265); `none` is `raise Generic`. -/
def seqSections (prev : BlockState) (ctr : Nat) (seqs : List Seq) (codes : List Codes) : Option SeqOut :=
  let ll := codes.map (fun c => c.ll.toNat)
  let of := codes.map (fun c => c.of.toNat)
  let ml := codes.map (fun c => c.ml.toNat)
  match selectType llDefault prev.fseLL ll Config.llFseLog true (freeSlot ctr 0) with
  | none => none
  | some a =>
    match selectType ofDefault prev.fseOF of Config.ofFseLog (decide (maxOf of ≤ Config.defaultMaxOff)) (freeSlot ctr 1) with
    | none => none
    | some b =>
      match selectType mlDefault prev.fseML ml Config.mlFseLog true (freeSlot ctr 2) with
      | none => none
      | some c =>
        let typeByte := a.typ * 2 ^ 6 + b.typ * 2 ^ 4 + c.typ * 2 ^ 2
        some
          { bytes := nbSeqHeader seqs.length ++ BitVec.ofNat 8 typeByte :: (a.header ++ b.header ++ c.header) ++
              seqBitstream a.table b.table c.table (seqs.zip codes)
            typeByte := typeByte, ll := a.slot, of := b.slot, ml := c.slot }

/-- `SeqEncode()` (R265): the store after (its codes computed), and the section; `none` is `raise Generic`. -/
def seqEncode (prev : BlockState) (ctr : Nat) (q : SeqStore) : SeqStore × Option SeqOut :=
  if q.seqs = [] then
    (q, some { bytes := nbSeqHeader 0, typeByte := 0, ll := prev.fseLL, of := prev.fseOF, ml := prev.fseML })
  else (q.toCodes, seqSections prev ctr q.seqs q.toCodes.codes)

/-- `next.fse` updated. -/
def BlockState.withFse (b : BlockState) (r : SeqOut) : BlockState := { b with fseLL := r.ll, fseOF := r.of, fseML := r.ml }

/-- `SEQ_ENCODE` (R263, R265). A section that cannot be built or does not fit leaves "`SeqToCodes` has run
(`SEQ.codesValid = 1`)" (R265, 60_exceptions.md R325, R331), with an empty store too, where the pseudocode alone would return
before `SeqToCodes` (log 39). -/
def execSeqEncode (s : State) : Host.Outcome State Fault Refusal :=
  (gatedIO s <|
    require (s.rangeOk s.op0 s.op1) .paramInvalid s <|
    requireDisjoint s 0 0 s.op0.toNat s.op1.toNat <|
    let r := seqEncode s.prev s.freeCtr s.seq
    let s1 : State := { s with seq := r.1 }
    let failed : State := { s with seq := s.seq.toCodes }
    match r.2 with
    | none => .err .generic failed
    | some o =>
      require (decide (o.bytes.length ≤ s.op1.toNat)) .dstTooSmall failed <|
      .ok ((((s1.writeDst s.op0.toNat o.bytes).setNextBs (s1.nextBs.withFse o)).setRes0 o.bytes.length).setRes1
        o.typeByte)).outcome

end Sys2Proof.Machine
end

