-- ==== Sys2Proof/Machine/Checksum.lean ====
section
/-! DEFINITION. CHECKSUM64 (30_encoding.md R71, 00_scope.md section 4): the default is XXH64 with seed 0. The spec names the
function and leaves out its internals; its text here is PRESUMED, from general knowledge (log 20), and agrees with every
checksum value the spec prints. -/

namespace Sys2Proof.Machine

open Sys2Proof

def xxP1 : Nat := 11400714785074694791
def xxP2 : Nat := 14029467366897019727
def xxP3 : Nat := 1609587929392839161
def xxP4 : Nat := 9650029242287828579
def xxP5 : Nat := 2870177450012600261

/-- Rotate left at 64 bits. -/
def rotl64 (x k : Nat) : Nat := x * 2 ^ k % 2 ^ 64 + x / 2 ^ (64 - k)

/-- One round of an accumulator. -/
def xxRound (acc lane : Nat) : Nat := rotl64 ((acc + lane * xxP2) % 2 ^ 64) 31 * xxP1 % 2 ^ 64

/-- Merge an accumulator into the hash. -/
def xxMerge (h v : Nat) : Nat := ((h ^^^ xxRound 0 v) * xxP1 + xxP4) % 2 ^ 64

/-- The four accumulators. -/
structure XxAcc where
  v1 : Nat
  v2 : Nat
  v3 : Nat
  v4 : Nat

/-- The 8-byte lane that starts `k` bytes into a stripe. -/
def lane (bytes : List Byte) (k : Nat) : Nat := leVal ((bytes.drop k).take 8)

/-- Consume whole 32-byte stripes: the accumulators, and the bytes left. -/
def xxStripes : Nat → List Byte → XxAcc → XxAcc × List Byte
  | 0, bytes, a => (a, bytes)
  | n + 1, bytes, a =>
    xxStripes n (bytes.drop 32)
      { v1 := xxRound a.v1 (lane bytes 0), v2 := xxRound a.v2 (lane bytes 8), v3 := xxRound a.v3 (lane bytes 16),
        v4 := xxRound a.v4 (lane bytes 24) }

/-- The whole 8-byte words of the tail. -/
def xxTail8 : Nat → List Byte → Nat → Nat × List Byte
  | 0, bytes, h => (h, bytes)
  | n + 1, bytes, h => xxTail8 n (bytes.drop 8) ((rotl64 (h ^^^ xxRound 0 (lane bytes 0)) 27 * xxP1 + xxP4) % 2 ^ 64)

/-- The single bytes of the tail. -/
def xxTail1 (bytes : List Byte) (h : Nat) : Nat :=
  bytes.foldl (fun h b => rotl64 (h ^^^ (b.toNat * xxP5 % 2 ^ 64)) 11 * xxP1 % 2 ^ 64) h

/-- The tail: 8-byte words, one 4-byte word, bytes. -/
def xxTail (bytes : List Byte) (h : Nat) : Nat :=
  let r := xxTail8 (bytes.length / 8) bytes h
  if 4 ≤ r.2.length then
    xxTail1 (r.2.drop 4) ((rotl64 (r.1 ^^^ (leVal (r.2.take 4) * xxP1 % 2 ^ 64)) 23 * xxP2 + xxP3) % 2 ^ 64)
  else xxTail1 r.2 r.1

/-- The final mixing. -/
def xxFinish (h : Nat) : Nat :=
  let h1 := (h ^^^ h / 2 ^ 33) * xxP2 % 2 ^ 64
  let h2 := (h1 ^^^ h1 / 2 ^ 29) * xxP3 % 2 ^ 64
  h2 ^^^ h2 / 2 ^ 32

/-- XXH64 with seed 0. -/
def xxh64 (bytes : List Byte) : Nat :=
  let r := xxStripes (bytes.length / 32) bytes
    { v1 := (xxP1 + xxP2) % 2 ^ 64, v2 := xxP2, v3 := 0, v4 := 2 ^ 64 - xxP1 }
  let h :=
    if 32 ≤ bytes.length then
      xxMerge (xxMerge (xxMerge (xxMerge
        ((rotl64 r.1.v1 1 + rotl64 r.1.v2 7 + rotl64 r.1.v3 12 + rotl64 r.1.v4 18) % 2 ^ 64) r.1.v1) r.1.v2) r.1.v3) r.1.v4
    else xxP5
  xxFinish (xxTail r.2 ((h + bytes.length) % 2 ^ 64))

/-- `CHECKSUM64` of the machine. -/
def checksum64 (f : Config.ChecksumFn) (bytes : List Byte) : Nat :=
  match f with
  | .preset => xxh64 bytes
  | .other k => (Config.checksumOther k bytes).toNat

end Sys2Proof.Machine
end

