-- ==== Sys2Proof/Machine/Frame.lean ====
section
/-! DEFINITION. The frame assembler: context reset, frame header, blocks, the frame commands (48_frame_assembler.md sections
1 to 5, 30_encoding.md R65 to R72). -/

namespace Sys2Proof.Machine

open Sys2Proof

/-! ## Context reset -/

/-- The bounds of `ParamsValid` on the seven compression parameters (R282). -/
def CfgRegs.coreValid (c : CfgRegs) : Bool :=
  decide (1 ≤ c.strategy.toNat ∧ c.strategy.toNat ≤ 8 ∧ 10 ≤ c.windowLog.toNat ∧ c.windowLog.toNat ≤ 31 ∧
    6 ≤ c.hashLog.toNat ∧ c.hashLog.toNat ≤ 30 ∧ 6 ≤ c.chainLog.toNat ∧ c.chainLog.toNat ≤ 30 ∧
    1 ≤ c.searchLog.toNat ∧ c.searchLog.toNat ≤ 30 ∧ 3 ≤ c.minMatch.toNat ∧ c.minMatch.toNat ≤ 8 ∧
    c.targetLength.toNat ≤ 131072 ∧
    (if layoutOf c.strategy.toNat = .binaryTree then c.chainLog.toNat - 1 else c.chainLog.toNat) ≤ c.windowLog.toNat)

/-- The bounds of `ParamsValid` on the LDM parameters (R282, 43_ldm.md R171). -/
def CfgRegs.ldmValid (c : CfgRegs) : Bool :=
  decide (6 ≤ c.ldmHashLog.toNat ∧ c.ldmHashLog.toNat ≤ 30 ∧ 1 ≤ c.ldmBucketLog.toNat ∧ c.ldmBucketLog.toNat ≤ 8 ∧
    c.ldmBucketLog.toNat ≤ c.ldmHashLog.toNat ∧ 4 ≤ c.ldmMinMatch.toNat ∧ c.ldmMinMatch.toNat ≤ 4096 ∧
    c.ldmRateLog.toNat ≤ 25 ∧ c.ldmHashLog.toNat - c.ldmBucketLog.toNat + c.ldmRateLog.toNat ≤ 32)

/-- `ParamsValid(CFG)` (R282). -/
def CfgRegs.valid (c : CfgRegs) : Bool :=
  c.coreValid && decide (c.flags.toNat < 16) && (!c.ldmEnable || c.ldmValid)

/-- Table entries without the LDM's and the 3-byte table's (R283, R309). -/
def CfgRegs.baseEntries (c : CfgRegs) : Nat :=
  2 ^ c.hashLog.toNat + if c.strategy.toNat = 1 then 0 else 2 ^ c.chainLog.toNat

/-- `Workspace(CFG)` (R283). -/
def CfgRegs.workspace (c : CfgRegs) : Nat :=
  c.baseEntries + (if c.minMatch.toNat = 3 then 2 ^ min 17 c.windowLog.toNat else 0) +
    (if c.ldmEnable then 2 * 2 ^ c.ldmHashLog.toNat else 0)

/-- `P <- CFG`: "all 13 configuration registers, flags unpacked" (R281). -/
def CfgRegs.latch (c : CfgRegs) : Latched :=
  { windowLog := c.windowLog, hashLog := c.hashLog, chainLog := c.chainLog, searchLog := c.searchLog,
    minMatch := c.minMatch, targetLength := c.targetLength, strategy := c.strategy,
    contentSizeFlag := c.contentSizeFlag, checksumFlag := c.checksumFlag, noDictIDFlag := c.noDictIDFlag,
    ldmEnable := c.ldmEnable, pledged := c.pledged, ldmHashLog := c.ldmHashLog, ldmBucketLog := c.ldmBucketLog,
    ldmMinMatch := c.ldmMinMatch, ldmRateLog := c.ldmRateLog }

/-- A `hashTable` of the size the parameters give, empty (10_state.md R21). -/
def Latched.freshHash (p : Latched) : Table := .zeros (2 ^ p.hashLog.toNat)

/-- A `chainTable` of the size the parameters give, empty; absent for the single-hash layout (10_state.md R21). -/
def Latched.freshChain (p : Latched) : Table := if p.layout = .singleHash then .absent else .zeros (2 ^ p.chainLog.toNat)

/-- The Match State after `CTX_INIT` (R281). -/
def Latched.freshMs (p : Latched) : MatchState :=
  { hashTable := p.freshHash, chainTable := p.freshChain,
    hashTable3 := if p.hashLog3 = 0 then .absent else .zeros (2 ^ p.hashLog3),
    nextToUpdate := 1, nextToUpdate3 := 1, loadedDictEnd := 0, dmsAttached := false }

/-- A stored distribution after `CTX_INIT`: "norm unspecified" (R281): a free value (log 16). -/
def initSlot (ctr tag : Nat) : FseState := { norm := Config.freeNorm ctr tag, maxSV := 0, tableLog := 0, mode := .none }

/-- A Compressed Block State after `CTX_INIT` (R281). -/
def initBlockState (ctr tag : Nat) : BlockState :=
  { rep := { r0 := 1, r1 := 4, r2 := 8 }, huf := .reset,
    fseLL := initSlot ctr tag, fseOF := initSlot ctr (tag + 1), fseML := initSlot ctr (tag + 2) }

/-- The LDM State after a `CTX_INIT` that enables it (R281); no LDM_GENERATE has run yet (log 11). -/
def LdmState.clear (l : LdmState) : LdmState :=
  { l with table := [], bucketPos := [], w := .init, seq := [], pos := 0, queueSrc := none }

/-- The state after a successful `CTX_INIT` (R281). -/
def State.ctxInit (s : State) : State :=
  let p := s.cfg.latch
  { s with
    p := p, w := .init, ms := p.freshMs, seq := .empty,
    bs0 := initBlockState s.freeCtr 0, bs1 := initBlockState s.freeCtr 3, prevSel := false,
    dictID := 0, consumed := 0, isFirstBlock := true, chk := [],
    ldm := if p.ldmEnable then s.ldm.clear else s.ldm,
    status := { s.status with unspec := false }, stage := .initialized }

/-- `CTX_INIT` (R281). -/
def execCtxInit (s : State) : Host.Outcome State Fault Refusal :=
  (gateFatal s <|
    require s.cfg.valid .paramInvalid s <|
    require (decide (s.cfg.workspace ≤ s.impl.tabCap)) .memory s <|
    .ok s.ctxInit).outcome

/-! ## Frame header -/

/-- `idCode` (R284, R285). -/
def State.idCode (s : State) : Nat :=
  if s.p.noDictIDFlag then 0
  else (decide (0 < s.dictID.toNat)).toNat + (decide (256 ≤ s.dictID.toNat)).toNat + (decide (65536 ≤ s.dictID.toNat)).toNat

/-- `known` (R284). -/
def Latched.sizeKnown (p : Latched) : Bool := p.contentSizeFlag && decide (p.pledged.toNat ≠ Config.pledgeUnknown)

/-- `single` (R284). -/
def Latched.single (p : Latched) : Bool := p.sizeKnown && decide (p.pledged.toNat ≤ p.windowSize)

/-- `fcs` (R284, R285). -/
def Latched.fcsCode (p : Latched) : Nat :=
  if p.sizeKnown then
    (decide (256 ≤ p.pledged.toNat)).toNat + (decide (65536 + 256 ≤ p.pledged.toNat)).toNat +
      (decide (0xFFFFFFFF ≤ p.pledged.toNat)).toNat
  else 0

/-- The content size field (R284). -/
def Latched.sizeField (p : Latched) : List Byte :=
  match p.fcsCode with
  | 0 => if p.single then leBytes 1 p.pledged.toNat else []
  | 1 => leBytes 2 (p.pledged.toNat - 256)
  | 2 => leBytes 4 p.pledged.toNat
  | _ => leBytes 8 p.pledged.toNat

/-- The dictionary ID field (R284). -/
def State.idField (s : State) : List Byte :=
  match s.idCode with
  | 0 => []
  | 1 => leBytes 1 s.dictID.toNat
  | 2 => leBytes 2 s.dictID.toNat
  | _ => leBytes 4 s.dictID.toNat

/-- The frame-header-descriptor byte (30_encoding.md R66). -/
def State.descriptorByte (s : State) : Nat :=
  s.idCode + s.p.checksumFlag.toNat * 2 ^ 2 + s.p.single.toNat * 2 ^ 5 + s.p.fcsCode * 2 ^ 6

/-- `FrameHeader()` (R284). -/
def State.frameHeader (s : State) : List Byte :=
  [0x28, 0xB5, 0x2F, 0xFD] ++ leBytes 1 s.descriptorByte ++
    (if s.p.single then [] else leBytes 1 ((s.p.windowLog.toNat - 10) * 2 ^ 3)) ++ s.idField ++ s.p.sizeField

/-! ## Blocks -/

/-- "all n bytes of the block are equal" (R288). -/
def allEqual : List Byte → Bool
  | [] => true
  | b :: bs => bs.all (· == b)

/-- The match-finding of `BlockBody` (R288), on the block's address and length: the matcher's run and the LDM State.
`StoreSeq` cannot end in `fatal` here (44_sequence_store.md R188), so the run's flag is not consulted. -/
def blockMatch (s : State) (src n : Nat) : MatchRun × LdmState :=
  if s.p.ldmEnable then
    let s1 : State := { s with ldm := ldmGenerate s src n }
    ldmBlkMatch s1 (s.idx src) n s.prev.rep
  else (blkMatch s (s.idx src) n s.prev.rep, s.ldm)

/-- `prevSel <- 1 - prevSel`, and the demotion of the offset table (R288, R291). -/
def State.swapBs (s : State) : State :=
  let s1 : State := { s with prevSel := !s.prevSel }
  if s1.prev.fseOF.mode = .valid then s1.setPrev { s1.prev with fseOF := { s1.prev.fseOF with mode := .check } } else s1

/-- Match finding, trailing literals and the entropy stage of `BlockBody` (R288): the state after, and the payload, empty
when the block is not worth sending compressed. -/
def blockPayload (s : State) (src n : Nat) : State × List Byte :=
  let m := blockMatch s src n
  let stop := s.idx src + n
  let s1 : State := { (s.withWork m.1.work).setNextRep m.1.rep with ldm := m.2 }
  let q := s1.seq.lastLit s1.histByte m.1.anchor (stop - m.1.anchor)
  let lit := litCompress s1.prev.huf q.lit
  let sq := seqEncode s1.prev s1.freeCtr q
  let s2 : State := { s1.setNextBs { s1.nextBs with huf := lit.huf } with seq := sq.1 }
  match sq.2 with
  | none => (s2, [])
  | some o =>
    let payload := lit.bytes ++ o.bytes
    (s2.setNextBs (s2.nextBs.withFse o), if payload.length + minGain n ≥ n then [] else payload)

/-- `BlockBody(src, n)` (R288): the state after, the block type and the payload. -/
def blockBody (s : State) (src n : Nat) : State × Nat × List Byte :=
  let bytes := s.mem.readBytes src n
  let r := if n < Config.minCBlockInput then (s.seqReset, []) else blockPayload s.seqReset src n
  if r.2 = [] then (r.1, 0, bytes)
  else if !s.isFirstBlock ∧ r.2.length < Config.rleMaxCSize ∧ allEqual bytes then (r.1, 1, bytes.take 1)
  else (r.1.swapBs, 2, r.2)

/-- A block with its header (30_encoding.md R69). -/
def blockUnit (last : Bool) (typ n : Nat) (payload : List Byte) : List Byte :=
  leBytes 3 (last.toNat + typ * 2 + (if typ = 2 then payload.length else n) * 2 ^ 3) ++ payload

/-- The window work of `BlockStep` (R292), before any table is read for the block. -/
def blockWindow (s : State) (src n : Nat) : State :=
  let s1 :=
    if s.p.needsCorrection (s.idx (src + n)) then winCorrectOverflow s s.p.cycleLog s.p.windowSize (s.idx src) else s
  winEnforceMaxDist s1 (s1.idx (src + n)) s.p.windowSize

/-- `BlockStep(src, n, last, dstPos, capLeft)` (R292): the state after, and the bytes written and the type; `none` is
`raise DstTooSmall`. -/
def blockStep (s : State) (src n : Nat) (last : Bool) (dstPos capLeft : Nat) : State × Option (Nat × Nat) :=
  let b := blockBody (blockWindow s src n) src n
  let u := blockUnit last b.2.1 n b.2.2
  let s1 : State := { b.1 with freeCtr := b.1.freeCtr + 1 }
  if u.length > capLeft then (s1.setUnspec, none)
  else ({ s1.writeDst dstPos u with isFirstBlock := false }, some (u.length, b.2.1))

/-- `BLOCK_COMPRESS` (R292). -/
def execBlockCompress (m : Byte) (s : State) : Host.Outcome State Fault Refusal :=
  (gated (decide (s.stage = .ongoing)) s <|
    require (decide (s.op1.toNat ≤ s.p.blockSizeMax) && s.spanOk s.w s.op0 s.op1 && s.rangeOk s.op2 s.op3) .paramInvalid s <|
    requireDisjoint s s.op0.toNat s.op1.toNat s.op2.toNat s.op3.toNat <|
    let r := blockStep s s.op0.toNat s.op1.toNat (modBit0 m) s.op2.toNat s.op3.toNat
    match r.2 with
    | none => .err .dstTooSmall (r.1.setRes0 0)
    | some k =>
      let s1 := (r.1.setRes0 k.1).setRes1 k.2
      .ok (if modBit0 m then { s1 with stage := .ending } else s1)).outcome

/-! ## Frames -/

/-- `PledgeCheck(n, lastChunk)` passes (R294). -/
def State.pledgeOk (s : State) (n : Nat) (lastChunk : Bool) : Bool :=
  decide (s.p.pledged.toNat = Config.pledgeUnknown ∨
    (s.consumed.toNat + n ≤ s.p.pledged.toNat ∧ (lastChunk = true → s.consumed.toNat + n = s.p.pledged.toNat)))

/-- The loop of `FrameBody` (R293) over the blocks left: the state, the bytes written so far, and whether every unit fit. -/
def frameBlocks (lastChunk : Bool) (dst cap : Nat) : Nat → State → Nat → Nat → Nat → State × Nat × Bool
  | 0, s, _, _, w => (s, w, true)
  | fuel + 1, s, p, rem, w =>
    if rem = 0 then (s, w, true)
    else
      let b := min rem s.p.blockSizeMax
      let r := blockStep s p b (lastChunk && b == rem) (dst + w) (cap - w)
      match r.2 with
      | none => (r.1, w, false)
      | some k => frameBlocks lastChunk dst cap fuel r.1 (p + b) (rem - b) (w + k.1)

/-- The chunk taken into the window and the checksum input (R293, R295). -/
def State.takeChunk (s : State) (src n : Nat) : State :=
  let s1 := (winAppend s src n).1
  if s.p.checksumFlag then { s1 with chk := s1.chk ++ s.mem.readBytes src n } else s1

/-- `FrameBody` after its checks and its header (R293). -/
def frameChunk (s : State) (src n dst cap : Nat) (lastChunk : Bool) (w : Nat) : State × Nat × Bool :=
  if n = 0 then (s, w, true)
  else
    let r := frameBlocks lastChunk dst cap (n / s.p.blockSizeMax + 1) (s.takeChunk src n) src n w
    if r.2.2 then ({ r.1 with consumed := fit 64 s.freeCtr 5 (s.consumed.toNat + n) }, r.2) else r

/-- The frame header, written with the first frame command of a frame (R293): the state after and the bytes written; `none`
when it does not fit. -/
def State.writeHeader (s : State) (dst cap : Nat) : Option (State × Nat) :=
  if s.stage = .initialized then
    if s.frameHeader.length > cap then none
    else some ({ s.writeDst dst s.frameHeader with stage := .ongoing }, s.frameHeader.length)
  else some (s, 0)

/-- A unit of the epilogue (R296), when it fits in what is left. -/
def State.writeTail (s : State) (dst cap w : Nat) (bytes : List Byte) : Option (State × Nat) :=
  if bytes.length > cap - w then none else some (s.writeDst (dst + w) bytes, w + bytes.length)

/-- `DstTooSmall` in a unit of a frame (R292, R296, R328): the frame is lost. -/
def State.lostFrame (s : State) (w : Nat) : Done := .err .dstTooSmall (s.setUnspec.setRes0 w)

/-- The empty raw block that carries the last flag (R296). -/
def emptyLast : List Byte := [0x01, 0x00, 0x00]

/-- The checksum bytes (30_encoding.md R71). -/
def State.checksumBytes (s : State) : List Byte := leBytes 4 (checksum64 s.impl.checksum s.chk % 2 ^ 32)

/-- The end of a successful frame command (R293, R296). -/
def State.frameResult (s : State) (w n : Nat) : State := (s.setRes0 w).setRes1 n

/-- The epilogue of `FRAME_END` (R296): `w` bytes of the frame are written already. -/
def frameEpilogue (s : State) (n dst cap w : Nat) : Done :=
  match (if n = 0 then s.writeTail dst cap w emptyLast else some (s, w)) with
  | none => s.lostFrame w
  | some (s1, w1) =>
    match (if s.p.checksumFlag then s1.writeTail dst cap w1 s.checksumBytes else some (s1, w1)) with
    | none => s1.lostFrame w1
    | some (s2, w2) => .ok { s2.frameResult w2 n with stage := .created }

/-- The checks that FRAME_CONTINUE and FRAME_END share (R293, R294). -/
def frameChecked (s : State) (lastChunk : Bool) (k : Done) : Done :=
  gatedIO s <|
    require (s.rangeOk s.op0 s.op1 && s.rangeOk s.op2 s.op3 && decide (s.cur + s.op1.toNat < 2 ^ s.impl.addrW)) .paramInvalid s <|
    require (s.pledgeOk s.op1.toNat lastChunk) .srcSizeMismatch s <|
    requireDisjoint s s.op0.toNat s.op1.toNat s.op2.toNat s.op3.toNat k

/-- The work that FRAME_CONTINUE and FRAME_END share (R293), then `finish` on the state and the bytes written. -/
def frameWork (s : State) (lastChunk : Bool) (finish : State → Nat → Done) : Done :=
  match s.writeHeader s.op2.toNat s.op3.toNat with
  | none => .err .dstTooSmall (s.setRes0 0)
  | some (s1, w) =>
    let r := frameChunk s1 s.op0.toNat s.op1.toNat s.op2.toNat s.op3.toNat lastChunk w
    if r.2.2 then finish r.1 r.2.1 else .err .dstTooSmall (r.1.setRes0 r.2.1)

/-- `FRAME_CONTINUE` (R293). -/
def execFrameContinue (s : State) : Host.Outcome State Fault Refusal :=
  (frameChecked s false <|
    frameWork s false (fun s1 w => .ok (s1.frameResult w s.op1.toNat))).outcome

/-- `FRAME_END` (R296). -/
def execFrameEnd (s : State) : Host.Outcome State Fault Refusal :=
  (frameChecked s true <|
    frameWork s true (fun s1 w => frameEpilogue s1 s.op1.toNat s.op2.toNat s.op3.toNat w)).outcome

end Sys2Proof.Machine
end

