-- ==== Sys2Proof/Machine/Dict.lean ====
section
/-! DEFINITION. Dictionaries: the descriptor, DICT_LOAD, DMS_BUILD, DICT_ATTACH (48_frame_assembler.md section 6). -/

namespace Sys2Proof.Machine

open Sys2Proof

/-! ## The descriptor (R307) -/

/-- A table of the descriptor: `norm` lists all the entries its field has room for. -/
structure DescTable where
  maxSV : Nat
  tableLog : Nat
  norm : List (BitVec 16)
  deriving DecidableEq, Repr

/-- A parsed descriptor (R307). -/
structure Descriptor where
  rep0 : Nat
  rep1 : Nat
  rep2 : Nat
  hufMaxSV : Nat
  hufTableLog : Nat
  /-- The 256 code lengths, "entries above hufMaxSV are ignored and taken as 0". -/
  hufNbBits : List Nat
  of : DescTable
  ml : DescTable
  ll : DescTable
  deriving DecidableEq, Repr

/-- The unsigned little-endian number of `n` bytes at an offset of the descriptor. -/
def fieldAt (bytes : List Byte) (off n : Nat) : Nat := leVal ((bytes.drop off).take n)

/-- `n` 16-bit entries of the descriptor from an offset up. -/
def normsAt (bytes : List Byte) : Nat → Nat → List (BitVec 16)
  | _, 0 => []
  | off, n + 1 => BitVec.ofNat 16 (fieldAt bytes off 2) :: normsAt bytes (off + 2) n

/-- A table of the descriptor: `maxSV`, `tableLog`, then `n` entries. -/
def tableAt (bytes : List Byte) (off n : Nat) : DescTable :=
  { maxSV := fieldAt bytes off 1, tableLog := fieldAt bytes (off + 1) 1, norm := normsAt bytes (off + 2) n }

/-- `ParseDescriptor` (R307). -/
def parseDescriptor (bytes : List Byte) : Descriptor :=
  let maxSV := fieldAt bytes 12 1
  { rep0 := fieldAt bytes 0 4, rep1 := fieldAt bytes 4 4, rep2 := fieldAt bytes 8 4,
    hufMaxSV := maxSV, hufTableLog := fieldAt bytes 13 1,
    hufNbBits := (List.range 256).map (fun k => if k ≤ maxSV then fieldAt bytes (16 + k) 1 else 0),
    of := tableAt bytes 272 32, ml := tableAt bytes 338 53, ll := tableAt bytes 446 36 }

/-- The entries of a table up to its `maxSV`. -/
def DescTable.used (t : DescTable) : List (BitVec 16) := t.norm.take (t.maxSV + 1)

/-- The FSE checks of `DescriptorValid` (R307); `svOk` is its condition on `maxSV`. -/
def DescTable.valid (t : DescTable) (need maxLog : Nat) (svOk : Bool) : Bool :=
  svOk && decide (5 ≤ t.tableLog ∧ t.tableLog ≤ maxLog) && t.used.all (fun v => decide (-1 ≤ v.toInt)) &&
    decide (sumOf (t.used.map (fun v => v.toInt.natAbs)) = 2 ^ t.tableLog) &&
    decide (need + 1 ≤ t.used.length) && (t.used.take (need + 1)).all (fun v => decide (v ≠ 0))

/-- The Huffman checks of `DescriptorValid` (R307). -/
def Descriptor.hufValid (d : Descriptor) : Bool :=
  decide (1 ≤ d.hufTableLog ∧ d.hufTableLog ≤ Config.hufTableLogMax) &&
    d.hufNbBits.all (fun n => decide (n ≤ d.hufTableLog)) && d.hufNbBits.any (fun n => n == d.hufTableLog) &&
    decide (sumOf ((d.hufNbBits.filter (fun n => n ≠ 0)).map (fun n => 2 ^ (d.hufTableLog - n))) = 2 ^ d.hufTableLog)

/-- `DescriptorValid(d, len)` (R307). -/
def Descriptor.valid (d : Descriptor) (len : Nat) : Bool :=
  let ofMax := min (highbit (len + 131072)) 31
  decide (1 ≤ d.rep0 ∧ d.rep0 ≤ len ∧ 1 ≤ d.rep1 ∧ d.rep1 ≤ len ∧ 1 ≤ d.rep2 ∧ d.rep2 ≤ len) &&
    d.of.valid ofMax 8 (decide (ofMax ≤ d.of.maxSV ∧ d.of.maxSV ≤ 31)) &&
    d.ml.valid 52 9 (decide (d.ml.maxSV = 52)) && d.ll.valid 35 9 (decide (d.ll.maxSV = 35)) && d.hufValid

/-- An FSE slot installed from a descriptor (R308): mode *valid*. -/
def DescTable.slot (t : DescTable) : FseState :=
  { norm := t.used, maxSV := BitVec.ofNat 8 t.maxSV, tableLog := BitVec.ofNat 4 t.tableLog, mode := .valid }

/-- `Install(bs, d)` (R308): the whole Compressed Block State. -/
def Descriptor.install (d : Descriptor) : BlockState :=
  { rep := { r0 := BitVec.ofNat 32 d.rep0, r1 := BitVec.ofNat 32 d.rep1, r2 := BitVec.ofNat 32 d.rep2 }
    huf := { nbBits := d.hufNbBits.map (BitVec.ofNat 4), maxSV := BitVec.ofNat 8 d.hufMaxSV,
             tableLog := BitVec.ofNat 4 d.hufTableLog,
             mode := if d.hufMaxSV = 255 ∧ d.hufNbBits.all (fun n => decide (n ≠ 0)) = true then .valid else .check }
    fseLL := d.ll.slot, fseOF := d.of.slot, fseML := d.ml.slot }

/-- The descriptor the operands name (R306, R309). -/
def State.descriptor (s : State) : Descriptor := parseDescriptor (s.mem.readBytes s.op2.toNat Config.descriptorSize)

/-- `OP2 = 0`, or the descriptor passes (R306, R309). -/
def State.descriptorOk (s : State) : Bool := decide (s.op2 = 0) || s.descriptor.valid s.op1.toNat

/-- The operand checks DICT_LOAD and DMS_BUILD share (R306, R309), the length's apart. -/
def State.dictOperandsOk (s : State) : Bool :=
  s.rangeOk s.op0 s.op1 && decide (s.op3.toNat < 2 ^ 32) &&
    (decide (s.op2 = 0) || s.rangeOk s.op2 (BitVec.ofNat 64 Config.descriptorSize))

/-! ## DICT_LOAD (R306) -/

/-- The content taken into the window and the tables (R306), for a content that is not empty. -/
def dictContent (s : State) (src len : Nat) (full : Bool) : State :=
  let s1 := (winAppend s src len).1
  let e := s1.idx (src + len)
  let m := { s1.ms with loadedDictEnd := word32 e }
  let m1 := if len > Config.hashRead then tabFill s1.view m e full else m
  let s2 : State := { s1 with ms := { m1 with nextToUpdate := word32 e } }
  if s.p.ldmEnable then
    let aw := s.impl.addrW
    let V : LdmView :=
      { byte := ldmByte s.mem aw s.freeCtr s2.ldm.w, low := s2.ldm.w.lowLimit.toNat, p := s.p, hash := s.impl.ldmHash,
        ctr := s.freeCtr }
    { s2 with ldm := s2.ldm.fill V (s2.ldm.w.idx aw src) (s2.ldm.w.idx aw src + len) }
  else s2

/-- The content step of `DICT_LOAD`; with `len = 0` only `loadedDictEnd` moves, to `Cur(W)` (R306, log 17). -/
def dictLoadContent (s : State) (src len : Nat) (full : Bool) : State :=
  if len = 0 then { s with ms := { s.ms with loadedDictEnd := word32 s.cur } } else dictContent s src len full

/-- `DICT_LOAD` (R306). -/
def execDictLoad (m : Byte) (s : State) : Host.Outcome State Fault Refusal :=
  (gated (decide (s.stage = .initialized)) s <|
    require (s.dictOperandsOk && decide (s.cur + s.op1.toNat < 2 ^ 32)) .paramInvalid s <|
    require s.descriptorOk .dictCorrupted s <|
    let s1 := dictLoadContent s s.op0.toNat s.op1.toNat (modBit0 m)
    let s2 := if s.op2 = 0 then s1 else s1.setPrev s.descriptor.install
    .ok { s2 with dictID := s.op3.setWidth 32 }).outcome

/-! ## DMS_BUILD (R309) -/

/-- `DMS.P`: the seven compression parameters of CFG, "without frame flags" (R309, 10_state.md R25; log 30). -/
def CfgRegs.bankParams (c : CfgRegs) : Latched :=
  { Latched.zero with
    windowLog := c.windowLog, hashLog := c.hashLog, chainLog := c.chainLog, searchLog := c.searchLog,
    minMatch := c.minMatch, targetLength := c.targetLength, strategy := c.strategy }

/-- `DMS.W` (R309): content at indices 1 to `len`. -/
def bankWindow (aw src len : Nat) : Window :=
  { base := BitVec.ofNat 64 (subA aw src 1), dictBase := 0, nextSrc := BitVec.ofNat 64 ((src + len) % 2 ^ aw),
    dictLimit := 1, lowLimit := 1 }

/-- What the fill of the bank reads (R309): the content at indices 1 to `len`; outside them no byte is defined, and the
value is free (log 15). -/
def bankView (s : State) (p : Latched) (w : Window) (len : Nat) : View :=
  { byte := fun v =>
      if 1 ≤ v ∧ v ≤ len then s.mem.read (addA s.impl.addrW w.base.toNat v) else Config.freeBits 8 s.freeCtr v
    low := 1, histLow := 1, mode := .plain, dmsDelta := 0, p := p, hash := s.impl.hash, dms := s.dms }

/-- The tables of the bank before the fill: "no 3-byte table" (R309). -/
def Latched.bankMs (p : Latched) : MatchState := { p.freshMs with hashTable3 := .absent }

/-- The bank `DMS_BUILD` builds (R309). -/
def buildBank (s : State) : DmsBank :=
  let p := s.cfg.bankParams
  let len := s.op1.toNat
  let w := bankWindow s.impl.addrW s.op0.toNat len
  let m := if len > Config.hashRead then tabFill (bankView s p w len) p.bankMs (1 + len) true else p.bankMs
  { valid := true, p := p, w := w, hashTable := m.hashTable, chainTable := m.chainTable, endIdx := word32 (1 + len)
    bs := if s.op2 = 0 then initBlockState s.freeCtr 0 else s.descriptor.install
    dictID := s.op3.setWidth 32 }

/-- `DMS_BUILD` (R309): outside the lost-frame gate (60_exceptions.md R327). -/
def execDmsBuild (s : State) : Host.Outcome State Fault Refusal :=
  (gateFatal s <| gateStage (!s.ms.dmsAttached) s <|
    require s.cfg.coreValid .paramInvalid s <|
    require (s.dictOperandsOk && decide (s.op1.toNat + 1 < 2 ^ 32)) .paramInvalid s <|
    require (decide (s.cfg.baseEntries ≤ s.impl.tabCap)) .memory s <|
    require s.descriptorOk .dictCorrupted s <|
    .ok { s with dms := buildBank s }).outcome

/-! ## DICT_ATTACH (R310) -/

/-- The reference to the bank taken (R310). -/
def State.attach (s : State) : State :=
  let s1 : State :=
    { s with
      w := { s.w with
        nextSrc := BitVec.ofNat 64 (addA s.impl.addrW s.w.base.toNat s.dms.endIdx.toNat)
        dictLimit := s.dms.endIdx
        lowLimit := s.dms.endIdx }
      ms := { s.ms with dmsAttached := true, nextToUpdate := s.dms.endIdx, loadedDictEnd := s.dms.endIdx }
      dictID := s.dms.dictID }
  s1.setPrev s.dms.bs

/-- `DICT_ATTACH` (R310). -/
def execDictAttach (s : State) : Host.Outcome State Fault Refusal :=
  (gated (decide (s.stage = .initialized)) s <|
    require (s.dms.valid && decide (s.dms.p.layout = s.p.layout ∧ s.cur = 1)) .paramInvalid s <|
    .ok (if s.dms.endIdx = 1 then s else s.attach)).outcome

end Sys2Proof.Machine
end

