-- ==== Sys2Proof/Machine/Derive.lean ====
section
/-! DEFINITION. PARAMS_DERIVE (48_frame_assembler.md section 7). -/

namespace Sys2Proof.Machine

open Sys2Proof Sys2Proof.Config

/-- A row of the table, in the column order of R313. -/
def lrow (wl cl hl sl mm tl st : Nat) : LevelRow :=
  { windowLog := wl, chainLog := cl, hashLog := hl, searchLog := sl, minMatch := mm, targetLength := tl, strategy := st }

/-- The default LEVEL_TABLE (R313). -/
def levelPreset : List LevelRow :=
  [lrow 19 12 13 1 6 1 1, lrow 19 13 14 1 7 0 1, lrow 20 15 16 1 6 0 1, lrow 21 16 17 1 5 0 2, lrow 21 18 18 1 5 0 2,
   lrow 21 18 19 3 5 2 3, lrow 21 18 19 3 5 4 4, lrow 21 19 20 4 5 8 4] ++
  [lrow 21 19 20 4 5 16 5, lrow 22 20 21 4 5 16 5, lrow 22 21 22 5 5 16 5, lrow 22 21 22 6 5 16 5, lrow 22 22 23 6 5 32 5,
   lrow 22 22 22 4 5 32 6, lrow 22 22 23 5 5 32 6, lrow 22 23 23 6 5 32 6] ++
  [lrow 22 22 22 5 5 48 7, lrow 23 23 22 5 4 64 7, lrow 23 23 22 6 3 64 8, lrow 23 24 22 7 3 256 8, lrow 25 25 23 7 3 256 8,
   lrow 26 26 24 7 3 512 8, lrow 27 27 25 9 3 999 8]

/-- The rows of the machine's LEVEL_TABLE (R313). -/
def levelRows (t : LevelTable) : List LevelRow :=
  match t with
  | .preset => levelPreset
  | .rows rs => rs

/-- The row a level selects (R311). -/
def levelIndex (lvl : Int) : Nat := if lvl = 0 then 3 else if 0 < lvl then min lvl.toNat 22 else 0

/-- `srcLog` (R314): the smallest log with `2^log >= t`, at least 6. -/
def srcLog (t : Nat) : Nat := if t < 64 then 6 else highbit (t - 1) + 1

/-- `Adjust` (R314): window, chain and hash log. -/
def adjust (wl cl hl st src dict : Nat) : Nat × Nat × Nat :=
  let src := if src = pledgeUnknown ∧ 0 < dict then 513 else src
  let wl := if src < 2 ^ 30 ∧ dict < 2 ^ 30 then min wl (srcLog (src + dict)) else wl
  let hl := min hl (wl + 1)
  let cyc := if 6 ≤ st then cl - 1 else cl
  let cl := cl - (cyc - wl)
  (max wl 10, cl, hl)

/-- `Pack` (R312). -/
def pack (wl hl cl sl mm st : Nat) : Nat :=
  wl + hl * 2 ^ 8 + cl * 2 ^ 16 + sl * 2 ^ 24 + mm * 2 ^ 32 + st * 2 ^ 40

/-- The packed parameters and the target length of a level and two hints (R311). -/
def deriveParams (t : LevelTable) (lvl : Int) (src dict : Nat) : Nat × Nat :=
  let r := (levelRows t).getD (levelIndex lvl) (lrow 19 12 13 1 6 1 1)
  let a := adjust r.windowLog r.chainLog r.hashLog r.strategy src dict
  (pack a.1 a.2.2 a.2.1 r.searchLog r.minMatch r.strategy, if lvl < 0 then min (-lvl).toNat 131072 else r.targetLength)

/-- `PARAMS_DERIVE` (R311): outside the lost-frame gate (60_exceptions.md R327). -/
def execParamsDerive (s : State) : Host.Outcome State Fault Refusal :=
  (gateFatal s <|
    let r := deriveParams s.impl.levels (levelOperand s.op0) s.op1.toNat s.op2.toNat
    .ok ((s.setRes0 r.1).setRes1 r.2)).outcome

end Sys2Proof.Machine
end

