-- ==== Sys2Proof/Machine/Debug.lean ====
section
/-! DEFINITION. DBG_READ (20_memory.md R49, R56). -/

namespace Sys2Proof.Machine

open Sys2Proof

/-- An entry of a table at an index below its bound (R49). -/
def Table.debug (t : Table) (i : Nat) : Option Nat := if i < t.size then some (t.get i) else none

/-- A field of the LDM table (R49), only while `P.ldmEnable = 1`. -/
def State.ldmDebug (s : State) (i : Nat) (field : LdmEntry → Word) : Option Nat :=
  if s.p.ldmEnable ∧ i < 2 ^ s.p.ldmHashLog.toNat then some (field (s.ldm.entry i)).toNat else none

/-- A unit of the TAB space (R49). -/
def State.debugTab (s : State) (sel i : Nat) : Option Nat :=
  match sel with
  | 0 => s.ms.hashTable.debug i
  | 1 => s.ms.chainTable.debug i
  | 2 => s.ms.hashTable3.debug i
  | 3 => if s.dms.valid then s.dms.hashTable.debug i else none
  | 4 => if s.dms.valid then s.dms.chainTable.debug i else none
  | 5 => s.ldmDebug i LdmEntry.offset
  | 6 => s.ldmDebug i LdmEntry.checksum
  | _ => none

/-- A code of the Sequence Store, only while `SEQ.codesValid = 1` (R49). -/
def SeqStore.codeDebug (q : SeqStore) (i : Nat) (field : Codes → Byte) : Option Nat :=
  if q.codesValid ∧ i < q.seqs.length then (q.codes[i]?).map (fun c => (field c).toNat) else none

/-- A unit of the SEQ space (R49). -/
def SeqStore.debug (q : SeqStore) (sel i : Nat) : Option Nat :=
  match sel with
  | 0 => (q.seqs[i]?).map (fun t => t.offset.toNat)
  | 1 => (q.seqs[i]?).map (fun t => t.litLength.toNat)
  | 2 => (q.seqs[i]?).map (fun t => t.matchLength.toNat)
  | 3 => (q.lit[i]?).map BitVec.toNat
  | 4 => q.codeDebug i Codes.ll
  | 5 => q.codeDebug i Codes.of
  | 6 => q.codeDebug i Codes.ml
  | _ => none

/-- The unit that `space` (0 TAB, 1 SEQ) and a 36-bit address name; `none` when it cannot be read (R49, R56). -/
def State.debugRead (s : State) (space addr : DWord) : Option Nat :=
  if space.toNat > 1 ∨ 2 ^ 36 ≤ addr.toNat then none
  else if space = 0 then s.debugTab (debugSel addr) (debugIndex addr)
  else s.seq.debug (debugSel addr) (debugIndex addr)

/-- `DBG_READ` (R56): legal in every stage and under `STATUS.fatal`, not under `STATUS.unspec` (60_exceptions.md R327). -/
def execDbgRead (s : State) : Host.Outcome State Fault Refusal :=
  (gateUnspec s <|
    match s.debugRead s.op0 s.op1 with
    | none => .err .paramInvalid s
    | some v => .ok (s.setRes0 v)).outcome

end Sys2Proof.Machine
end

