-- ==== Sys2Proof/Machine/Dispatch.lean ====
section
/-! DEFINITION. The dispatch: one arm per command, in the order of 30_encoding.md R62. -/

namespace Sys2Proof.Machine

open Sys2Proof

/-- What a legal command does (30_encoding.md R62). -/
def exec (i : Instr) (s : State) : Host.Outcome State Fault Refusal :=
  match i with
  | .ctxInit => Sys2Proof.Machine.execCtxInit s
  | .paramsDerive => Sys2Proof.Machine.execParamsDerive s
  | .dictLoad m => Sys2Proof.Machine.execDictLoad m s
  | .dictAttach => Sys2Proof.Machine.execDictAttach s
  | .frameContinue => Sys2Proof.Machine.execFrameContinue s
  | .frameEnd => Sys2Proof.Machine.execFrameEnd s
  | .blockCompress m => Sys2Proof.Machine.execBlockCompress m s
  | .dmsBuild => Sys2Proof.Machine.execDmsBuild s
  | .winAppend => Sys2Proof.Machine.execWinAppend s
  | .winEnforceMaxdist => Sys2Proof.Machine.execWinEnforceMaxdist s
  | .winNeedsCorrection => Sys2Proof.Machine.execWinNeedsCorrection s
  | .winCorrectOverflow => Sys2Proof.Machine.execWinCorrectOverflow s
  | .tabFill m => Sys2Proof.Machine.execTabFill m s
  | .h1Insfind => Sys2Proof.Machine.execH1Insfind s
  | .dhInsfind => Sys2Proof.Machine.execDhInsfind s
  | .hcInsfind => Sys2Proof.Machine.execHcInsfind s
  | .hcSearch => Sys2Proof.Machine.execHcSearch s
  | .btUpdate => Sys2Proof.Machine.execBtUpdate s
  | .btSearch => Sys2Proof.Machine.execBtSearch s
  | .h3Insfind => Sys2Proof.Machine.execH3Insfind s
  | .blkMatch => Sys2Proof.Machine.execBlkMatch s
  | .ldmGenerate => Sys2Proof.Machine.execLdmGenerate s
  | .ldmBlkMatch => Sys2Proof.Machine.execLdmBlkMatch s
  | .seqReset => Sys2Proof.Machine.execSeqReset s
  | .seqStore => Sys2Proof.Machine.execSeqStore s
  | .seqLastlit => Sys2Proof.Machine.execSeqLastlit s
  | .seqToCodes => Sys2Proof.Machine.execSeqToCodes s
  | .litCompress => Sys2Proof.Machine.execLitCompress s
  | .seqEncode => Sys2Proof.Machine.execSeqEncode s
  | .dbgRead => Sys2Proof.Machine.execDbgRead s

end Sys2Proof.Machine
end

