-- ==== Sys2Proof/Machine/Launch.lean ====
section
/-! DEFINITION. The host duty of history stability (20_memory.md R48, 70_reset_and_hazards.md R356 duty 2): which bytes are live
history, what a host store that changes one leaves, and which command launches the model then makes no claim about (log 13). -/

namespace Sys2Proof.Machine

open Sys2Proof

/-! ## The host's store -/

/-- One more than the highest index of `W` at which address `a` is live history: in the prefix or in the external dictionary
(20_memory.md R44 (a)); 0 when it is not. -/
def State.liveTop (s : State) (a : Nat) : Nat :=
  let i := s.idx a
  let j := subA s.impl.addrW a s.w.dictBase.toNat
  if !s.windowLive then 0
  else if s.w.dictLimit.toNat ≤ i ∧ i < s.cur then i + 1
  else if s.w.lowLimit.toNat ≤ j ∧ j < s.w.dictLimit.toNat then j + 1
  else 0

/-- Address `a` holds a byte of the content a valid bank refers to (20_memory.md R44 (b), R356 duty 2). -/
def State.liveBank (s : State) (a : Nat) : Bool := s.dms.covers s.impl.addrW a 1

/-- The record of changed history after the host has stored `v` at `a`; storing the byte that is there already changes
nothing, and an address of more than `ADDR_W` bits is no address of the engine's, so no live byte (log 41). -/
def State.changedBy (s : State) (a : Nat) (v : Byte) : Changed :=
  if s.mem.read a = v ∨ 2 ^ s.impl.addrW ≤ a then s.changed
  else { window := max s.changed.window (s.liveTop a), bank := s.changed.bank || s.liveBank a }

/-- The host changes a byte of its memory between commands (20_memory.md R50). At or above `2^ADDR_W` the spec is silent: the
byte is kept at its full address, where no command reaches it (log 41). -/
def State.hostStore (s : State) (a : Nat) (v : Byte) : State :=
  { s with mem := s.mem.write a v, changed := s.changedBy a v }

/-! ## The command launched after it -/

/-- The commands whose procedure reads bytes of the history: through `HistByte`, `LdmByte` or a named range of the window. -/
def readsHistory (i : Instr) : Bool :=
  match i with
  | .dictLoad _ | .frameContinue | .frameEnd | .blockCompress _ | .tabFill _ | .h1Insfind | .dhInsfind | .hcInsfind
  | .hcSearch | .btUpdate | .btSearch | .h3Insfind | .blkMatch | .ldmGenerate | .ldmBlkMatch | .seqStore | .seqLastlit => true
  | .ctxInit | .paramsDerive | .dictAttach | .dmsBuild | .winAppend | .winEnforceMaxdist | .winNeedsCorrection
  | .winCorrectOverflow | .seqReset | .seqToCodes | .litCompress | .seqEncode | .dbgRead => false

/-- The commands that append their own source range to the window before they read it (48_frame_assembler.md R293, R306). -/
def appendsFirst (i : Instr) : Bool :=
  match i with
  | .dictLoad _ | .frameContinue | .frameEnd => true
  | .ctxInit | .paramsDerive | .dictAttach | .blockCompress _ | .dmsBuild | .winAppend | .winEnforceMaxdist
  | .winNeedsCorrection | .winCorrectOverflow | .tabFill _ | .h1Insfind | .dhInsfind | .hcInsfind | .hcSearch | .btUpdate
  | .btSearch | .h3Insfind | .blkMatch | .ldmGenerate | .ldmBlkMatch | .seqReset | .seqStore | .seqLastlit | .seqToCodes
  | .litCompress | .seqEncode | .dbgRead => false

/-- The state in which a command begins to read: its own append is done, so what that append drops of the external dictionary
("the one overlap the engine does detect", 93_implementation_defined.md U12, 40_window.md R91) is no history any more. -/
def State.atReading (i : Instr) (s : State) : State :=
  if appendsFirst i then (winAppend s s.op0.toNat s.op1.toNat).1 else s

/-- The command would read a history of which the host has changed a live byte: a launch "in violation" (R356 duty 2). -/
def State.historyBroken (i : Instr) (s : State) : Bool :=
  let u := s.atReading i
  readsHistory i && s.windowLive &&
    (decide (u.w.lowLimit.toNat < s.changed.window) || (s.changed.bank && u.ms.dmsAttached))

/-- The command from `s` to `t` passed its checks and did its work, or some of it: not turned away by a check of
60_exceptions.md R327, nor by a frame header that does not fit (R331). -/
def worked (s t : State) : Bool :=
  t.status.code == 0 || t.status.unspec != s.status.unspec || t.status.fatal != s.status.fatal

/-- The record of changed history after a command: `CTX_INIT` empties the window, a command that has read the history found
it unchanged, a correction moves every index (40_window.md R98), `DMS_BUILD` refers to other content. -/
def Changed.after (i : Instr) (s t : State) : Changed :=
  if worked s t then
    { window := if i = .ctxInit ∨ readsHistory i = true then 0 else s.changed.window - (s.cur - t.cur)
      bank := s.changed.bank && i != .dmsBuild }
  else s.changed

/-- What a launch adds to a command's outcome `o` from `s`: "refused launch" for a command that works on changed history,
the record kept for the others (R356 duty 2). A command that its checks turn away reads no history and ends as they say. -/
def State.launch (i : Instr) (s : State) (o : Host.Outcome State Fault Refusal) : Host.Outcome State Fault Refusal :=
  match o with
  | .next t =>
    if s.historyBroken i && worked s t then .refused .historyChanged else .next { t with changed := .after i s t }
  | .fault f => .fault f
  | .refused r => .refused r

end Sys2Proof.Machine
end

