-- ==== Sys2Proof/Machine/Step.lean ====
section
/-! DEFINITION. One step of the machine: one host action (00_scope.md R3, 20_memory.md R50; log 1). -/

namespace Sys2Proof.Machine

open Sys2Proof

/-- A write to `CMD` starts a command (10_state.md R13): the word is kept, decoded, and run, unless the launch violates the
host's duty to leave the history as it is (log 13); an illegal word ends with `ParamInvalid` and nothing else changes
(30_encoding.md R63). -/
def runCommand (v : DWord) (s : State) : Host.Outcome State Fault Refusal :=
  let s1 : State := { s with cmd := v.setWidth 32 }
  match decode s1.cmd with
  | .illegal _ => .next (s1.raise .paramInvalid)
  | .ok i => s1.launch i (exec i s1)

/-- Hardware reset (70_reset_and_hazards.md R345): every register and table, not the host's memory and not the model's own
fields, but for the record of changed history, no history being live any more. -/
def hardReset (s : State) : State :=
  { State.reset with
    impl := s.impl, host := s.host, lastRead := s.lastRead, freeCtr := s.freeCtr, mem := s.mem }

/-- One host action. -/
def hostAct (a : HostAction) (s : State) : Host.Outcome State Fault Refusal :=
  match a with
  | .write 0 v => runCommand v s
  | .write (n + 1) v => .next (s.writeReg (n + 1) v)
  | .read n => .next { s with lastRead := s.readReg n }
  | .store a v => .next (s.hostStore a.toNat v)
  | .reset => .next (hardReset s)

/-- One step: the host's next action; "the engine does nothing until the host gives it a command" (00_scope.md R3), so with
no action pending the machine stays as it is. -/
def step (s : State) : Host.Outcome State Fault Refusal :=
  match s.host with
  | [] => .next s
  | a :: rest => hostAct a { s with host := rest, freeCtr := s.freeCtr + 1 }

/-- The state in which the next step starts exactly the command of a table row's word (log 2). -/
def State.withFetchWord (s : State) (nbits w : Nat) : State :=
  { s with host := .write 0 (BitVec.ofNat 64 (w % 2 ^ nbits)) :: s.host }

end Sys2Proof.Machine
end

