-- ==== Sys2Proof/Safety.lean ====
section
/-! DEFINITION. The terms in which claims about ACMF-1 are made: when a command is let through, what its operands must be,
which registers the host can write, and the invariants of a run. No machine definition uses this file. -/

namespace Sys2Proof

open Sys2Proof.Machine

namespace Machine

/-- A layout command's preconditions (41_tables.md R114, R117): its layout, its positions in the prefix, a hash read of 8
bytes inside what is there. -/
def State.tabOk (s : State) (layout : Bool) (p : DWord) (stop : Nat) : Bool :=
  layout && s.posOk p && decide (s.idx p.toNat + Config.hashRead ≤ stop)

/-- The same for a command with a position in `OP0` and an end in `OP1`. -/
def State.tabOk2 (s : State) (layout : Bool) : Bool :=
  layout && (s.posOk s.op0 && s.posOk s.op1) && decide (s.idx s.op0.toNat + Config.hashRead ≤ s.idx s.op1.toNat)

end Machine

/-! ## Which commands the checks of 60_exceptions.md R327 let through -/

/-- The "stages" column of 30_encoding.md R62. -/
def Instr.legalIn (i : Instr) (g : Stage) : Bool :=
  match i with
  | .ctxInit | .paramsDerive | .dmsBuild | .dbgRead => true
  | .dictLoad _ | .dictAttach => g == .initialized
  | .blockCompress _ => g == .ongoing
  | .frameContinue | .frameEnd | .winAppend | .winEnforceMaxdist | .winNeedsCorrection | .winCorrectOverflow
  | .tabFill _ | .h1Insfind | .dhInsfind | .hcInsfind | .hcSearch | .btUpdate | .btSearch | .h3Insfind | .blkMatch
  | .ldmGenerate | .ldmBlkMatch | .seqReset | .seqStore | .seqLastlit | .seqToCodes | .litCompress | .seqEncode =>
    g == .initialized || g == .ongoing

/-- The commands that run while `STATUS.fatal = 1` (60_exceptions.md R329). -/
def Instr.runsWhenFatal (i : Instr) : Bool := i == .dbgRead

/-- The commands that run while `STATUS.unspec = 1` (60_exceptions.md R330). -/
def Instr.runsWhenLost (i : Instr) : Bool := i == .ctxInit || i == .paramsDerive || i == .dmsBuild

/-- Checks 2 to 4 of 60_exceptions.md R327 pass. -/
def Instr.letThrough (i : Instr) (s : State) : Bool :=
  (i.runsWhenFatal || !s.status.fatal) && (i.runsWhenLost || !s.status.unspec) && i.legalIn s.stage &&
    (i != .dmsBuild || !s.ms.dmsAttached)

/-- The preconditions whose failure is `ParamInvalid`, command by command (60_exceptions.md R322, second column). -/
def Instr.operandsOk (i : Instr) (s : State) : Bool :=
  match i with
  | .ctxInit => s.cfg.valid
  | .paramsDerive | .seqReset | .seqToCodes => true
  | .dictLoad _ => s.dictOperandsOk && decide (s.cur + s.op1.toNat < 2 ^ 32)
  | .dictAttach => s.dms.valid && decide (s.dms.p.layout = s.p.layout ∧ s.cur = 1)
  | .frameContinue | .frameEnd =>
    s.rangeOk s.op0 s.op1 && s.rangeOk s.op2 s.op3 && decide (s.cur + s.op1.toNat < 2 ^ s.impl.addrW)
  | .blockCompress _ => decide (s.op1.toNat ≤ s.p.blockSizeMax) && s.spanOk s.w s.op0 s.op1 && s.rangeOk s.op2 s.op3
  | .dmsBuild => s.cfg.coreValid && s.dictOperandsOk && decide (s.op1.toNat + 1 < 2 ^ 32)
  | .winAppend => s.rangeOk s.op0 s.op1 && decide (s.cur + s.op1.toNat < 2 ^ 32)
  | .winEnforceMaxdist | .winNeedsCorrection | .tabFill _ => s.posOk s.op0
  | .winCorrectOverflow =>
    decide (s.op0.toNat ≤ 30) && s.posOk s.op2 &&
      decide (newCurOf s.op0.toNat s.op1.toNat (s.idx s.op2.toNat) < s.idx s.op2.toNat)
  | .h1Insfind => s.tabOk (decide (s.p.layout = .singleHash)) s.op0 s.cur
  | .dhInsfind => s.tabOk (decide (s.p.layout = .dualHash)) s.op0 s.cur
  | .hcInsfind => s.tabOk (decide (s.p.layout = .hashChain)) s.op0 s.cur
  | .hcSearch => s.tabOk2 (decide (s.p.layout = .hashChain))
  | .btUpdate => s.tabOk2 (decide (s.p.layout = .binaryTree))
  | .btSearch => s.tabOk2 (decide (s.p.layout = .binaryTree))
  | .h3Insfind => s.tabOk (decide (0 < s.p.hashLog3)) s.op0 s.cur
  | .blkMatch => s.blockOk s.op0 s.op1
  | .ldmGenerate =>
    s.p.ldmEnable && s.spanOk s.ldm.w s.op0 s.op1 && decide (s.op1.toNat / s.p.ldmMinMatch.toNat ≤ s.impl.ldmSeqCap)
  | .ldmBlkMatch => s.p.ldmEnable && s.blockOk s.op0 s.op1
  | .seqStore =>
    s.spanOk s.w s.op1 s.op0 && decide (1 ≤ s.op2.toNat ∧ s.op2.toNat < 2 ^ 32) &&
      decide (s.op0.toNat < 2 ^ 17 ∧ s.op3.toNat < 2 ^ 17) &&
      decide (s.seq.seqs.length < Config.seqCap ∧ s.seq.lit.length + s.op0.toNat ≤ Config.litCap)
  | .seqLastlit => s.spanOk s.w s.op0 s.op1 && decide (s.seq.lit.length + s.op1.toNat ≤ Config.litCap)
  | .litCompress | .seqEncode => s.rangeOk s.op0 s.op1
  | .dbgRead => (s.debugRead s.op0 s.op1).isSome

/-- The destination pair of a command that writes host memory: address and capacity (20_memory.md R45). -/
def Instr.destination (i : Instr) (s : State) : Option (Nat × Nat) :=
  match i with
  | .frameContinue | .frameEnd | .blockCompress _ => some (s.op2.toNat, s.op3.toNat)
  | .litCompress | .seqEncode => some (s.op0.toNat, s.op1.toNat)
  | .ctxInit | .paramsDerive | .dictLoad _ | .dictAttach | .dmsBuild | .winAppend | .winEnforceMaxdist
  | .winNeedsCorrection | .winCorrectOverflow | .tabFill _ | .h1Insfind | .dhInsfind | .hcInsfind | .hcSearch | .btUpdate
  | .btSearch | .h3Insfind | .blkMatch | .ldmGenerate | .ldmBlkMatch | .seqReset | .seqStore | .seqLastlit | .seqToCodes
  | .dbgRead => none

end Sys2Proof

namespace Sys2Proof.Machine

open Sys2Proof

/-- Both gates are open (60_exceptions.md R329, R330). -/
abbrev State.GatesOpen (s : State) : Prop := s.status.fatal = false ∧ s.status.unspec = false

/-- A unit command is let through: both gates open, stage *initialized* or *ongoing* (30_encoding.md R62). -/
abbrev State.Ready (s : State) : Prop := s.GatesOpen ∧ s.stage.isIO = true

/-- `STATUS.code <- c`, and nothing else changes. -/
def State.withCode (s : State) (c : Byte) : State := { s with status := { s.status with code := c } }

/-- The width of a register the host can write, by number; `none` for a read-only or undefined number
(10_state.md R13, R15). `CMD` (0) is not here: writing it starts a command. -/
def writableWidth (n : Nat) : Option Nat :=
  match n with
  | 2 | 3 | 4 | 5 | 24 => some 64
  | 16 | 17 | 18 | 19 | 20 | 22 | 23 | 25 | 26 | 28 => some 8
  | 21 => some 32
  | 27 => some 16
  | _ => none

/-- The register numbers 10_state.md defines. -/
def isRegister (n : Nat) : Bool := decide (n ≤ 8 ∨ (16 ≤ n ∧ n ≤ 28) ∨ (32 ≤ n ∧ n ≤ 48) ∨ (64 ≤ n ∧ n ≤ 76))

/-! ## Invariants -/

/-- Memory and every sparse table are in canonical form. -/
def State.canonical (s : State) : Bool :=
  s.mem.wf && s.ms.hashTable.wf && s.ms.chainTable.wf && s.ms.hashTable3.wf && s.dms.hashTable.wf &&
    s.dms.chainTable.wf && sparseWf .zero s.ldm.table && sparseWf 0 s.ldm.bucketPos

/-- The bounds of 48_frame_assembler.md R282 on the seven latched compression parameters. -/
def Latched.inRange (p : Latched) : Bool :=
  decide (1 ≤ p.strategy.toNat ∧ p.strategy.toNat ≤ 8 ∧ 10 ≤ p.windowLog.toNat ∧ p.windowLog.toNat ≤ 31 ∧
    6 ≤ p.hashLog.toNat ∧ p.hashLog.toNat ≤ 30 ∧ 6 ≤ p.chainLog.toNat ∧ p.chainLog.toNat ≤ 30 ∧
    1 ≤ p.searchLog.toNat ∧ p.searchLog.toNat ≤ 30 ∧ 3 ≤ p.minMatch.toNat ∧ p.minMatch.toNat ≤ 8 ∧
    p.targetLength.toNat ≤ 131072 ∧ p.cycleLog ≤ p.windowLog.toNat)

/-- The three tables have the sizes of 10_state.md R21. -/
def MatchState.sized (m : MatchState) (p : Latched) : Bool :=
  decide (m.hashTable.size = 2 ^ p.hashLog.toNat ∧
    m.chainTable.size = (if p.strategy.toNat = 1 then 0 else 2 ^ p.chainLog.toNat) ∧
    m.hashTable3.size = (if p.minMatch.toNat = 3 then 2 ^ min 17 p.windowLog.toNat else 0))

/-- Between `CTX_INIT` and the end of the frame the latched parameters are legal and the tables have their sizes. -/
abbrev State.TablesSized (s : State) : Prop :=
  s.stage.isIO = true → s.p.inRange = true ∧ s.ms.sized s.p = true

/-- The window invariant of 10_state.md R19, `cur` being below `2^32` between commands. -/
abbrev State.WindowOk (s : State) : Prop :=
  1 ≤ s.w.lowLimit.toNat ∧ s.w.lowLimit.toNat ≤ s.w.dictLimit.toNat ∧ s.w.dictLimit.toNat ≤ s.cur ∧ s.cur < 2 ^ 32

/-- A referenced dictionary bank is valid and lies below `W.dictLimit` (48_frame_assembler.md R310, 40_window.md R102). -/
abbrev State.BankOk (s : State) : Prop :=
  s.ms.dmsAttached = true →
    s.dms.valid = true ∧ s.dms.w.lowLimit.toNat ≤ s.dms.endIdx.toNat ∧ s.dms.endIdx.toNat ≤ s.w.dictLimit.toNat

/-- What every step keeps: a legal implementation, legal latched parameters while a frame is open, the window invariant while
the frame is not lost (60_exceptions.md R330 lets a lost frame's state hold anything), a referenced bank in its place. -/
abbrev State.RunOk (s : State) : Prop :=
  s.impl.legal = true ∧ (s.stage.isIO = true → s.p.inRange = true) ∧
  (s.status.unspec = false → s.WindowOk ∧ s.BankOk) ∧
  (s.dms.valid = true → 1 ≤ s.dms.w.lowLimit.toNat ∧ s.dms.w.lowLimit.toNat ≤ s.dms.endIdx.toNat)

/-- The largest position of `[lo, lo + n)` that has the property. -/
def lastWith (f : Nat → Bool) (lo : Nat) : Nat → Option Nat
  | 0 => none
  | n + 1 => if f (lo + n) then some (lo + n) else lastWith f lo n

/-- The sum of the lengths a queue of raw sequences describes (43_ldm.md R170). -/
def rawLength : List RawSeq → Nat
  | [] => 0
  | q :: qs => q.litLength.toNat + q.matchLength.toNat + rawLength qs

end Sys2Proof.Machine
end

