-- ==== Sys2Proof/Certificates/Slice0/Obligations.lean ====
section
/-! DEFINITION. The statements about ACMF-1 that the provers prove. A free value (logs 14, 15, 16) is never given a number
here: a statement that meets one holds for every value of it. -/

open Sys2Proof Sys2Proof.Machine

/-! ## Command words (30_encoding.md) -/

/-- R60, R62, R63: a word decodes to a command exactly when it is that command's encoding and the command is well formed.
So no bit of a word is dropped and no two commands share a word. -/
def Obligations.DecodeAgreesWithEncode : Prop :=
  ∀ (w : Word) (i : Instr), decode w = .ok i ↔ i.WellFormed ∧ encode i = w

/-- R63, the words read on their number alone: a word is illegal when the opcode is not in the map, when bits 31:16 are not 0,
or when an undefined `mod` bit is 1 (bit 0 is defined for opcodes 0x03, 0x07, 0x20 only); an illegal word raises
`ParamInvalid` and nothing else of the machine changes, whatever the state. -/
def Obligations.IllegalWordsOnlyReport : Prop :=
  (∀ w : Word, (∃ e, decode w = .illegal e) ↔
    (w.toNat % 256 ∉ [0x01, 0x02, 0x03, 0x04, 0x05, 0x06, 0x07, 0x08, 0x10, 0x11, 0x12, 0x13, 0x20, 0x21, 0x22, 0x23, 0x24,
        0x25, 0x26, 0x27, 0x30, 0x40, 0x41, 0x50, 0x51, 0x52, 0x53, 0x60, 0x61, 0x70] ∨
      2 ^ 16 ≤ w.toNat ∨
      (if w.toNat % 256 ∈ [0x03, 0x07, 0x20] then 2 ≤ w.toNat / 256 % 256 else w.toNat / 256 % 256 ≠ 0))) ∧
  (∀ (s : State) (v : DWord) (rest : List HostAction) (e : DecodeError),
    s.host = .write 0 v :: rest → decode (v.setWidth 32) = .illegal e →
    step s = .next { s.withCode 2 with host := rest, freeCtr := s.freeCtr + 1, cmd := v.setWidth 32 })

/-- R62: words written out from the map. -/
def Obligations.WordsOfTheMapDecode : Prop :=
  decode 0x00000001 = .ok .ctxInit ∧ decode 0x00000103 = .ok (.dictLoad 1) ∧ decode 0x00000006 = .ok .frameEnd ∧
  decode 0x00000107 = .ok (.blockCompress 1) ∧ decode 0x00000013 = .ok .winCorrectOverflow ∧
  decode 0x00000020 = .ok (.tabFill 0) ∧ decode 0x00000026 = .ok .btSearch ∧ decode 0x00000030 = .ok .blkMatch ∧
  decode 0x00000041 = .ok .ldmBlkMatch ∧ decode 0x00000051 = .ok .seqStore ∧ decode 0x00000061 = .ok .seqEncode ∧
  decode 0x00000070 = .ok .dbgRead ∧ decode 0x00000000 = .illegal .reservedOpcode ∧
  decode 0x00000101 = .illegal .undefinedMod ∧ decode 0x00010001 = .illegal .reservedBits

/-! ## One step of the machine -/

/-- A host write to `CMD` runs the command its word decodes to, on the state in which `CMD` holds the word and the host's
action is taken; so does the word that `withFetchWord` places (10_state.md R13; the host's action list is the model's own,
logs 1 and 2). What a step adds around the command is the launch duty of 70_reset_and_hazards.md R356 (`launch`, log 13): while
the host has changed no live byte it adds nothing, and in no case does it change anything but the model's own record. -/
def Obligations.StepRunsTheDecodedCommand : Prop :=
  (∀ (s : State) (v : DWord) (rest : List HostAction) (i : Instr),
    s.host = .write 0 v :: rest → decode (v.setWidth 32) = .ok i →
    let s1 : State := { s with host := rest, freeCtr := s.freeCtr + 1, cmd := v.setWidth 32 }
    step s = s1.launch i (exec i s1) ∧ (s.changed = .none → step s = exec i s1) ∧
    (∀ t, step s = .next t → exec i s1 = .next { t with changed := s.changed })) ∧
  (∀ (s : State) (nbits w : Nat) (i : Instr), decodeTableWord nbits w = some i →
    let s1 : State := { s with freeCtr := s.freeCtr + 1, cmd := BitVec.ofNat 32 (w % 2 ^ nbits) }
    step (s.withFetchWord nbits w) = s1.launch i (exec i s1) ∧
    (s.changed = .none → step (s.withFetchWord nbits w) = exec i s1))

/-- R13, R15: a host write (not to `CMD`) stores the low bits at the register's width and changes no other register; a write to
a read-only or undefined number is ignored; an undefined number reads 0. The steps that write and read one complete, and
with no host action pending the machine stays as it is (the action list is the model's own, log 1). -/
def Obligations.HostRegistersReadBack : Prop :=
  (∀ (s : State) (n w : Nat) (v : DWord), writableWidth n = some w →
    (s.writeReg n v).readReg n = BitVec.ofNat 64 (v.toNat % 2 ^ w) ∧
    ∀ m, m ≠ n → (s.writeReg n v).readReg m = s.readReg m) ∧
  (∀ (s : State) (n : Nat) (v : DWord), writableWidth n = none → s.writeReg n v = s) ∧
  (∀ (s : State) (n : Nat), isRegister n = false → s.readReg n = 0) ∧
  (∀ (s : State) (n : Nat) (v : DWord) (rest : List HostAction), s.host = .write (n + 1) v :: rest →
    step s = .next ({ s with host := rest, freeCtr := s.freeCtr + 1 }.writeReg (n + 1) v)) ∧
  (∀ (s : State) (n : Nat) (rest : List HostAction), s.host = .read n :: rest →
    step s = .next { s with host := rest, freeCtr := s.freeCtr + 1, lastRead := s.readReg n }) ∧
  (∀ s : State, s.host = [] → step s = .next s)

/-- 20_memory.md R48, R50, 70_reset_and_hazards.md R356 duty 2: between commands the host may change a byte of its memory; the
step completes and only that byte changes (and, when the byte is live history, the model's own record of it, log 13; a byte
at or above `2^ADDR_W` never is, log 41). A
command that then works on a history with a changed byte in it is a refused launch; any other runs as before. In particular a
store that changes a byte of the live window, or of the content of an attached bank, makes the next command a refused launch
when it reads the history, succeeds, and has not itself dropped that byte. Changed bytes that lie in the chunk appended next
are forgiven: the append drops what it overlaps of the external dictionary (40_window.md R91, 93_implementation_defined.md
U12; regions that wrap around the end of the address space apart). -/
def Obligations.HostStoreChangesOneByte : Prop :=
  (∀ (s : State) (a : DWord) (v : Byte) (rest : List HostAction), s.host = .store a v :: rest → s.mem.wf = true →
    ∃ t, step s = .next t ∧
      t = { s with host := rest, freeCtr := s.freeCtr + 1, mem := t.mem, changed := t.changed } ∧
      (∀ x, t.mem.read x = if x = a.toNat then v else s.mem.read x) ∧
      (s.mem.read a.toNat = v ∨ 2 ^ s.impl.addrW ≤ a.toNat ∨
        (s.windowLive && s.w.covers s.impl.addrW a.toNat 1) = false ∧ s.dms.covers s.impl.addrW a.toNat 1 = false →
        t.changed = s.changed)) ∧
  (∀ (s : State) (v : DWord) (rest : List HostAction) (i : Instr), s.host = .write 0 v :: rest →
    decode (v.setWidth 32) = .ok i →
    let s1 : State := { s with host := rest, freeCtr := s.freeCtr + 1, cmd := v.setWidth 32 }
    (s1.historyBroken i = false → ∀ t, exec i s1 = .next t → ∃ c, step s = .next { t with changed := c }) ∧
    (s1.historyBroken i = true → ∀ t, exec i s1 = .next t → t.status.code = 0 → step s = .refused .historyChanged)) ∧
  (∀ (s t u : State) (a v : DWord) (b : Byte) (rest : List HostAction) (i : Instr) (x : Nat),
    s.host = .store a b :: .write 0 v :: rest → decode (v.setWidth 32) = .ok i → readsHistory i = true →
    s.windowLive = true → s.impl.legal = true → s.mem.read a.toNat ≠ b → step s = .next t →
    let t1 : State := { t with host := rest, freeCtr := t.freeCtr + 1, cmd := v.setWidth 32 }
    let r := t1.atReading i
    ((s.w.dictLimit.toNat ≤ x ∧ x < s.cur ∧ a.toNat = addA s.impl.addrW s.w.base.toNat x ∧ r.w.lowLimit.toNat ≤ x) ∨
      (s.w.lowLimit.toNat ≤ x ∧ x < s.w.dictLimit.toNat ∧ a.toNat = addA s.impl.addrW s.w.dictBase.toNat x ∧
        r.w.lowLimit.toNat ≤ x) ∨
      (s.dms.valid = true ∧ r.ms.dmsAttached = true ∧ s.dms.w.lowLimit.toNat ≤ x ∧ x < s.dms.endIdx.toNat ∧
        a.toNat = addA s.impl.addrW s.dms.w.base.toNat x)) →
    exec i t1 = .next u → u.status.code = 0 → step t = .refused .historyChanged) ∧
  (∀ (s : State) (a : Nat) (v : Byte), s.Ready → s.impl.legal = true → s.WindowOk →
    s.changed.window ≤ s.w.lowLimit.toNat → s.rangeOk s.op0 s.op1 = true → s.cur + s.op1.toNat < 2 ^ 32 →
    s.op0.toNat ≤ a → a < s.op0.toNat + s.op1.toNat →
    addA s.impl.addrW s.w.base.toNat s.w.dictLimit.toNat + (s.cur - s.w.dictLimit.toNat) < 2 ^ s.impl.addrW →
    addA s.impl.addrW s.w.dictBase.toNat s.w.lowLimit.toNat + (s.w.dictLimit.toNat - s.w.lowLimit.toNat) <
      2 ^ s.impl.addrW →
    ∃ t, exec .winAppend (s.hostStore a v) = .next t ∧ t.changed.window ≤ t.w.lowLimit.toNat)

/-! ## Reset (70_reset_and_hazards.md R345) -/

/-- R345, 10_state.md R13 to R29: hardware reset, from any state, a fatal or a lost one included, gives the reset values and
does not touch the host's memory. Every host register reads 0 after it but the six that read 1; the tables are absent, the
bank is not valid, the store and the checksum input are empty, all table-reuse modes are *none*. -/
def Obligations.HardwareResetGivesTheStatedValues : Prop :=
  (∀ (s : State) (rest : List HostAction), s.host = .reset :: rest →
    step s = .next { State.reset with
      impl := s.impl, host := rest, lastRead := s.lastRead, freeCtr := s.freeCtr + 1, mem := s.mem }) ∧
  (∀ n, State.reset.readReg n = if n ∈ [34, 35, 36, 37, 38, 48] then 1 else 0) ∧
  State.reset.stage = .created ∧ State.reset.ms.hashTable.size = 0 ∧ State.reset.ms.chainTable.size = 0 ∧
  State.reset.ms.hashTable3.size = 0 ∧ State.reset.dms.valid = false ∧ State.reset.seq.seqs = [] ∧
  State.reset.seq.lit = [] ∧ State.reset.seq.codesValid = false ∧ State.reset.chk = [] ∧
  State.reset.ldm.seq = [] ∧ State.reset.ldm.table = [] ∧ State.reset.ldm.bucketPos = [] ∧
  (∀ b ∈ [State.reset.bs0, State.reset.bs1],
    b.huf.mode = .none ∧ b.fseLL.mode = .none ∧ b.fseOF.mode = .none ∧ b.fseML.mode = .none)

/-! ## The order of checks and what an error leaves (60_exceptions.md) -/

/-- R329: while `STATUS.fatal` is 1 every command but DBG_READ ends with `Generic` and changes nothing, CTX_INIT included. -/
def Obligations.FatalGateRefusesAllButDebug : Prop :=
  ∀ (i : Instr) (s : State), s.status.fatal = true → i ≠ .dbgRead → exec i s = .next (s.withCode 1)

/-- R330: while `STATUS.unspec` is 1 every command other than CTX_INIT, PARAMS_DERIVE and DMS_BUILD ends with `StageWrong` and
changes nothing, DBG_READ included (`fatal` being 0, or the command being DBG_READ, which the fault gate lets through). -/
def Obligations.LostFrameGateRefusesAllButThree : Prop :=
  ∀ (i : Instr) (s : State), s.status.unspec = true → i ≠ .ctxInit → i ≠ .paramsDerive → i ≠ .dmsBuild →
    (s.status.fatal = false ∨ i = .dbgRead) → exec i s = .next (s.withCode 3)

/-- R62, R327 check 4: with both gates open, a command in a stage where it is not legal ends with `StageWrong` and changes
nothing; so does DMS_BUILD while the bank is referenced. -/
def Obligations.StageCheckRefuses : Prop :=
  ∀ (i : Instr) (s : State), s.GatesOpen →
    (i.legalIn s.stage = false ∨ (i = .dmsBuild ∧ s.ms.dmsAttached = true)) → exec i s = .next (s.withCode 3)

/-- R322, R323, R327 check 5: a command that is let through ends with `ParamInvalid`, nothing else changed, exactly when an
operand precondition of its rule fails. -/
def Obligations.OperandChecksAreExact : Prop :=
  ∀ (i : Instr) (s : State), i.letThrough s = true →
    ((∃ t, exec i s = .next t ∧ t.status.code = 2) ↔ i.operandsOk s = false) ∧
    (i.operandsOk s = false → exec i s = .next (s.withCode 2))

/-- R327 check 5, R283, R294, R306, R309, R324: once the operands pass, the later checks of a command come in order and change
nothing but the code: table storage (`Memory`), the descriptor (`DictCorrupted`), the pledge (`SrcSizeMismatch`). -/
def Obligations.LaterChecksComeInOrder : Prop :=
  (∀ s : State, Instr.ctxInit.letThrough s = true → Instr.ctxInit.operandsOk s = true →
    s.impl.tabCap < s.cfg.workspace → exec .ctxInit s = .next (s.withCode 4)) ∧
  (∀ s : State, Instr.dmsBuild.letThrough s = true → Instr.dmsBuild.operandsOk s = true →
    (s.impl.tabCap < s.cfg.baseEntries → exec .dmsBuild s = .next (s.withCode 4)) ∧
    (s.cfg.baseEntries ≤ s.impl.tabCap → s.descriptorOk = false → exec .dmsBuild s = .next (s.withCode 6))) ∧
  (∀ (m : Byte) (s : State), (Instr.dictLoad m).letThrough s = true → (Instr.dictLoad m).operandsOk s = true →
    s.descriptorOk = false → exec (.dictLoad m) s = .next (s.withCode 6)) ∧
  (∀ s : State, Instr.frameEnd.letThrough s = true → Instr.frameEnd.operandsOk s = true →
    s.p.pledged.toNat ≠ 2 ^ 64 - 1 →
    (s.p.pledged.toNat < s.consumed.toNat + s.op1.toNat →
      exec .frameContinue s = .next (s.withCode 7) ∧ exec .frameEnd s = .next (s.withCode 7)) ∧
    (s.consumed.toNat + s.op1.toNat < s.p.pledged.toNat → exec .frameEnd s = .next (s.withCode 7)))

/-- R321, R322: no code above 7 is written, each of the codes 4 to 7 comes only from the commands of the table, and so does code
1, but for BLK_MATCH and LDM_BLK_MATCH: that they can end with it is the model's choice (log 18, DESIGN CHOICE), the table does
not list them. -/
def Obligations.ResultCodesComeFromTheirCommands : Prop :=
  ∀ (i : Instr) (s t : State), exec i s = .next t →
    t.status.code.toNat ≤ 7 ∧
    (t.status.code = 4 → i = .ctxInit ∨ i = .dmsBuild) ∧
    (t.status.code = 5 → i = .frameContinue ∨ i = .frameEnd ∨ i = .litCompress ∨ i = .seqEncode ∨
      ∃ m, i = .blockCompress m) ∧
    (t.status.code = 6 → i = .dmsBuild ∨ ∃ m, i = .dictLoad m) ∧
    (t.status.code = 7 → i = .frameContinue ∨ i = .frameEnd) ∧
    (t.status.code = 1 → s.status.fatal = true ∨ i = .seqStore ∨ i = .blkMatch ∨ i = .ldmBlkMatch ∨ i = .seqEncode)

/-- R327, R328, R331: every `ParamInvalid`, `StageWrong`, `Memory`, `DictCorrupted` and `SrcSizeMismatch` leaves everything but
`STATUS.code` as it was. On any error RES1, the configuration registers and the bank keep their values, and RES0 and the
host's memory too, but for a frame command or BLOCK_COMPRESS that ends with `DstTooSmall`. -/
def Obligations.ErrorsLeaveTheStatedState : Prop :=
  ∀ (i : Instr) (s t : State), exec i s = .next t →
    (t.status.code = 2 ∨ t.status.code = 3 ∨ t.status.code = 4 ∨ t.status.code = 6 ∨ t.status.code = 7 →
      t = s.withCode t.status.code) ∧
    (t.status.code ≠ 0 →
      t.res1 = s.res1 ∧ t.cfg = s.cfg ∧ t.dms = s.dms ∧
      (t.status.code ≠ 5 ∨ i = .litCompress ∨ i = .seqEncode → t.res0 = s.res0 ∧ t.mem = s.mem))

/-- R329, R330: `fatal` is sticky and set only with `Generic`, by SEQ_STORE or, the model's choice (log 18), a matcher that
meets a second long length; `unspec` is set only by a frame command or BLOCK_COMPRESS that ends with `DstTooSmall`, and cleared only by a
successful CTX_INIT. -/
def Obligations.StickyBitsChangeOnlyAsStated : Prop :=
  ∀ (i : Instr) (s t : State), exec i s = .next t →
    (s.status.fatal = true → t.status.fatal = true) ∧
    (s.status.fatal = false → t.status.fatal = true →
      t.status.code = 1 ∧ (i = .seqStore ∨ i = .blkMatch ∨ i = .ldmBlkMatch)) ∧
    (s.status.unspec = false → t.status.unspec = true →
      t.status.code = 5 ∧ (i = .frameContinue ∨ i = .frameEnd ∨ ∃ m, i = .blockCompress m)) ∧
    (s.status.unspec = true → t.status.unspec = false → t.status.code = 0 ∧ i = .ctxInit)

/-- 20_memory.md R47, 43_ldm.md R177, 70_reset_and_hazards.md R356 duties 3 and 7: no command faults, and the only launches exec
refuses are those of a destination that overlaps source, window or bank content (LIT_COMPRESS and SEQ_ENCODE have no source
range), and of an LDM queue that does not begin at `src` or holds an offset that reaches below the history; each of the three
is always refused, once the checks have passed. (How the model knows where the queue begins is its own, log 11; that a launch
is judged after the checks, log 12.) -/
def Obligations.RefusalsAreTheLaunchConditions : Prop :=
  let below := fun (s : State) => ∃ k q, s.ldm.pending[k]? = some q ∧
    s.idx s.op0.toNat + rawLength (s.ldm.pending.take k) + q.litLength.toNat < q.offset.toNat + s.histLow
  (∀ (i : Instr) (s : State) (f : Fault), exec i s ≠ .fault f) ∧
  (∀ (i : Instr) (s : State) (r : Refusal), exec i s = .refused r →
    i.letThrough s = true ∧ i.operandsOk s = true ∧
    ((r = .destinationOverlap ∧ ∃ dst cap, i.destination s = some (dst, cap) ∧
        (if i = .litCompress ∨ i = .seqEncode then s.destClash 0 0 dst cap
          else s.destClash s.op0.toNat s.op1.toNat dst cap) = true) ∨
      (r = .ldmSourceMismatch ∧ i = .ldmBlkMatch ∧ ∃ a, s.ldm.queueSrc = some a ∧ a ≠ s.op0) ∨
      (r = .ldmBelowHistory ∧ i = .ldmBlkMatch ∧ below s))) ∧
  (∀ s : State, Instr.ldmBlkMatch.letThrough s = true → Instr.ldmBlkMatch.operandsOk s = true →
    (∀ a, s.ldm.queueSrc = some a → a ≠ s.op0 → exec .ldmBlkMatch s = .refused .ldmSourceMismatch) ∧
    ((∀ a, s.ldm.queueSrc = some a → a = s.op0) → below s → exec .ldmBlkMatch s = .refused .ldmBelowHistory)) ∧
  (∀ (m : Byte) (s : State), (Instr.blockCompress m).letThrough s = true → (Instr.blockCompress m).operandsOk s = true →
    s.destClash s.op0.toNat s.op1.toNat s.op2.toNat s.op3.toNat = true →
    exec (.blockCompress m) s = .refused .destinationOverlap) ∧
  (∀ s : State, Instr.frameEnd.letThrough s = true → Instr.frameEnd.operandsOk s = true →
    s.destClash s.op0.toNat s.op1.toNat s.op2.toNat s.op3.toNat = true →
    (s.pledgeOk s.op1.toNat false = true → exec .frameContinue s = .refused .destinationOverlap) ∧
    (s.pledgeOk s.op1.toNat true = true → exec .frameEnd s = .refused .destinationOverlap)) ∧
  (∀ s : State, s.Ready → s.rangeOk s.op0 s.op1 = true → s.destClash 0 0 s.op0.toNat s.op1.toNat = true →
    exec .litCompress s = .refused .destinationOverlap ∧ exec .seqEncode s = .refused .destinationOverlap)

/-! ## What no command changes -/

/-- 10_state.md R13, R15, R24, R25, R10: no command changes the operand or configuration registers, `CMD`, the unspecified
auxiliary tables, the implementation parameters, the host's list or the model's record of changed history; only DMS_BUILD
writes the bank, and only CTX_INIT the latched parameters. -/
def Obligations.CommandsKeepHostRegistersAndBank : Prop :=
  ∀ (i : Instr) (s t : State), exec i s = .next t →
    t.cmd = s.cmd ∧ t.op0 = s.op0 ∧ t.op1 = s.op1 ∧ t.op2 = s.op2 ∧ t.op3 = s.op3 ∧ t.cfg = s.cfg ∧
    t.optTables = s.optTables ∧ t.impl = s.impl ∧ t.host = s.host ∧ t.lastRead = s.lastRead ∧
    t.changed = s.changed ∧ (i ≠ .dmsBuild → t.dms = s.dms) ∧ (i ≠ .ctxInit → t.p = s.p)

/-- 20_memory.md R45: a command writes host memory only inside `dst .. dst + RES0 - 1`, RES0 being at most the capacity, and a
command without a destination writes none. A frame command that ends with `DstTooSmall` has written the bytes RES0 counts;
every other command that ends with an error has written none. -/
def Obligations.MemoryChangesOnlyInTheDestination : Prop :=
  ∀ (i : Instr) (s t : State), exec i s = .next t → s.mem.wf = true →
    (i.destination s = none → t.mem = s.mem) ∧
    (∀ dst cap, i.destination s = some (dst, cap) →
      t.mem = s.mem ∨
        (t.res0.toNat ≤ cap ∧ ∀ a, a < dst ∨ dst + t.res0.toNat ≤ a → t.mem.read a = s.mem.read a)) ∧
    (t.status.code ≠ 0 → ((i ≠ .frameContinue ∧ i ≠ .frameEnd) ∨ t.status.code ≠ 5) → t.mem = s.mem)

/-- 48_frame_assembler.md R280: the stage moves only along the arrows of the table. -/
def Obligations.StageMovesAlongTheArrows : Prop :=
  ∀ (i : Instr) (s t : State), exec i s = .next t → t.stage ≠ s.stage →
    (i = .ctxInit ∧ t.stage = .initialized ∧ t.status.code = 0) ∨
    ((i = .frameContinue ∨ i = .frameEnd) ∧ s.stage = .initialized ∧ t.stage = .ongoing ∧
      (t.status.code = 5 ∨ (i = .frameContinue ∧ t.status.code = 0))) ∨
    (i = .frameEnd ∧ s.stage.isIO = true ∧ t.stage = .created ∧ t.status.code = 0) ∨
    ((∃ m, i = .blockCompress m ∧ m.getLsbD 0 = true) ∧ s.stage = .ongoing ∧ t.stage = .ending ∧ t.status.code = 0)

/-! ## Context reset and parameter derivation (48_frame_assembler.md) -/

/-- R281: with legal parameters that fit, CTX_INIT completes and leaves what its pseudocode writes, the distributions it leaves
unspecified apart; the host registers, the bank, the memory, RES0, RES1 and `fatal` stay, and with the LDM off the LDM State
(log 31). -/
def Obligations.CtxInitCompletes : Prop :=
  ∀ s : State, s.status.fatal = false → s.cfg.valid = true → s.cfg.workspace ≤ s.impl.tabCap →
    ∃ t, exec .ctxInit s = .next t ∧
      t = { s with
        status := { code := 0, fatal := false, unspec := false }, stage := .initialized, p := t.p, ms := t.ms,
        w := { base := 0, dictBase := 0, nextSrc := 1, dictLimit := 1, lowLimit := 1 },
        seq := { seqs := [], lit := [], longLit := none, longMatch := none, codes := [], codesValid := false },
        bs0 := t.bs0, bs1 := t.bs1, prevSel := false, dictID := 0, consumed := 0, isFirstBlock := true, chk := [],
        ldm := t.ldm } ∧
      (∀ k, k < 13 → t.readReg (64 + k) = s.readReg (16 + k)) ∧
      (∀ b ∈ [t.bs0, t.bs1], b.rep.r0 = 1 ∧ b.rep.r1 = 4 ∧ b.rep.r2 = 8 ∧ b.huf.mode = .none ∧ b.fseLL.mode = .none ∧
        b.fseOF.mode = .none ∧ b.fseML.mode = .none ∧ b.huf.nbBits = List.replicate 256 0 ∧ b.huf.maxSV = 0 ∧
        b.huf.tableLog = 0 ∧ ∀ f ∈ [b.fseLL, b.fseOF, b.fseML], f.maxSV = 0 ∧ f.tableLog = 0) ∧
      t.ms.sized t.p = true ∧
      (∀ k, t.ms.hashTable.get k = 0 ∧ t.ms.chainTable.get k = 0 ∧ t.ms.hashTable3.get k = 0) ∧
      t.ms.nextToUpdate = 1 ∧ t.ms.nextToUpdate3 = 1 ∧ t.ms.loadedDictEnd = 0 ∧ t.ms.dmsAttached = false ∧
      (t.p.ldmEnable = true → t.ldm.table = [] ∧ t.ldm.bucketPos = [] ∧ t.ldm.w = t.w ∧ t.ldm.seq = [] ∧ t.ldm.pos = 0) ∧
      (t.p.ldmEnable = false → t.ldm = s.ldm)

/-- R311, R312, R314, R315: outside the fault gate PARAMS_DERIVE completes in every state, changing RES0 and RES1 only; the
packed parameters it returns are legal for `CTX_INIT` whatever the level and the hints; level 0 selects level 3's row and
levels above 22 level 22's. -/
def Obligations.ParamsDeriveGivesLegalParameters : Prop :=
  ∀ s : State, s.status.fatal = false → s.impl.legal = true →
    ∃ t, exec .paramsDerive s = .next t ∧
      t = { s.withCode 0 with res0 := t.res0, res1 := t.res1 } ∧
      10 ≤ t.res0.toNat % 256 ∧ t.res0.toNat % 256 ≤ 31 ∧
      6 ≤ t.res0.toNat / 2 ^ 8 % 256 ∧ t.res0.toNat / 2 ^ 8 % 256 ≤ 30 ∧
      6 ≤ t.res0.toNat / 2 ^ 16 % 256 ∧ t.res0.toNat / 2 ^ 16 % 256 ≤ 30 ∧
      1 ≤ t.res0.toNat / 2 ^ 24 % 256 ∧ t.res0.toNat / 2 ^ 24 % 256 ≤ 30 ∧
      3 ≤ t.res0.toNat / 2 ^ 32 % 256 ∧ t.res0.toNat / 2 ^ 32 % 256 ≤ 8 ∧
      1 ≤ t.res0.toNat / 2 ^ 40 ∧ t.res0.toNat / 2 ^ 40 ≤ 8 ∧ t.res1.toNat ≤ 131072 ∧
      (if 6 ≤ t.res0.toNat / 2 ^ 40 then t.res0.toNat / 2 ^ 16 % 256 - 1 else t.res0.toNat / 2 ^ 16 % 256) ≤
        t.res0.toNat % 256 ∧
      (s.op0.toNat % 2 ^ 32 = 0 → exec .paramsDerive { s with op0 := 3 } = .next { t with op0 := 3 }) ∧
      (22 < s.op0.toNat % 2 ^ 32 → s.op0.toNat % 2 ^ 32 < 2 ^ 31 →
        exec .paramsDerive { s with op0 := 22 } = .next { t with op0 := 22 })

/-! ## Dictionaries (48_frame_assembler.md section 6) -/

/-- R306, R308: DICT_LOAD of legal operands completes in stage *initialized*: the content is in the window up to
`loadedDictEnd`, the window is what WIN_APPEND of the content makes it, a descriptor replaces the block state in effect, the ID
is kept; nothing else changes. With a content of length 0 `loadedDictEnd` moves and window, tables, cursors and LDM stay (the
prose of R306 against its pseudocode: the model's choice, log 17). -/
def Obligations.DictLoadCompletes : Prop :=
  ∀ (m : Byte) (s : State), s.GatesOpen → s.stage = .initialized → s.impl.legal = true → s.WindowOk →
    s.dictOperandsOk = true → s.cur + s.op1.toNat < 2 ^ 32 → s.descriptorOk = true →
    ∃ t, exec (.dictLoad m) s = .next t ∧
      t = { s.withCode 0 with
        w := t.w, ms := t.ms, ldm := t.ldm, bs0 := t.bs0, bs1 := t.bs1, dictID := s.op3.setWidth 32 } ∧
      t.cur = s.cur + s.op1.toNat ∧ t.ms.loadedDictEnd.toNat = t.cur ∧
      (0 < s.op1.toNat → t.ms.nextToUpdate.toNat = t.cur ∧ t.idx s.op0.toNat = s.cur ∧
        t.w = (s.w.append s.impl.addrW s.freeCtr s.op0.toNat s.op1.toNat).1) ∧
      (s.op1 = 0 → t.w = s.w ∧ t.ms = { s.ms with loadedDictEnd := t.ms.loadedDictEnd } ∧ t.ldm = s.ldm) ∧
      (s.p.ldmEnable = false → t.ldm = s.ldm) ∧ t.nextBs = s.nextBs ∧
      (s.op2 = 0 → t.prev = s.prev) ∧
      (s.op2 ≠ 0 → t.prev = s.descriptor.install ∧ t.prev.rep.r0.toNat = s.descriptor.rep0 ∧
        t.prev.fseLL.mode = .valid ∧ t.prev.fseOF.mode = .valid ∧ t.prev.fseML.mode = .valid ∧ t.prev.huf.mode ≠ .none)

/-- R309: DMS_BUILD of legal operands completes in every stage, with `unspec` 0 or 1, and writes the bank only: its content
stands at indices 1 to `len`, its tables have the sizes of the configuration, it is valid. -/
def Obligations.DmsBuildCompletes : Prop :=
  ∀ s : State, s.status.fatal = false → s.ms.dmsAttached = false → s.impl.legal = true → s.cfg.coreValid = true →
    s.dictOperandsOk = true → s.op1.toNat + 1 < 2 ^ 32 → s.cfg.baseEntries ≤ s.impl.tabCap → s.descriptorOk = true →
    ∃ t, exec .dmsBuild s = .next t ∧ t = { s.withCode 0 with dms := t.dms } ∧
      t.dms.valid = true ∧ t.dms.endIdx.toNat = s.op1.toNat + 1 ∧ t.dms.w.lowLimit = 1 ∧ t.dms.w.dictLimit = 1 ∧
      t.dms.w.cur s.impl.addrW = s.op1.toNat + 1 ∧ t.dms.w.idx s.impl.addrW s.op0.toNat = 1 ∧
      t.dms.dictID = s.op3.setWidth 32 ∧ t.dms.p.strategy = s.cfg.strategy ∧ t.dms.p.hashLog = s.cfg.hashLog ∧
      t.dms.hashTable.size = 2 ^ s.cfg.hashLog.toNat ∧
      t.dms.chainTable.size = (if s.cfg.strategy.toNat = 1 then 0 else 2 ^ s.cfg.chainLog.toNat) ∧
      (s.op2 ≠ 0 → t.dms.bs = s.descriptor.install) ∧
      (s.op2 = 0 → t.dms.bs.rep.r0 = 1 ∧ t.dms.bs.rep.r1 = 4 ∧ t.dms.bs.rep.r2 = 8 ∧ t.dms.bs.huf.mode = .none ∧
        t.dms.bs.fseLL.mode = .none ∧ t.dms.bs.fseOF.mode = .none ∧ t.dms.bs.fseML.mode = .none)

/-- R310: DICT_ATTACH of a valid bank of the same layout to an empty window completes; a bank without content changes nothing;
otherwise the virtual indices of the dictionary lie just below `W.dictLimit`. -/
def Obligations.DictAttachCompletes : Prop :=
  ∀ s : State, s.GatesOpen → s.stage = .initialized → s.impl.legal = true → s.dms.valid = true →
    s.dms.p.layout = s.p.layout → s.cur = 1 →
    (s.dms.endIdx = 1 → exec .dictAttach s = .next (s.withCode 0)) ∧
    (s.dms.endIdx ≠ 1 → ∃ t, exec .dictAttach s = .next t ∧
      t = { s.withCode 0 with
        w := { s.w with nextSrc := t.w.nextSrc, dictLimit := s.dms.endIdx, lowLimit := s.dms.endIdx },
        ms := { s.ms with dmsAttached := true, nextToUpdate := s.dms.endIdx, loadedDictEnd := s.dms.endIdx },
        dictID := s.dms.dictID, bs0 := t.bs0, bs1 := t.bs1 } ∧
      t.cur = s.dms.endIdx.toNat ∧ t.prev = s.dms.bs ∧ t.nextBs = s.nextBs)

/-! ## The window (40_window.md) -/

/-- R91, R92, R102: WIN_APPEND of a legal extent completes. An empty one changes RES0 only. A contiguous one moves `nextSrc`;
any other starts a fresh prefix at the old current index, makes the old prefix the external dictionary (or drops it when it
is shorter than 8), and resets `nextToUpdate`. Bytes of the external dictionary below the end of the new input are dropped
when the two overlap. The LDM's window takes the same bytes when the LDM is on. -/
def Obligations.WinAppendCompletes : Prop :=
  ∀ s : State, s.Ready → s.impl.legal = true → s.WindowOk → s.rangeOk s.op0 s.op1 = true →
    s.cur + s.op1.toNat < 2 ^ 32 →
    ∃ t, exec .winAppend s = .next t ∧
      t = { s.withCode 0 with w := t.w, ms := t.ms, ldm := { s.ldm with w := t.ldm.w }, res0 := t.res0 } ∧
      t.cur = s.cur + s.op1.toNat ∧
      (s.op1 = 0 → t = { s.withCode 0 with res0 := 1 }) ∧
      (s.op1 ≠ 0 →
        t.w.nextSrc.toNat = (s.op0.toNat + s.op1.toNat) % 2 ^ s.impl.addrW ∧ t.idx s.op0.toNat = s.cur ∧
        (s.op0 = s.w.nextSrc → t.res0 = 1 ∧ t.ms = s.ms ∧
          t.w.base = s.w.base ∧ t.w.dictBase = s.w.dictBase ∧ t.w.dictLimit = s.w.dictLimit) ∧
        (s.op0 ≠ s.w.nextSrc → t.res0 = 0 ∧ t.w.dictBase = s.w.base ∧ t.w.dictLimit.toNat = s.cur ∧
          t.ms = { s.ms with
            nextToUpdate := t.w.dictLimit
            dmsAttached := s.ms.dmsAttached && t.w.dictLimit == s.ms.loadedDictEnd
            loadedDictEnd := if s.ms.dmsAttached && t.w.dictLimit != s.ms.loadedDictEnd then 0 else s.ms.loadedDictEnd }) ∧
        (let low := if s.op0 = s.w.nextSrc then s.w.lowLimit.toNat
            else if s.cur - s.w.dictLimit.toNat < 8 then s.cur else s.w.dictLimit.toNat
         let extLo := (t.w.dictBase.toNat + low) % 2 ^ s.impl.addrW
         let extHi := (t.w.dictBase.toNat + t.w.dictLimit.toNat) % 2 ^ s.impl.addrW
         t.w.lowLimit.toNat =
          if extLo < s.op0.toNat + s.op1.toNat ∧ s.op0.toNat < extHi then
            min t.w.dictLimit.toNat (subA s.impl.addrW (s.op0.toNat + s.op1.toNat) t.w.dictBase.toNat)
          else low)) ∧
      (s.p.ldmEnable = false → t.ldm = s.ldm) ∧
      (s.p.ldmEnable = true →
        t.ldm.w = (s.ldm.w.append s.impl.addrW s.freeCtr s.op0.toNat s.op1.toNat).1)

/-- R93, R94: WIN_ENFORCE_MAXDIST completes; when `Idx(end) > maxDist + loadedDictEnd` it raises `lowLimit` (and `dictLimit` with
it) so that `Idx(end) - lowLimit <= maxDist`, with equality when it raised it, and invalidates the dictionary; otherwise
nothing changes. -/
def Obligations.WinEnforceMaxdistCompletes : Prop :=
  ∀ s : State, s.Ready → s.WindowOk → s.posOk s.op0 = true →
    let e := s.idx s.op0.toNat
    let d := s.op1.toNat
    (e ≤ d + s.ms.loadedDictEnd.toNat → exec .winEnforceMaxdist s = .next (s.withCode 0)) ∧
    (d + s.ms.loadedDictEnd.toNat < e → ∃ t, exec .winEnforceMaxdist s = .next t ∧
      t = { s.withCode 0 with
        w := { s.w with lowLimit := t.w.lowLimit, dictLimit := t.w.dictLimit },
        ms := { s.ms with loadedDictEnd := 0, dmsAttached := false } } ∧
      t.w.lowLimit.toNat = max s.w.lowLimit.toNat (e - d) ∧
      t.w.dictLimit.toNat = max s.w.dictLimit.toNat t.w.lowLimit.toNat ∧
      e - t.w.lowLimit.toNat ≤ d)

/-- R95: in stages *initialized* and *ongoing* WIN_NEEDS_CORRECTION of a position in the prefix completes and answers whether
`Idx(end)` is above `(3 << 29) + 2^windowLog`; nothing else changes. Of another position it raises `ParamInvalid`, in another
stage `StageWrong`. -/
def Obligations.WinNeedsCorrectionCompletes : Prop :=
  (∀ s : State, s.Ready → s.posOk s.op0 = true →
    exec .winNeedsCorrection s =
      .next { s.withCode 0 with
        res0 := if 1610612736 + 2 ^ s.p.windowLog.toNat < s.idx s.op0.toNat then 1 else 0 }) ∧
  (∀ s : State, s.Ready → s.posOk s.op0 = false → exec .winNeedsCorrection s = .next (s.withCode 2)) ∧
  (∀ s : State, s.GatesOpen → s.stage.isIO = false → exec .winNeedsCorrection s = .next (s.withCode 3))

/-- R98, R99: WIN_CORRECT_OVERFLOW completes when the correction is at least 1: the position of `src` lands on the new index,
`Cur` drops by the correction, a limit never becomes 0, the bases move up so that the same bytes keep their places, the
correction is a multiple of `2^cycleLog` when `maxDist` is, and the dictionary is invalidated. -/
def Obligations.WinCorrectOverflowCompletes : Prop :=
  ∀ s : State, s.Ready → s.impl.legal = true → s.WindowOk → s.op0.toNat ≤ 30 → s.posOk s.op2 = true →
    let c := s.idx s.op2.toNat
    let cyc := if c % 2 ^ s.op0.toNat = 0 then 2 ^ s.op0.toNat else c % 2 ^ s.op0.toNat
    cyc + s.op1.toNat < c →
    ∃ t, exec .winCorrectOverflow s = .next t ∧
      t = { s.withCode 0 with
        w := { s.w with
          base := t.w.base, dictBase := t.w.dictBase, lowLimit := t.w.lowLimit, dictLimit := t.w.dictLimit },
        ms := { s.ms with
          hashTable := t.ms.hashTable, chainTable := t.ms.chainTable, hashTable3 := t.ms.hashTable3
          nextToUpdate := t.ms.nextToUpdate, nextToUpdate3 := t.ms.nextToUpdate3
          loadedDictEnd := 0, dmsAttached := false },
        res0 := t.res0 } ∧
      t.res0.toNat = c - (cyc + s.op1.toNat) ∧ t.idx s.op2.toNat = cyc + s.op1.toNat ∧ t.cur + t.res0.toNat = s.cur ∧
      t.w.base.toNat = (s.w.base.toNat + t.res0.toNat) % 2 ^ s.impl.addrW ∧
      t.w.dictBase.toNat = (s.w.dictBase.toNat + t.res0.toNat) % 2 ^ s.impl.addrW ∧
      t.w.lowLimit.toNat = max 1 (s.w.lowLimit.toNat - t.res0.toNat) ∧
      t.w.dictLimit.toNat = max 1 (s.w.dictLimit.toNat - t.res0.toNat) ∧
      t.ms.nextToUpdate.toNat = s.ms.nextToUpdate.toNat - t.res0.toNat ∧
      t.ms.nextToUpdate3.toNat = s.ms.nextToUpdate3.toNat - t.res0.toNat ∧
      (s.op1.toNat % 2 ^ s.op0.toNat = 0 → t.res0.toNat % 2 ^ s.op0.toNat = 0)

/-- 41_tables.md R131: a correction subtracts the same amount from every table entry, one that would fall below 0 becoming
empty; the tree table keeps its mark 1; the LDM and the bank are not touched. -/
def Obligations.CorrectionReducesEveryTableEntry : Prop :=
  ∀ s t : State, s.impl.legal = true → s.canonical = true → exec .winCorrectOverflow s = .next t → t.status.code = 0 →
    let r := fun (e : Nat) => if e < t.res0.toNat then 0 else e - t.res0.toNat
    (∀ k, t.ms.hashTable.get k = r (s.ms.hashTable.get k) ∧ t.ms.hashTable3.get k = r (s.ms.hashTable3.get k) ∧
      t.ms.chainTable.get k =
        if s.p.layout = .binaryTree ∧ s.ms.chainTable.get k = 1 then 1 else r (s.ms.chainTable.get k)) ∧
    t.ms.hashTable.size = s.ms.hashTable.size ∧ t.ms.chainTable.size = s.ms.chainTable.size ∧
    t.ms.hashTable3.size = s.ms.hashTable3.size ∧ t.ldm = s.ldm ∧ t.dms = s.dms

/-- R95, R96, R97: the correction a block step makes is at least `(3 << 29) - 2^17 - 2^30`, which is above `2^28`, and keeps
the low `cycleLog` bits of every index. -/
def Obligations.BlockStepCorrectionIsLarge : Prop :=
  ∀ (p : Latched) (curIdx n : Nat), p.inRange = true → n ≤ p.blockSizeMax → p.needsCorrection (curIdx + n) = true →
    536739840 ≤ corrOf p.cycleLog p.windowSize curIdx ∧ 2 ^ 28 < corrOf p.cycleLog p.windowSize curIdx ∧
    corrOf p.cycleLog p.windowSize curIdx % 2 ^ p.cycleLog = 0 ∧
    ∀ e, corrOf p.cycleLog p.windowSize curIdx ≤ e →
      (e - corrOf p.cycleLog p.windowSize curIdx) % 2 ^ p.cycleLog = e % 2 ^ p.cycleLog

/-! ## The tables (41_tables.md) -/

/-- 42_block_matcher.md R142: MatchLen counts equal bytes and stops only at the limit or at the first difference. -/
def Obligations.MatchLenIsMaximal : Prop :=
  ∀ (V : View) (ip m e : Nat), ip ≤ e →
    ip + V.matchLen ip m e ≤ e ∧ (∀ k, k < V.matchLen ip m e → V.byte (ip + k) = V.byte (m + k)) ∧
    (ip + V.matchLen ip m e < e → V.byte (ip + V.matchLen ip m e) ≠ V.byte (m + V.matchLen ip m e))

/-- R116: H1_INSFIND completes, returns the previous occupant of the slot and stores the position there; no other slot
changes. `nextToUpdate` is only raised to `lowLimit` (R117). -/
def Obligations.SingleHashInsertReturnsPrevious : Prop :=
  ∀ s : State, s.Ready → s.canonical = true → s.TablesSized → s.WindowOk → s.p.layout = .singleHash →
    s.posOk s.op0 = true → s.idx s.op0.toNat + 8 ≤ s.cur →
    let p := s.idx s.op0.toNat
    let h := s.view.slot p s.p.mls s.p.hashLog.toNat
    ∃ t, exec .h1Insfind s = .next t ∧
      t = { s.withCode 0 with
        ms := { s.ms with hashTable := t.ms.hashTable, nextToUpdate := t.ms.nextToUpdate }, res0 := t.res0 } ∧
      h < 2 ^ s.p.hashLog.toNat ∧ t.res0.toNat = s.ms.hashTable.get h ∧
      (∀ k, t.ms.hashTable.get k = if k = h then p else s.ms.hashTable.get k) ∧
      t.ms.nextToUpdate.toNat = max s.ms.nextToUpdate.toNat s.w.lowLimit.toNat

/-- R118: DH_INSFIND completes, returns the previous occupants of the long slot of `hashTable` and of the short slot of
`chainTable`, and stores the position in both; no other slot changes. -/
def Obligations.DualHashInsertReturnsBoth : Prop :=
  ∀ s : State, s.Ready → s.canonical = true → s.TablesSized → s.WindowOk → s.p.layout = .dualHash →
    s.posOk s.op0 = true → s.idx s.op0.toNat + 8 ≤ s.cur →
    let p := s.idx s.op0.toNat
    let hL := s.view.slot p 8 s.p.hashLog.toNat
    let hS := s.view.slot p s.p.mls s.p.chainLog.toNat
    ∃ t, exec .dhInsfind s = .next t ∧
      t = { s.withCode 0 with
        ms := { s.ms with
          hashTable := t.ms.hashTable, chainTable := t.ms.chainTable, nextToUpdate := t.ms.nextToUpdate },
        res0 := t.res0, res1 := t.res1 } ∧
      t.res0.toNat = s.ms.hashTable.get hL ∧ t.res1.toNat = s.ms.chainTable.get hS ∧
      (∀ k, t.ms.hashTable.get k = (if k = hL then p else s.ms.hashTable.get k) ∧
        t.ms.chainTable.get k = if k = hS then p else s.ms.chainTable.get k) ∧
      t.ms.nextToUpdate.toNat = max s.ms.nextToUpdate.toNat s.w.lowLimit.toNat

/-- R119, R120: HC_INSFIND completes and inserts every position of `[nextToUpdate, p)`: each hash slot then holds the latest
inserted position that hashes to it, each link the position its owner found there; the head returned is the slot's. -/
def Obligations.HashChainInsertKeepsTheLatest : Prop :=
  ∀ s : State, s.Ready → s.canonical = true → s.TablesSized → s.WindowOk → s.p.layout = .hashChain →
    s.posOk s.op0 = true → s.idx s.op0.toNat + 8 ≤ s.cur →
    let p := s.idx s.op0.toNat
    let n0 := max s.ms.nextToUpdate.toNat s.w.lowLimit.toNat
    let slot := fun q => s.view.slot q s.p.mls s.p.hashLog.toNat
    let head := fun h q => (lastWith (fun x => slot x == h) n0 (q - n0)).getD (s.ms.hashTable.get h)
    ∃ t, exec .hcInsfind s = .next t ∧
      t = { s.withCode 0 with
        ms := { s.ms with
          hashTable := t.ms.hashTable, chainTable := t.ms.chainTable, nextToUpdate := t.ms.nextToUpdate },
        res0 := t.res0 } ∧
      t.ms.nextToUpdate.toNat = max n0 p ∧ t.res0.toNat = head (slot p) p ∧
      (∀ h, h < 2 ^ s.p.hashLog.toNat → t.ms.hashTable.get h = head h p) ∧
      (∀ q, n0 ≤ q → q < p → p ≤ q + 2 ^ s.p.chainLog.toNat →
        t.ms.chainTable.get (q % 2 ^ s.p.chainLog.toNat) = head (slot q) q)

/-- R121, R23: HC_SEARCH completes; the Match State it leaves is the one HC_INSFIND leaves, and the match it reports is a real one: at least
4 bytes, all equal, ending at or before `e`, starting in the history before `p`; or none (0, 0). -/
def Obligations.HashChainSearchReportsRealMatches : Prop :=
  ∀ s : State, s.Ready → s.impl.legal = true → s.TablesSized → s.WindowOk → s.BankOk → s.p.layout = .hashChain →
    s.posOk s.op0 = true → s.posOk s.op1 = true → s.idx s.op0.toNat + 8 ≤ s.idx s.op1.toNat →
    let p := s.idx s.op0.toNat
    ∃ t, exec .hcSearch s = .next t ∧
      t = { s.withCode 0 with
        ms := { s.ms with
          hashTable := t.ms.hashTable, chainTable := t.ms.chainTable, nextToUpdate := t.ms.nextToUpdate },
        res0 := t.res0, res1 := t.res1 } ∧
      t.ms.nextToUpdate.toNat = max (max s.ms.nextToUpdate.toNat s.w.lowLimit.toNat) p ∧
      (∃ u, exec .hcInsfind s = .next u ∧ u.status.code = 0 ∧ t.ms = u.ms) ∧
      ((t.res0 = 0 ∧ t.res1 = 0) ∨
        (4 ≤ t.res0.toNat ∧ p + t.res0.toNat ≤ s.idx s.op1.toNat ∧ s.histLow ≤ t.res1.toNat ∧ t.res1.toNat < p ∧
          ∀ k, k < t.res0.toNat → s.histByte (p + k) = s.histByte (t.res1.toNat + k)))

/-- R123, R124: BT_UPDATE completes; every hash slot then holds the latest inserted position that hashes to it, and only the
two tables and `nextToUpdate` change. -/
def Obligations.TreeUpdateInsertsEveryPosition : Prop :=
  ∀ s : State, s.Ready → s.canonical = true → s.TablesSized → s.WindowOk → s.p.layout = .binaryTree →
    s.posOk s.op0 = true → s.posOk s.op1 = true → s.idx s.op0.toNat + 8 ≤ s.idx s.op1.toNat →
    let p := s.idx s.op0.toNat
    let n0 := max s.ms.nextToUpdate.toNat s.w.lowLimit.toNat
    ∃ t, exec .btUpdate s = .next t ∧
      t = { s.withCode 0 with
        ms := { s.ms with
          hashTable := t.ms.hashTable, chainTable := t.ms.chainTable, nextToUpdate := t.ms.nextToUpdate } } ∧
      t.ms.nextToUpdate.toNat = max n0 p ∧
      (∀ h, h < 2 ^ s.p.hashLog.toNat →
        t.ms.hashTable.get h =
          (lastWith (fun q => s.view.slot q s.p.mls s.p.hashLog.toNat == h) n0 (p - n0)).getD (s.ms.hashTable.get h))

/-- R125, R126, R23: BT_SEARCH completes, and the match it reports is a real one: at least 3 bytes when `P.minMatch = 3`, else
at least 4, all equal, ending at or before `e`, starting in the history before `p`; or none (0, 0), as always for a position
already passed. -/
def Obligations.TreeSearchReportsRealMatches : Prop :=
  ∀ s : State, s.Ready → s.impl.legal = true → s.TablesSized → s.WindowOk → s.BankOk → s.p.layout = .binaryTree →
    s.posOk s.op0 = true → s.posOk s.op1 = true → s.idx s.op0.toNat + 8 ≤ s.idx s.op1.toNat →
    let p := s.idx s.op0.toNat
    ∃ t, exec .btSearch s = .next t ∧
      t = { s.withCode 0 with
        ms := { s.ms with
          hashTable := t.ms.hashTable, chainTable := t.ms.chainTable, hashTable3 := t.ms.hashTable3
          nextToUpdate := t.ms.nextToUpdate, nextToUpdate3 := t.ms.nextToUpdate3 },
        res0 := t.res0, res1 := t.res1 } ∧
      t.ms.nextToUpdate.toNat = max (max s.ms.nextToUpdate.toNat s.w.lowLimit.toNat) (p + 1) ∧
      (p < max s.ms.nextToUpdate.toNat s.w.lowLimit.toNat → t.res0 = 0 ∧ t.res1 = 0) ∧
      ((t.res0 = 0 ∧ t.res1 = 0) ∨
        ((if s.p.minMatch.toNat = 3 then 3 else 4) ≤ t.res0.toNat ∧ p + t.res0.toNat ≤ s.idx s.op1.toNat ∧
          s.histLow ≤ t.res1.toNat ∧ t.res1.toNat < p ∧
          ∀ k, k < t.res0.toNat → s.histByte (p + k) = s.histByte (t.res1.toNat + k)))

/-- R126: H3_INSFIND completes when `P.minMatch = 3`: the 3-byte table then holds the latest position below `p` for every slot,
the one of `p`'s slot is returned, and only that table and the two cursors change. -/
def Obligations.ShortHashInsertKeepsTheLatest : Prop :=
  ∀ s : State, s.Ready → s.canonical = true → s.TablesSized → s.WindowOk → s.p.minMatch.toNat = 3 →
    s.posOk s.op0 = true → s.idx s.op0.toNat + 8 ≤ s.cur →
    let p := s.idx s.op0.toNat
    let n0 := max s.ms.nextToUpdate3.toNat s.w.lowLimit.toNat
    let log3 := min 17 s.p.windowLog.toNat
    let head := fun h => (lastWith (fun q => s.view.slot q 3 log3 == h) n0 (p - n0)).getD (s.ms.hashTable3.get h)
    ∃ t, exec .h3Insfind s = .next t ∧
      t = { s.withCode 0 with
        ms := { s.ms with
          hashTable3 := t.ms.hashTable3, nextToUpdate := t.ms.nextToUpdate, nextToUpdate3 := t.ms.nextToUpdate3 },
        res0 := t.res0 } ∧
      t.ms.nextToUpdate3.toNat = max n0 p ∧
      t.ms.nextToUpdate.toNat = max s.ms.nextToUpdate.toNat s.w.lowLimit.toNat ∧
      t.res0.toNat = head (s.view.slot p 3 log3) ∧ (∀ h, h < 2 ^ log3 → t.ms.hashTable3.get h = head h)

/-- R130: TAB_FILL completes in every layout. It leaves `nextToUpdate` at the end of the filled content, or only raises it when
fewer than 8 bytes are left; the fast single-hash fill stores every third position and nothing else. -/
def Obligations.TabFillCompletes : Prop :=
  ∀ (m : Byte) (s : State), s.Ready → s.canonical = true → s.TablesSized → s.WindowOk → s.posOk s.op0 = true →
    let e := s.idx s.op0.toNat
    let n0 := max s.ms.nextToUpdate.toNat s.w.lowLimit.toNat
    ∃ t, exec (.tabFill m) s = .next t ∧
      t = { s.withCode 0 with
        ms := { s.ms with
          hashTable := t.ms.hashTable, chainTable := t.ms.chainTable, nextToUpdate := t.ms.nextToUpdate } } ∧
      (e < 8 ∨ e - 8 < n0 →
        t.ms.nextToUpdate.toNat = n0 ∧ t.ms.hashTable = s.ms.hashTable ∧ t.ms.chainTable = s.ms.chainTable) ∧
      (8 ≤ e → n0 ≤ e - 8 → t.ms.nextToUpdate.toNat = e ∧
        (s.p.layout = .singleHash → m.getLsbD 0 = false → ∀ h, h < 2 ^ s.p.hashLog.toNat →
          t.ms.hashTable.get h =
            (lastWith (fun q => (q - n0) % 3 == 0 && decide (q + 2 ≤ e - 8) &&
              s.view.slot q s.p.mls s.p.hashLog.toNat == h) n0 (e - n0)).getD (s.ms.hashTable.get h)))

/-! ## Block matching (42_block_matcher.md, 43_ldm.md) -/

/-- 42_block_matcher.md R141: BLK_MATCH of a legal block completes when no long length stands in the store yet: the tail it
reports is at most the block, its address is where the tail begins; the tables, the store, the repeat offsets of `next` and
the results are all it changes. -/
def Obligations.BlkMatchCompletes : Prop :=
  ∀ s : State, s.Ready → s.impl.legal = true → s.blockOk s.op0 s.op1 = true → s.seq.longLit = none →
    s.seq.longMatch = none →
    ∃ t, exec .blkMatch s = .next t ∧
      t = { s.withCode 0 with
        ms := { s.ms with
          hashTable := t.ms.hashTable, chainTable := t.ms.chainTable, hashTable3 := t.ms.hashTable3
          nextToUpdate := t.ms.nextToUpdate, nextToUpdate3 := t.ms.nextToUpdate3 },
        seq := t.seq, bs0 := t.bs0, bs1 := t.bs1, res0 := t.res0, res1 := t.res1 } ∧
      t.prev = s.prev ∧ t.nextBs = { s.nextBs with rep := t.nextBs.rep } ∧
      t.res0.toNat ≤ s.op1.toNat ∧
      t.res1.toNat = (s.w.base.toNat + (s.idx s.op0.toNat + s.op1.toNat - t.res0.toNat)) % 2 ^ s.impl.addrW ∧
      s.seq.seqs <+: t.seq.seqs ∧ s.seq.lit <+: t.seq.lit

/-- 42_block_matcher.md R141, 44_sequence_store.md R197, 95_test_vectors.md X1: whatever the tables hold, replaying the
sequences BLK_MATCH stored into an empty store, and then its tail, gives back the block's bytes; and when it stored a sequence
and `prev.rep[0]` was not 0, the first two repeat offsets it leaves are the ones the replay ends with (44_sequence_store.md
R198). (Indices stay below the bound of 40_window.md R96.) -/
def Obligations.BlkMatchReplaysToTheBlock : Prop :=
  ∀ s t : State, s.RunOk → s.Ready → s.cur + 2 ^ 17 + 3 < 2 ^ 32 →
    s.seq = { seqs := [], lit := [], longLit := none, longMatch := none, codes := [], codesValid := false } →
    exec .blkMatch s = .next t → t.status.code = 0 →
    let i := s.idx s.op0.toNat
    let r := s.prev.rep
    let out := (t.seq.lastLit s.histByte (i + s.op1.toNat - t.res0.toNat) t.res0.toNat).replay s.histByte i
      (r.r0.toNat, r.r1.toNat, r.r2.toNat)
    out.1 = s.mem.readBytes s.op0.toNat s.op1.toNat ∧
    (t.seq.seqs ≠ [] → r.r0 ≠ 0 → out.2.1 = t.nextBs.rep.r0.toNat ∧ out.2.2.1 = t.nextBs.rep.r1.toNat)

/-- 43_ldm.md R174, R179: LDM_GENERATE of legal operands completes; it changes the LDM State and RES0 only, the new queue
describes at most the bytes it was given, every match in it is at least `ldmMinMatch` long, and RES0 counts it; every queued
match is a real one: at the place the lengths before it lead to, its bytes equal those its offset back, none of them below
`LDM.W.lowLimit` (for bytes whose indices stay in the LDM window). (That the remainder counter stays is the model's choice: no
rule touches it, log 10.) -/
def Obligations.LdmGenerateCompletes : Prop :=
  ∀ s : State, s.Ready → s.p.ldmEnable = true → s.spanOk s.ldm.w s.op0 s.op1 = true →
    s.op1.toNat / s.p.ldmMinMatch.toNat ≤ s.impl.ldmSeqCap → s.impl.legal = true →
    ∃ t, exec .ldmGenerate s = .next t ∧ t = { s.withCode 0 with ldm := t.ldm, res0 := t.res0 } ∧
      t.res0 = BitVec.ofNat 64 t.ldm.seq.length ∧ t.ldm.pos = 0 ∧ t.ldm.remainder = s.ldm.remainder ∧
      rawLength t.ldm.seq ≤ s.op1.toNat ∧
      (s.op1.toNat < 2 ^ 32 → ∀ q ∈ t.ldm.seq, s.p.ldmMinMatch.toNat ≤ q.matchLength.toNat) ∧
      (let aw := s.impl.addrW
       let i := s.ldm.w.idx aw s.op0.toNat
       s.ldm.w.cur aw < 2 ^ 32 → i + s.op1.toNat ≤ s.ldm.w.cur aw → ∀ k q, t.ldm.seq[k]? = some q →
        let p := i + rawLength (t.ldm.seq.take k) + q.litLength.toNat
        let byte := ldmByte s.mem aw s.freeCtr s.ldm.w
        1 ≤ q.offset.toNat ∧ q.offset.toNat + s.ldm.w.lowLimit.toNat ≤ p ∧
        ∀ j, j < q.matchLength.toNat → byte (p + j) = byte (p + j - q.offset.toNat))

/-- 43_ldm.md R177, R180, R181: LDM_BLK_MATCH of a legal block completes when the queue begins at `src` and holds no offset that
reaches below the history, and no long length stands in the store; the queue's entries before `LDM.pos` stay, its length too,
and what is left of it begins after the bytes consumed from it. With nothing unconsumed it does what BLK_MATCH does. A first
sequence that lies whole in the block is stored: after the sequences of the literal run, with the run's tail as literals, the
real offset + 3 and the match length - 3; when it is the only one, the rest of the block is matched from the offsets with the
real offset pushed to the front. (How the model knows where the queue begins is its own, log 11.) -/
def Obligations.LdmBlkMatchCompletes : Prop :=
  ∀ s : State, s.Ready → s.p.ldmEnable = true → s.p.inRange = true → s.blockOk s.op0 s.op1 = true →
    s.queueHere s.op0 = true → s.queueReachesBelow s.op0 = false → s.seq.longLit = none → s.seq.longMatch = none →
    (∀ q ∈ s.ldm.pending, 3 ≤ q.matchLength.toNat) → s.ldm.pos ≤ s.ldm.seq.length →
    ∃ t, exec .ldmBlkMatch s = .next t ∧
      t = { s.withCode 0 with
        ms := { s.ms with
          hashTable := t.ms.hashTable, chainTable := t.ms.chainTable, hashTable3 := t.ms.hashTable3
          nextToUpdate := t.ms.nextToUpdate, nextToUpdate3 := t.ms.nextToUpdate3 },
        seq := t.seq, bs0 := t.bs0, bs1 := t.bs1, res0 := t.res0, res1 := t.res1,
        ldm := { s.ldm with seq := t.ldm.seq, pos := t.ldm.pos, queueSrc := t.ldm.queueSrc } } ∧
      t.prev = s.prev ∧ t.nextBs = { s.nextBs with rep := t.nextBs.rep } ∧ t.res0.toNat ≤ s.op1.toNat ∧
      s.ldm.pos ≤ t.ldm.pos ∧ t.ldm.pos ≤ t.ldm.seq.length ∧ t.ldm.seq.length = s.ldm.seq.length ∧
      t.ldm.seq.take s.ldm.pos = s.ldm.seq.take s.ldm.pos ∧
      (∃ k, k ≤ s.op1.toNat ∧ t.ldm.queueSrc = s.ldm.queueSrc.map (· + BitVec.ofNat 64 k) ∧
        ((∀ q ∈ s.ldm.pending, q.offset ≠ 0) → k = min s.op1.toNat (rawLength s.ldm.pending) ∧
          (rawLength s.ldm.pending ≤ s.op1.toNat → t.ldm.pending = []))) ∧
      (∀ q qs, s.ldm.pending = q :: qs → q.offset ≠ 0 → q.offset.toNat + 3 < 2 ^ 32 →
        q.litLength.toNat + q.matchLength.toNat ≤ s.op1.toNat →
        let i := s.idx s.op0.toNat
        let m := i + q.litLength.toNat
        let b := blkCore s.view s.blockWork i m s.prev.rep
        b.work.seq.seqs ++ [{ offset := q.offset + 3, litLength := BitVec.ofNat 16 (m - b.anchor),
                              matchLength := BitVec.ofNat 16 (q.matchLength.toNat - 3) }] <+: t.seq.seqs ∧
        b.work.seq.lit ++ bytesFrom s.histByte b.anchor (m - b.anchor) <+: t.seq.lit ∧
        (qs = [] →
          let w := b.work.store s.view (m - b.anchor) b.anchor (q.offset.toNat + 3) (q.matchLength.toNat - 3)
          let e := blkCore s.view w (m + q.matchLength.toNat) (i + s.op1.toNat)
            { r0 := q.offset, r1 := b.rep.r0, r2 := b.rep.r1 }
          t.ms = e.work.ms ∧ t.seq = e.work.seq ∧ t.nextBs.rep = e.rep ∧ t.res0.toNat = i + s.op1.toNat - e.anchor)) ∧
      (s.ldm.pending = [] → t.ldm.seq = s.ldm.seq ∧ t.ldm.pos = s.ldm.pos ∧
        exec .blkMatch s = .next { t with ldm := s.ldm })

/-! ## The Sequence Store (44_sequence_store.md) -/

/-- R185, R188, R329, R331 last row: SEQ_STORE of legal operands appends the literals and the triple (the low 16 bits of each
length), and a length above 65535 takes the block's one long position; a second such length is fatal: the literals (and a
first long literal position) are written, the triple is not. -/
def Obligations.SeqStoreAppendsOrIsFatal : Prop :=
  ∀ s : State, s.Ready → s.spanOk s.w s.op1 s.op0 = true → 1 ≤ s.op2.toNat → s.op2.toNat < 2 ^ 32 →
    s.op0.toNat < 2 ^ 17 → s.op3.toNat < 2 ^ 17 → s.seq.seqs.length < 43690 →
    s.seq.lit.length + s.op0.toNat ≤ 131072 →
    ((65535 < s.op0.toNat → s.seq.longLit = none) → (65535 < s.op3.toNat → s.seq.longMatch = none) →
      exec .seqStore s = .next { s.withCode 0 with
        seq := { s.seq with
          seqs := s.seq.seqs ++ [{ offset := BitVec.ofNat 32 s.op2.toNat, litLength := BitVec.ofNat 16 s.op0.toNat,
                                   matchLength := BitVec.ofNat 16 s.op3.toNat }]
          lit := s.seq.lit ++ bytesFrom s.histByte (s.idx s.op1.toNat) s.op0.toNat
          longLit := if 65535 < s.op0.toNat then some s.seq.seqs.length else s.seq.longLit
          longMatch := if 65535 < s.op3.toNat then some s.seq.seqs.length else s.seq.longMatch
          codesValid := false } }) ∧
    ((65535 < s.op0.toNat ∧ s.seq.longLit ≠ none) ∨ (65535 < s.op3.toNat ∧ s.seq.longMatch ≠ none) →
      exec .seqStore s = .next { s with
        status := { s.status with code := 1, fatal := true }
        seq := { s.seq with
          lit := s.seq.lit ++ bytesFrom s.histByte (s.idx s.op1.toNat) s.op0.toNat
          longLit := if 65535 < s.op0.toNat ∧ s.seq.longLit = none then some s.seq.seqs.length else s.seq.longLit } })

/-- R186, R189: SEQ_RESET completes and empties the store; SEQ_LASTLIT of legal operands completes and appends the bytes to the
literals; nothing else changes. -/
def Obligations.SeqResetAndLastlitComplete : Prop :=
  (∀ s : State, s.Ready → exec .seqReset s = .next { s.withCode 0 with
    seq := { seqs := [], lit := [], longLit := none, longMatch := none, codes := [], codesValid := false } }) ∧
  (∀ s : State, s.Ready → s.spanOk s.w s.op0 s.op1 = true → s.seq.lit.length + s.op1.toNat ≤ 131072 →
    exec .seqLastlit s = .next { s.withCode 0 with
      seq := { s.seq with lit := s.seq.lit ++ bytesFrom s.histByte (s.idx s.op0.toNat) s.op1.toNat } })

/-- R190 to R192: SEQ_TO_CODES completes: triple `k` gets the codes of its three fields, the long positions the top codes 35
and 52; the triples and literals stay. -/
def Obligations.SeqToCodesGivesEveryCode : Prop :=
  ∀ s : State, s.Ready → ∃ t, exec .seqToCodes s = .next t ∧
    t = { s.withCode 0 with seq := { s.seq with codes := t.seq.codes, codesValid := true } } ∧
    t.seq.codes.length = s.seq.seqs.length ∧
    ∀ k q, s.seq.seqs[k]? = some q → ∃ c, t.seq.codes[k]? = some c ∧
      c.ll.toNat = (if s.seq.longLit = some k then 35 else llCode q.litLength.toNat) ∧
      c.of.toNat = highbit q.offset.toNat ∧
      c.ml.toNat = (if s.seq.longMatch = some k then 52 else mlCode q.matchLength.toNat)

/-- R190 to R193: the codes lose nothing: a code and the extra bits it carries determine a stored literal length, match length
or offset. -/
def Obligations.CodesAndExtraBitsAreLossless : Prop :=
  (∀ v w, v < 2 ^ 16 → w < 2 ^ 16 → llCode v = llCode w → v % 2 ^ llBits (llCode v) = w % 2 ^ llBits (llCode w) → v = w) ∧
  (∀ v w, v < 2 ^ 16 → w < 2 ^ 16 → mlCode v = mlCode w → v % 2 ^ mlBits (mlCode v) = w % 2 ^ mlBits (mlCode w) → v = w) ∧
  (∀ v w, 1 ≤ v → 1 ≤ w → highbit v = highbit w → v % 2 ^ highbit v = w % 2 ^ highbit w → v = w) ∧
  (∀ v, v < 2 ^ 16 → llCode v ≤ 35 ∧ mlCode v ≤ 52)

/-! ## The entropy stage (47_block_entropy.md) -/

/-- R256 to R259, R325, R331: LIT_COMPRESS completes when the section, at most 3 bytes longer than the literals, fits: it writes
exactly the section that `LitCompress` builds from the literals and `prev`'s table, RES0 its length and RES1 its type, and `next` gets the
table it returns; too few literals stay raw, equal ones become one byte, and the table is a new one only with type 2. When
the section does not fit, the command ends with `DstTooSmall` and nothing but the code changes. -/
def Obligations.LitCompressCompletes : Prop :=
  ∀ s : State, s.Ready → s.mem.wf = true → s.rangeOk s.op0 s.op1 = true →
    s.destClash 0 0 s.op0.toNat s.op1.toNat = false →
    let r := litCompress s.prev.huf s.seq.lit
    let out := r.bytes
    out.length ≤ s.seq.lit.length + 3 ∧
    (s.op1.toNat < out.length → exec .litCompress s = .next (s.withCode 5)) ∧
    (out.length ≤ s.op1.toNat → ∃ t, exec .litCompress s = .next t ∧
      t = { s.withCode 0 with
        mem := s.mem.writeBytes s.op0.toNat out, bs0 := t.bs0, bs1 := t.bs1, res0 := t.res0, res1 := t.res1 } ∧
      t.prev = s.prev ∧ t.nextBs = { s.nextBs with huf := r.huf } ∧
      t.res0.toNat = out.length ∧ t.res1.toNat = r.typ ∧ t.res1.toNat ≤ 3 ∧
      (∀ a, a < s.op0.toNat ∨ s.op0.toNat + out.length ≤ a → t.mem.read a = s.mem.read a) ∧
      (t.res1.toNat = 0 → ∃ head, out = head ++ s.seq.lit) ∧
      (t.res1.toNat ≠ 2 → t.nextBs.huf = s.prev.huf) ∧ (t.res1.toNat = 2 → t.nextBs.huf.mode = .check) ∧
      (s.seq.lit.length ≤ (if s.prev.huf.mode = .valid then 6 else 63) → t.res1 = 0) ∧
      (∀ b, 63 < s.seq.lit.length → s.seq.lit = List.replicate s.seq.lit.length b →
        t.res1 = 1 ∧ ∃ head, out = head ++ [b]))

/-- R263, R265, R331: SEQ_ENCODE completes when the section it builds fits (an empty store always builds the single byte 0): it
writes exactly the section, RES0 its length, RES1 the type byte (bits 1:0 zero); the codes become valid. When the section
does not fit, an empty store's included (log 39), only the code changes and the store as SEQ_TO_CODES changes it. -/
def Obligations.SeqEncodeCompletes : Prop :=
  ∀ s : State, s.Ready → s.rangeOk s.op0 s.op1 = true → s.destClash 0 0 s.op0.toNat s.op1.toNat = false →
    (s.seq.seqs = [] → 1 ≤ s.op1.toNat → ∃ t, exec .seqEncode s = .next t ∧
      t = { s.withCode 0 with
        mem := s.mem.write s.op0.toNat 0, bs0 := t.bs0, bs1 := t.bs1, res0 := 1, res1 := 0 } ∧
      t.prev = s.prev ∧ t.nextBs = { s.nextBs with
        fseLL := s.prev.fseLL, fseOF := s.prev.fseOF, fseML := s.prev.fseML }) ∧
    ∀ o, (seqEncode s.prev s.freeCtr s.seq).2 = some o →
      (o.bytes.length ≤ s.op1.toNat →
        ∃ t, exec .seqEncode s = .next t ∧
          t = { s.withCode 0 with
            mem := s.mem.writeBytes s.op0.toNat o.bytes, bs0 := t.bs0, bs1 := t.bs1, seq := t.seq, res0 := t.res0,
            res1 := t.res1 } ∧
          t.res0.toNat = o.bytes.length ∧ t.res1.toNat < 256 ∧ t.res1.toNat % 4 = 0 ∧
          t.prev = s.prev ∧ t.nextBs = { s.nextBs with
            fseLL := t.nextBs.fseLL, fseOF := t.nextBs.fseOF, fseML := t.nextBs.fseML } ∧
          (s.seq.seqs ≠ [] → t.seq = { s.seq with codes := t.seq.codes, codesValid := true })) ∧
      (s.op1.toNat < o.bytes.length →
        exec .seqEncode s = .next { s.withCode 5 with seq := s.seq.toCodes })

/-! ## Frames (48_frame_assembler.md) -/

/-- R284, R285: a frame header has 6 to 18 bytes and begins with the magic number; its content-size field gives back the
pledged size whenever that is known, and its dictionary-ID field the ID whenever it is not suppressed. -/
def Obligations.FrameHeaderSaysSizeAndDictionary : Prop :=
  ∀ s : State, s.p.inRange = true → 6 ≤ s.frameHeader.length ∧ s.frameHeader.length ≤ 18 ∧
    s.frameHeader.take 4 = [0x28, 0xB5, 0x2F, 0xFD] ∧
    (∃ mid, s.frameHeader = [0x28, 0xB5, 0x2F, 0xFD] ++ [BitVec.ofNat 8 s.descriptorByte] ++ mid ++ s.idField ++
      s.p.sizeField) ∧
    (s.p.sizeKnown = true →
      leVal s.p.sizeField + (if s.descriptorByte / 2 ^ 6 = 1 then 256 else 0) = s.p.pledged.toNat) ∧
    (s.p.noDictIDFlag = false → leVal s.idField = s.dictID.toNat)

/-- R287 to R289, R332: a block is raw, RLE or compressed; a raw payload is the input, an RLE payload one byte of a block of
equal bytes that is not the frame's first, a compressed payload beats the input by the minimum gain. -/
def Obligations.BlockBodyNeverExpands : Prop :=
  ∀ (s : State) (src n : Nat),
    let b := blockBody s src n
    b.2.2.length ≤ n ∧ b.2.1 ≤ 2 ∧
    (b.2.1 = 0 → b.2.2 = s.mem.readBytes src n) ∧
    (b.2.1 = 1 → s.isFirstBlock = false ∧ 7 ≤ n ∧ ∃ v, s.mem.readBytes src n = List.replicate n v ∧ b.2.2 = [v]) ∧
    (b.2.1 = 2 → 7 ≤ n ∧ b.2.2 ≠ [] ∧ b.2.2.length + (n / 64 + 2) < n)

/-- R292, R290: BLOCK_COMPRESS of a legal block completes when the capacity is at least 3 bytes more than the block: it writes
one block of at most that size whose 3-byte header carries the last flag, RES1 is its type, and the last block ends the
frame body. -/
def Obligations.BlockCompressCompletes : Prop :=
  ∀ (m : Byte) (s : State), s.GatesOpen → s.stage = .ongoing → s.mem.wf = true → s.op1.toNat ≤ s.p.blockSizeMax →
    s.spanOk s.w s.op0 s.op1 = true → s.rangeOk s.op2 s.op3 = true →
    s.destClash s.op0.toNat s.op1.toNat s.op2.toNat s.op3.toNat = false → s.op1.toNat + 3 ≤ s.op3.toNat →
    ∃ t out, exec (.blockCompress m) s = .next t ∧
      t = { s.withCode 0 with
        mem := s.mem.writeBytes s.op2.toNat out, freeCtr := s.freeCtr + 1
        stage := if m.getLsbD 0 then .ending else .ongoing
        w := t.w, ms := t.ms, seq := t.seq, bs0 := t.bs0, bs1 := t.bs1, prevSel := t.prevSel, ldm := t.ldm
        isFirstBlock := false, res0 := t.res0, res1 := t.res1 } ∧
      t.res0.toNat = out.length ∧ 3 ≤ out.length ∧ out.length ≤ s.op1.toNat + 3 ∧ t.res1.toNat ≤ 2 ∧
      (∀ a, a < s.op2.toNat ∨ s.op2.toNat + out.length ≤ a → t.mem.read a = s.mem.read a) ∧
      leVal (out.take 3) = (m.getLsbD 0).toNat + t.res1.toNat * 2 +
        (if t.res1.toNat = 2 then out.length - 3 else s.op1.toNat) * 8 ∧
      (t.res1.toNat = 0 → out.drop 3 = s.mem.readBytes s.op0.toNat s.op1.toNat) ∧
      (t.res1.toNat = 2 → t.prevSel = !s.prevSel) ∧ (t.res1.toNat ≠ 2 → t.prevSel = s.prevSel)

/-- R290, R292, R293, R296, R328, R331: a frame header that does not fit changes nothing but the code and RES0, which becomes 0,
and a retry is legal (RES0: log 37). A block unit longer than what is left of the capacity is not written, whatever the
capacity, and loses the frame: BLOCK_COMPRESS then ends with `DstTooSmall`, `unspec` set, memory as before, RES0 0; a frame
command so too, at whichever block, RES0 and the memory counting the units before it; and whenever a frame command loses the
frame (the empty last block and the checksum included), RES1 and `consumed`, by an unfinished chunk, stay. -/
def Obligations.UnitThatDoesNotFitIsNotWritten : Prop :=
  (∀ s : State, s.GatesOpen → s.stage = .initialized → s.rangeOk s.op0 s.op1 = true → s.rangeOk s.op2 s.op3 = true →
    s.cur + s.op1.toNat < 2 ^ s.impl.addrW →
    s.destClash s.op0.toNat s.op1.toNat s.op2.toNat s.op3.toNat = false → s.op3.toNat < s.frameHeader.length →
    (s.pledgeOk s.op1.toNat false = true → exec .frameContinue s = .next { s.withCode 5 with res0 := 0 }) ∧
    (s.pledgeOk s.op1.toNat true = true → exec .frameEnd s = .next { s.withCode 5 with res0 := 0 })) ∧
  (∀ (s : State) (src n dst cap : Nat) (last : Bool),
    let b := blockBody (blockWindow s src n) src n
    let r := blockStep s src n last dst cap
    (r.2 = none ↔ cap < 3 + b.2.2.length) ∧
    (r.2 = none → r.1.mem = s.mem ∧ r.1.status = { s.status with unspec := true } ∧
      r.1.isFirstBlock = s.isFirstBlock)) ∧
  (∀ (m : Byte) (s : State), s.GatesOpen → s.stage = .ongoing → s.op1.toNat ≤ s.p.blockSizeMax →
    s.spanOk s.w s.op0 s.op1 = true → s.rangeOk s.op2 s.op3 = true →
    s.destClash s.op0.toNat s.op1.toNat s.op2.toNat s.op3.toNat = false →
    s.op3.toNat < 3 + (blockBody (blockWindow s s.op0.toNat s.op1.toNat) s.op0.toNat s.op1.toNat).2.2.length →
    ∃ t, exec (.blockCompress m) s = .next t ∧ t.status = { code := 5, fatal := false, unspec := true } ∧
      t.mem = s.mem ∧ t.res0 = 0 ∧ t.res1 = s.res1 ∧ t.stage = .ongoing ∧ t.consumed = s.consumed) ∧
  (∀ (s u : State) (w : Nat), s.Ready → s.mem.wf = true → s.rangeOk s.op0 s.op1 = true → s.rangeOk s.op2 s.op3 = true →
    s.cur + s.op1.toNat < 2 ^ s.impl.addrW →
    s.destClash s.op0.toNat s.op1.toNat s.op2.toNat s.op3.toNat = false →
    s.writeHeader s.op2.toNat s.op3.toNat = some (u, w) →
    ∀ (last : Bool), s.pledgeOk s.op1.toNat last = true →
    let c := frameChunk u s.op0.toNat s.op1.toNat s.op2.toNat s.op3.toNat last w
    c.2.2 = false →
    ∃ t, exec (if last then .frameEnd else .frameContinue) s = .next t ∧
      t.status = { code := 5, fatal := false, unspec := true } ∧ t.mem = c.1.mem ∧ t.res0.toNat = c.2.1 ∧
      c.2.1 ≤ s.op3.toNat ∧ t.res1 = s.res1 ∧ t.stage = .ongoing ∧ t.consumed = s.consumed ∧
      ∀ a, a < s.op2.toNat ∨ s.op2.toNat + t.res0.toNat ≤ a → t.mem.read a = s.mem.read a) ∧
  (∀ (i : Instr) (s t : State), (i = .frameContinue ∨ i = .frameEnd) → s.mem.wf = true → exec i s = .next t →
    s.status.unspec = false → t.status.unspec = true →
    t.status.code = 5 ∧ t.status.fatal = false ∧ t.res1 = s.res1 ∧ t.stage = .ongoing ∧ t.res0.toNat ≤ s.op3.toNat ∧
    (∀ a, a < s.op2.toNat ∨ s.op2.toNat + t.res0.toNat ≤ a → t.mem.read a = s.mem.read a) ∧
    (i = .frameContinue → t.consumed = s.consumed))

/-- R293, R284, R295: FRAME_CONTINUE of a legal chunk completes when the capacity covers a header of 18 bytes and 3 bytes for
each block: it writes the header first when the frame begins, RES0 bytes in all, RES1 is the chunk's length, `consumed` and
the checksum input take the chunk, the stage becomes *ongoing*. -/
def Obligations.FrameContinueCompletes : Prop :=
  ∀ s : State, s.Ready → s.mem.wf = true → s.rangeOk s.op0 s.op1 = true → s.rangeOk s.op2 s.op3 = true →
    s.cur + s.op1.toNat < 2 ^ s.impl.addrW → s.pledgeOk s.op1.toNat false = true →
    s.destClash s.op0.toNat s.op1.toNat s.op2.toNat s.op3.toNat = false →
    18 + s.op1.toNat + 3 * (s.op1.toNat / s.p.blockSizeMax + 1) ≤ s.op3.toNat →
    ∃ t, exec .frameContinue s = .next t ∧
      t = { s.withCode 0 with
        mem := t.mem, freeCtr := t.freeCtr, stage := .ongoing, w := t.w, ms := t.ms, seq := t.seq, bs0 := t.bs0,
        bs1 := t.bs1, prevSel := t.prevSel, ldm := t.ldm, isFirstBlock := t.isFirstBlock, consumed := t.consumed,
        chk := t.chk, res0 := t.res0, res1 := s.op1 } ∧
      t.res0.toNat ≤ 18 + s.op1.toNat + 3 * (s.op1.toNat / s.p.blockSizeMax + 1) ∧
      (∀ a, a < s.op2.toNat ∨ s.op2.toNat + t.res0.toNat ≤ a → t.mem.read a = s.mem.read a) ∧
      (s.stage = .initialized → t.mem.readBytes s.op2.toNat s.frameHeader.length = s.frameHeader) ∧
      (s.consumed.toNat + s.op1.toNat < 2 ^ 64 → t.consumed.toNat = s.consumed.toNat + s.op1.toNat) ∧
      t.chk = (if s.p.checksumFlag then s.chk ++ s.mem.readBytes s.op0.toNat s.op1.toNat else s.chk) ∧
      (s.op1 = 0 → s.stage = .ongoing → t = { s.withCode 0 with res0 := 0, res1 := 0 })

/-- R296, R71: FRAME_END of a legal chunk that fulfils the pledge completes when the capacity covers header, blocks and
epilogue: the frame ends (stage *created*), an empty chunk adds the empty last block, and with the checksum flag the frame's
last 4 bytes are the low half of CHECKSUM64 of all its input. -/
def Obligations.FrameEndCompletes : Prop :=
  ∀ s : State, s.Ready → s.mem.wf = true → s.rangeOk s.op0 s.op1 = true → s.rangeOk s.op2 s.op3 = true →
    s.cur + s.op1.toNat < 2 ^ s.impl.addrW → s.pledgeOk s.op1.toNat true = true →
    s.destClash s.op0.toNat s.op1.toNat s.op2.toNat s.op3.toNat = false →
    25 + s.op1.toNat + 3 * (s.op1.toNat / s.p.blockSizeMax + 1) ≤ s.op3.toNat →
    ∃ t, exec .frameEnd s = .next t ∧
      t = { s.withCode 0 with
        mem := t.mem, freeCtr := t.freeCtr, stage := .created, w := t.w, ms := t.ms, seq := t.seq, bs0 := t.bs0,
        bs1 := t.bs1, prevSel := t.prevSel, ldm := t.ldm, isFirstBlock := t.isFirstBlock, consumed := t.consumed,
        chk := t.chk, res0 := t.res0, res1 := s.op1 } ∧
      t.res0.toNat ≤ 25 + s.op1.toNat + 3 * (s.op1.toNat / s.p.blockSizeMax + 1) ∧
      (∀ a, a < s.op2.toNat ∨ s.op2.toNat + t.res0.toNat ≤ a → t.mem.read a = s.mem.read a) ∧
      (s.stage = .initialized → t.mem.readBytes s.op2.toNat s.frameHeader.length = s.frameHeader) ∧
      (let body := t.res0.toNat - (if s.p.checksumFlag then 4 else 0)
       (s.p.checksumFlag = true →
          t.mem.readBytes (s.op2.toNat + body) 4 = leBytes 4 (checksum64 s.impl.checksum t.chk % 2 ^ 32) ∧
          t.chk = s.chk ++ s.mem.readBytes s.op0.toNat s.op1.toNat) ∧
       (s.op1 = 0 → t.mem.readBytes (s.op2.toNat + (body - 3)) 3 = [0x01, 0x00, 0x00]))

/-! ## Debug read (20_memory.md R49, R56) -/

/-- R49, R56: DBG_READ completes in every stage and under `fatal`: of every readable unit of both spaces it returns the value,
writing RES0 and the code only; of any other it raises `ParamInvalid`. Readable are: an entry below a table's size (the bank's
only while it is valid, the LDM's only with the LDM on), a store unit below the fill, a code only while the codes are valid. -/
def Obligations.DebugReadReturnsTheUnit : Prop :=
  ∀ s : State, s.status.unspec = false →
    let gives := fun (space : DWord) (sel k v : Nat) => s.op0 = space → s.op1 = BitVec.ofNat 64 (sel * 2 ^ 32 + k) →
      exec .dbgRead s = .next { s.withCode 0 with res0 := BitVec.ofNat 64 v }
    let barred := fun (space : DWord) (sel k : Nat) => s.op0 = space → s.op1 = BitVec.ofNat 64 (sel * 2 ^ 32 + k) →
      exec .dbgRead s = .next (s.withCode 2)
    (∀ k, k < 2 ^ 32 →
      (if k < s.ms.hashTable.size then gives 0 0 k (s.ms.hashTable.get k) else barred 0 0 k) ∧
      (if k < s.ms.chainTable.size then gives 0 1 k (s.ms.chainTable.get k) else barred 0 1 k) ∧
      (if k < s.ms.hashTable3.size then gives 0 2 k (s.ms.hashTable3.get k) else barred 0 2 k) ∧
      (if s.dms.valid = true ∧ k < s.dms.hashTable.size then gives 0 3 k (s.dms.hashTable.get k) else barred 0 3 k) ∧
      (if s.dms.valid = true ∧ k < s.dms.chainTable.size then gives 0 4 k (s.dms.chainTable.get k) else barred 0 4 k) ∧
      (if s.p.ldmEnable = true ∧ k < 2 ^ s.p.ldmHashLog.toNat then
        gives 0 5 k (s.ldm.entry k).offset.toNat ∧ gives 0 6 k (s.ldm.entry k).checksum.toNat
        else barred 0 5 k ∧ barred 0 6 k) ∧
      (match s.seq.seqs[k]? with
        | some q => gives 1 0 k q.offset.toNat ∧ gives 1 1 k q.litLength.toNat ∧ gives 1 2 k q.matchLength.toNat
        | none => barred 1 0 k ∧ barred 1 1 k ∧ barred 1 2 k ∧ barred 1 4 k ∧ barred 1 5 k ∧ barred 1 6 k) ∧
      (match s.seq.lit[k]? with
        | some b => gives 1 3 k b.toNat
        | none => barred 1 3 k) ∧
      (s.seq.codesValid = false → barred 1 4 k ∧ barred 1 5 k ∧ barred 1 6 k) ∧
      (s.seq.codesValid = true → k < s.seq.seqs.length → ∀ c, s.seq.codes[k]? = some c →
        gives 1 4 k c.ll.toNat ∧ gives 1 5 k c.of.toNat ∧ gives 1 6 k c.ml.toNat) ∧
      (∀ sel space, 7 ≤ sel → sel < 16 → barred space sel k)) ∧
    (1 < s.op0.toNat ∨ 2 ^ 36 ≤ s.op1.toNat → exec .dbgRead s = .next (s.withCode 2))

/-! ## Invariants -/

/-- Every step keeps memory, the tables of the engine and of the bank and the LDM tables in canonical form: equal contents are
equal data. -/
def Obligations.StepKeepsCanonicalForm : Prop :=
  ∀ s t : State, s.canonical = true → step s = .next t → t.canonical = true

/-- 10_state.md R16, R21, 48_frame_assembler.md R281, R282: between CTX_INIT and the end of a frame the latched parameters are
legal and the three tables have the sizes they give; every step keeps that. -/
def Obligations.StepKeepsTableSizes : Prop :=
  ∀ s t : State, s.TablesSized → step s = .next t → t.TablesSized

/-- 10_state.md R19, 40_window.md R96, R100: the window invariant `1 <= lowLimit <= dictLimit <= cur`, with `cur < 2^32` between
commands, is kept by every step until a frame is lost, and a CTX_INIT after that gives it back; a referenced bank stays valid
and below `dictLimit`. -/
def Obligations.StepKeepsWindowOrder : Prop :=
  ∀ s t : State, s.RunOk → step s = .next t → t.RunOk

/-- The invariants hold right after reset. -/
def Obligations.InvariantsHoldAtReset : Prop :=
  State.reset.canonical = true ∧ State.reset.TablesSized ∧ State.reset.RunOk
end

