-- ==== Sys2Proof/Laws/State.lean ====
section
/-! SUPPORT. One lemma per field and update of State: what an update writes, and that it leaves every other field. -/

namespace Sys2Proof.Machine

open Sys2Proof

/-! ### setRes0 -/

@[simp] theorem State.setRes0_impl (s : State) (v : Nat) : (s.setRes0 v).impl = s.impl := rfl
@[simp] theorem State.setRes0_host (s : State) (v : Nat) : (s.setRes0 v).host = s.host := rfl
@[simp] theorem State.setRes0_lastRead (s : State) (v : Nat) : (s.setRes0 v).lastRead = s.lastRead := rfl
@[simp] theorem State.setRes0_freeCtr (s : State) (v : Nat) : (s.setRes0 v).freeCtr = s.freeCtr := rfl
@[simp] theorem State.setRes0_changed (s : State) (v : Nat) : (s.setRes0 v).changed = s.changed := rfl
@[simp] theorem State.setRes0_mem (s : State) (v : Nat) : (s.setRes0 v).mem = s.mem := rfl
@[simp] theorem State.setRes0_cmd (s : State) (v : Nat) : (s.setRes0 v).cmd = s.cmd := rfl
@[simp] theorem State.setRes0_status (s : State) (v : Nat) : (s.setRes0 v).status = s.status := rfl
@[simp] theorem State.setRes0_op0 (s : State) (v : Nat) : (s.setRes0 v).op0 = s.op0 := rfl
@[simp] theorem State.setRes0_op1 (s : State) (v : Nat) : (s.setRes0 v).op1 = s.op1 := rfl
@[simp] theorem State.setRes0_op2 (s : State) (v : Nat) : (s.setRes0 v).op2 = s.op2 := rfl
@[simp] theorem State.setRes0_op3 (s : State) (v : Nat) : (s.setRes0 v).op3 = s.op3 := rfl
@[simp] theorem State.setRes0_res0 (s : State) (v : Nat) : (s.setRes0 v).res0 = BitVec.ofNat 64 v := rfl
@[simp] theorem State.setRes0_res1 (s : State) (v : Nat) : (s.setRes0 v).res1 = s.res1 := rfl
@[simp] theorem State.setRes0_stage (s : State) (v : Nat) : (s.setRes0 v).stage = s.stage := rfl
@[simp] theorem State.setRes0_cfg (s : State) (v : Nat) : (s.setRes0 v).cfg = s.cfg := rfl
@[simp] theorem State.setRes0_p (s : State) (v : Nat) : (s.setRes0 v).p = s.p := rfl
@[simp] theorem State.setRes0_w (s : State) (v : Nat) : (s.setRes0 v).w = s.w := rfl
@[simp] theorem State.setRes0_ms (s : State) (v : Nat) : (s.setRes0 v).ms = s.ms := rfl
@[simp] theorem State.setRes0_optTables (s : State) (v : Nat) : (s.setRes0 v).optTables = s.optTables := rfl
@[simp] theorem State.setRes0_dms (s : State) (v : Nat) : (s.setRes0 v).dms = s.dms := rfl
@[simp] theorem State.setRes0_seq (s : State) (v : Nat) : (s.setRes0 v).seq = s.seq := rfl
@[simp] theorem State.setRes0_bs0 (s : State) (v : Nat) : (s.setRes0 v).bs0 = s.bs0 := rfl
@[simp] theorem State.setRes0_bs1 (s : State) (v : Nat) : (s.setRes0 v).bs1 = s.bs1 := rfl
@[simp] theorem State.setRes0_prevSel (s : State) (v : Nat) : (s.setRes0 v).prevSel = s.prevSel := rfl
@[simp] theorem State.setRes0_dictID (s : State) (v : Nat) : (s.setRes0 v).dictID = s.dictID := rfl
@[simp] theorem State.setRes0_consumed (s : State) (v : Nat) : (s.setRes0 v).consumed = s.consumed := rfl
@[simp] theorem State.setRes0_isFirstBlock (s : State) (v : Nat) : (s.setRes0 v).isFirstBlock = s.isFirstBlock := rfl
@[simp] theorem State.setRes0_chk (s : State) (v : Nat) : (s.setRes0 v).chk = s.chk := rfl
@[simp] theorem State.setRes0_ldm (s : State) (v : Nat) : (s.setRes0 v).ldm = s.ldm := rfl

/-! ### setRes1 -/

@[simp] theorem State.setRes1_impl (s : State) (v : Nat) : (s.setRes1 v).impl = s.impl := rfl
@[simp] theorem State.setRes1_host (s : State) (v : Nat) : (s.setRes1 v).host = s.host := rfl
@[simp] theorem State.setRes1_lastRead (s : State) (v : Nat) : (s.setRes1 v).lastRead = s.lastRead := rfl
@[simp] theorem State.setRes1_freeCtr (s : State) (v : Nat) : (s.setRes1 v).freeCtr = s.freeCtr := rfl
@[simp] theorem State.setRes1_changed (s : State) (v : Nat) : (s.setRes1 v).changed = s.changed := rfl
@[simp] theorem State.setRes1_mem (s : State) (v : Nat) : (s.setRes1 v).mem = s.mem := rfl
@[simp] theorem State.setRes1_cmd (s : State) (v : Nat) : (s.setRes1 v).cmd = s.cmd := rfl
@[simp] theorem State.setRes1_status (s : State) (v : Nat) : (s.setRes1 v).status = s.status := rfl
@[simp] theorem State.setRes1_op0 (s : State) (v : Nat) : (s.setRes1 v).op0 = s.op0 := rfl
@[simp] theorem State.setRes1_op1 (s : State) (v : Nat) : (s.setRes1 v).op1 = s.op1 := rfl
@[simp] theorem State.setRes1_op2 (s : State) (v : Nat) : (s.setRes1 v).op2 = s.op2 := rfl
@[simp] theorem State.setRes1_op3 (s : State) (v : Nat) : (s.setRes1 v).op3 = s.op3 := rfl
@[simp] theorem State.setRes1_res0 (s : State) (v : Nat) : (s.setRes1 v).res0 = s.res0 := rfl
@[simp] theorem State.setRes1_res1 (s : State) (v : Nat) : (s.setRes1 v).res1 = BitVec.ofNat 64 v := rfl
@[simp] theorem State.setRes1_stage (s : State) (v : Nat) : (s.setRes1 v).stage = s.stage := rfl
@[simp] theorem State.setRes1_cfg (s : State) (v : Nat) : (s.setRes1 v).cfg = s.cfg := rfl
@[simp] theorem State.setRes1_p (s : State) (v : Nat) : (s.setRes1 v).p = s.p := rfl
@[simp] theorem State.setRes1_w (s : State) (v : Nat) : (s.setRes1 v).w = s.w := rfl
@[simp] theorem State.setRes1_ms (s : State) (v : Nat) : (s.setRes1 v).ms = s.ms := rfl
@[simp] theorem State.setRes1_optTables (s : State) (v : Nat) : (s.setRes1 v).optTables = s.optTables := rfl
@[simp] theorem State.setRes1_dms (s : State) (v : Nat) : (s.setRes1 v).dms = s.dms := rfl
@[simp] theorem State.setRes1_seq (s : State) (v : Nat) : (s.setRes1 v).seq = s.seq := rfl
@[simp] theorem State.setRes1_bs0 (s : State) (v : Nat) : (s.setRes1 v).bs0 = s.bs0 := rfl
@[simp] theorem State.setRes1_bs1 (s : State) (v : Nat) : (s.setRes1 v).bs1 = s.bs1 := rfl
@[simp] theorem State.setRes1_prevSel (s : State) (v : Nat) : (s.setRes1 v).prevSel = s.prevSel := rfl
@[simp] theorem State.setRes1_dictID (s : State) (v : Nat) : (s.setRes1 v).dictID = s.dictID := rfl
@[simp] theorem State.setRes1_consumed (s : State) (v : Nat) : (s.setRes1 v).consumed = s.consumed := rfl
@[simp] theorem State.setRes1_isFirstBlock (s : State) (v : Nat) : (s.setRes1 v).isFirstBlock = s.isFirstBlock := rfl
@[simp] theorem State.setRes1_chk (s : State) (v : Nat) : (s.setRes1 v).chk = s.chk := rfl
@[simp] theorem State.setRes1_ldm (s : State) (v : Nat) : (s.setRes1 v).ldm = s.ldm := rfl

/-! ### raise -/

@[simp] theorem State.raise_impl (s : State) (e : Err) : (s.raise e).impl = s.impl := rfl
@[simp] theorem State.raise_host (s : State) (e : Err) : (s.raise e).host = s.host := rfl
@[simp] theorem State.raise_lastRead (s : State) (e : Err) : (s.raise e).lastRead = s.lastRead := rfl
@[simp] theorem State.raise_freeCtr (s : State) (e : Err) : (s.raise e).freeCtr = s.freeCtr := rfl
@[simp] theorem State.raise_changed (s : State) (e : Err) : (s.raise e).changed = s.changed := rfl
@[simp] theorem State.raise_mem (s : State) (e : Err) : (s.raise e).mem = s.mem := rfl
@[simp] theorem State.raise_cmd (s : State) (e : Err) : (s.raise e).cmd = s.cmd := rfl
@[simp] theorem State.raise_status (s : State) (e : Err) : (s.raise e).status = { s.status with code := e.code } := rfl
@[simp] theorem State.raise_op0 (s : State) (e : Err) : (s.raise e).op0 = s.op0 := rfl
@[simp] theorem State.raise_op1 (s : State) (e : Err) : (s.raise e).op1 = s.op1 := rfl
@[simp] theorem State.raise_op2 (s : State) (e : Err) : (s.raise e).op2 = s.op2 := rfl
@[simp] theorem State.raise_op3 (s : State) (e : Err) : (s.raise e).op3 = s.op3 := rfl
@[simp] theorem State.raise_res0 (s : State) (e : Err) : (s.raise e).res0 = s.res0 := rfl
@[simp] theorem State.raise_res1 (s : State) (e : Err) : (s.raise e).res1 = s.res1 := rfl
@[simp] theorem State.raise_stage (s : State) (e : Err) : (s.raise e).stage = s.stage := rfl
@[simp] theorem State.raise_cfg (s : State) (e : Err) : (s.raise e).cfg = s.cfg := rfl
@[simp] theorem State.raise_p (s : State) (e : Err) : (s.raise e).p = s.p := rfl
@[simp] theorem State.raise_w (s : State) (e : Err) : (s.raise e).w = s.w := rfl
@[simp] theorem State.raise_ms (s : State) (e : Err) : (s.raise e).ms = s.ms := rfl
@[simp] theorem State.raise_optTables (s : State) (e : Err) : (s.raise e).optTables = s.optTables := rfl
@[simp] theorem State.raise_dms (s : State) (e : Err) : (s.raise e).dms = s.dms := rfl
@[simp] theorem State.raise_seq (s : State) (e : Err) : (s.raise e).seq = s.seq := rfl
@[simp] theorem State.raise_bs0 (s : State) (e : Err) : (s.raise e).bs0 = s.bs0 := rfl
@[simp] theorem State.raise_bs1 (s : State) (e : Err) : (s.raise e).bs1 = s.bs1 := rfl
@[simp] theorem State.raise_prevSel (s : State) (e : Err) : (s.raise e).prevSel = s.prevSel := rfl
@[simp] theorem State.raise_dictID (s : State) (e : Err) : (s.raise e).dictID = s.dictID := rfl
@[simp] theorem State.raise_consumed (s : State) (e : Err) : (s.raise e).consumed = s.consumed := rfl
@[simp] theorem State.raise_isFirstBlock (s : State) (e : Err) : (s.raise e).isFirstBlock = s.isFirstBlock := rfl
@[simp] theorem State.raise_chk (s : State) (e : Err) : (s.raise e).chk = s.chk := rfl
@[simp] theorem State.raise_ldm (s : State) (e : Err) : (s.raise e).ldm = s.ldm := rfl

/-! ### succeed -/

@[simp] theorem State.succeed_impl (s : State) : (s.succeed).impl = s.impl := rfl
@[simp] theorem State.succeed_host (s : State) : (s.succeed).host = s.host := rfl
@[simp] theorem State.succeed_lastRead (s : State) : (s.succeed).lastRead = s.lastRead := rfl
@[simp] theorem State.succeed_freeCtr (s : State) : (s.succeed).freeCtr = s.freeCtr := rfl
@[simp] theorem State.succeed_changed (s : State) : (s.succeed).changed = s.changed := rfl
@[simp] theorem State.succeed_mem (s : State) : (s.succeed).mem = s.mem := rfl
@[simp] theorem State.succeed_cmd (s : State) : (s.succeed).cmd = s.cmd := rfl
@[simp] theorem State.succeed_status (s : State) : (s.succeed).status = { s.status with code := 0 } := rfl
@[simp] theorem State.succeed_op0 (s : State) : (s.succeed).op0 = s.op0 := rfl
@[simp] theorem State.succeed_op1 (s : State) : (s.succeed).op1 = s.op1 := rfl
@[simp] theorem State.succeed_op2 (s : State) : (s.succeed).op2 = s.op2 := rfl
@[simp] theorem State.succeed_op3 (s : State) : (s.succeed).op3 = s.op3 := rfl
@[simp] theorem State.succeed_res0 (s : State) : (s.succeed).res0 = s.res0 := rfl
@[simp] theorem State.succeed_res1 (s : State) : (s.succeed).res1 = s.res1 := rfl
@[simp] theorem State.succeed_stage (s : State) : (s.succeed).stage = s.stage := rfl
@[simp] theorem State.succeed_cfg (s : State) : (s.succeed).cfg = s.cfg := rfl
@[simp] theorem State.succeed_p (s : State) : (s.succeed).p = s.p := rfl
@[simp] theorem State.succeed_w (s : State) : (s.succeed).w = s.w := rfl
@[simp] theorem State.succeed_ms (s : State) : (s.succeed).ms = s.ms := rfl
@[simp] theorem State.succeed_optTables (s : State) : (s.succeed).optTables = s.optTables := rfl
@[simp] theorem State.succeed_dms (s : State) : (s.succeed).dms = s.dms := rfl
@[simp] theorem State.succeed_seq (s : State) : (s.succeed).seq = s.seq := rfl
@[simp] theorem State.succeed_bs0 (s : State) : (s.succeed).bs0 = s.bs0 := rfl
@[simp] theorem State.succeed_bs1 (s : State) : (s.succeed).bs1 = s.bs1 := rfl
@[simp] theorem State.succeed_prevSel (s : State) : (s.succeed).prevSel = s.prevSel := rfl
@[simp] theorem State.succeed_dictID (s : State) : (s.succeed).dictID = s.dictID := rfl
@[simp] theorem State.succeed_consumed (s : State) : (s.succeed).consumed = s.consumed := rfl
@[simp] theorem State.succeed_isFirstBlock (s : State) : (s.succeed).isFirstBlock = s.isFirstBlock := rfl
@[simp] theorem State.succeed_chk (s : State) : (s.succeed).chk = s.chk := rfl
@[simp] theorem State.succeed_ldm (s : State) : (s.succeed).ldm = s.ldm := rfl

/-! ### withCode -/

@[simp] theorem State.withCode_impl (s : State) (c : Byte) : (s.withCode c).impl = s.impl := rfl
@[simp] theorem State.withCode_host (s : State) (c : Byte) : (s.withCode c).host = s.host := rfl
@[simp] theorem State.withCode_lastRead (s : State) (c : Byte) : (s.withCode c).lastRead = s.lastRead := rfl
@[simp] theorem State.withCode_freeCtr (s : State) (c : Byte) : (s.withCode c).freeCtr = s.freeCtr := rfl
@[simp] theorem State.withCode_changed (s : State) (c : Byte) : (s.withCode c).changed = s.changed := rfl
@[simp] theorem State.withCode_mem (s : State) (c : Byte) : (s.withCode c).mem = s.mem := rfl
@[simp] theorem State.withCode_cmd (s : State) (c : Byte) : (s.withCode c).cmd = s.cmd := rfl
@[simp] theorem State.withCode_status (s : State) (c : Byte) : (s.withCode c).status = { s.status with code := c } := rfl
@[simp] theorem State.withCode_op0 (s : State) (c : Byte) : (s.withCode c).op0 = s.op0 := rfl
@[simp] theorem State.withCode_op1 (s : State) (c : Byte) : (s.withCode c).op1 = s.op1 := rfl
@[simp] theorem State.withCode_op2 (s : State) (c : Byte) : (s.withCode c).op2 = s.op2 := rfl
@[simp] theorem State.withCode_op3 (s : State) (c : Byte) : (s.withCode c).op3 = s.op3 := rfl
@[simp] theorem State.withCode_res0 (s : State) (c : Byte) : (s.withCode c).res0 = s.res0 := rfl
@[simp] theorem State.withCode_res1 (s : State) (c : Byte) : (s.withCode c).res1 = s.res1 := rfl
@[simp] theorem State.withCode_stage (s : State) (c : Byte) : (s.withCode c).stage = s.stage := rfl
@[simp] theorem State.withCode_cfg (s : State) (c : Byte) : (s.withCode c).cfg = s.cfg := rfl
@[simp] theorem State.withCode_p (s : State) (c : Byte) : (s.withCode c).p = s.p := rfl
@[simp] theorem State.withCode_w (s : State) (c : Byte) : (s.withCode c).w = s.w := rfl
@[simp] theorem State.withCode_ms (s : State) (c : Byte) : (s.withCode c).ms = s.ms := rfl
@[simp] theorem State.withCode_optTables (s : State) (c : Byte) : (s.withCode c).optTables = s.optTables := rfl
@[simp] theorem State.withCode_dms (s : State) (c : Byte) : (s.withCode c).dms = s.dms := rfl
@[simp] theorem State.withCode_seq (s : State) (c : Byte) : (s.withCode c).seq = s.seq := rfl
@[simp] theorem State.withCode_bs0 (s : State) (c : Byte) : (s.withCode c).bs0 = s.bs0 := rfl
@[simp] theorem State.withCode_bs1 (s : State) (c : Byte) : (s.withCode c).bs1 = s.bs1 := rfl
@[simp] theorem State.withCode_prevSel (s : State) (c : Byte) : (s.withCode c).prevSel = s.prevSel := rfl
@[simp] theorem State.withCode_dictID (s : State) (c : Byte) : (s.withCode c).dictID = s.dictID := rfl
@[simp] theorem State.withCode_consumed (s : State) (c : Byte) : (s.withCode c).consumed = s.consumed := rfl
@[simp] theorem State.withCode_isFirstBlock (s : State) (c : Byte) : (s.withCode c).isFirstBlock = s.isFirstBlock := rfl
@[simp] theorem State.withCode_chk (s : State) (c : Byte) : (s.withCode c).chk = s.chk := rfl
@[simp] theorem State.withCode_ldm (s : State) (c : Byte) : (s.withCode c).ldm = s.ldm := rfl

/-! ### setFatal -/

@[simp] theorem State.setFatal_impl (s : State) : (s.setFatal).impl = s.impl := rfl
@[simp] theorem State.setFatal_host (s : State) : (s.setFatal).host = s.host := rfl
@[simp] theorem State.setFatal_lastRead (s : State) : (s.setFatal).lastRead = s.lastRead := rfl
@[simp] theorem State.setFatal_freeCtr (s : State) : (s.setFatal).freeCtr = s.freeCtr := rfl
@[simp] theorem State.setFatal_changed (s : State) : (s.setFatal).changed = s.changed := rfl
@[simp] theorem State.setFatal_mem (s : State) : (s.setFatal).mem = s.mem := rfl
@[simp] theorem State.setFatal_cmd (s : State) : (s.setFatal).cmd = s.cmd := rfl
@[simp] theorem State.setFatal_status (s : State) : (s.setFatal).status = { s.status with fatal := true } := rfl
@[simp] theorem State.setFatal_op0 (s : State) : (s.setFatal).op0 = s.op0 := rfl
@[simp] theorem State.setFatal_op1 (s : State) : (s.setFatal).op1 = s.op1 := rfl
@[simp] theorem State.setFatal_op2 (s : State) : (s.setFatal).op2 = s.op2 := rfl
@[simp] theorem State.setFatal_op3 (s : State) : (s.setFatal).op3 = s.op3 := rfl
@[simp] theorem State.setFatal_res0 (s : State) : (s.setFatal).res0 = s.res0 := rfl
@[simp] theorem State.setFatal_res1 (s : State) : (s.setFatal).res1 = s.res1 := rfl
@[simp] theorem State.setFatal_stage (s : State) : (s.setFatal).stage = s.stage := rfl
@[simp] theorem State.setFatal_cfg (s : State) : (s.setFatal).cfg = s.cfg := rfl
@[simp] theorem State.setFatal_p (s : State) : (s.setFatal).p = s.p := rfl
@[simp] theorem State.setFatal_w (s : State) : (s.setFatal).w = s.w := rfl
@[simp] theorem State.setFatal_ms (s : State) : (s.setFatal).ms = s.ms := rfl
@[simp] theorem State.setFatal_optTables (s : State) : (s.setFatal).optTables = s.optTables := rfl
@[simp] theorem State.setFatal_dms (s : State) : (s.setFatal).dms = s.dms := rfl
@[simp] theorem State.setFatal_seq (s : State) : (s.setFatal).seq = s.seq := rfl
@[simp] theorem State.setFatal_bs0 (s : State) : (s.setFatal).bs0 = s.bs0 := rfl
@[simp] theorem State.setFatal_bs1 (s : State) : (s.setFatal).bs1 = s.bs1 := rfl
@[simp] theorem State.setFatal_prevSel (s : State) : (s.setFatal).prevSel = s.prevSel := rfl
@[simp] theorem State.setFatal_dictID (s : State) : (s.setFatal).dictID = s.dictID := rfl
@[simp] theorem State.setFatal_consumed (s : State) : (s.setFatal).consumed = s.consumed := rfl
@[simp] theorem State.setFatal_isFirstBlock (s : State) : (s.setFatal).isFirstBlock = s.isFirstBlock := rfl
@[simp] theorem State.setFatal_chk (s : State) : (s.setFatal).chk = s.chk := rfl
@[simp] theorem State.setFatal_ldm (s : State) : (s.setFatal).ldm = s.ldm := rfl

/-! ### setUnspec -/

@[simp] theorem State.setUnspec_impl (s : State) : (s.setUnspec).impl = s.impl := rfl
@[simp] theorem State.setUnspec_host (s : State) : (s.setUnspec).host = s.host := rfl
@[simp] theorem State.setUnspec_lastRead (s : State) : (s.setUnspec).lastRead = s.lastRead := rfl
@[simp] theorem State.setUnspec_freeCtr (s : State) : (s.setUnspec).freeCtr = s.freeCtr := rfl
@[simp] theorem State.setUnspec_changed (s : State) : (s.setUnspec).changed = s.changed := rfl
@[simp] theorem State.setUnspec_mem (s : State) : (s.setUnspec).mem = s.mem := rfl
@[simp] theorem State.setUnspec_cmd (s : State) : (s.setUnspec).cmd = s.cmd := rfl
@[simp] theorem State.setUnspec_status (s : State) : (s.setUnspec).status = { s.status with unspec := true } := rfl
@[simp] theorem State.setUnspec_op0 (s : State) : (s.setUnspec).op0 = s.op0 := rfl
@[simp] theorem State.setUnspec_op1 (s : State) : (s.setUnspec).op1 = s.op1 := rfl
@[simp] theorem State.setUnspec_op2 (s : State) : (s.setUnspec).op2 = s.op2 := rfl
@[simp] theorem State.setUnspec_op3 (s : State) : (s.setUnspec).op3 = s.op3 := rfl
@[simp] theorem State.setUnspec_res0 (s : State) : (s.setUnspec).res0 = s.res0 := rfl
@[simp] theorem State.setUnspec_res1 (s : State) : (s.setUnspec).res1 = s.res1 := rfl
@[simp] theorem State.setUnspec_stage (s : State) : (s.setUnspec).stage = s.stage := rfl
@[simp] theorem State.setUnspec_cfg (s : State) : (s.setUnspec).cfg = s.cfg := rfl
@[simp] theorem State.setUnspec_p (s : State) : (s.setUnspec).p = s.p := rfl
@[simp] theorem State.setUnspec_w (s : State) : (s.setUnspec).w = s.w := rfl
@[simp] theorem State.setUnspec_ms (s : State) : (s.setUnspec).ms = s.ms := rfl
@[simp] theorem State.setUnspec_optTables (s : State) : (s.setUnspec).optTables = s.optTables := rfl
@[simp] theorem State.setUnspec_dms (s : State) : (s.setUnspec).dms = s.dms := rfl
@[simp] theorem State.setUnspec_seq (s : State) : (s.setUnspec).seq = s.seq := rfl
@[simp] theorem State.setUnspec_bs0 (s : State) : (s.setUnspec).bs0 = s.bs0 := rfl
@[simp] theorem State.setUnspec_bs1 (s : State) : (s.setUnspec).bs1 = s.bs1 := rfl
@[simp] theorem State.setUnspec_prevSel (s : State) : (s.setUnspec).prevSel = s.prevSel := rfl
@[simp] theorem State.setUnspec_dictID (s : State) : (s.setUnspec).dictID = s.dictID := rfl
@[simp] theorem State.setUnspec_consumed (s : State) : (s.setUnspec).consumed = s.consumed := rfl
@[simp] theorem State.setUnspec_isFirstBlock (s : State) : (s.setUnspec).isFirstBlock = s.isFirstBlock := rfl
@[simp] theorem State.setUnspec_chk (s : State) : (s.setUnspec).chk = s.chk := rfl
@[simp] theorem State.setUnspec_ldm (s : State) : (s.setUnspec).ldm = s.ldm := rfl

/-! ### writeDst -/

@[simp] theorem State.writeDst_impl (s : State) (a : Nat) (bytes : List Byte) : (s.writeDst a bytes).impl = s.impl := rfl
@[simp] theorem State.writeDst_host (s : State) (a : Nat) (bytes : List Byte) : (s.writeDst a bytes).host = s.host := rfl
@[simp] theorem State.writeDst_lastRead (s : State) (a : Nat) (bytes : List Byte) : (s.writeDst a bytes).lastRead = s.lastRead := rfl
@[simp] theorem State.writeDst_freeCtr (s : State) (a : Nat) (bytes : List Byte) : (s.writeDst a bytes).freeCtr = s.freeCtr := rfl
@[simp] theorem State.writeDst_changed (s : State) (a : Nat) (bytes : List Byte) : (s.writeDst a bytes).changed = s.changed := rfl
@[simp] theorem State.writeDst_mem (s : State) (a : Nat) (bytes : List Byte) : (s.writeDst a bytes).mem = s.mem.writeBytes a bytes := rfl
@[simp] theorem State.writeDst_cmd (s : State) (a : Nat) (bytes : List Byte) : (s.writeDst a bytes).cmd = s.cmd := rfl
@[simp] theorem State.writeDst_status (s : State) (a : Nat) (bytes : List Byte) : (s.writeDst a bytes).status = s.status := rfl
@[simp] theorem State.writeDst_op0 (s : State) (a : Nat) (bytes : List Byte) : (s.writeDst a bytes).op0 = s.op0 := rfl
@[simp] theorem State.writeDst_op1 (s : State) (a : Nat) (bytes : List Byte) : (s.writeDst a bytes).op1 = s.op1 := rfl
@[simp] theorem State.writeDst_op2 (s : State) (a : Nat) (bytes : List Byte) : (s.writeDst a bytes).op2 = s.op2 := rfl
@[simp] theorem State.writeDst_op3 (s : State) (a : Nat) (bytes : List Byte) : (s.writeDst a bytes).op3 = s.op3 := rfl
@[simp] theorem State.writeDst_res0 (s : State) (a : Nat) (bytes : List Byte) : (s.writeDst a bytes).res0 = s.res0 := rfl
@[simp] theorem State.writeDst_res1 (s : State) (a : Nat) (bytes : List Byte) : (s.writeDst a bytes).res1 = s.res1 := rfl
@[simp] theorem State.writeDst_stage (s : State) (a : Nat) (bytes : List Byte) : (s.writeDst a bytes).stage = s.stage := rfl
@[simp] theorem State.writeDst_cfg (s : State) (a : Nat) (bytes : List Byte) : (s.writeDst a bytes).cfg = s.cfg := rfl
@[simp] theorem State.writeDst_p (s : State) (a : Nat) (bytes : List Byte) : (s.writeDst a bytes).p = s.p := rfl
@[simp] theorem State.writeDst_w (s : State) (a : Nat) (bytes : List Byte) : (s.writeDst a bytes).w = s.w := rfl
@[simp] theorem State.writeDst_ms (s : State) (a : Nat) (bytes : List Byte) : (s.writeDst a bytes).ms = s.ms := rfl
@[simp] theorem State.writeDst_optTables (s : State) (a : Nat) (bytes : List Byte) : (s.writeDst a bytes).optTables = s.optTables := rfl
@[simp] theorem State.writeDst_dms (s : State) (a : Nat) (bytes : List Byte) : (s.writeDst a bytes).dms = s.dms := rfl
@[simp] theorem State.writeDst_seq (s : State) (a : Nat) (bytes : List Byte) : (s.writeDst a bytes).seq = s.seq := rfl
@[simp] theorem State.writeDst_bs0 (s : State) (a : Nat) (bytes : List Byte) : (s.writeDst a bytes).bs0 = s.bs0 := rfl
@[simp] theorem State.writeDst_bs1 (s : State) (a : Nat) (bytes : List Byte) : (s.writeDst a bytes).bs1 = s.bs1 := rfl
@[simp] theorem State.writeDst_prevSel (s : State) (a : Nat) (bytes : List Byte) : (s.writeDst a bytes).prevSel = s.prevSel := rfl
@[simp] theorem State.writeDst_dictID (s : State) (a : Nat) (bytes : List Byte) : (s.writeDst a bytes).dictID = s.dictID := rfl
@[simp] theorem State.writeDst_consumed (s : State) (a : Nat) (bytes : List Byte) : (s.writeDst a bytes).consumed = s.consumed := rfl
@[simp] theorem State.writeDst_isFirstBlock (s : State) (a : Nat) (bytes : List Byte) : (s.writeDst a bytes).isFirstBlock = s.isFirstBlock := rfl
@[simp] theorem State.writeDst_chk (s : State) (a : Nat) (bytes : List Byte) : (s.writeDst a bytes).chk = s.chk := rfl
@[simp] theorem State.writeDst_ldm (s : State) (a : Nat) (bytes : List Byte) : (s.writeDst a bytes).ldm = s.ldm := rfl

/-! ### withWork -/

@[simp] theorem State.withWork_impl (s : State) (k : Work) : (s.withWork k).impl = s.impl := rfl
@[simp] theorem State.withWork_host (s : State) (k : Work) : (s.withWork k).host = s.host := rfl
@[simp] theorem State.withWork_lastRead (s : State) (k : Work) : (s.withWork k).lastRead = s.lastRead := rfl
@[simp] theorem State.withWork_freeCtr (s : State) (k : Work) : (s.withWork k).freeCtr = s.freeCtr := rfl
@[simp] theorem State.withWork_changed (s : State) (k : Work) : (s.withWork k).changed = s.changed := rfl
@[simp] theorem State.withWork_mem (s : State) (k : Work) : (s.withWork k).mem = s.mem := rfl
@[simp] theorem State.withWork_cmd (s : State) (k : Work) : (s.withWork k).cmd = s.cmd := rfl
@[simp] theorem State.withWork_status (s : State) (k : Work) : (s.withWork k).status = s.status := rfl
@[simp] theorem State.withWork_op0 (s : State) (k : Work) : (s.withWork k).op0 = s.op0 := rfl
@[simp] theorem State.withWork_op1 (s : State) (k : Work) : (s.withWork k).op1 = s.op1 := rfl
@[simp] theorem State.withWork_op2 (s : State) (k : Work) : (s.withWork k).op2 = s.op2 := rfl
@[simp] theorem State.withWork_op3 (s : State) (k : Work) : (s.withWork k).op3 = s.op3 := rfl
@[simp] theorem State.withWork_res0 (s : State) (k : Work) : (s.withWork k).res0 = s.res0 := rfl
@[simp] theorem State.withWork_res1 (s : State) (k : Work) : (s.withWork k).res1 = s.res1 := rfl
@[simp] theorem State.withWork_stage (s : State) (k : Work) : (s.withWork k).stage = s.stage := rfl
@[simp] theorem State.withWork_cfg (s : State) (k : Work) : (s.withWork k).cfg = s.cfg := rfl
@[simp] theorem State.withWork_p (s : State) (k : Work) : (s.withWork k).p = s.p := rfl
@[simp] theorem State.withWork_w (s : State) (k : Work) : (s.withWork k).w = s.w := rfl
@[simp] theorem State.withWork_ms (s : State) (k : Work) : (s.withWork k).ms = k.ms := rfl
@[simp] theorem State.withWork_optTables (s : State) (k : Work) : (s.withWork k).optTables = s.optTables := rfl
@[simp] theorem State.withWork_dms (s : State) (k : Work) : (s.withWork k).dms = s.dms := rfl
@[simp] theorem State.withWork_seq (s : State) (k : Work) : (s.withWork k).seq = k.seq := rfl
@[simp] theorem State.withWork_bs0 (s : State) (k : Work) : (s.withWork k).bs0 = s.bs0 := rfl
@[simp] theorem State.withWork_bs1 (s : State) (k : Work) : (s.withWork k).bs1 = s.bs1 := rfl
@[simp] theorem State.withWork_prevSel (s : State) (k : Work) : (s.withWork k).prevSel = s.prevSel := rfl
@[simp] theorem State.withWork_dictID (s : State) (k : Work) : (s.withWork k).dictID = s.dictID := rfl
@[simp] theorem State.withWork_consumed (s : State) (k : Work) : (s.withWork k).consumed = s.consumed := rfl
@[simp] theorem State.withWork_isFirstBlock (s : State) (k : Work) : (s.withWork k).isFirstBlock = s.isFirstBlock := rfl
@[simp] theorem State.withWork_chk (s : State) (k : Work) : (s.withWork k).chk = s.chk := rfl
@[simp] theorem State.withWork_ldm (s : State) (k : Work) : (s.withWork k).ldm = s.ldm := rfl

/-! ### seqReset -/

@[simp] theorem State.seqReset_impl (s : State) : (s.seqReset).impl = s.impl := rfl
@[simp] theorem State.seqReset_host (s : State) : (s.seqReset).host = s.host := rfl
@[simp] theorem State.seqReset_lastRead (s : State) : (s.seqReset).lastRead = s.lastRead := rfl
@[simp] theorem State.seqReset_freeCtr (s : State) : (s.seqReset).freeCtr = s.freeCtr := rfl
@[simp] theorem State.seqReset_changed (s : State) : (s.seqReset).changed = s.changed := rfl
@[simp] theorem State.seqReset_mem (s : State) : (s.seqReset).mem = s.mem := rfl
@[simp] theorem State.seqReset_cmd (s : State) : (s.seqReset).cmd = s.cmd := rfl
@[simp] theorem State.seqReset_status (s : State) : (s.seqReset).status = s.status := rfl
@[simp] theorem State.seqReset_op0 (s : State) : (s.seqReset).op0 = s.op0 := rfl
@[simp] theorem State.seqReset_op1 (s : State) : (s.seqReset).op1 = s.op1 := rfl
@[simp] theorem State.seqReset_op2 (s : State) : (s.seqReset).op2 = s.op2 := rfl
@[simp] theorem State.seqReset_op3 (s : State) : (s.seqReset).op3 = s.op3 := rfl
@[simp] theorem State.seqReset_res0 (s : State) : (s.seqReset).res0 = s.res0 := rfl
@[simp] theorem State.seqReset_res1 (s : State) : (s.seqReset).res1 = s.res1 := rfl
@[simp] theorem State.seqReset_stage (s : State) : (s.seqReset).stage = s.stage := rfl
@[simp] theorem State.seqReset_cfg (s : State) : (s.seqReset).cfg = s.cfg := rfl
@[simp] theorem State.seqReset_p (s : State) : (s.seqReset).p = s.p := rfl
@[simp] theorem State.seqReset_w (s : State) : (s.seqReset).w = s.w := rfl
@[simp] theorem State.seqReset_ms (s : State) : (s.seqReset).ms = s.ms := rfl
@[simp] theorem State.seqReset_optTables (s : State) : (s.seqReset).optTables = s.optTables := rfl
@[simp] theorem State.seqReset_dms (s : State) : (s.seqReset).dms = s.dms := rfl
@[simp] theorem State.seqReset_seq (s : State) : (s.seqReset).seq = SeqStore.empty := rfl
@[simp] theorem State.seqReset_bs0 (s : State) : (s.seqReset).bs0 = s.bs0 := rfl
@[simp] theorem State.seqReset_bs1 (s : State) : (s.seqReset).bs1 = s.bs1 := rfl
@[simp] theorem State.seqReset_prevSel (s : State) : (s.seqReset).prevSel = s.prevSel := rfl
@[simp] theorem State.seqReset_dictID (s : State) : (s.seqReset).dictID = s.dictID := rfl
@[simp] theorem State.seqReset_consumed (s : State) : (s.seqReset).consumed = s.consumed := rfl
@[simp] theorem State.seqReset_isFirstBlock (s : State) : (s.seqReset).isFirstBlock = s.isFirstBlock := rfl
@[simp] theorem State.seqReset_chk (s : State) : (s.seqReset).chk = s.chk := rfl
@[simp] theorem State.seqReset_ldm (s : State) : (s.seqReset).ldm = s.ldm := rfl

/-! ### setPrev -/

@[simp] theorem State.setPrev_impl (s : State) (b : BlockState) : (s.setPrev b).impl = s.impl := by
  unfold State.setPrev; split <;> rfl
@[simp] theorem State.setPrev_host (s : State) (b : BlockState) : (s.setPrev b).host = s.host := by
  unfold State.setPrev; split <;> rfl
@[simp] theorem State.setPrev_lastRead (s : State) (b : BlockState) : (s.setPrev b).lastRead = s.lastRead := by
  unfold State.setPrev; split <;> rfl
@[simp] theorem State.setPrev_freeCtr (s : State) (b : BlockState) : (s.setPrev b).freeCtr = s.freeCtr := by
  unfold State.setPrev; split <;> rfl
@[simp] theorem State.setPrev_changed (s : State) (b : BlockState) : (s.setPrev b).changed = s.changed := by
  unfold State.setPrev; split <;> rfl
@[simp] theorem State.setPrev_mem (s : State) (b : BlockState) : (s.setPrev b).mem = s.mem := by
  unfold State.setPrev; split <;> rfl
@[simp] theorem State.setPrev_cmd (s : State) (b : BlockState) : (s.setPrev b).cmd = s.cmd := by
  unfold State.setPrev; split <;> rfl
@[simp] theorem State.setPrev_status (s : State) (b : BlockState) : (s.setPrev b).status = s.status := by
  unfold State.setPrev; split <;> rfl
@[simp] theorem State.setPrev_op0 (s : State) (b : BlockState) : (s.setPrev b).op0 = s.op0 := by
  unfold State.setPrev; split <;> rfl
@[simp] theorem State.setPrev_op1 (s : State) (b : BlockState) : (s.setPrev b).op1 = s.op1 := by
  unfold State.setPrev; split <;> rfl
@[simp] theorem State.setPrev_op2 (s : State) (b : BlockState) : (s.setPrev b).op2 = s.op2 := by
  unfold State.setPrev; split <;> rfl
@[simp] theorem State.setPrev_op3 (s : State) (b : BlockState) : (s.setPrev b).op3 = s.op3 := by
  unfold State.setPrev; split <;> rfl
@[simp] theorem State.setPrev_res0 (s : State) (b : BlockState) : (s.setPrev b).res0 = s.res0 := by
  unfold State.setPrev; split <;> rfl
@[simp] theorem State.setPrev_res1 (s : State) (b : BlockState) : (s.setPrev b).res1 = s.res1 := by
  unfold State.setPrev; split <;> rfl
@[simp] theorem State.setPrev_stage (s : State) (b : BlockState) : (s.setPrev b).stage = s.stage := by
  unfold State.setPrev; split <;> rfl
@[simp] theorem State.setPrev_cfg (s : State) (b : BlockState) : (s.setPrev b).cfg = s.cfg := by
  unfold State.setPrev; split <;> rfl
@[simp] theorem State.setPrev_p (s : State) (b : BlockState) : (s.setPrev b).p = s.p := by
  unfold State.setPrev; split <;> rfl
@[simp] theorem State.setPrev_w (s : State) (b : BlockState) : (s.setPrev b).w = s.w := by
  unfold State.setPrev; split <;> rfl
@[simp] theorem State.setPrev_ms (s : State) (b : BlockState) : (s.setPrev b).ms = s.ms := by
  unfold State.setPrev; split <;> rfl
@[simp] theorem State.setPrev_optTables (s : State) (b : BlockState) : (s.setPrev b).optTables = s.optTables := by
  unfold State.setPrev; split <;> rfl
@[simp] theorem State.setPrev_dms (s : State) (b : BlockState) : (s.setPrev b).dms = s.dms := by
  unfold State.setPrev; split <;> rfl
@[simp] theorem State.setPrev_seq (s : State) (b : BlockState) : (s.setPrev b).seq = s.seq := by
  unfold State.setPrev; split <;> rfl
@[simp] theorem State.setPrev_bs0 (s : State) (b : BlockState) : (s.setPrev b).bs0 = if s.prevSel then s.bs0 else b := by
  unfold State.setPrev; split <;> rfl
@[simp] theorem State.setPrev_bs1 (s : State) (b : BlockState) : (s.setPrev b).bs1 = if s.prevSel then b else s.bs1 := by
  unfold State.setPrev; split <;> rfl
@[simp] theorem State.setPrev_prevSel (s : State) (b : BlockState) : (s.setPrev b).prevSel = s.prevSel := by
  unfold State.setPrev; split <;> rfl
@[simp] theorem State.setPrev_dictID (s : State) (b : BlockState) : (s.setPrev b).dictID = s.dictID := by
  unfold State.setPrev; split <;> rfl
@[simp] theorem State.setPrev_consumed (s : State) (b : BlockState) : (s.setPrev b).consumed = s.consumed := by
  unfold State.setPrev; split <;> rfl
@[simp] theorem State.setPrev_isFirstBlock (s : State) (b : BlockState) : (s.setPrev b).isFirstBlock = s.isFirstBlock := by
  unfold State.setPrev; split <;> rfl
@[simp] theorem State.setPrev_chk (s : State) (b : BlockState) : (s.setPrev b).chk = s.chk := by
  unfold State.setPrev; split <;> rfl
@[simp] theorem State.setPrev_ldm (s : State) (b : BlockState) : (s.setPrev b).ldm = s.ldm := by
  unfold State.setPrev; split <;> rfl

/-! ### setNextBs -/

@[simp] theorem State.setNextBs_impl (s : State) (b : BlockState) : (s.setNextBs b).impl = s.impl := by
  unfold State.setNextBs; split <;> rfl
@[simp] theorem State.setNextBs_host (s : State) (b : BlockState) : (s.setNextBs b).host = s.host := by
  unfold State.setNextBs; split <;> rfl
@[simp] theorem State.setNextBs_lastRead (s : State) (b : BlockState) : (s.setNextBs b).lastRead = s.lastRead := by
  unfold State.setNextBs; split <;> rfl
@[simp] theorem State.setNextBs_freeCtr (s : State) (b : BlockState) : (s.setNextBs b).freeCtr = s.freeCtr := by
  unfold State.setNextBs; split <;> rfl
@[simp] theorem State.setNextBs_changed (s : State) (b : BlockState) : (s.setNextBs b).changed = s.changed := by
  unfold State.setNextBs; split <;> rfl
@[simp] theorem State.setNextBs_mem (s : State) (b : BlockState) : (s.setNextBs b).mem = s.mem := by
  unfold State.setNextBs; split <;> rfl
@[simp] theorem State.setNextBs_cmd (s : State) (b : BlockState) : (s.setNextBs b).cmd = s.cmd := by
  unfold State.setNextBs; split <;> rfl
@[simp] theorem State.setNextBs_status (s : State) (b : BlockState) : (s.setNextBs b).status = s.status := by
  unfold State.setNextBs; split <;> rfl
@[simp] theorem State.setNextBs_op0 (s : State) (b : BlockState) : (s.setNextBs b).op0 = s.op0 := by
  unfold State.setNextBs; split <;> rfl
@[simp] theorem State.setNextBs_op1 (s : State) (b : BlockState) : (s.setNextBs b).op1 = s.op1 := by
  unfold State.setNextBs; split <;> rfl
@[simp] theorem State.setNextBs_op2 (s : State) (b : BlockState) : (s.setNextBs b).op2 = s.op2 := by
  unfold State.setNextBs; split <;> rfl
@[simp] theorem State.setNextBs_op3 (s : State) (b : BlockState) : (s.setNextBs b).op3 = s.op3 := by
  unfold State.setNextBs; split <;> rfl
@[simp] theorem State.setNextBs_res0 (s : State) (b : BlockState) : (s.setNextBs b).res0 = s.res0 := by
  unfold State.setNextBs; split <;> rfl
@[simp] theorem State.setNextBs_res1 (s : State) (b : BlockState) : (s.setNextBs b).res1 = s.res1 := by
  unfold State.setNextBs; split <;> rfl
@[simp] theorem State.setNextBs_stage (s : State) (b : BlockState) : (s.setNextBs b).stage = s.stage := by
  unfold State.setNextBs; split <;> rfl
@[simp] theorem State.setNextBs_cfg (s : State) (b : BlockState) : (s.setNextBs b).cfg = s.cfg := by
  unfold State.setNextBs; split <;> rfl
@[simp] theorem State.setNextBs_p (s : State) (b : BlockState) : (s.setNextBs b).p = s.p := by
  unfold State.setNextBs; split <;> rfl
@[simp] theorem State.setNextBs_w (s : State) (b : BlockState) : (s.setNextBs b).w = s.w := by
  unfold State.setNextBs; split <;> rfl
@[simp] theorem State.setNextBs_ms (s : State) (b : BlockState) : (s.setNextBs b).ms = s.ms := by
  unfold State.setNextBs; split <;> rfl
@[simp] theorem State.setNextBs_optTables (s : State) (b : BlockState) : (s.setNextBs b).optTables = s.optTables := by
  unfold State.setNextBs; split <;> rfl
@[simp] theorem State.setNextBs_dms (s : State) (b : BlockState) : (s.setNextBs b).dms = s.dms := by
  unfold State.setNextBs; split <;> rfl
@[simp] theorem State.setNextBs_seq (s : State) (b : BlockState) : (s.setNextBs b).seq = s.seq := by
  unfold State.setNextBs; split <;> rfl
@[simp] theorem State.setNextBs_bs0 (s : State) (b : BlockState) : (s.setNextBs b).bs0 = if s.prevSel then b else s.bs0 := by
  unfold State.setNextBs; split <;> rfl
@[simp] theorem State.setNextBs_bs1 (s : State) (b : BlockState) : (s.setNextBs b).bs1 = if s.prevSel then s.bs1 else b := by
  unfold State.setNextBs; split <;> rfl
@[simp] theorem State.setNextBs_prevSel (s : State) (b : BlockState) : (s.setNextBs b).prevSel = s.prevSel := by
  unfold State.setNextBs; split <;> rfl
@[simp] theorem State.setNextBs_dictID (s : State) (b : BlockState) : (s.setNextBs b).dictID = s.dictID := by
  unfold State.setNextBs; split <;> rfl
@[simp] theorem State.setNextBs_consumed (s : State) (b : BlockState) : (s.setNextBs b).consumed = s.consumed := by
  unfold State.setNextBs; split <;> rfl
@[simp] theorem State.setNextBs_isFirstBlock (s : State) (b : BlockState) : (s.setNextBs b).isFirstBlock = s.isFirstBlock := by
  unfold State.setNextBs; split <;> rfl
@[simp] theorem State.setNextBs_chk (s : State) (b : BlockState) : (s.setNextBs b).chk = s.chk := by
  unfold State.setNextBs; split <;> rfl
@[simp] theorem State.setNextBs_ldm (s : State) (b : BlockState) : (s.setNextBs b).ldm = s.ldm := by
  unfold State.setNextBs; split <;> rfl

/-! ### The two block states -/

@[simp] theorem State.setPrev_prev (s : State) (b : BlockState) : (s.setPrev b).prev = b := by
  simp only [State.prev, State.setPrev_prevSel, State.setPrev_bs0, State.setPrev_bs1]; split <;> rfl

@[simp] theorem State.setPrev_nextBs (s : State) (b : BlockState) : (s.setPrev b).nextBs = s.nextBs := by
  simp only [State.nextBs, State.setPrev_prevSel, State.setPrev_bs0, State.setPrev_bs1]; split <;> rfl

@[simp] theorem State.setNextBs_nextBs (s : State) (b : BlockState) : (s.setNextBs b).nextBs = b := by
  simp only [State.nextBs, State.setNextBs_prevSel, State.setNextBs_bs0, State.setNextBs_bs1]; split <;> rfl

@[simp] theorem State.setNextBs_prev (s : State) (b : BlockState) : (s.setNextBs b).prev = s.prev := by
  simp only [State.prev, State.setNextBs_prevSel, State.setNextBs_bs0, State.setNextBs_bs1]; split <;> rfl

end Sys2Proof.Machine
end

