-- ==== Sys2Proof/Laws/Gates.lean ====
section
/-! SUPPORT. What the checks of 60_exceptions.md R327 can do: each either ends the command, changing nothing but
`STATUS.code`, or lets it go on. -/

namespace Sys2Proof.Machine

open Sys2Proof

@[simp] theorem Done.outcome_ok (s : State) : (Done.ok s).outcome = .next s.succeed := rfl
@[simp] theorem Done.outcome_err (e : Err) (s : State) : (Done.err e s).outcome = .next (s.raise e) := rfl
@[simp] theorem Done.outcome_refused (r : Refusal) : (Done.refused r).outcome = .refused r := rfl

/-- No command ends in a fault. -/
theorem Done.outcome_ne_fault (k : Done) (f : Fault) : k.outcome ≠ .fault f := by cases k <;> simp [Done.outcome]

theorem State.raise_eq_withCode (s : State) (e : Err) : s.raise e = s.withCode e.code := rfl
theorem State.succeed_eq_withCode (s : State) : s.succeed = s.withCode 0 := rfl

/-! ## One check -/

@[simp] theorem require_true (e : Err) (s : State) (k : Done) : require true e s k = k := rfl
@[simp] theorem require_false (e : Err) (s : State) (k : Done) : require false e s k = .err e s := rfl

theorem require_of {c : Bool} (h : c = true) (e : Err) (s : State) (k : Done) : require c e s k = k := by rw [h, require_true]

theorem requireDisjoint_of {s : State} {src n dst cap : Nat} (h : s.destClash src n dst cap = false) (k : Done) :
    requireDisjoint s src n dst cap k = k := by simp [requireDisjoint, h]

theorem gateFatal_of {s : State} (h : s.status.fatal = false) (k : Done) : gateFatal s k = k := by simp [gateFatal, h]
theorem gateUnspec_of {s : State} (h : s.status.unspec = false) (k : Done) : gateUnspec s k = k := by simp [gateUnspec, h]
@[simp] theorem gateStage_true (s : State) (k : Done) : gateStage true s k = k := rfl

theorem gated_of {s : State} {legal : Bool} (h : s.GatesOpen) (hl : legal = true) (k : Done) : gated legal s k = k := by
  rw [gated, gateFatal_of h.1, gateUnspec_of h.2, hl, gateStage_true]

theorem gatedIO_of {s : State} (h : s.Ready) (k : Done) : gatedIO s k = k := gated_of h.1 h.2 k

/-! ## What a checked command can answer -/

theorem require_next {c : Bool} {e : Err} {s t : State} {k : Done} (h : (require c e s k).outcome = .next t) :
    (c = false ∧ t = s.withCode e.code) ∨ (c = true ∧ k.outcome = .next t) := by
  cases c
  · left; simpa [require, State.raise_eq_withCode] using h.symm
  · right; exact ⟨rfl, h⟩

theorem requireDisjoint_next {s t : State} {src n dst cap : Nat} {k : Done}
    (h : (requireDisjoint s src n dst cap k).outcome = .next t) : s.destClash src n dst cap = false ∧ k.outcome = .next t := by
  unfold requireDisjoint at h
  split at h
  · simp at h
  · exact ⟨by simpa using ‹¬ s.destClash src n dst cap = true›, h⟩

theorem gateFatal_next {s t : State} {k : Done} (h : (gateFatal s k).outcome = .next t) :
    (s.status.fatal = true ∧ t = s.withCode 1) ∨ (s.status.fatal = false ∧ k.outcome = .next t) := by
  unfold gateFatal at h
  split at h
  · left; exact ⟨‹_›, by simpa [State.raise_eq_withCode, Err.code] using h.symm⟩
  · right; exact ⟨by simpa using ‹¬ s.status.fatal = true›, h⟩

theorem gateUnspec_next {s t : State} {k : Done} (h : (gateUnspec s k).outcome = .next t) :
    (s.status.unspec = true ∧ t = s.withCode 3) ∨ (s.status.unspec = false ∧ k.outcome = .next t) := by
  unfold gateUnspec at h
  split at h
  · left; exact ⟨‹_›, by simpa [State.raise_eq_withCode, Err.code] using h.symm⟩
  · right; exact ⟨by simpa using ‹¬ s.status.unspec = true›, h⟩

theorem gateStage_next {s t : State} {legal : Bool} {k : Done} (h : (gateStage legal s k).outcome = .next t) :
    (legal = false ∧ t = s.withCode 3) ∨ (legal = true ∧ k.outcome = .next t) := by
  cases legal
  · left; simpa [gateStage, State.raise_eq_withCode, Err.code] using h.symm
  · right; exact ⟨rfl, h⟩

/-- A gated command that answers was turned away with `Generic` or `StageWrong`, or its work answered. -/
theorem gated_next {s t : State} {legal : Bool} {k : Done} (h : (gated legal s k).outcome = .next t) :
    (s.status.fatal = true ∧ t = s.withCode 1) ∨
    (s.status.fatal = false ∧ (s.status.unspec = true ∨ legal = false) ∧ t = s.withCode 3) ∨
    (s.GatesOpen ∧ legal = true ∧ k.outcome = .next t) := by
  rcases gateFatal_next h with h1 | ⟨hf, h1⟩
  · exact .inl h1
  · rcases gateUnspec_next h1 with ⟨hu, ht⟩ | ⟨hu, h2⟩
    · exact .inr (.inl ⟨hf, .inl hu, ht⟩)
    · rcases gateStage_next h2 with ⟨hl, ht⟩ | ⟨hl, h3⟩
      · exact .inr (.inl ⟨hf, .inr hl, ht⟩)
      · exact .inr (.inr ⟨⟨hf, hu⟩, hl, h3⟩)

theorem gated_refused {s : State} {legal : Bool} {k : Done} {r : Refusal} (h : (gated legal s k).outcome = .refused r) :
    s.GatesOpen ∧ legal = true ∧ k.outcome = .refused r := by
  unfold gated gateFatal gateUnspec gateStage at h
  split at h
  · simp at h
  · split at h
    · simp at h
    · split at h
      · exact ⟨⟨by simpa using ‹¬ s.status.fatal = true›, by simpa using ‹¬ s.status.unspec = true›⟩, ‹_›, h⟩
      · simp at h

theorem require_refused {c : Bool} {e : Err} {s : State} {k : Done} {r : Refusal}
    (h : (require c e s k).outcome = .refused r) : c = true ∧ k.outcome = .refused r := by
  cases c
  · simp at h
  · exact ⟨rfl, h⟩

end Sys2Proof.Machine
end

