-- ==== Sys2Proof/Laws/Sparse.lean ====
section
/-! SUPPORT. The laws of the sparse canonical maps: what a write changes, that it keeps the canonical form, and that two
canonical maps that read alike are equal. Host memory and the tables of the TAB space are instances. -/

namespace Sys2Proof.Machine

open Sys2Proof

section
variable {α : Type} [DecidableEq α] {d : α}

/-! ## The canonical form -/

theorem sparseWfFrom_cons {lo k : Nat} {v : α} {rest : List (Nat × α)} :
    sparseWfFrom d lo ((k, v) :: rest) = true ↔ lo ≤ k ∧ v ≠ d ∧ sparseWfFrom d (k + 1) rest = true := by
  simp [sparseWfFrom, and_assoc]

theorem sparseWfFrom_mono {m : List (Nat × α)} {lo lo' : Nat} (h : sparseWfFrom d lo m = true) (hl : lo' ≤ lo) :
    sparseWfFrom d lo' m = true := by
  cases m with
  | nil => rfl
  | cons c rest =>
    obtain ⟨k, v⟩ := c
    rw [sparseWfFrom_cons] at h ⊢
    exact ⟨by omega, h.2⟩

theorem sparseGet_below {m : List (Nat × α)} {lo i : Nat} (h : sparseWfFrom d lo m = true) (hi : i < lo) :
    sparseGet d m i = d := by
  cases m with
  | nil => rfl
  | cons c rest =>
    obtain ⟨k, v⟩ := c
    rw [sparseWfFrom_cons] at h
    simp [sparseGet, show i < k by omega]

theorem sparseCons_wf {lo i : Nat} {v : α} {rest : List (Nat × α)} (hl : lo ≤ i)
    (h : sparseWfFrom d (i + 1) rest = true) : sparseWfFrom d lo (sparseCons d i v rest) = true := by
  unfold sparseCons
  split
  · exact sparseWfFrom_mono h (by omega)
  · rw [sparseWfFrom_cons]; exact ⟨hl, ‹_›, h⟩

theorem sparseSet_wfFrom {m : List (Nat × α)} {lo i : Nat} {v : α} (h : sparseWfFrom d lo m = true) (hi : lo ≤ i) :
    sparseWfFrom d lo (sparseSet d m i v) = true := by
  induction m generalizing lo with
  | nil => exact sparseCons_wf hi rfl
  | cons c rest ih =>
    obtain ⟨k, u⟩ := c
    rw [sparseWfFrom_cons] at h
    simp only [sparseSet]
    split
    · exact sparseCons_wf hi (by rw [sparseWfFrom_cons]; exact ⟨by omega, h.2⟩)
    · split
      · next _ he => subst he; exact sparseCons_wf hi h.2.2
      · rw [sparseWfFrom_cons]; exact ⟨h.1, h.2.1, ih h.2.2 (by omega)⟩

/-- A write keeps the canonical form. -/
theorem sparseSet_wf {m : List (Nat × α)} (h : sparseWf d m = true) (i : Nat) (v : α) :
    sparseWf d (sparseSet d m i v) = true := sparseSet_wfFrom h (Nat.zero_le i)

theorem sparseMap_wfFrom {m : List (Nat × α)} {lo : Nat} (f : α → α) (h : sparseWfFrom d lo m = true) :
    sparseWfFrom d lo (sparseMap d f m) = true := by
  induction m generalizing lo with
  | nil => rfl
  | cons c rest ih =>
    obtain ⟨k, v⟩ := c
    rw [sparseWfFrom_cons] at h
    exact sparseCons_wf h.1 (ih h.2.2)

/-- Applying a function to every entry keeps the canonical form. -/
theorem sparseMap_wf {m : List (Nat × α)} (f : α → α) (h : sparseWf d m = true) : sparseWf d (sparseMap d f m) = true :=
  sparseMap_wfFrom f h

/-! ## Reading after a write -/

theorem sparseGet_sparseCons {i j lo : Nat} {v : α} {rest : List (Nat × α)} (h : sparseWfFrom d lo rest = true)
    (hl : i < lo) : sparseGet d (sparseCons d i v rest) j = if j = i then v else sparseGet d rest j := by
  unfold sparseCons
  by_cases hv : v = d
  · rw [if_pos hv]
    by_cases hj : j = i
    · rw [if_pos hj, hv, sparseGet_below h (by omega)]
    · rw [if_neg hj]
  · rw [if_neg hv, sparseGet]
    by_cases hj : j = i
    · simp [hj]
    · by_cases hlt : j < i
      · rw [if_pos hlt, if_neg hj, sparseGet_below h (by omega)]
      · rw [if_neg hlt, if_neg hj]

theorem sparseGet_sparseSet_from {m : List (Nat × α)} {lo i j : Nat} {v : α} (h : sparseWfFrom d lo m = true) :
    sparseGet d (sparseSet d m i v) j = if j = i then v else sparseGet d m j := by
  induction m generalizing lo with
  | nil =>
    rw [sparseSet, sparseGet_sparseCons (lo := i + 1) rfl (by omega)]
  | cons c rest ih =>
    obtain ⟨k, u⟩ := c
    rw [sparseWfFrom_cons] at h
    simp only [sparseSet]
    split
    · rw [sparseGet_sparseCons (lo := k) (by rw [sparseWfFrom_cons]; exact ⟨le_refl k, h.2⟩) ‹_›]
    · split
      · next _ he =>
        subst he
        rw [sparseGet_sparseCons (lo := i + 1) h.2.2 (by omega)]
        by_cases hj : j = i
        · simp [hj]
        · by_cases hlt : j < i
          · simp [hj, sparseGet, hlt, sparseGet_below h.2.2 (show j < i + 1 by omega)]
          · simp [hj, sparseGet, hlt]
      · next hik hne =>
        simp only [sparseGet]
        by_cases h1 : j < k
        · simp [h1, show j ≠ i by omega]
        · by_cases h2 : j = k
          · simp [h2, show k ≠ i by omega]
          · simp only [if_neg h1, if_neg h2]; exact ih h.2.2

/-- What a write changes: the position written reads as the value, every other position reads as before. -/
theorem sparseGet_sparseSet {m : List (Nat × α)} (h : sparseWf d m = true) (i j : Nat) (v : α) :
    sparseGet d (sparseSet d m i v) j = if j = i then v else sparseGet d m j := sparseGet_sparseSet_from h

theorem sparseGet_sparseMap_from {m : List (Nat × α)} {lo j : Nat} {f : α → α} (hf : f d = d)
    (h : sparseWfFrom d lo m = true) : sparseGet d (sparseMap d f m) j = f (sparseGet d m j) := by
  induction m generalizing lo with
  | nil => exact hf.symm
  | cons c rest ih =>
    obtain ⟨k, v⟩ := c
    rw [sparseWfFrom_cons] at h
    rw [sparseMap, sparseGet_sparseCons (sparseMap_wfFrom f h.2.2) (by omega), ih h.2.2]
    simp only [sparseGet]
    by_cases h1 : j < k
    · rw [if_pos h1, if_neg (by omega), sparseGet_below h.2.2 (by omega), hf]
    · by_cases h2 : j = k
      · simp [h2]
      · simp [h1, h2]

/-- Applying a function that leaves the empty value alone applies it to every position. -/
theorem sparseGet_sparseMap {m : List (Nat × α)} {f : α → α} (hf : f d = d) (h : sparseWf d m = true) (j : Nat) :
    sparseGet d (sparseMap d f m) j = f (sparseGet d m j) := sparseGet_sparseMap_from hf h

/-! ## Equal readings, equal data -/

theorem sparse_ext_from {m n : List (Nat × α)} {lo : Nat} (hm : sparseWfFrom d lo m = true)
    (hn : sparseWfFrom d lo n = true) (h : ∀ i, sparseGet d m i = sparseGet d n i) : m = n := by
  induction m generalizing n lo with
  | nil =>
    cases n with
    | nil => rfl
    | cons c rest =>
      obtain ⟨k, v⟩ := c
      rw [sparseWfFrom_cons] at hn
      have := h k
      simp [sparseGet] at this
      exact absurd this.symm hn.2.1
  | cons c rest ih =>
    obtain ⟨k, v⟩ := c
    rw [sparseWfFrom_cons] at hm
    cases n with
    | nil =>
      have := h k
      simp [sparseGet] at this
      exact absurd this hm.2.1
    | cons c' rest' =>
      obtain ⟨k', v'⟩ := c'
      rw [sparseWfFrom_cons] at hn
      have hk : k = k' := by
        rcases Nat.lt_trichotomy k k' with hlt | heq | hgt
        · have := h k
          simp [sparseGet, hlt] at this
          exact absurd this hm.2.1
        · exact heq
        · have := h k'
          simp [sparseGet, hgt] at this
          exact absurd this.symm hn.2.1
      subst hk
      have hv := h k
      simp [sparseGet] at hv
      subst hv
      congr 1
      refine ih hm.2.2 hn.2.2 fun i => ?_
      by_cases h1 : i < k + 1
      · rw [sparseGet_below hm.2.2 h1, sparseGet_below hn.2.2 h1]
      · have := h i
        simpa [sparseGet, show ¬ i < k by omega, show i ≠ k by omega] using this

/-- Two canonical maps that read alike everywhere are the same data. -/
theorem sparse_ext {m n : List (Nat × α)} (hm : sparseWf d m = true) (hn : sparseWf d n = true)
    (h : ∀ i, sparseGet d m i = sparseGet d n i) : m = n := sparse_ext_from hm hn h

end

/-! ## Host memory -/

theorem Memory.write_wf {m : Memory} (h : m.wf = true) (a : Nat) (b : Byte) : (m.write a b).wf = true := sparseSet_wf h a b

theorem Memory.read_write {m : Memory} (h : m.wf = true) (a x : Nat) (b : Byte) :
    (m.write a b).read x = if x = a then b else m.read x := sparseGet_sparseSet h a x b

theorem Memory.writeBytes_wf {m : Memory} (h : m.wf = true) (a : Nat) (bytes : List Byte) :
    (m.writeBytes a bytes).wf = true := by
  induction bytes generalizing m a with
  | nil => exact h
  | cons b bs ih => exact ih (Memory.write_wf h a b) (a + 1)

/-- What a unit written to host memory changes: the bytes from its address up, and nothing else (20_memory.md R45). -/
theorem Memory.read_writeBytes {m : Memory} (h : m.wf = true) (a x : Nat) (bytes : List Byte) :
    (m.writeBytes a bytes).read x = if a ≤ x ∧ x < a + bytes.length then bytes.getD (x - a) 0 else m.read x := by
  induction bytes generalizing m a with
  | nil => simp [Memory.writeBytes, show ¬ (a ≤ x ∧ x < a) by omega]
  | cons b bs ih =>
    rw [Memory.writeBytes, ih (Memory.write_wf h a b), Memory.read_write h]
    by_cases hx : x = a
    · simp [hx]
    · by_cases hin : a + 1 ≤ x ∧ x < a + 1 + bs.length
      · have h2 : a ≤ x ∧ x < a + (b :: bs).length := by simp; omega
        rw [if_pos hin, if_pos h2, show x - a = (x - (a + 1)) + 1 by omega, List.getD_cons_succ]
      · have h2 : ¬ (a ≤ x ∧ x < a + (b :: bs).length) := by simp; omega
        rw [if_neg hin, if_neg h2, if_neg hx]

theorem Memory.length_readBytes (m : Memory) (a n : Nat) : (m.readBytes a n).length = n := by
  induction n generalizing a with
  | zero => rfl
  | succ n ih => simp [Memory.readBytes, ih]

/-- Reset memory is canonical. -/
theorem Memory.reset_wf : State.reset.mem.wf = true := rfl

/-! ## Tables -/

theorem Table.wf_iff {t : Table} :
    t.wf = true ↔ sparseWf 0 t.cells = true ∧ t.cells.all (fun c => decide (c.1 < t.size)) = true := by
  simp [Table.wf]

theorem sparseSet_all {m : List (Nat × Word)} {p : Nat × Word → Bool} {i : Nat} {v : Word}
    (h : m.all p = true) (hp : p (i, v) = true) : (sparseSet 0 m i v).all p = true := by
  induction m with
  | nil => unfold sparseSet sparseCons; split <;> simp [hp]
  | cons c rest ih =>
    obtain ⟨k, u⟩ := c
    simp only [List.all_cons, Bool.and_eq_true] at h
    simp only [sparseSet, sparseCons]
    split
    · split <;> simp [h.1, h.2, hp]
    · split
      · split <;> simp [h.2, hp]
      · rw [List.all_cons, h.1, ih h.2]; rfl

@[simp] theorem Table.set_size (t : Table) (i v : Nat) : (t.set i v).size = t.size := by
  unfold Table.set; split <;> rfl

theorem Table.set_wf {t : Table} (h : t.wf = true) (i v : Nat) : (t.set i v).wf = true := by
  rw [Table.wf_iff] at h
  unfold Table.set
  split
  · rw [Table.wf_iff]
    exact ⟨sparseSet_wf h.1 i _, sparseSet_all h.2 (by simpa using ‹i < t.size›)⟩
  · exact Table.wf_iff.mpr h

/-- A number of at most 32 bits is stored as it is. -/
theorem word32_toNat {v : Nat} (h : v < 2 ^ 32) : (word32 v).toNat = v := by
  rw [word32, if_pos h, BitVec.toNat_ofNat, Nat.mod_eq_of_lt h]

theorem word32_of {v : Nat} (h : v < 2 ^ 32) : word32 v = BitVec.ofNat 32 v := if_pos h

/-- What a table write changes: the slot, when the table has it; no other slot. -/
theorem Table.get_set {t : Table} (h : t.wf = true) (i j v : Nat) :
    (t.set i v).get j = if j = i ∧ i < t.size then (word32 v).toNat else t.get j := by
  rw [Table.wf_iff] at h
  unfold Table.set Table.get
  by_cases hi : i < t.size
  · simp only [hi, if_true, and_true]
    rw [sparseGet_sparseSet h.1]
    by_cases hj : j = i
    · simp [hj, hi]
    · simp [hj]
  · simp [hi]

theorem Table.zeros_wf (n : Nat) : (Table.zeros n).wf = true := rfl

theorem Table.absent_wf : Table.absent.wf = true := rfl

@[simp] theorem Table.get_zeros (n i : Nat) : (Table.zeros n).get i = 0 := by
  unfold Table.get Table.zeros; split <;> rfl

theorem Table.get_lt (t : Table) (i : Nat) : t.get i < 2 ^ 32 := by
  unfold Table.get; split
  · exact (sparseGet 0 t.cells i).isLt
  · decide

end Sys2Proof.Machine
end

