-- ==== Sys2Proof/Laws/Frames.lean ====
section
/-! SUPPORT. What the window work, a block step and the frame flow can change, once for all callers: the state after is the
state before with the named fields replaced (48_frame_assembler.md sections 4 and 5). -/

namespace Sys2Proof.Machine

open Sys2Proof

/-! ## Window work -/

theorem winAppend_frame (s : State) (src n : Nat) :
    (winAppend s src n).1 = { s with
      w := (winAppend s src n).1.w, ms := (winAppend s src n).1.ms
      ldm := { s.ldm with w := (winAppend s src n).1.ldm.w } } := by
  unfold winAppend; dsimp only; split <;> rfl

theorem winAppend_w (s : State) (src n : Nat) :
    (winAppend s src n).1.w = (s.w.append s.impl.addrW s.freeCtr src n).1 := by
  unfold winAppend; dsimp only; split <;> rfl

theorem winAppend_bit (s : State) (src n : Nat) :
    (winAppend s src n).2 = (s.w.append s.impl.addrW s.freeCtr src n).2 := rfl

theorem winAppend_ms (s : State) (src n : Nat) :
    (winAppend s src n).1.ms =
      if (s.w.append s.impl.addrW s.freeCtr src n).2 then s.ms
      else s.ms.freshPrefix (s.w.append s.impl.addrW s.freeCtr src n).1.dictLimit := by
  unfold winAppend; dsimp only; split <;> rfl

theorem winAppend_ldm (s : State) (src n : Nat) :
    (winAppend s src n).1.ldm =
      if s.p.ldmEnable then { s.ldm with w := (s.ldm.w.append s.impl.addrW s.freeCtr src n).1 } else s.ldm := by
  unfold winAppend; dsimp only; split <;> rfl

theorem winEnforceMaxDist_frame (s : State) (e d : Nat) :
    winEnforceMaxDist s e d = { s with w := (winEnforceMaxDist s e d).w, ms := (winEnforceMaxDist s e d).ms } := by
  unfold winEnforceMaxDist; split <;> rfl

theorem winCorrectOverflow_frame (s : State) (c d i : Nat) :
    winCorrectOverflow s c d i = { s with w := (winCorrectOverflow s c d i).w, ms := (winCorrectOverflow s c d i).ms } := rfl

/-! ## One block -/

/-- The state after is the state before but for what the match finding and the entropy stage of a block work on. -/
def BlockFrame (s t : State) : Prop :=
  t = { s with
    w := t.w, ms := t.ms, seq := t.seq, bs0 := t.bs0, bs1 := t.bs1, prevSel := t.prevSel, ldm := t.ldm }

theorem BlockFrame.refl (s : State) : BlockFrame s s := rfl

theorem BlockFrame.trans {s t u : State} (h : BlockFrame s t) (k : BlockFrame t u) : BlockFrame s u := by
  unfold BlockFrame at *
  rw [h] at k
  exact k

theorem BlockFrame.setNextBs (s : State) (b : BlockState) : BlockFrame s (s.setNextBs b) := by
  unfold State.setNextBs; split <;> rfl

theorem BlockFrame.setPrev (s : State) (b : BlockState) : BlockFrame s (s.setPrev b) := by
  unfold State.setPrev; split <;> rfl

theorem BlockFrame.withWork (s : State) (k : Work) : BlockFrame s (s.withWork k) := rfl

theorem blockWindow_frame (s : State) (src n : Nat) : BlockFrame s (blockWindow s src n) := by
  unfold blockWindow
  dsimp only
  split
  · exact BlockFrame.trans (t := winCorrectOverflow s s.p.cycleLog s.p.windowSize (s.idx src)) rfl
      (by rw [winEnforceMaxDist_frame]; rfl)
  · rw [winEnforceMaxDist_frame]; rfl

theorem State.swapBs_frame (s : State) : BlockFrame s s.swapBs := by
  unfold State.swapBs
  dsimp only
  split
  · exact BlockFrame.trans (t := { s with prevSel := !s.prevSel }) rfl (BlockFrame.setPrev _ _)
  · rfl

@[simp] theorem State.swapBs_prevSel (s : State) : s.swapBs.prevSel = !s.prevSel := by
  unfold State.swapBs; dsimp only; split
  · rw [State.setPrev_prevSel]
  · rfl

theorem blockPayload_frame (s : State) (src n : Nat) :
    BlockFrame s (blockPayload s src n).1 ∧ (blockPayload s src n).1.prevSel = s.prevSel := by
  unfold blockPayload
  generalize blockMatch s src n = m
  dsimp only
  generalize litCompress _ _ = lit
  generalize seqEncode _ _ _ = sq
  have h1 : BlockFrame s { (s.withWork m.1.work).setNextRep m.1.rep with ldm := m.2 } :=
    ((BlockFrame.withWork s _).trans (BlockFrame.setNextBs _ _)).trans rfl
  have p1 : ({ (s.withWork m.1.work).setNextRep m.1.rep with ldm := m.2 } : State).prevSel = s.prevSel := by
    simp [State.setNextRep]
  generalize ({ (s.withWork m.1.work).setNextRep m.1.rep with ldm := m.2 } : State) = s1 at h1 p1 ⊢
  have h2 : BlockFrame s { s1.setNextBs { s1.nextBs with huf := lit.huf } with seq := sq.1 } :=
    (h1.trans (BlockFrame.setNextBs _ _)).trans rfl
  have p2 : ({ s1.setNextBs { s1.nextBs with huf := lit.huf } with seq := sq.1 } : State).prevSel = s.prevSel := by
    simp [p1]
  generalize ({ s1.setNextBs { s1.nextBs with huf := lit.huf } with seq := sq.1 } : State) = s2 at h2 p2 ⊢
  cases sq.2 with
  | none => exact ⟨h2, p2⟩
  | some o => exact ⟨h2.trans (BlockFrame.setNextBs _ _), by simp [p2]⟩

/-- What `BlockBody` (R288) can answer: raw, RLE or compressed; the selector flips with a compressed block only. -/
theorem blockBody_cases (s : State) (src n : Nat) :
    BlockFrame s (blockBody s src n).1 ∧
    ((blockBody s src n).2 = (0, s.mem.readBytes src n) ∧ (blockBody s src n).1.prevSel = s.prevSel ∨
      ((blockBody s src n).2 = (1, (s.mem.readBytes src n).take 1) ∧ (blockBody s src n).1.prevSel = s.prevSel ∧
        Config.minCBlockInput ≤ n ∧ s.isFirstBlock = false ∧ allEqual (s.mem.readBytes src n) = true) ∨
      (∃ payload, (blockBody s src n).2 = (2, payload) ∧ (blockBody s src n).1.prevSel = !s.prevSel ∧
        Config.minCBlockInput ≤ n ∧ payload ≠ [] ∧ payload = (blockPayload s.seqReset src n).2)) := by
  have hr : BlockFrame s s.seqReset := rfl
  have hp := blockPayload_frame s.seqReset src n
  unfold blockBody
  dsimp only
  by_cases hn : n < Config.minCBlockInput
  · simp only [hn, if_true]
    exact ⟨hr, by simp⟩
  · simp only [hn, if_false]
    by_cases he : (blockPayload s.seqReset src n).2 = []
    · simp only [he, if_true]
      exact ⟨hr.trans hp.1, .inl ⟨by simp, hp.2⟩⟩
    · simp only [he, if_false]
      split
      · next hc =>
        exact ⟨hr.trans hp.1, .inr (.inl ⟨rfl, hp.2, by omega, by simpa using hc.1, hc.2.2⟩)⟩
      · refine ⟨(hr.trans hp.1).trans (State.swapBs_frame _), .inr (.inr ⟨_, rfl, ?_, by omega, he, rfl⟩)⟩
        rw [State.swapBs_prevSel, hp.2]; rfl

/-- A payload worth sending beats the input by the minimum gain (R288). -/
theorem blockPayload_gain (s : State) (src n : Nat) :
    (blockPayload s src n).2 = [] ∨ (blockPayload s src n).2.length + minGain n < n := by
  unfold blockPayload
  dsimp only
  split
  · exact .inl rfl
  · split
    · exact .inl rfl
    · right; dsimp only at *; omega

/-- A block's payload is never longer than its input (R287 to R289). -/
theorem blockBody_length (s : State) (src n : Nat) : (blockBody s src n).2.2.length ≤ n := by
  rcases (blockBody_cases s src n).2 with ⟨h, _⟩ | ⟨h, _, _⟩ | ⟨q, h, _, _, hq, he⟩
  · rw [h]; simp [Memory.length_readBytes]
  · rw [h]; simp [Memory.length_readBytes]
  · rw [h]
    rcases blockPayload_gain s.seqReset src n with h0 | h0
    · exact absurd (he.trans h0) hq
    · dsimp only; rw [he]; omega

theorem length_leBytes (n v : Nat) : (leBytes n v).length = n := by
  induction n generalizing v with
  | zero => rfl
  | succ n ih => simp [leBytes, ih]

theorem length_blockUnit (last : Bool) (typ n : Nat) (payload : List Byte) :
    (blockUnit last typ n payload).length = 3 + payload.length := by
  simp [blockUnit, length_leBytes]

/-! ## The block step -/

/-- The state after is the state before but for what a block step works on. -/
def StepFrame (s t : State) : Prop :=
  t = { s with
    w := t.w, ms := t.ms, seq := t.seq, bs0 := t.bs0, bs1 := t.bs1, prevSel := t.prevSel, ldm := t.ldm
    freeCtr := t.freeCtr, mem := t.mem, isFirstBlock := t.isFirstBlock }

theorem StepFrame.refl (s : State) : StepFrame s s := rfl

theorem StepFrame.trans {s t u : State} (h : StepFrame s t) (k : StepFrame t u) : StepFrame s u := by
  unfold StepFrame at *
  rw [h] at k
  exact k

theorem BlockFrame.step {s t : State} (h : BlockFrame s t) : StepFrame s t := by
  unfold BlockFrame StepFrame at *
  rw [h]

/-- What a block step can answer (R292): the unit written, at most 3 bytes longer than its input; or, when it does not fit, the
lost-frame flag and no byte written. -/
theorem blockStep_cases (s : State) (src n : Nat) (last : Bool) (dst cap : Nat) :
    (∃ b : State × Nat × List Byte, b = blockBody (blockWindow s src n) src n ∧
      ((cap < (blockUnit last b.2.1 n b.2.2).length ∧
          blockStep s src n last dst cap = (({ b.1 with freeCtr := b.1.freeCtr + 1 } : State).setUnspec, none)) ∨
        ((blockUnit last b.2.1 n b.2.2).length ≤ cap ∧
          blockStep s src n last dst cap =
            ({ ({ b.1 with freeCtr := b.1.freeCtr + 1 } : State).writeDst dst (blockUnit last b.2.1 n b.2.2) with
                isFirstBlock := false }, some ((blockUnit last b.2.1 n b.2.2).length, b.2.1))))) := by
  refine ⟨_, rfl, ?_⟩
  unfold blockStep
  dsimp only
  split
  · exact .inl ⟨by omega, rfl⟩
  · exact .inr ⟨by omega, rfl⟩

theorem blockBody_windowed_frame (s : State) (src n : Nat) :
    BlockFrame s (blockBody (blockWindow s src n) src n).1 :=
  (blockWindow_frame s src n).trans (blockBody_cases _ src n).1

/-- A block step that writes its unit. -/
theorem blockStep_some {s t : State} {src n dst cap : Nat} {last : Bool} {k : Nat × Nat}
    (h : blockStep s src n last dst cap = (t, some k)) :
    StepFrame s t ∧ t.freeCtr = s.freeCtr + 1 ∧ t.isFirstBlock = false ∧ k.1 ≤ cap ∧ 3 ≤ k.1 ∧ k.1 ≤ n + 3 ∧
    ∃ bytes, bytes.length = k.1 ∧ t.mem = s.mem.writeBytes dst bytes := by
  obtain ⟨b, hb, hc⟩ := blockStep_cases s src n last dst cap
  have hf : BlockFrame s b.1 := hb ▸ blockBody_windowed_frame s src n
  have hl : b.2.2.length ≤ n := hb ▸ blockBody_length (blockWindow s src n) src n
  rcases hc with ⟨_, hs⟩ | ⟨hle, hs⟩
  · rw [h] at hs; cases hs
  · rw [h] at hs
    obtain ⟨rfl, hk⟩ := Prod.mk.inj hs
    cases hk
    have hlen := length_blockUnit last b.2.1 n b.2.2
    refine ⟨hf.step.trans rfl, ?_, rfl, hle, by dsimp only; omega, by dsimp only; omega, _, rfl, ?_⟩
    · dsimp only [State.writeDst]; rw [hf]
    · dsimp only [State.writeDst]; rw [hf]

/-- A block step that loses the frame. -/
theorem blockStep_none {s t : State} {src n dst cap : Nat} {last : Bool}
    (h : blockStep s src n last dst cap = (t, none)) :
    ∃ u, StepFrame s u ∧ u.mem = s.mem ∧ u.isFirstBlock = s.isFirstBlock ∧ u.freeCtr = s.freeCtr + 1 ∧ t = u.setUnspec ∧
      cap < n + 3 := by
  obtain ⟨b, hb, hc⟩ := blockStep_cases s src n last dst cap
  have hf : BlockFrame s b.1 := hb ▸ blockBody_windowed_frame s src n
  have hl : b.2.2.length ≤ n := hb ▸ blockBody_length (blockWindow s src n) src n
  have hlen := length_blockUnit last b.2.1 n b.2.2
  rcases hc with ⟨hle, hs⟩ | ⟨_, hs⟩
  · rw [h] at hs
    obtain ⟨rfl, _⟩ := Prod.mk.inj hs
    refine ⟨{ b.1 with freeCtr := b.1.freeCtr + 1 }, hf.step.trans rfl, ?_, ?_, ?_, rfl, by omega⟩
    · dsimp only; rw [hf]
    · dsimp only; rw [hf]
    · dsimp only; rw [hf]
  · rw [h] at hs; cases hs

/-! ## The frame flow -/

theorem Memory.writeBytes_append (m : Memory) (a : Nat) (xs ys : List Byte) :
    m.writeBytes a (xs ++ ys) = (m.writeBytes a xs).writeBytes (a + xs.length) ys := by
  induction xs generalizing m a with
  | nil => rfl
  | cons x xs ih => simp only [List.cons_append, Memory.writeBytes, ih, List.length_cons]; congr 1; omega

/-- The bytes written so far: `w'` of them from `dst` up, the first `w` of which stood already. -/
def WroteTo (m m' : Memory) (dst w w' : Nat) : Prop :=
  w ≤ w' ∧ ∃ bytes, bytes.length = w' - w ∧ m' = m.writeBytes (dst + w) bytes

theorem WroteTo.refl (m : Memory) (dst w : Nat) : WroteTo m m dst w w := ⟨le_refl w, [], by simp, rfl⟩

theorem WroteTo.trans {m m' m'' : Memory} {dst w w' w'' : Nat} (h : WroteTo m m' dst w w')
    (k : WroteTo m' m'' dst w' w'') : WroteTo m m'' dst w w'' := by
  obtain ⟨hw, xs, hx, rfl⟩ := h
  obtain ⟨kw, ys, hy, rfl⟩ := k
  refine ⟨by omega, xs ++ ys, by simp; omega, ?_⟩
  rw [Memory.writeBytes_append]; congr 1; omega

/-- Every byte outside what was written is as before (20_memory.md R45). -/
theorem WroteTo.read {m m' : Memory} {dst w w' a : Nat} (h : WroteTo m m' dst w w') (hm : m.wf = true)
    (ha : a < dst + w ∨ dst + w' ≤ a) : m'.read a = m.read a := by
  obtain ⟨hw, xs, hx, rfl⟩ := h
  rw [Memory.read_writeBytes hm, if_neg (by omega)]

theorem WroteTo.wf {m m' : Memory} {dst w w' : Nat} (h : WroteTo m m' dst w w') (hm : m.wf = true) : m'.wf = true := by
  obtain ⟨_, xs, _, rfl⟩ := h
  exact Memory.writeBytes_wf hm _ _

theorem Latched.blockSizeMax_pos (p : Latched) : 0 < p.blockSizeMax := by
  unfold Latched.blockSizeMax Latched.windowSize Config.blockSizeTop
  exact Nat.lt_min.mpr ⟨by norm_num, by positivity⟩

theorem StepFrame.p {s t : State} (h : StepFrame s t) : t.p = s.p := by rw [h]

/-- How many blocks `rem` bytes are cut into (48_frame_assembler.md R287). -/
def blockCount (rem B : Nat) : Nat := (rem + B - 1) / B

theorem blockCount_step {rem B : Nat} (hB : 0 < B) (hr : rem ≠ 0) :
    blockCount rem B = blockCount (rem - min rem B) B + 1 := by
  unfold blockCount
  rcases Nat.lt_or_ge rem B with h | h
  · rw [Nat.min_eq_left (by omega), show rem - rem + B - 1 = B - 1 by omega, Nat.div_eq_of_lt (show B - 1 < B by omega),
      show rem + B - 1 = rem - 1 + B by omega, Nat.add_div_right _ hB, Nat.div_eq_of_lt (by omega)]
  · rw [Nat.min_eq_right h, show rem + B - 1 = (rem - B + B - 1) + B by omega, Nat.add_div_right _ hB]

theorem blockCount_le {rem B : Nat} (hB : 0 < B) : blockCount rem B ≤ rem / B + 1 := by
  unfold blockCount
  calc (rem + B - 1) / B ≤ (rem + B) / B := Nat.div_le_div_right (by omega)
    _ = rem / B + 1 := Nat.add_div_right _ hB

/-- What the block loop of `FrameBody` (R293) can answer: every unit written, or the frame lost; in both cases only what a
block step works on has changed, and the bytes counted are the bytes written. -/
theorem frameBlocks_cases (last : Bool) (dst cap fuel : Nat) (s : State) (p rem w : Nat) (hw : w ≤ cap) :
    ∃ u w', StepFrame s u ∧ WroteTo s.mem u.mem dst w w' ∧ w' ≤ cap ∧
      (frameBlocks last dst cap fuel s p rem w = (u, w', true) ∨
        frameBlocks last dst cap fuel s p rem w = (u.setUnspec, w', false)) := by
  induction fuel generalizing s p rem w with
  | zero => exact ⟨s, w, .refl s, .refl _ _ _, hw, .inl rfl⟩
  | succ fuel ih =>
    unfold frameBlocks
    by_cases hr : rem = 0
    · exact ⟨s, w, .refl s, .refl _ _ _, hw, .inl (by simp [hr])⟩
    · simp only [hr, if_false]
      rcases hb : blockStep s p (min rem s.p.blockSizeMax) (last && min rem s.p.blockSizeMax == rem) (dst + w) (cap - w)
        with ⟨t, _ | k⟩
      · obtain ⟨u, hu, hm, _, _, rfl, _⟩ := blockStep_none hb
        exact ⟨u, w, hu, hm ▸ .refl _ _ _, hw, .inr rfl⟩
      · obtain ⟨ht, _, _, hk, _, _, bytes, hlen, hm⟩ := blockStep_some hb
        dsimp only
        obtain ⟨u, w', hu, hmu, hw', hres⟩ := ih t (p + min rem s.p.blockSizeMax) (rem - min rem s.p.blockSizeMax)
          (w + k.1) (by omega)
        refine ⟨u, w', ht.trans hu, .trans ⟨by omega, bytes, by omega, hm⟩ hmu, hw', hres⟩

/-- With room for 3 bytes of header a block, no block of the loop loses the frame. -/
theorem frameBlocks_fits (last : Bool) (dst cap fuel : Nat) (s : State) (p rem w : Nat)
    (hcap : w + rem + 3 * blockCount rem s.p.blockSizeMax ≤ cap) :
    ∃ u w', StepFrame s u ∧ WroteTo s.mem u.mem dst w w' ∧ w' ≤ w + rem + 3 * blockCount rem s.p.blockSizeMax ∧
      frameBlocks last dst cap fuel s p rem w = (u, w', true) := by
  induction fuel generalizing s p rem w with
  | zero => exact ⟨s, w, .refl s, .refl _ _ _, by omega, rfl⟩
  | succ fuel ih =>
    unfold frameBlocks
    by_cases hr : rem = 0
    · exact ⟨s, w, .refl s, .refl _ _ _, by omega, by simp [hr]⟩
    · simp only [hr, if_false]
      have hB := s.p.blockSizeMax_pos
      have hc := blockCount_step hB hr
      rcases hb : blockStep s p (min rem s.p.blockSizeMax) (last && min rem s.p.blockSizeMax == rem) (dst + w) (cap - w)
        with ⟨t, _ | k⟩
      · obtain ⟨_, _, _, _, _, _, hlt⟩ := blockStep_none hb
        omega
      · obtain ⟨ht, _, _, hk, _, hkn, bytes, hlen, hm⟩ := blockStep_some hb
        dsimp only
        have hp := ht.p
        obtain ⟨u, w', hu, hmu, hw', hres⟩ := ih t (p + min rem s.p.blockSizeMax) (rem - min rem s.p.blockSizeMax)
          (w + k.1) (by rw [hp]; omega)
        rw [hp] at hw'
        exact ⟨u, w', ht.trans hu, .trans ⟨by omega, bytes, by omega, hm⟩ hmu, by omega, hres⟩

/-! ## The end of a matcher command -/

/-- What BLK_MATCH and LDM_BLK_MATCH can answer once the matcher has run (42_block_matcher.md R141, 60_exceptions.md R329). -/
theorem finishMatch_next {s t : State} {iend : Nat} {r : MatchRun} (h : (finishMatch s iend r).outcome = .next t) :
    (r.work.failed = true ∧ t = (s.withWork r.work).setFatal.withCode 1) ∨
    (r.work.failed = false ∧ t = ((((s.withWork r.work).setNextRep r.rep).setRes0 (iend - r.anchor)).setRes1
      (addA s.impl.addrW s.w.base.toNat r.anchor)).withCode 0) := by
  unfold finishMatch at h
  split at h
  · exact .inl ⟨‹_›, (Host.Outcome.next.inj h).symm⟩
  · exact .inr ⟨by simpa using ‹¬ r.work.failed = true›, (Host.Outcome.next.inj h).symm⟩

/-! ## A frame command -/

/-- The state after is the state before but for what a frame command works on; the result registers apart. -/
def FlowFrame (s t : State) : Prop :=
  t = { s with
    w := t.w, ms := t.ms, seq := t.seq, bs0 := t.bs0, bs1 := t.bs1, prevSel := t.prevSel, ldm := t.ldm
    freeCtr := t.freeCtr, mem := t.mem, isFirstBlock := t.isFirstBlock, consumed := t.consumed, chk := t.chk
    stage := t.stage }

theorem FlowFrame.refl (s : State) : FlowFrame s s := rfl

theorem FlowFrame.trans {s t u : State} (h : FlowFrame s t) (k : FlowFrame t u) : FlowFrame s u := by
  unfold FlowFrame at *
  rw [h] at k
  exact k

theorem StepFrame.flow {s t : State} (h : StepFrame s t) : FlowFrame s t := by
  unfold StepFrame FlowFrame at *
  rw [h]

theorem State.takeChunk_frame (s : State) (src n : Nat) :
    FlowFrame s (s.takeChunk src n) ∧ (s.takeChunk src n).stage = s.stage ∧ (s.takeChunk src n).consumed = s.consumed ∧
    (s.takeChunk src n).mem = s.mem ∧ (s.takeChunk src n).p = s.p ∧
    (s.takeChunk src n).chk = if s.p.checksumFlag then s.chk ++ s.mem.readBytes src n else s.chk := by
  unfold State.takeChunk
  rw [winAppend_frame]
  dsimp only
  split <;> exact ⟨rfl, rfl, rfl, rfl, rfl, rfl⟩

/-- What the chunk of a frame command (R293) can answer. -/
theorem frameChunk_cases (s : State) (src n dst cap : Nat) (last : Bool) (w : Nat) (hw : w ≤ cap) :
    ∃ u w', FlowFrame s u ∧ u.stage = s.stage ∧ WroteTo s.mem u.mem dst w w' ∧ w' ≤ cap ∧
      (frameChunk s src n dst cap last w = (u, w', true) ∨
        (n ≠ 0 ∧ frameChunk s src n dst cap last w = (u.setUnspec, w', false))) := by
  unfold frameChunk
  by_cases hn : n = 0
  · exact ⟨s, w, .refl s, rfl, .refl _ _ _, hw, .inl (by simp [hn])⟩
  · obtain ⟨hf, hst, _, hmem, _, _⟩ := s.takeChunk_frame src n
    obtain ⟨u, w', hu, hm, hle, hres⟩ :=
      frameBlocks_cases last dst cap (n / s.p.blockSizeMax + 1) (s.takeChunk src n) src n w hw
    rw [hmem] at hm
    have hs : u.stage = s.stage := by rw [← hst, hu]
    simp only [hn, if_false]
    rcases hres with h | h
    · rw [h]
      exact ⟨{ u with consumed := fit 64 s.freeCtr 5 (s.consumed.toNat + n) }, w', (hf.trans hu.flow).trans rfl, hs, hm,
        hle, .inl rfl⟩
    · rw [h]
      exact ⟨u, w', hf.trans hu.flow, hs, hm, hle, .inr ⟨hn, rfl⟩⟩

/-- With room for 3 bytes of header a block, the chunk of a frame command is written whole. -/
theorem frameChunk_fits (s : State) (src n dst cap : Nat) (last : Bool) (w : Nat)
    (hcap : w + n + 3 * blockCount n s.p.blockSizeMax ≤ cap) :
    ∃ u w', FlowFrame s u ∧ u.stage = s.stage ∧ WroteTo s.mem u.mem dst w w' ∧
      w' ≤ w + n + 3 * blockCount n s.p.blockSizeMax ∧
      u.consumed = (if n = 0 then s.consumed else fit 64 s.freeCtr 5 (s.consumed.toNat + n)) ∧
      u.chk = (if n ≠ 0 ∧ s.p.checksumFlag then s.chk ++ s.mem.readBytes src n else s.chk) ∧
      (n = 0 → u = s ∧ w' = w) ∧
      frameChunk s src n dst cap last w = (u, w', true) := by
  unfold frameChunk
  by_cases hn : n = 0
  · exact ⟨s, w, .refl s, rfl, .refl _ _ _, by omega, by simp [hn], by simp [hn], fun _ => ⟨rfl, rfl⟩, by simp [hn]⟩
  · obtain ⟨hf, hst, _, hmem, hp, hchk⟩ := s.takeChunk_frame src n
    obtain ⟨u, w', hu, hm, hle, h⟩ :=
      frameBlocks_fits last dst cap (n / s.p.blockSizeMax + 1) (s.takeChunk src n) src n w (by rw [hp]; exact hcap)
    rw [hmem] at hm
    rw [hp] at hle
    have hs : u.stage = s.stage := by rw [← hst, hu]
    have hc : u.chk = (s.takeChunk src n).chk := by rw [hu]
    simp only [hn, if_false]
    rw [h]
    refine ⟨{ u with consumed := fit 64 s.freeCtr 5 (s.consumed.toNat + n) }, w', (hf.trans hu.flow).trans rfl, hs, hm,
      hle, rfl, ?_, fun h0 => h0.elim, rfl⟩
    dsimp only
    rw [hc, hchk]
    simp [hn]

/-- The stage after the header question of a frame command. -/
def Stage.started (g : Stage) : Stage := if g = .initialized then .ongoing else g

/-- What a frame command (R293) does after its checks: the header does not fit and nothing happens; or it and the chunk are
written and `finish` goes on; or a block loses the frame. -/
theorem frameWork_cases (s : State) (last : Bool) (finish : State → Nat → Done) :
    (s.stage = .initialized ∧ s.op3.toNat < s.frameHeader.length ∧
      frameWork s last finish = .err .dstTooSmall (s.setRes0 0)) ∨
    (∃ u w', FlowFrame s u ∧ u.stage = s.stage.started ∧ WroteTo s.mem u.mem s.op2.toNat 0 w' ∧ w' ≤ s.op3.toNat ∧
      (frameWork s last finish = finish u w' ∨
        frameWork s last finish = .err .dstTooSmall (u.setUnspec.setRes0 w'))) := by
  unfold frameWork State.writeHeader
  by_cases hi : s.stage = .initialized
  · simp only [hi, if_true]
    by_cases hl : s.op3.toNat < s.frameHeader.length
    · left; simp [hl]
    · right
      simp only [show ¬ s.frameHeader.length > s.op3.toNat by omega, if_false]
      obtain ⟨u, w', hf, hs, hm, hle, hres⟩ := frameChunk_cases
        { s.writeDst s.op2.toNat s.frameHeader with stage := .ongoing } s.op0.toNat s.op1.toNat s.op2.toNat s.op3.toNat
        last s.frameHeader.length (by omega)
      have h0 : WroteTo s.mem (s.mem.writeBytes s.op2.toNat s.frameHeader) s.op2.toNat 0 s.frameHeader.length :=
        ⟨by omega, s.frameHeader, by omega, rfl⟩
      refine ⟨u, w', FlowFrame.trans (t := { s.writeDst s.op2.toNat s.frameHeader with stage := .ongoing }) rfl hf,
        by rw [hs]; rfl, h0.trans hm, hle, ?_⟩
      rcases hres with h | ⟨_, h⟩
      · left; rw [h]; rfl
      · right; rw [h]; rfl
  · right
    simp only [hi, if_false]
    obtain ⟨u, w', hf, hs, hm, hle, hres⟩ := frameChunk_cases s s.op0.toNat s.op1.toNat s.op2.toNat s.op3.toNat last 0
      (by omega)
    refine ⟨u, w', hf, by rw [hs]; simp [Stage.started, hi], hm, hle, ?_⟩
    rcases hres with h | ⟨_, h⟩
    · left; rw [h]; rfl
    · right; rw [h]; rfl

/-- What the epilogue of FRAME_END (R296) can answer: the frame ends, or a unit does not fit and the frame is lost. -/
theorem frameEpilogue_cases (s : State) (n dst cap w : Nat) (hw : w ≤ cap) :
    ∃ m w', WroteTo s.mem m dst w w' ∧ w' ≤ cap ∧
      (frameEpilogue s n dst cap w = .ok { ({ s with mem := m } : State).frameResult w' n with stage := .created } ∨
        frameEpilogue s n dst cap w = .err .dstTooSmall (({ s with mem := m } : State).setUnspec.setRes0 w')) := by
  have tail : ∀ (a : State) (v : Nat) (bytes : List Byte), v ≤ cap →
      a.writeTail dst cap v bytes = none ∨
        (a.writeTail dst cap v bytes =
            some ({ a with mem := a.mem.writeBytes (dst + v) bytes }, v + bytes.length) ∧ v + bytes.length ≤ cap) := by
    intro a v bytes hv
    unfold State.writeTail
    split
    · exact .inl rfl
    · exact .inr ⟨rfl, by omega⟩
  have wrote : ∀ (m : Memory) (v : Nat) (bytes : List Byte),
      WroteTo m (m.writeBytes (dst + v) bytes) dst v (v + bytes.length) :=
    fun m v bytes => ⟨by omega, bytes, by omega, rfl⟩
  unfold frameEpilogue
  have first : ∃ m v, WroteTo s.mem m dst w v ∧ v ≤ cap ∧
      ((if n = 0 then s.writeTail dst cap w emptyLast else some (s, w)) = some (({ s with mem := m } : State), v) ∨
        ((if n = 0 then s.writeTail dst cap w emptyLast else some (s, w)) = none ∧ m = s.mem ∧ v = w)) := by
    by_cases hn : n = 0
    · simp only [hn, if_true]
      rcases tail s w emptyLast hw with h | ⟨h, hle⟩
      · exact ⟨s.mem, w, .refl _ _ _, hw, .inr ⟨h, rfl, rfl⟩⟩
      · exact ⟨_, _, wrote _ _ _, hle, .inl h⟩
    · simp only [hn, if_false]
      exact ⟨s.mem, w, .refl _ _ _, hw, .inl rfl⟩
  obtain ⟨m, v, hm, hv, hf | ⟨hf, rfl, rfl⟩⟩ := first
  · rw [hf]
    dsimp only
    by_cases hc : s.p.checksumFlag = true
    · simp only [hc, if_true]
      rcases tail { s with mem := m } v s.checksumBytes hv with h | ⟨h, hle⟩
      · rw [h]; exact ⟨m, v, hm, hv, .inr rfl⟩
      · rw [h]; exact ⟨_, _, hm.trans (wrote _ _ _), hle, .inl rfl⟩
    · simp only [Bool.not_eq_true] at hc
      simp only [hc]
      exact ⟨m, v, hm, hv, .inl rfl⟩
  · rw [hf]
    exact ⟨s.mem, v, .refl _ _ _, hv, .inr rfl⟩

end Sys2Proof.Machine
end

