-- ==== Sys2Proof/Laws/Commands.lean ====
section
/-! SUPPORT. The inversion of exec: a command that answers was turned away by a gate, the stage or an operand check, or has
worked, and then the state after is one of those its rule names. Every statement about all commands can rest on this. -/

namespace Sys2Proof.Machine

open Sys2Proof

/-- A command was turned away by checks 2 to 5 of 60_exceptions.md R327 (the operand part of check 5). -/
def TurnedAway (i : Instr) (s t : State) : Prop :=
  (s.status.fatal = true ∧ i.runsWhenFatal = false ∧ t = s.withCode 1) ∨
  (i.letThrough s = false ∧ t = s.withCode 3) ∨
  (i.letThrough s = true ∧ i.operandsOk s = false ∧ t = s.withCode 2)

/-- The end of a command that has written `w` bytes of a frame (R293). -/
def FrameRun (s t : State) : Prop :=
  (s.stage = .initialized ∧ s.op3.toNat < s.frameHeader.length ∧ t = (s.setRes0 0).withCode 5) ∨
  (∃ u w, FlowFrame s u ∧ u.stage = s.stage.started ∧ WroteTo s.mem u.mem s.op2.toNat 0 w ∧ w ≤ s.op3.toNat ∧
    t = (u.setUnspec.setRes0 w).withCode 5)

/-- What a command that passed its operand checks leaves. -/
def Worked (i : Instr) (s t : State) : Prop :=
  match i with
  | .ctxInit => (s.impl.tabCap < s.cfg.workspace ∧ t = s.withCode 4) ∨
      (s.cfg.workspace ≤ s.impl.tabCap ∧ t = s.ctxInit.withCode 0)
  | .paramsDerive =>
    t = ((s.setRes0 (deriveParams s.impl.levels (levelOperand s.op0) s.op1.toNat s.op2.toNat).1).setRes1
      (deriveParams s.impl.levels (levelOperand s.op0) s.op1.toNat s.op2.toNat).2).withCode 0
  | .dictLoad m => (s.descriptorOk = false ∧ t = s.withCode 6) ∨
      (s.descriptorOk = true ∧ t = ({ (if s.op2 = 0 then dictLoadContent s s.op0.toNat s.op1.toNat (modBit0 m) else
        (dictLoadContent s s.op0.toNat s.op1.toNat (modBit0 m)).setPrev s.descriptor.install) with
          dictID := s.op3.setWidth 32 } : State).withCode 0)
  | .dictAttach => t = (if s.dms.endIdx = 1 then s else s.attach).withCode 0
  | .frameContinue =>
    (s.pledgeOk s.op1.toNat false = false ∧ t = s.withCode 7) ∨
    (s.pledgeOk s.op1.toNat false = true ∧
      (FrameRun s t ∨ ∃ u w, FlowFrame s u ∧ u.stage = s.stage.started ∧ WroteTo s.mem u.mem s.op2.toNat 0 w ∧
        w ≤ s.op3.toNat ∧ t = (u.frameResult w s.op1.toNat).withCode 0))
  | .frameEnd =>
    (s.pledgeOk s.op1.toNat true = false ∧ t = s.withCode 7) ∨
    (s.pledgeOk s.op1.toNat true = true ∧
      (FrameRun s t ∨ ∃ u w, FlowFrame s u ∧ WroteTo s.mem u.mem s.op2.toNat 0 w ∧
        w ≤ s.op3.toNat ∧ t = ({ u.frameResult w s.op1.toNat with stage := .created } : State).withCode 0))
  | .blockCompress m =>
    (∃ u, StepFrame s u ∧ u.mem = s.mem ∧ s.op3.toNat < s.op1.toNat + 3 ∧ t = (u.setUnspec.setRes0 0).withCode 5) ∨
    (∃ u k typ, StepFrame s u ∧ k ≤ s.op3.toNat ∧ WroteTo s.mem u.mem s.op2.toNat 0 k ∧
      t = (if modBit0 m then { (u.setRes0 k).setRes1 typ with stage := .ending } else (u.setRes0 k).setRes1 typ).withCode 0)
  | .dmsBuild =>
    (s.impl.tabCap < s.cfg.baseEntries ∧ t = s.withCode 4) ∨
    (s.cfg.baseEntries ≤ s.impl.tabCap ∧ s.descriptorOk = false ∧ t = s.withCode 6) ∨
    (s.cfg.baseEntries ≤ s.impl.tabCap ∧ s.descriptorOk = true ∧ t = ({ s with dms := buildBank s } : State).withCode 0)
  | .winAppend =>
    t = ((winAppend s s.op0.toNat s.op1.toNat).1.setRes0 (winAppend s s.op0.toNat s.op1.toNat).2.toNat).withCode 0
  | .winEnforceMaxdist => t = (winEnforceMaxDist s (s.idx s.op0.toNat) s.op1.toNat).withCode 0
  | .winNeedsCorrection => t = (s.setRes0 (s.p.needsCorrection (s.idx s.op0.toNat)).toNat).withCode 0
  | .winCorrectOverflow =>
    t = ((winCorrectOverflow s s.op0.toNat s.op1.toNat (s.idx s.op2.toNat)).setRes0
      (corrOf s.op0.toNat s.op1.toNat (s.idx s.op2.toNat))).withCode 0
  | .tabFill m => t = ({ s with ms := tabFill s.view s.entryMs (s.idx s.op0.toNat) (modBit0 m) } : State).withCode 0
  | .h1Insfind =>
    t = (({ s with ms := (h1InsFind s.view s.entryMs (s.idx s.op0.toNat)).1 } : State).setRes0
      (h1InsFind s.view s.entryMs (s.idx s.op0.toNat)).2).withCode 0
  | .dhInsfind =>
    t = ((({ s with ms := (dhInsFind s.view s.entryMs (s.idx s.op0.toNat)).1 } : State).setRes0
      (dhInsFind s.view s.entryMs (s.idx s.op0.toNat)).2.1).setRes1
      (dhInsFind s.view s.entryMs (s.idx s.op0.toNat)).2.2).withCode 0
  | .hcInsfind =>
    t = (({ s with ms := (hcInsFind s.view s.entryMs (s.idx s.op0.toNat)).1 } : State).setRes0
      (hcInsFind s.view s.entryMs (s.idx s.op0.toNat)).2).withCode 0
  | .hcSearch =>
    t = ((({ s with ms := (hcSearch s.view s.entryMs (s.idx s.op0.toNat) (s.idx s.op1.toNat)).1 } : State).setRes0
      (hcSearch s.view s.entryMs (s.idx s.op0.toNat) (s.idx s.op1.toNat)).2.len).setRes1
      (hcSearch s.view s.entryMs (s.idx s.op0.toNat) (s.idx s.op1.toNat)).2.idx).withCode 0
  | .btUpdate =>
    t = ({ s with ms := btUpdate s.view s.entryMs (s.idx s.op0.toNat) (s.idx s.op1.toNat) } : State).withCode 0
  | .btSearch =>
    t = ((({ s with ms := (btSearch s.view s.entryMs (s.idx s.op0.toNat) (s.idx s.op1.toNat)).1 } : State).setRes0
      (btSearch s.view s.entryMs (s.idx s.op0.toNat) (s.idx s.op1.toNat)).2.len).setRes1
      (btSearch s.view s.entryMs (s.idx s.op0.toNat) (s.idx s.op1.toNat)).2.idx).withCode 0
  | .h3Insfind =>
    t = (({ s with ms := (h3InsFind s.view (s.entryMs.raiseNext3 s.w.lowLimit.toNat) (s.idx s.op0.toNat)).1 } :
      State).setRes0 (h3InsFind s.view (s.entryMs.raiseNext3 s.w.lowLimit.toNat) (s.idx s.op0.toNat)).2).withCode 0
  | .blkMatch => (finishMatch s (s.idx s.op0.toNat + s.op1.toNat)
      (blkMatch s (s.idx s.op0.toNat) s.op1.toNat s.prev.rep)).outcome = .next t
  | .ldmGenerate =>
    t = (({ s with ldm := ldmGenerate s s.op0.toNat s.op1.toNat } : State).setRes0
      (ldmGenerate s s.op0.toNat s.op1.toNat).seq.length).withCode 0
  | .ldmBlkMatch => s.queueHere s.op0 = true ∧
      s.queueReachesBelow s.op0 = false ∧
      (finishMatch { s with ldm := (ldmBlkMatch s (s.idx s.op0.toNat) s.op1.toNat s.prev.rep).2 }
        (s.idx s.op0.toNat + s.op1.toNat) (ldmBlkMatch s (s.idx s.op0.toNat) s.op1.toNat s.prev.rep).1).outcome = .next t
  | .seqReset => t = s.seqReset.withCode 0
  | .seqStore =>
    let r := s.seq.store s.histByte s.op0.toNat (s.idx s.op1.toNat) s.op2.toNat s.op3.toNat
    (r.2 = true ∧ t = ({ s with seq := r.1 } : State).setFatal.withCode 1) ∨
    (r.2 = false ∧ t = ({ s with seq := r.1 } : State).withCode 0)
  | .seqLastlit =>
    t = ({ s with seq := s.seq.lastLit s.histByte (s.idx s.op0.toNat) s.op1.toNat } : State).withCode 0
  | .seqToCodes => t = ({ s with seq := s.seq.toCodes } : State).withCode 0
  | .litCompress =>
    let r := litCompress s.prev.huf s.seq.lit
    (s.op1.toNat < r.bytes.length ∧ t = s.withCode 5) ∨
    (r.bytes.length ≤ s.op1.toNat ∧
      t = ((((s.writeDst s.op0.toNat r.bytes).setNextBs { s.nextBs with huf := r.huf }).setRes0 r.bytes.length).setRes1
        r.typ).withCode 0)
  | .seqEncode =>
    let r := seqEncode s.prev s.freeCtr s.seq
    let s1 : State := { s with seq := r.1 }
    let failed : State := { s with seq := s.seq.toCodes }
    (r.2 = none ∧ t = failed.withCode 1) ∨
    (∃ o, r.2 = some o ∧ s.op1.toNat < o.bytes.length ∧ t = failed.withCode 5) ∨
    (∃ o, r.2 = some o ∧ o.bytes.length ≤ s.op1.toNat ∧
      t = ((((s1.writeDst s.op0.toNat o.bytes).setNextBs (s1.nextBs.withFse o)).setRes0 o.bytes.length).setRes1
        o.typeByte).withCode 0)
  | .dbgRead => ∃ v, s.debugRead s.op0 s.op1 = some v ∧ t = (s.setRes0 v).withCode 0

/-! ## Packaging the gates -/

/-- A command subject to both gates, legal in the given stages. -/
theorem gated_turned {i : Instr} {s t : State} {legal : Bool} {k : Done}
    (h : (gated legal s k).outcome = .next t) (hf : i.runsWhenFatal = false) (hu : i.runsWhenLost = false)
    (hl : i.legalIn s.stage = legal) (hd : i ≠ .dmsBuild) :
    TurnedAway i s t ∨ (i.letThrough s = true ∧ k.outcome = .next t) := by
  have hd' : (i != .dmsBuild) = true := by simpa using hd
  rcases gated_next h with ⟨h1, h2⟩ | ⟨h1, h2, h3⟩ | ⟨⟨h1, h2⟩, h3, h4⟩
  · exact .inl (.inl ⟨h1, hf, h2⟩)
  · refine .inl (.inr (.inl ⟨?_, h3⟩))
    unfold Instr.letThrough
    rw [hf, hu, hl, h1]
    rcases h2 with h2 | h2 <;> simp [h2]
  · refine .inr ⟨?_, h4⟩
    unfold Instr.letThrough
    rw [hf, hu, hl, h1, h2, h3, hd']; rfl

theorem isIO_eq (g : Stage) : (g == .initialized || g == .ongoing) = g.isIO := by cases g <;> rfl

/-- The operand check that fails turns the command away. -/
theorem turned_operands {i : Instr} {s t : State} (hl : i.letThrough s = true) (ho : i.operandsOk s = false)
    (ht : t = s.withCode 2) : TurnedAway i s t := .inr (.inr ⟨hl, ho, ht⟩)

theorem and_left_false {a b : Bool} (h : a = false) : (a && b) = false := by rw [h]; rfl
theorem and_right_false {a b : Bool} (h : b = false) : (a && b) = false := by rw [h, Bool.and_false]
theorem and_both {a b : Bool} (h : a = true) (k : b = true) : (a && b) = true := by rw [h, k]; rfl

/-! ## Command by command -/

theorem execWinAppend_next {s t : State} (h : execWinAppend s = .next t) :
    TurnedAway .winAppend s t ∨ (Instr.winAppend.letThrough s = true ∧ Instr.winAppend.operandsOk s = true ∧ Worked .winAppend s t) := by
  rcases gated_turned (i := Instr.winAppend) h rfl rfl (isIO_eq _) (by simp) with h | ⟨hl, h⟩
  · exact .inl h
  rcases require_next h with ⟨hc, ht⟩ | ⟨h0, h⟩
  · exact .inl (turned_operands hl (and_left_false hc) ht)
  rcases require_next h with ⟨hc, ht⟩ | ⟨h1, h⟩
  · exact .inl (turned_operands hl (and_right_false hc) ht)
  exact .inr ⟨hl, and_both h0 h1, (Host.Outcome.next.inj h).symm⟩

theorem execWinEnforceMaxdist_next {s t : State} (h : execWinEnforceMaxdist s = .next t) :
    TurnedAway .winEnforceMaxdist s t ∨ (Instr.winEnforceMaxdist.letThrough s = true ∧ Instr.winEnforceMaxdist.operandsOk s = true ∧ Worked .winEnforceMaxdist s t) := by
  rcases gated_turned (i := Instr.winEnforceMaxdist) h rfl rfl (isIO_eq _) (by simp) with h | ⟨hl, h⟩
  · exact .inl h
  rcases require_next h with ⟨hc, ht⟩ | ⟨h0, h⟩
  · exact .inl (turned_operands hl (hc) ht)
  exact .inr ⟨hl, h0, (Host.Outcome.next.inj h).symm⟩

theorem execWinNeedsCorrection_next {s t : State} (h : execWinNeedsCorrection s = .next t) :
    TurnedAway .winNeedsCorrection s t ∨ (Instr.winNeedsCorrection.letThrough s = true ∧ Instr.winNeedsCorrection.operandsOk s = true ∧ Worked .winNeedsCorrection s t) := by
  rcases gated_turned (i := Instr.winNeedsCorrection) h rfl rfl (isIO_eq _) (by simp) with h | ⟨hl, h⟩
  · exact .inl h
  rcases require_next h with ⟨hc, ht⟩ | ⟨h0, h⟩
  · exact .inl (turned_operands hl (hc) ht)
  exact .inr ⟨hl, h0, (Host.Outcome.next.inj h).symm⟩

theorem execWinCorrectOverflow_next {s t : State} (h : execWinCorrectOverflow s = .next t) :
    TurnedAway .winCorrectOverflow s t ∨ (Instr.winCorrectOverflow.letThrough s = true ∧ Instr.winCorrectOverflow.operandsOk s = true ∧ Worked .winCorrectOverflow s t) := by
  rcases gated_turned (i := Instr.winCorrectOverflow) h rfl rfl (isIO_eq _) (by simp) with h | ⟨hl, h⟩
  · exact .inl h
  rcases require_next h with ⟨hc, ht⟩ | ⟨h0, h⟩
  · exact .inl (turned_operands hl (and_left_false (and_left_false hc)) ht)
  rcases require_next h with ⟨hc, ht⟩ | ⟨h1, h⟩
  · exact .inl (turned_operands hl (and_left_false (and_right_false hc)) ht)
  rcases require_next h with ⟨hc, ht⟩ | ⟨h2, h⟩
  · exact .inl (turned_operands hl (and_right_false hc) ht)
  exact .inr ⟨hl, and_both (and_both h0 h1) h2, (Host.Outcome.next.inj h).symm⟩

theorem execTabFill_next {s t : State} {m : Byte} (h : execTabFill m s = .next t) :
    TurnedAway (.tabFill m) s t ∨ ((Instr.tabFill m).letThrough s = true ∧ (Instr.tabFill m).operandsOk s = true ∧ Worked (.tabFill m) s t) := by
  rcases gated_turned (i := Instr.tabFill m) h rfl rfl (isIO_eq _) (by simp) with h | ⟨hl, h⟩
  · exact .inl h
  rcases require_next h with ⟨hc, ht⟩ | ⟨h0, h⟩
  · exact .inl (turned_operands hl (hc) ht)
  exact .inr ⟨hl, h0, (Host.Outcome.next.inj h).symm⟩

theorem execH1Insfind_next {s t : State} (h : execH1Insfind s = .next t) :
    TurnedAway .h1Insfind s t ∨ (Instr.h1Insfind.letThrough s = true ∧ Instr.h1Insfind.operandsOk s = true ∧ Worked .h1Insfind s t) := by
  rcases gated_turned (i := Instr.h1Insfind) h rfl rfl (isIO_eq _) (by simp) with h | ⟨hl, h⟩
  · exact .inl h
  rcases require_next h with ⟨hc, ht⟩ | ⟨h0, h⟩
  · exact .inl (turned_operands hl (and_left_false (and_left_false hc)) ht)
  rcases require_next h with ⟨hc, ht⟩ | ⟨h1, h⟩
  · exact .inl (turned_operands hl (and_left_false (and_right_false hc)) ht)
  rcases require_next h with ⟨hc, ht⟩ | ⟨h2, h⟩
  · exact .inl (turned_operands hl (and_right_false hc) ht)
  exact .inr ⟨hl, and_both (and_both h0 h1) h2, (Host.Outcome.next.inj h).symm⟩

theorem execDhInsfind_next {s t : State} (h : execDhInsfind s = .next t) :
    TurnedAway .dhInsfind s t ∨ (Instr.dhInsfind.letThrough s = true ∧ Instr.dhInsfind.operandsOk s = true ∧ Worked .dhInsfind s t) := by
  rcases gated_turned (i := Instr.dhInsfind) h rfl rfl (isIO_eq _) (by simp) with h | ⟨hl, h⟩
  · exact .inl h
  rcases require_next h with ⟨hc, ht⟩ | ⟨h0, h⟩
  · exact .inl (turned_operands hl (and_left_false (and_left_false hc)) ht)
  rcases require_next h with ⟨hc, ht⟩ | ⟨h1, h⟩
  · exact .inl (turned_operands hl (and_left_false (and_right_false hc)) ht)
  rcases require_next h with ⟨hc, ht⟩ | ⟨h2, h⟩
  · exact .inl (turned_operands hl (and_right_false hc) ht)
  exact .inr ⟨hl, and_both (and_both h0 h1) h2, (Host.Outcome.next.inj h).symm⟩

theorem execHcInsfind_next {s t : State} (h : execHcInsfind s = .next t) :
    TurnedAway .hcInsfind s t ∨ (Instr.hcInsfind.letThrough s = true ∧ Instr.hcInsfind.operandsOk s = true ∧ Worked .hcInsfind s t) := by
  rcases gated_turned (i := Instr.hcInsfind) h rfl rfl (isIO_eq _) (by simp) with h | ⟨hl, h⟩
  · exact .inl h
  rcases require_next h with ⟨hc, ht⟩ | ⟨h0, h⟩
  · exact .inl (turned_operands hl (and_left_false (and_left_false hc)) ht)
  rcases require_next h with ⟨hc, ht⟩ | ⟨h1, h⟩
  · exact .inl (turned_operands hl (and_left_false (and_right_false hc)) ht)
  rcases require_next h with ⟨hc, ht⟩ | ⟨h2, h⟩
  · exact .inl (turned_operands hl (and_right_false hc) ht)
  exact .inr ⟨hl, and_both (and_both h0 h1) h2, (Host.Outcome.next.inj h).symm⟩

theorem execHcSearch_next {s t : State} (h : execHcSearch s = .next t) :
    TurnedAway .hcSearch s t ∨ (Instr.hcSearch.letThrough s = true ∧ Instr.hcSearch.operandsOk s = true ∧ Worked .hcSearch s t) := by
  rcases gated_turned (i := Instr.hcSearch) h rfl rfl (isIO_eq _) (by simp) with h | ⟨hl, h⟩
  · exact .inl h
  rcases require_next h with ⟨hc, ht⟩ | ⟨h0, h⟩
  · exact .inl (turned_operands hl (and_left_false (and_left_false hc)) ht)
  rcases require_next h with ⟨hc, ht⟩ | ⟨h1, h⟩
  · exact .inl (turned_operands hl (and_left_false (and_right_false hc)) ht)
  rcases require_next h with ⟨hc, ht⟩ | ⟨h2, h⟩
  · exact .inl (turned_operands hl (and_right_false hc) ht)
  exact .inr ⟨hl, and_both (and_both h0 h1) h2, (Host.Outcome.next.inj h).symm⟩

theorem execBtUpdate_next {s t : State} (h : execBtUpdate s = .next t) :
    TurnedAway .btUpdate s t ∨ (Instr.btUpdate.letThrough s = true ∧ Instr.btUpdate.operandsOk s = true ∧ Worked .btUpdate s t) := by
  rcases gated_turned (i := Instr.btUpdate) h rfl rfl (isIO_eq _) (by simp) with h | ⟨hl, h⟩
  · exact .inl h
  rcases require_next h with ⟨hc, ht⟩ | ⟨h0, h⟩
  · exact .inl (turned_operands hl (and_left_false (and_left_false hc)) ht)
  rcases require_next h with ⟨hc, ht⟩ | ⟨h1, h⟩
  · exact .inl (turned_operands hl (and_left_false (and_right_false hc)) ht)
  rcases require_next h with ⟨hc, ht⟩ | ⟨h2, h⟩
  · exact .inl (turned_operands hl (and_right_false hc) ht)
  exact .inr ⟨hl, and_both (and_both h0 h1) h2, (Host.Outcome.next.inj h).symm⟩

theorem execBtSearch_next {s t : State} (h : execBtSearch s = .next t) :
    TurnedAway .btSearch s t ∨ (Instr.btSearch.letThrough s = true ∧ Instr.btSearch.operandsOk s = true ∧ Worked .btSearch s t) := by
  rcases gated_turned (i := Instr.btSearch) h rfl rfl (isIO_eq _) (by simp) with h | ⟨hl, h⟩
  · exact .inl h
  rcases require_next h with ⟨hc, ht⟩ | ⟨h0, h⟩
  · exact .inl (turned_operands hl (and_left_false (and_left_false hc)) ht)
  rcases require_next h with ⟨hc, ht⟩ | ⟨h1, h⟩
  · exact .inl (turned_operands hl (and_left_false (and_right_false hc)) ht)
  rcases require_next h with ⟨hc, ht⟩ | ⟨h2, h⟩
  · exact .inl (turned_operands hl (and_right_false hc) ht)
  exact .inr ⟨hl, and_both (and_both h0 h1) h2, (Host.Outcome.next.inj h).symm⟩

theorem execH3Insfind_next {s t : State} (h : execH3Insfind s = .next t) :
    TurnedAway .h3Insfind s t ∨ (Instr.h3Insfind.letThrough s = true ∧ Instr.h3Insfind.operandsOk s = true ∧ Worked .h3Insfind s t) := by
  rcases gated_turned (i := Instr.h3Insfind) h rfl rfl (isIO_eq _) (by simp) with h | ⟨hl, h⟩
  · exact .inl h
  rcases require_next h with ⟨hc, ht⟩ | ⟨h0, h⟩
  · exact .inl (turned_operands hl (and_left_false (and_left_false hc)) ht)
  rcases require_next h with ⟨hc, ht⟩ | ⟨h1, h⟩
  · exact .inl (turned_operands hl (and_left_false (and_right_false hc)) ht)
  rcases require_next h with ⟨hc, ht⟩ | ⟨h2, h⟩
  · exact .inl (turned_operands hl (and_right_false hc) ht)
  exact .inr ⟨hl, and_both (and_both h0 h1) h2, (Host.Outcome.next.inj h).symm⟩

theorem execBlkMatch_next {s t : State} (h : execBlkMatch s = .next t) :
    TurnedAway .blkMatch s t ∨ (Instr.blkMatch.letThrough s = true ∧ Instr.blkMatch.operandsOk s = true ∧ Worked .blkMatch s t) := by
  rcases gated_turned (i := Instr.blkMatch) h rfl rfl (isIO_eq _) (by simp) with h | ⟨hl, h⟩
  · exact .inl h
  rcases require_next h with ⟨hc, ht⟩ | ⟨h0, h⟩
  · exact .inl (turned_operands hl (hc) ht)
  exact .inr ⟨hl, h0, h⟩

theorem execLdmGenerate_next {s t : State} (h : execLdmGenerate s = .next t) :
    TurnedAway .ldmGenerate s t ∨ (Instr.ldmGenerate.letThrough s = true ∧ Instr.ldmGenerate.operandsOk s = true ∧ Worked .ldmGenerate s t) := by
  rcases gated_turned (i := Instr.ldmGenerate) h rfl rfl (isIO_eq _) (by simp) with h | ⟨hl, h⟩
  · exact .inl h
  rcases require_next h with ⟨hc, ht⟩ | ⟨h0, h⟩
  · exact .inl (turned_operands hl (and_left_false (and_left_false hc)) ht)
  rcases require_next h with ⟨hc, ht⟩ | ⟨h1, h⟩
  · exact .inl (turned_operands hl (and_left_false (and_right_false hc)) ht)
  rcases require_next h with ⟨hc, ht⟩ | ⟨h2, h⟩
  · exact .inl (turned_operands hl (and_right_false hc) ht)
  exact .inr ⟨hl, and_both (and_both h0 h1) h2, (Host.Outcome.next.inj h).symm⟩

theorem execSeqReset_next {s t : State} (h : execSeqReset s = .next t) :
    TurnedAway .seqReset s t ∨ (Instr.seqReset.letThrough s = true ∧ Instr.seqReset.operandsOk s = true ∧ Worked .seqReset s t) := by
  rcases gated_turned (i := Instr.seqReset) h rfl rfl (isIO_eq _) (by simp) with h | ⟨hl, h⟩
  · exact .inl h
  exact .inr ⟨hl, rfl, (Host.Outcome.next.inj h).symm⟩

theorem execSeqToCodes_next {s t : State} (h : execSeqToCodes s = .next t) :
    TurnedAway .seqToCodes s t ∨ (Instr.seqToCodes.letThrough s = true ∧ Instr.seqToCodes.operandsOk s = true ∧ Worked .seqToCodes s t) := by
  rcases gated_turned (i := Instr.seqToCodes) h rfl rfl (isIO_eq _) (by simp) with h | ⟨hl, h⟩
  · exact .inl h
  exact .inr ⟨hl, rfl, (Host.Outcome.next.inj h).symm⟩

theorem execSeqLastlit_next {s t : State} (h : execSeqLastlit s = .next t) :
    TurnedAway .seqLastlit s t ∨ (Instr.seqLastlit.letThrough s = true ∧ Instr.seqLastlit.operandsOk s = true ∧ Worked .seqLastlit s t) := by
  rcases gated_turned (i := Instr.seqLastlit) h rfl rfl (isIO_eq _) (by simp) with h | ⟨hl, h⟩
  · exact .inl h
  rcases require_next h with ⟨hc, ht⟩ | ⟨h0, h⟩
  · exact .inl (turned_operands hl (and_left_false hc) ht)
  rcases require_next h with ⟨hc, ht⟩ | ⟨h1, h⟩
  · exact .inl (turned_operands hl (and_right_false hc) ht)
  exact .inr ⟨hl, and_both h0 h1, (Host.Outcome.next.inj h).symm⟩

theorem execDictAttach_next {s t : State} (h : execDictAttach s = .next t) :
    TurnedAway .dictAttach s t ∨ (Instr.dictAttach.letThrough s = true ∧ Instr.dictAttach.operandsOk s = true ∧ Worked .dictAttach s t) := by
  rcases gated_turned (i := Instr.dictAttach) h rfl rfl (rfl) (by simp) with h | ⟨hl, h⟩
  · exact .inl h
  rcases require_next h with ⟨hc, ht⟩ | ⟨h0, h⟩
  · exact .inl (turned_operands hl (hc) ht)
  exact .inr ⟨hl, h0, (Host.Outcome.next.inj h).symm⟩

theorem execCtxInit_next {s t : State} (h : execCtxInit s = .next t) :
    TurnedAway .ctxInit s t ∨ (Instr.ctxInit.letThrough s = true ∧ Instr.ctxInit.operandsOk s = true ∧ Worked .ctxInit s t) := by
  unfold execCtxInit at h
  rcases gateFatal_next h with ⟨hf, ht⟩ | ⟨hf, h⟩
  · exact .inl (.inl ⟨hf, rfl, ht⟩)
  have hl : Instr.ctxInit.letThrough s = true := by unfold Instr.letThrough; rw [hf]; rfl
  rcases require_next h with ⟨hc, ht⟩ | ⟨h0, h⟩
  · exact .inl (turned_operands hl hc ht)
  refine .inr ⟨hl, h0, ?_⟩
  rcases require_next h with ⟨hc, ht⟩ | ⟨h1, h⟩
  · exact .inl ⟨by simpa using hc, ht⟩
  · exact .inr ⟨by simpa using h1, (Host.Outcome.next.inj h).symm⟩

theorem execParamsDerive_next {s t : State} (h : execParamsDerive s = .next t) :
    TurnedAway .paramsDerive s t ∨ (Instr.paramsDerive.letThrough s = true ∧ Instr.paramsDerive.operandsOk s = true ∧ Worked .paramsDerive s t) := by
  unfold execParamsDerive at h
  rcases gateFatal_next h with ⟨hf, ht⟩ | ⟨hf, h⟩
  · exact .inl (.inl ⟨hf, rfl, ht⟩)
  have hl : Instr.paramsDerive.letThrough s = true := by unfold Instr.letThrough; rw [hf]; rfl
  exact .inr ⟨hl, rfl, (Host.Outcome.next.inj h).symm⟩

theorem execDictLoad_next {s t : State} {m : Byte} (h : execDictLoad m s = .next t) :
    TurnedAway (.dictLoad m) s t ∨ ((Instr.dictLoad m).letThrough s = true ∧ (Instr.dictLoad m).operandsOk s = true ∧ Worked (.dictLoad m) s t) := by
  rcases gated_turned (i := Instr.dictLoad m) h rfl rfl (by cases s.stage <;> rfl) (by simp) with h | ⟨hl, h⟩
  · exact .inl h
  rcases require_next h with ⟨hc, ht⟩ | ⟨h0, h⟩
  · exact .inl (turned_operands hl hc ht)
  refine .inr ⟨hl, h0, ?_⟩
  rcases require_next h with ⟨hc, ht⟩ | ⟨h1, h⟩
  · exact .inl ⟨hc, ht⟩
  · exact .inr ⟨h1, (Host.Outcome.next.inj h).symm⟩

theorem execFrameContinue_next {s t : State} (h : execFrameContinue s = .next t) :
    TurnedAway .frameContinue s t ∨ (Instr.frameContinue.letThrough s = true ∧ Instr.frameContinue.operandsOk s = true ∧ Worked .frameContinue s t) := by
  unfold execFrameContinue frameChecked at h
  rcases gated_turned (i := Instr.frameContinue) h rfl rfl (isIO_eq _) (by simp) with h | ⟨hl, h⟩
  · exact .inl h
  rcases require_next h with ⟨hc, ht⟩ | ⟨h0, h⟩
  · exact .inl (turned_operands hl hc ht)
  refine .inr ⟨hl, h0, ?_⟩
  rcases require_next h with ⟨hc, ht⟩ | ⟨h1, h⟩
  · exact .inl ⟨hc, ht⟩
  refine .inr ⟨h1, ?_⟩
  obtain ⟨_, h⟩ := requireDisjoint_next h
  rcases frameWork_cases s false (fun s1 w => .ok (s1.frameResult w s.op1.toNat)) with
    ⟨hi, hlt, he⟩ | ⟨u, w, hu, hst, hm, hw, he | he⟩
  · rw [he] at h
    exact .inl (.inl ⟨hi, hlt, (Host.Outcome.next.inj h).symm⟩)
  · rw [he] at h
    exact .inr ⟨u, w, hu, hst, hm, hw, (Host.Outcome.next.inj h).symm⟩
  · rw [he] at h
    exact .inl (.inr ⟨u, w, hu, hst, hm, hw, (Host.Outcome.next.inj h).symm⟩)

theorem execFrameEnd_next {s t : State} (h : execFrameEnd s = .next t) :
    TurnedAway .frameEnd s t ∨ (Instr.frameEnd.letThrough s = true ∧ Instr.frameEnd.operandsOk s = true ∧ Worked .frameEnd s t) := by
  unfold execFrameEnd frameChecked at h
  rcases gated_turned (i := Instr.frameEnd) h rfl rfl (isIO_eq _) (by simp) with h | ⟨hl, h⟩
  · exact .inl h
  rcases require_next h with ⟨hc, ht⟩ | ⟨h0, h⟩
  · exact .inl (turned_operands hl hc ht)
  refine .inr ⟨hl, h0, ?_⟩
  rcases require_next h with ⟨hc, ht⟩ | ⟨h1, h⟩
  · exact .inl ⟨hc, ht⟩
  refine .inr ⟨h1, ?_⟩
  obtain ⟨_, h⟩ := requireDisjoint_next h
  rcases frameWork_cases s true (fun s1 w => frameEpilogue s1 s.op1.toNat s.op2.toNat s.op3.toNat w) with
    ⟨hi, hlt, he⟩ | ⟨u, w, hu, hst, hm, hw, he | he⟩
  · rw [he] at h
    exact .inl (.inl ⟨hi, hlt, (Host.Outcome.next.inj h).symm⟩)
  · rw [he] at h
    obtain ⟨m, w', hm', hw', he | he⟩ := frameEpilogue_cases u s.op1.toNat s.op2.toNat s.op3.toNat w hw
    · rw [he] at h
      exact .inr ⟨{ u with mem := m }, w', FlowFrame.trans hu rfl, hm.trans hm', hw', (Host.Outcome.next.inj h).symm⟩
    · rw [he] at h
      exact .inl (.inr ⟨{ u with mem := m }, w', FlowFrame.trans hu rfl, hst, hm.trans hm', hw',
        (Host.Outcome.next.inj h).symm⟩)
  · rw [he] at h
    exact .inl (.inr ⟨u, w, hu, hst, hm, hw, (Host.Outcome.next.inj h).symm⟩)

theorem execBlockCompress_next {s t : State} {m : Byte} (h : execBlockCompress m s = .next t) :
    TurnedAway (.blockCompress m) s t ∨ ((Instr.blockCompress m).letThrough s = true ∧ (Instr.blockCompress m).operandsOk s = true ∧ Worked (.blockCompress m) s t) := by
  rcases gated_turned (i := Instr.blockCompress m) h rfl rfl (by cases s.stage <;> rfl) (by simp) with h | ⟨hl, h⟩
  · exact .inl h
  rcases require_next h with ⟨hc, ht⟩ | ⟨h0, h⟩
  · exact .inl (turned_operands hl hc ht)
  refine .inr ⟨hl, h0, ?_⟩
  obtain ⟨_, h⟩ := requireDisjoint_next h
  rcases hb : blockStep s s.op0.toNat s.op1.toNat (modBit0 m) s.op2.toNat s.op3.toNat with ⟨u, _ | k⟩
  · obtain ⟨v, hv, hm, _, _, rfl, hlt⟩ := blockStep_none hb
    simp only [hb] at h
    exact .inl ⟨v, hv, hm, hlt, (Host.Outcome.next.inj h).symm⟩
  · obtain ⟨hu, _, _, hk, _, _, bytes, hlen, hm⟩ := blockStep_some hb
    simp only [hb] at h
    exact .inr ⟨u, k.1, k.2, hu, hk, ⟨Nat.zero_le _, bytes, by omega, by rw [hm, Nat.add_zero]⟩,
      (Host.Outcome.next.inj h).symm⟩

theorem execDmsBuild_next {s t : State} (h : execDmsBuild s = .next t) :
    TurnedAway .dmsBuild s t ∨ (Instr.dmsBuild.letThrough s = true ∧ Instr.dmsBuild.operandsOk s = true ∧ Worked .dmsBuild s t) := by
  unfold execDmsBuild at h
  rcases gateFatal_next h with ⟨hf, ht⟩ | ⟨hf, h⟩
  · exact .inl (.inl ⟨hf, rfl, ht⟩)
  rcases gateStage_next h with ⟨ha, ht⟩ | ⟨ha, h⟩
  · refine .inl (.inr (.inl ⟨?_, ht⟩))
    unfold Instr.letThrough
    rw [ha]; exact and_right_false rfl
  have hl : Instr.dmsBuild.letThrough s = true := by unfold Instr.letThrough; rw [hf, ha]; rfl
  rcases require_next h with ⟨hc, ht⟩ | ⟨h0, h⟩
  · exact .inl (turned_operands hl (and_left_false (and_left_false hc)) ht)
  rcases require_next h with ⟨hc, ht⟩ | ⟨h1, h⟩
  · exact .inl (turned_operands hl (by
      show (_ && _ && _) = false
      rw [Bool.and_assoc]; exact and_right_false hc) ht)
  refine .inr ⟨hl, by show (_ && _ && _) = true; rw [Bool.and_assoc]; exact and_both h0 h1, ?_⟩
  rcases require_next h with ⟨hc, ht⟩ | ⟨h2, h⟩
  · exact .inl ⟨by simpa using hc, ht⟩
  have h2 : s.cfg.baseEntries ≤ s.impl.tabCap := by simpa using h2
  rcases require_next h with ⟨hc, ht⟩ | ⟨h3, h⟩
  · exact .inr (.inl ⟨h2, hc, ht⟩)
  · exact .inr (.inr ⟨h2, h3, (Host.Outcome.next.inj h).symm⟩)

theorem execLdmBlkMatch_next {s t : State} (h : execLdmBlkMatch s = .next t) :
    TurnedAway .ldmBlkMatch s t ∨ (Instr.ldmBlkMatch.letThrough s = true ∧ Instr.ldmBlkMatch.operandsOk s = true ∧ Worked .ldmBlkMatch s t) := by
  rcases gated_turned (i := Instr.ldmBlkMatch) h rfl rfl (isIO_eq _) (by simp) with h | ⟨hl, h⟩
  · exact .inl h
  rcases require_next h with ⟨hc, ht⟩ | ⟨h0, h⟩
  · exact .inl (turned_operands hl (and_left_false hc) ht)
  rcases require_next h with ⟨hc, ht⟩ | ⟨h1, h⟩
  · exact .inl (turned_operands hl (and_right_false hc) ht)
  refine .inr ⟨hl, and_both h0 h1, ?_⟩
  cases hq : s.queueHere s.op0
  · simp [hq] at h
  simp only [hq, Bool.not_true, Bool.false_eq_true, if_false] at h
  cases hb : s.queueReachesBelow s.op0
  · simp only [hb, Bool.false_eq_true, if_false] at h
    exact ⟨hq, hb, h⟩
  · simp [hb] at h

theorem execSeqStore_next {s t : State} (h : execSeqStore s = .next t) :
    TurnedAway .seqStore s t ∨ (Instr.seqStore.letThrough s = true ∧ Instr.seqStore.operandsOk s = true ∧ Worked .seqStore s t) := by
  rcases gated_turned (i := Instr.seqStore) h rfl rfl (isIO_eq _) (by simp) with h | ⟨hl, h⟩
  · exact .inl h
  rcases require_next h with ⟨hc, ht⟩ | ⟨h0, h⟩
  · exact .inl (turned_operands hl (and_left_false (and_left_false (and_left_false hc))) ht)
  rcases require_next h with ⟨hc, ht⟩ | ⟨h1, h⟩
  · exact .inl (turned_operands hl (and_left_false (and_left_false (and_right_false hc))) ht)
  rcases require_next h with ⟨hc, ht⟩ | ⟨h2, h⟩
  · exact .inl (turned_operands hl (and_left_false (and_right_false hc)) ht)
  rcases require_next h with ⟨hc, ht⟩ | ⟨h3, h⟩
  · exact .inl (turned_operands hl (and_right_false hc) ht)
  refine .inr ⟨hl, and_both (and_both (and_both h0 h1) h2) h3, ?_⟩
  dsimp only at h
  split at h
  · exact .inl ⟨‹_›, (Host.Outcome.next.inj h).symm⟩
  · exact .inr ⟨by simpa using ‹¬ _ = true›, (Host.Outcome.next.inj h).symm⟩

theorem execLitCompress_next {s t : State} (h : execLitCompress s = .next t) :
    TurnedAway .litCompress s t ∨ (Instr.litCompress.letThrough s = true ∧ Instr.litCompress.operandsOk s = true ∧ Worked .litCompress s t) := by
  rcases gated_turned (i := Instr.litCompress) h rfl rfl (isIO_eq _) (by simp) with h | ⟨hl, h⟩
  · exact .inl h
  rcases require_next h with ⟨hc, ht⟩ | ⟨h0, h⟩
  · exact .inl (turned_operands hl (hc) ht)
  refine .inr ⟨hl, h0, ?_⟩
  obtain ⟨_, h⟩ := requireDisjoint_next h
  rcases require_next h with ⟨hc, ht⟩ | ⟨h1, h⟩
  · exact .inl ⟨by simpa using hc, ht⟩
  · exact .inr ⟨by simpa using h1, (Host.Outcome.next.inj h).symm⟩

theorem execSeqEncode_next {s t : State} (h : execSeqEncode s = .next t) :
    TurnedAway .seqEncode s t ∨ (Instr.seqEncode.letThrough s = true ∧ Instr.seqEncode.operandsOk s = true ∧ Worked .seqEncode s t) := by
  rcases gated_turned (i := Instr.seqEncode) h rfl rfl (isIO_eq _) (by simp) with h | ⟨hl, h⟩
  · exact .inl h
  rcases require_next h with ⟨hc, ht⟩ | ⟨h0, h⟩
  · exact .inl (turned_operands hl (hc) ht)
  refine .inr ⟨hl, h0, ?_⟩
  obtain ⟨_, h⟩ := requireDisjoint_next h
  dsimp only at h
  split at h
  · exact .inl ⟨‹_›, (Host.Outcome.next.inj h).symm⟩
  · next o ho =>
    rcases require_next h with ⟨hc, ht⟩ | ⟨h1, h⟩
    · exact .inr (.inl ⟨o, ho, by simpa using hc, ht⟩)
    · exact .inr (.inr ⟨o, ho, by simpa using h1, (Host.Outcome.next.inj h).symm⟩)

theorem execDbgRead_next {s t : State} (h : execDbgRead s = .next t) :
    TurnedAway .dbgRead s t ∨ (Instr.dbgRead.letThrough s = true ∧ Instr.dbgRead.operandsOk s = true ∧ Worked .dbgRead s t) := by
  unfold execDbgRead at h
  rcases gateUnspec_next h with ⟨hu, ht⟩ | ⟨hu, h⟩
  · refine .inl (.inr (.inl ⟨?_, ht⟩))
    unfold Instr.letThrough
    rw [hu]; rfl
  have hl : Instr.dbgRead.letThrough s = true := by unfold Instr.letThrough; rw [hu]; rfl
  split at h
  · next hn =>
    exact .inl (turned_operands hl (by show Option.isSome _ = false; rw [hn]; rfl) (Host.Outcome.next.inj h).symm)
  · next v hv =>
    exact .inr ⟨hl, by show Option.isSome _ = true; rw [hv]; rfl, v, hv, (Host.Outcome.next.inj h).symm⟩

/-- THE INVERSION OF exec: whatever a command answers, it was turned away by the checks, or it passed them and left one of the
states its rule names. -/
theorem exec_next {i : Instr} {s t : State} (h : exec i s = .next t) :
    TurnedAway i s t ∨ (i.letThrough s = true ∧ i.operandsOk s = true ∧ Worked i s t) := by
  cases i with
  | ctxInit => exact execCtxInit_next h
  | paramsDerive => exact execParamsDerive_next h
  | dictLoad m => exact execDictLoad_next h
  | dictAttach => exact execDictAttach_next h
  | frameContinue => exact execFrameContinue_next h
  | frameEnd => exact execFrameEnd_next h
  | blockCompress m => exact execBlockCompress_next h
  | dmsBuild => exact execDmsBuild_next h
  | winAppend => exact execWinAppend_next h
  | winEnforceMaxdist => exact execWinEnforceMaxdist_next h
  | winNeedsCorrection => exact execWinNeedsCorrection_next h
  | winCorrectOverflow => exact execWinCorrectOverflow_next h
  | tabFill m => exact execTabFill_next h
  | h1Insfind => exact execH1Insfind_next h
  | dhInsfind => exact execDhInsfind_next h
  | hcInsfind => exact execHcInsfind_next h
  | hcSearch => exact execHcSearch_next h
  | btUpdate => exact execBtUpdate_next h
  | btSearch => exact execBtSearch_next h
  | h3Insfind => exact execH3Insfind_next h
  | blkMatch => exact execBlkMatch_next h
  | ldmGenerate => exact execLdmGenerate_next h
  | ldmBlkMatch => exact execLdmBlkMatch_next h
  | seqReset => exact execSeqReset_next h
  | seqStore => exact execSeqStore_next h
  | seqLastlit => exact execSeqLastlit_next h
  | seqToCodes => exact execSeqToCodes_next h
  | litCompress => exact execLitCompress_next h
  | seqEncode => exact execSeqEncode_next h
  | dbgRead => exact execDbgRead_next h

end Sys2Proof.Machine
end

