-- ==== Sys2Proof/Laws/Launch.lean ====
section
/-! SUPPORT. What the host's store and a launch can do (20_memory.md R48, 70_reset_and_hazards.md R356 duty 2; log 13), and the
small lemmas of the LDM queue's walk. -/

namespace Sys2Proof.Machine

open Sys2Proof

/-! ### hostStore -/

@[simp] theorem State.hostStore_mem (s : State) (a : Nat) (v : Byte) : (s.hostStore a v).mem = s.mem.write a v := rfl
@[simp] theorem State.hostStore_changed (s : State) (a : Nat) (v : Byte) : (s.hostStore a v).changed = s.changedBy a v := rfl
@[simp] theorem State.hostStore_impl (s : State) (a : Nat) (v : Byte) : (s.hostStore a v).impl = s.impl := rfl
@[simp] theorem State.hostStore_host (s : State) (a : Nat) (v : Byte) : (s.hostStore a v).host = s.host := rfl
@[simp] theorem State.hostStore_lastRead (s : State) (a : Nat) (v : Byte) : (s.hostStore a v).lastRead = s.lastRead := rfl
@[simp] theorem State.hostStore_freeCtr (s : State) (a : Nat) (v : Byte) : (s.hostStore a v).freeCtr = s.freeCtr := rfl
@[simp] theorem State.hostStore_cmd (s : State) (a : Nat) (v : Byte) : (s.hostStore a v).cmd = s.cmd := rfl
@[simp] theorem State.hostStore_status (s : State) (a : Nat) (v : Byte) : (s.hostStore a v).status = s.status := rfl
@[simp] theorem State.hostStore_op0 (s : State) (a : Nat) (v : Byte) : (s.hostStore a v).op0 = s.op0 := rfl
@[simp] theorem State.hostStore_op1 (s : State) (a : Nat) (v : Byte) : (s.hostStore a v).op1 = s.op1 := rfl
@[simp] theorem State.hostStore_op2 (s : State) (a : Nat) (v : Byte) : (s.hostStore a v).op2 = s.op2 := rfl
@[simp] theorem State.hostStore_op3 (s : State) (a : Nat) (v : Byte) : (s.hostStore a v).op3 = s.op3 := rfl
@[simp] theorem State.hostStore_res0 (s : State) (a : Nat) (v : Byte) : (s.hostStore a v).res0 = s.res0 := rfl
@[simp] theorem State.hostStore_res1 (s : State) (a : Nat) (v : Byte) : (s.hostStore a v).res1 = s.res1 := rfl
@[simp] theorem State.hostStore_stage (s : State) (a : Nat) (v : Byte) : (s.hostStore a v).stage = s.stage := rfl
@[simp] theorem State.hostStore_cfg (s : State) (a : Nat) (v : Byte) : (s.hostStore a v).cfg = s.cfg := rfl
@[simp] theorem State.hostStore_p (s : State) (a : Nat) (v : Byte) : (s.hostStore a v).p = s.p := rfl
@[simp] theorem State.hostStore_w (s : State) (a : Nat) (v : Byte) : (s.hostStore a v).w = s.w := rfl
@[simp] theorem State.hostStore_ms (s : State) (a : Nat) (v : Byte) : (s.hostStore a v).ms = s.ms := rfl
@[simp] theorem State.hostStore_optTables (s : State) (a : Nat) (v : Byte) : (s.hostStore a v).optTables = s.optTables := rfl
@[simp] theorem State.hostStore_dms (s : State) (a : Nat) (v : Byte) : (s.hostStore a v).dms = s.dms := rfl
@[simp] theorem State.hostStore_seq (s : State) (a : Nat) (v : Byte) : (s.hostStore a v).seq = s.seq := rfl
@[simp] theorem State.hostStore_bs0 (s : State) (a : Nat) (v : Byte) : (s.hostStore a v).bs0 = s.bs0 := rfl
@[simp] theorem State.hostStore_bs1 (s : State) (a : Nat) (v : Byte) : (s.hostStore a v).bs1 = s.bs1 := rfl
@[simp] theorem State.hostStore_prevSel (s : State) (a : Nat) (v : Byte) : (s.hostStore a v).prevSel = s.prevSel := rfl
@[simp] theorem State.hostStore_dictID (s : State) (a : Nat) (v : Byte) : (s.hostStore a v).dictID = s.dictID := rfl
@[simp] theorem State.hostStore_consumed (s : State) (a : Nat) (v : Byte) : (s.hostStore a v).consumed = s.consumed := rfl
@[simp] theorem State.hostStore_isFirstBlock (s : State) (a : Nat) (v : Byte) : (s.hostStore a v).isFirstBlock = s.isFirstBlock := rfl
@[simp] theorem State.hostStore_chk (s : State) (a : Nat) (v : Byte) : (s.hostStore a v).chk = s.chk := rfl
@[simp] theorem State.hostStore_ldm (s : State) (a : Nat) (v : Byte) : (s.hostStore a v).ldm = s.ldm := rfl

/-- Storing the byte that is there changes no history. -/
theorem State.changedBy_same {s : State} {a : Nat} {v : Byte} (h : s.mem.read a = v) : s.changedBy a v = s.changed := by
  simp [State.changedBy, h]

/-- A byte beyond the engine's addresses changes no history. -/
theorem State.changedBy_beyond {s : State} {a : Nat} (h : 2 ^ s.impl.addrW ≤ a) (v : Byte) : s.changedBy a v = s.changed := by
  simp [State.changedBy, h]

/-- An address that is no live history leaves the record. -/
theorem State.changedBy_dead {s : State} {a : Nat} {v : Byte} (hw : s.liveTop a = 0) (hb : s.liveBank a = false) :
    s.changedBy a v = s.changed := by
  unfold State.changedBy
  split
  · rfl
  · simp [hw, hb]

/-- With the window not live no index is. -/
theorem State.liveTop_dead {s : State} (h : s.windowLive = false) (a : Nat) : s.liveTop a = 0 := by
  simp [State.liveTop, h]

/-! ### The launch -/

/-- With no live byte changed every history is whole. -/
theorem State.historyBroken_none {s : State} (h : s.changed = .none) (i : Instr) : s.historyBroken i = false := by
  simp [State.historyBroken, h, Changed.none]

/-- Nothing changed stays nothing changed. -/
@[simp] theorem Changed.after_none {i : Instr} {s t : State} (h : s.changed = .none) : Changed.after i s t = .none := by
  unfold Changed.after
  split
  · simp [h, Changed.none]
  · exact h

/-- A launch that answers a next state adds the record to it, and the history was whole or the command did not work. -/
theorem State.launch_next {i : Instr} {s u : State} {o : Host.Outcome State Fault Refusal} (h : s.launch i o = .next u) :
    ∃ t, o = .next t ∧ u = { t with changed := .after i s t } ∧ (s.historyBroken i = false ∨ worked s t = false) := by
  cases o with
  | next t =>
    simp only [State.launch] at h
    split at h
    · simp at h
    · rename_i hc
      refine ⟨t, rfl, by simpa using h.symm, ?_⟩
      cases hb : s.historyBroken i
      · exact .inl rfl
      · exact .inr (by simpa [hb] using hc)
  | fault f => simp [State.launch] at h
  | refused r => simp [State.launch] at h

/-- A launch refuses what its command refuses, and a command that works on a changed history. -/
theorem State.launch_refused {i : Instr} {s : State} {o : Host.Outcome State Fault Refusal} {r : Refusal}
    (h : s.launch i o = .refused r) :
    o = .refused r ∨ (r = .historyChanged ∧ s.historyBroken i = true ∧ ∃ t, o = .next t ∧ worked s t = true) := by
  cases o with
  | next t =>
    simp only [State.launch] at h
    split at h
    · rename_i hc
      rw [Bool.and_eq_true] at hc
      exact .inr ⟨by simpa using h.symm, hc.1, t, rfl, hc.2⟩
    · simp at h
  | fault f => simp [State.launch] at h
  | refused r' => exact .inl (by simpa [State.launch] using h)

/-- A launch whose history is whole only adds the record. -/
theorem State.launch_whole {i : Instr} {s t : State} (h : s.historyBroken i = false) :
    s.launch i (.next t) = .next { t with changed := .after i s t } := by
  simp [State.launch, h]

/-- While the host has changed nothing a launch is its command, which must keep the record. -/
theorem State.launch_none {i : Instr} {s t : State} (h : s.changed = .none) (ht : t.changed = s.changed) :
    s.launch i (.next t) = .next t := by
  rw [State.launch_whole (State.historyBroken_none h i), Changed.after_none h, ← h, ← ht]

/-! ### The walk over the queue -/

@[simp] theorem QueueCut.after_rest (q : RawSeq) (c : QueueCut) : (c.after q).rest = c.rest := rfl
@[simp] theorem QueueCut.after_passed (q : RawSeq) (c : QueueCut) : (c.after q).passed = q :: c.passed := rfl
@[simp] theorem QueueCut.step_rest (c d : QueueCut) : (c.step d).rest = d.rest := rfl
@[simp] theorem QueueCut.step_passed (c d : QueueCut) : (c.step d).passed = c.passed ++ d.passed := rfl
@[simp] theorem LdmState.consume_pos (l : LdmState) (c : QueueCut) (n : Nat) :
    (l.consume c n).pos = l.pos + c.passed.length := rfl
@[simp] theorem LdmState.consume_queueSrc (l : LdmState) (c : QueueCut) (n : Nat) :
    (l.consume c n).queueSrc = l.queueSrc.map (· + BitVec.ofNat 64 n) := rfl
@[simp] theorem LdmState.consume_w (l : LdmState) (c : QueueCut) (n : Nat) : (l.consume c n).w = l.w := rfl
@[simp] theorem LdmState.consume_table (l : LdmState) (c : QueueCut) (n : Nat) : (l.consume c n).table = l.table := rfl

/-- What is left unconsumed is the walk's rest, when the read position is within the queue. -/
theorem LdmState.pending_consume {l : LdmState} (h : l.pos ≤ l.seq.length) (c : QueueCut) (n : Nat) :
    (l.consume c n).pending = c.rest := by
  have : (l.seq.take l.pos ++ c.passed).length = l.pos + c.passed.length := by simp [h]
  change ((l.seq.take l.pos ++ c.passed) ++ c.rest).drop (l.pos + c.passed.length) = c.rest
  rw [← this, List.drop_left]

/-- A walk over the whole queue passes or keeps every entry. -/
theorem ldmSkip_length (minMatch ctr : Nat) :
    ∀ (n : Nat) (q : List RawSeq),
      (ldmSkip minMatch ctr n q).passed.length + (ldmSkip minMatch ctr n q).rest.length = q.length
  | n, [] => by unfold ldmSkip; simp
  | n, q :: qs => by
    have ih := ldmSkip_length minMatch ctr (n - q.litLength.toNat - q.matchLength.toNat) qs
    unfold ldmSkip
    dsimp only
    split
    · simp
    · split
      · simp
      · split
        · split
          · cases qs <;> (simp [addLeftover]; try omega)
          · simp
        · simp; omega

/-- `queueBelow` names a queued sequence: its offset reaches below `low` at the place the entries before it lead to. -/
theorem queueBelow_iff (low : Nat) :
    ∀ (i : Nat) (q : List RawSeq), queueBelow low i q = true ↔
      ∃ k e, q[k]? = some e ∧ i + rawLength (q.take k) + e.litLength.toNat < e.offset.toNat + low
  | i, [] => by simp [queueBelow]
  | i, x :: qs => by
    rw [queueBelow, Bool.or_eq_true, decide_eq_true_eq, queueBelow_iff low _ qs]
    constructor
    · rintro (h | ⟨k, e, hk, h⟩)
      · exact ⟨0, x, by simp, by simpa [rawLength] using h⟩
      · exact ⟨k + 1, e, by simpa using hk, by simp [rawLength] at h ⊢; omega⟩
    · rintro ⟨k, e, hk, h⟩
      cases k with
      | zero =>
        left
        obtain rfl : x = e := by simpa using hk
        simpa [rawLength] using h
      | succ k => exact .inr ⟨k, e, by simpa using hk, by simp [rawLength] at h ⊢; omega⟩

end Sys2Proof.Machine
end

