-- ==== Sys2Proof/Laws/PerInstr.lean ====
section
/-! SUPPORT. Facts about every command as syntax, one lemma per constructor: where the encoder puts a command's fields
(30_encoding.md R60, R62). -/

namespace Sys2Proof.Laws.EncodedFields

/-- The word of a command carries its opcode in bits 7:0, its `mod` byte in bits 15:8, zero above; and the opcode's row of the
map gives the command back. -/
def Statement (i : Instr) : Prop :=
  wordOpcode (encode i) = i.opcode ∧ wordMod (encode i) = i.modByte ∧ wordReserved (encode i) = 0 ∧
    opcodeRow i.opcode i.modByte = some i

/-- A concatenation of the three fields gives each of them back. -/
theorem fields_of_concat (m o : Byte) :
    wordOpcode ((0 : BitVec 16) ++ m ++ o) = o ∧ wordMod ((0 : BitVec 16) ++ m ++ o) = m ∧
      wordReserved ((0 : BitVec 16) ++ m ++ o) = 0 := by
  have bit : ∀ k, BitVec.getLsbD (w := 32) ((0 : BitVec 16) ++ m ++ o) k =
      if k < 8 then o.getLsbD k else m.getLsbD (k - 8) := by
    intro k
    refine (BitVec.getLsbD_append (x := (0 : BitVec 16) ++ m) (y := o)).trans ?_
    rw [BitVec.getLsbD_append]
    split <;> [rfl; (split <;> simp_all)]
  refine ⟨?_, ?_, ?_⟩ <;> (apply BitVec.eq_of_getLsbD_eq; intro k hk)
  · simp only [wordOpcode, BitVec.getLsbD_extractLsb', bit]
    simp [hk]
  · simp only [wordMod, BitVec.getLsbD_extractLsb', bit]
    simp [hk]
  · simp only [wordReserved, BitVec.getLsbD_extractLsb', bit]
    simp [show ¬ 16 + k < 8 by omega, show 8 ≤ 16 + k - 8 by omega, BitVec.getLsbD_of_ge]

/-- The statement of a command from its row of the map. -/
theorem of_row {i : Instr} (h : opcodeRow i.opcode i.modByte = some i) : Statement i :=
  have f := fields_of_concat i.modByte i.opcode
  ⟨f.1, f.2.1, f.2.2, h⟩

theorem ctxInit : Statement .ctxInit := of_row rfl
theorem paramsDerive : Statement .paramsDerive := of_row rfl
theorem dictLoad (m : Byte) : Statement (.dictLoad m) := of_row rfl
theorem dictAttach : Statement .dictAttach := of_row rfl
theorem frameContinue : Statement .frameContinue := of_row rfl
theorem frameEnd : Statement .frameEnd := of_row rfl
theorem blockCompress (m : Byte) : Statement (.blockCompress m) := of_row rfl
theorem dmsBuild : Statement .dmsBuild := of_row rfl
theorem winAppend : Statement .winAppend := of_row rfl
theorem winEnforceMaxdist : Statement .winEnforceMaxdist := of_row rfl
theorem winNeedsCorrection : Statement .winNeedsCorrection := of_row rfl
theorem winCorrectOverflow : Statement .winCorrectOverflow := of_row rfl
theorem tabFill (m : Byte) : Statement (.tabFill m) := of_row rfl
theorem h1Insfind : Statement .h1Insfind := of_row rfl
theorem dhInsfind : Statement .dhInsfind := of_row rfl
theorem hcInsfind : Statement .hcInsfind := of_row rfl
theorem hcSearch : Statement .hcSearch := of_row rfl
theorem btUpdate : Statement .btUpdate := of_row rfl
theorem btSearch : Statement .btSearch := of_row rfl
theorem h3Insfind : Statement .h3Insfind := of_row rfl
theorem blkMatch : Statement .blkMatch := of_row rfl
theorem ldmGenerate : Statement .ldmGenerate := of_row rfl
theorem ldmBlkMatch : Statement .ldmBlkMatch := of_row rfl
theorem seqReset : Statement .seqReset := of_row rfl
theorem seqStore : Statement .seqStore := of_row rfl
theorem seqLastlit : Statement .seqLastlit := of_row rfl
theorem seqToCodes : Statement .seqToCodes := of_row rfl
theorem litCompress : Statement .litCompress := of_row rfl
theorem seqEncode : Statement .seqEncode := of_row rfl
theorem dbgRead : Statement .dbgRead := of_row rfl

end Sys2Proof.Laws.EncodedFields
end

