-- ==== Sys2Proof/Laws/Shape.lean ====
section
/-! SUPPORT. What the matchers and the table operations never change: the sizes of the tables, their canonical form, and the
two dictionary fields of the Match State (10_state.md R21). One lemma per operation, up to a whole block. -/

namespace Sys2Proof.Machine

open Sys2Proof

/-- `u` is `t` with other entries: the same size, and canonical when `t` is. -/
def TableKept (t u : Table) : Prop := u.size = t.size ∧ (t.wf = true → u.wf = true)

theorem TableKept.refl (t : Table) : TableKept t t := ⟨rfl, id⟩
theorem TableKept.trans {t u v : Table} (h : TableKept t u) (k : TableKept u v) : TableKept t v :=
  ⟨k.1.trans h.1, fun w => k.2 (h.2 w)⟩
theorem TableKept.set (t : Table) (i v : Nat) : TableKept t (t.set i v) := ⟨Table.set_size t i v, fun w => Table.set_wf w i v⟩

/-- The three tables are kept, and so are the dictionary fields. -/
structure TablesKept (m n : MatchState) : Prop where
  hash : TableKept m.hashTable n.hashTable
  chain : TableKept m.chainTable n.chainTable
  hash3 : TableKept m.hashTable3 n.hashTable3
  dictEnd : n.loadedDictEnd = m.loadedDictEnd
  attached : n.dmsAttached = m.dmsAttached

theorem TablesKept.refl (m : MatchState) : TablesKept m m := ⟨.refl _, .refl _, .refl _, rfl, rfl⟩
theorem TablesKept.trans {m n o : MatchState} (h : TablesKept m n) (k : TablesKept n o) : TablesKept m o :=
  ⟨h.hash.trans k.hash, h.chain.trans k.chain, h.hash3.trans k.hash3, k.dictEnd.trans h.dictEnd, k.attached.trans h.attached⟩

/-- A kept Match State still has its sizes. -/
theorem TablesKept.sized {m n : MatchState} (h : TablesKept m n) (p : Latched) : n.sized p = m.sized p := by
  simp only [MatchState.sized, h.hash.1, h.chain.1, h.hash3.1]

/-! ## A correction -/

theorem sparseMap_all {m : List (Nat × Word)} {f : Word → Word} {n : Nat}
    (h : m.all (fun c => decide (c.1 < n)) = true) : (sparseMap 0 f m).all (fun c => decide (c.1 < n)) = true := by
  induction m with
  | nil => rfl
  | cons c rest ih =>
    obtain ⟨k, v⟩ := c
    simp only [List.all_cons, Bool.and_eq_true] at h
    simp only [sparseMap, sparseCons]
    split
    · exact ih h.2
    · simp only [List.all_cons, Bool.and_eq_true]; exact ⟨h.1, ih h.2⟩

theorem Table.reduce_kept (t : Table) (f : Word → Word) : TableKept t (t.reduce f) := by
  refine ⟨rfl, fun h => ?_⟩
  rw [Table.wf_iff] at h ⊢
  exact ⟨sparseMap_wf f h.1, sparseMap_all h.2⟩

/-- What a slot holds after a correction. -/
theorem Table.get_reduce {t : Table} {f : Word → Word} (hf : f 0 = 0) (h : t.wf = true) (i : Nat) :
    (t.reduce f).get i = (f (BitVec.ofNat 32 (t.get i))).toNat := by
  have hw := (Table.wf_iff.mp h).1
  unfold Table.get Table.reduce
  by_cases hi : i < t.size
  · simp only [hi, if_true]
    rw [sparseGet_sparseMap hf hw]
    simp
  · simp only [hi, if_false]
    exact (congrArg BitVec.toNat hf).symm

@[simp] theorem reduceEntry_zero (corr : Nat) : reduceEntry corr 0 = 0 := by
  unfold reduceEntry; split <;> simp_all
@[simp] theorem reduceTreeEntry_zero (corr : Nat) : reduceTreeEntry corr 0 = 0 := by
  unfold reduceTreeEntry
  rw [if_neg (by decide)]
  exact reduceEntry_zero corr

theorem MatchState.reduce_kept (m : MatchState) (layout : Layout) (corr : Nat) : TablesKept m (m.reduce layout corr) :=
  ⟨Table.reduce_kept _ _, Table.reduce_kept _ _, Table.reduce_kept _ _, rfl, rfl⟩

/-! ## Single writes and cursors -/

theorem MatchState.setHash_kept (m : MatchState) (i v : Nat) : TablesKept m (m.setHash i v) :=
  ⟨.set _ _ _, .refl _, .refl _, rfl, rfl⟩
theorem MatchState.setChain_kept (m : MatchState) (i v : Nat) : TablesKept m (m.setChain i v) :=
  ⟨.refl _, .set _ _ _, .refl _, rfl, rfl⟩
theorem MatchState.setNext_kept (m : MatchState) (a b : Word) :
    TablesKept m { m with nextToUpdate := a, nextToUpdate3 := b } := ⟨.refl _, .refl _, .refl _, rfl, rfl⟩
theorem MatchState.raiseNext_kept (m : MatchState) (low : Nat) : TablesKept m (m.raiseNext low) :=
  ⟨.refl _, .refl _, .refl _, rfl, rfl⟩
theorem MatchState.raiseNext3_kept (m : MatchState) (low : Nat) : TablesKept m (m.raiseNext3 low) :=
  ⟨.refl _, .refl _, .refl _, rfl, rfl⟩
theorem MatchState.fillHole_kept (m : MatchState) (i v : Nat) : TablesKept m (m.fillHole i v) := by
  unfold MatchState.fillHole; split
  · exact m.setHash_kept i v
  · exact .refl m

/-! ## Runs of insertions -/

theorem insertRun_kept {ins : MatchState → Nat → MatchState} (h : ∀ m i, TablesKept m (ins m i)) :
    ∀ (n idx : Nat) (m : MatchState), TablesKept m (insertRun ins n idx m)
  | 0, _, m => .refl m
  | n + 1, idx, m => (h m idx).trans (insertRun_kept h n (idx + 1) (ins m idx))

theorem catchUpTo_kept {ins : MatchState → Nat → MatchState} (h : ∀ m i, TablesKept m (ins m i)) (m : MatchState) (p : Nat) :
    TablesKept m (catchUpTo ins m p) := (insertRun_kept h _ _ m).trans (MatchState.raiseNext_kept _ p)

theorem strideRun_kept {lim : Nat} {stride : MatchState → Nat → MatchState} (h : ∀ m i, TablesKept m (stride m i)) :
    ∀ (k p : Nat) (m : MatchState), TablesKept m (strideRun lim stride k p m)
  | 0, _, m => .refl m
  | k + 1, p, m => by
    unfold strideRun; split
    · exact (h m p).trans (strideRun_kept h k _ _)
    · exact .refl m

/-! ## The layouts -/

theorem h1InsFind_kept (V : View) (m : MatchState) (p : Nat) : TablesKept m (h1InsFind V m p).1 := m.setHash_kept _ _
theorem dhInsert_kept (V : View) (m : MatchState) (p : Nat) : TablesKept m (dhInsert V m p) :=
  ⟨.set _ _ _, .set _ _ _, .refl _, rfl, rfl⟩
theorem dhInsFind_kept (V : View) (m : MatchState) (p : Nat) : TablesKept m (dhInsFind V m p).1 := dhInsert_kept V m p
theorem hcInsert_kept (V : View) (m : MatchState) (i : Nat) : TablesKept m (hcInsert V m i) :=
  (m.setChain_kept _ _).trans (MatchState.setHash_kept _ _ _)
theorem hcInsFind_kept (V : View) (m : MatchState) (p : Nat) : TablesKept m (hcInsFind V m p).1 :=
  catchUpTo_kept (hcInsert_kept V) m p
theorem hcSearch_kept (V : View) (m : MatchState) (p e : Nat) : TablesKept m (hcSearch V m p e).1 := hcInsFind_kept V m p

theorem btWalk_kept (V : View) (p e low : Nat) :
    ∀ (k : Nat) (t : Table) (c smaller larger : Nat) (b : Best), TableKept t (btWalk V p e low k t c smaller larger b).1
  | 0, t, _, s, l, _ => (TableKept.set t s 0).trans (.set _ l 0)
  | k + 1, t, c, s, l, b => by
    have z : TableKept t ((t.set s 0).set l 0) := (TableKept.set t s 0).trans (.set _ l 0)
    unfold btWalk
    dsimp only
    split
    · split
      · exact z
      · split <;> split
        · exact (TableKept.set t s c).trans (.set _ _ _)
        · exact (TableKept.set t s c).trans (btWalk_kept V p e low k _ _ _ _ _)
        · exact (TableKept.set t l c).trans (.set _ _ _)
        · exact (TableKept.set t l c).trans (btWalk_kept V p e low k _ _ _ _ _)
    · exact z

theorem btInsert_kept (V : View) (m : MatchState) (p e : Nat) : TablesKept m (btInsert V m p e).1 :=
  ⟨.set _ _ _, btWalk_kept V p e _ _ _ _ _ _ _, .refl _, rfl, rfl⟩
theorem btUpdate_kept (V : View) (m : MatchState) (p e : Nat) : TablesKept m (btUpdate V m p e) :=
  catchUpTo_kept (fun m i => btInsert_kept V m i e) m p
theorem h3Insert_kept (V : View) (m : MatchState) (i : Nat) : TablesKept m (h3Insert V m i) :=
  ⟨.refl _, .refl _, .set _ _ _, rfl, rfl⟩
theorem h3InsFind_kept (V : View) (m : MatchState) (p : Nat) : TablesKept m (h3InsFind V m p).1 :=
  (insertRun_kept (h3Insert_kept V) _ _ m).trans (MatchState.raiseNext3_kept _ p)
theorem btShortPart_kept (V : View) (m : MatchState) (p e : Nat) (b : Best) : TablesKept m (btShortPart V m p e b).1 := by
  unfold btShortPart
  dsimp only
  split
  · split <;> exact h3InsFind_kept V m p
  · exact .refl m
theorem btSearch_kept (V : View) (m : MatchState) (p e : Nat) : TablesKept m (btSearch V m p e).1 := by
  unfold btSearch
  dsimp only
  split
  · exact .refl m
  · exact ((btUpdate_kept V m p e).trans (btInsert_kept V _ p e)).trans
      ((MatchState.setNext_kept _ _ _).trans (btShortPart_kept V _ p e _))

theorem fillSingle_kept (V : View) (full : Bool) (m : MatchState) (p : Nat) : TablesKept m (fillSingle V full m p) := by
  unfold fillSingle
  dsimp only
  split
  · exact ((m.setHash_kept _ _).trans (MatchState.fillHole_kept _ _ _)).trans (MatchState.fillHole_kept _ _ _)
  · exact m.setHash_kept _ _
theorem fillDual_kept (V : View) (full : Bool) (m : MatchState) (p : Nat) : TablesKept m (fillDual V full m p) := by
  have h : TablesKept m ((m.setChain (V.dualShort p) p).setHash (V.dualLong p) p) :=
    (m.setChain_kept _ _).trans (MatchState.setHash_kept _ _ _)
  unfold fillDual
  dsimp only
  split
  · exact (h.trans (MatchState.fillHole_kept _ _ _)).trans (MatchState.fillHole_kept _ _ _)
  · exact h
theorem tabFill_kept (V : View) (m : MatchState) (e : Nat) (full : Bool) : TablesKept m (tabFill V m e full) := by
  unfold tabFill
  dsimp only
  split
  · exact .refl m
  · refine TablesKept.trans ?_ (MatchState.setNext_kept _ _ _)
    split
    · exact strideRun_kept (fillSingle_kept V full) _ _ m
    · exact strideRun_kept (fillDual_kept V full) _ _ m
    · exact hcInsFind_kept V m _
    · exact btUpdate_kept V m _ e

/-! ## The scan -/

/-- Every table operation of a layout keeps the tables. -/
structure Finder.Kept (F : Finder) : Prop where
  probe : ∀ m i, TablesKept m (F.probe m i).1
  find : ∀ m i c, TablesKept m (F.find m i c).1
  reseed : ∀ m a b, TablesKept m (F.reseed m a b)
  insertRep : ∀ m i, TablesKept m (F.insertRep m i)

theorem dualFind_kept (V : View) (iend : Nat) (m : MatchState) (ip : Nat) (c : Nat × Nat) :
    TablesKept m (dualFind V iend m ip c).1 := by
  unfold dualFind
  split
  · exact .refl m
  · split
    · exact .refl m
    · dsimp only
      split <;> exact m.setHash_kept _ _

theorem finderOf_kept (V : View) (iend : Nat) : (finderOf V iend).Kept := by
  unfold finderOf
  split
  · exact ⟨fun m i => h1InsFind_kept V m i, fun m _ _ => .refl m,
      fun m a b => (h1InsFind_kept V m (a + 2)).trans (h1InsFind_kept V _ (b - 2)), fun m i => h1InsFind_kept V m i⟩
  · exact ⟨dhInsFind_kept V, dualFind_kept V iend,
      fun m a b => (dhInsert_kept V m (a + 2)).trans (dhInsert_kept V _ (b - 2)), dhInsert_kept V⟩
  · exact ⟨fun m _ => .refl m, fun m i _ => hcSearch_kept V m i iend, fun m _ _ => .refl m, fun m _ => .refl m⟩
  · exact ⟨fun m _ => .refl m, fun m i _ => btSearch_kept V m i iend, fun m _ _ => .refl m, fun m _ => .refl m⟩

@[simp] theorem Work.store_ms (V : View) (w : Work) (a b c d : Nat) : (w.store V a b c d).ms = w.ms := rfl

theorem adjacentRepeats_kept (V : View) {F : Finder} (hF : F.Kept) (iend : Nat) {m : MatchState} :
    ∀ (k : Nat) (w : Work) (c : Cursor), TablesKept m w.ms → TablesKept m (adjacentRepeats V F iend k w c).1.ms
  | 0, _, _, h => h
  | k + 1, w, c, h => by
    unfold adjacentRepeats
    split
    · exact adjacentRepeats_kept V hF iend k _ _ (h.trans (hF.insertRep w.ms c.ip))
    · exact h

theorem afterMatch_kept (V : View) {F : Finder} (hF : F.Kept) (iend cur0 : Nat) {m : MatchState} (w : Work) (c : Cursor)
    (h : TablesKept m w.ms) : TablesKept m (afterMatch V F iend cur0 w c).1.ms := by
  unfold afterMatch
  split
  · exact adjacentRepeats_kept V hF iend _ _ _ (h.trans (hF.reseed w.ms cur0 c.ip))
  · exact h

theorem scanAt_kept (V : View) {F : Finder} (hF : F.Kept) (iend : Nat) {m : MatchState} (w : Work) (c : Cursor)
    (h : TablesKept m w.ms) : TablesKept m (scanAt V F iend w c).1.ms := by
  have hp := h.trans (hF.probe w.ms c.ip)
  unfold scanAt
  dsimp only
  split
  · exact afterMatch_kept V hF iend c.ip _ _ hp
  · have hf := hp.trans (hF.find (F.probe w.ms c.ip).1 c.ip (F.probe w.ms c.ip).2)
    split
    · exact hf
    · exact afterMatch_kept V hF iend c.ip _ _ hf

theorem scan_kept (V : View) {F : Finder} (hF : F.Kept) (iend : Nat) {m : MatchState} :
    ∀ (k : Nat) (w : Work) (c : Cursor), TablesKept m w.ms → TablesKept m (scan V F iend k w c).1.ms
  | 0, _, _, h => h
  | k + 1, w, c, h => by
    unfold scan
    split
    · exact scan_kept V hF iend k _ _ (scanAt_kept V hF iend w c h)
    · exact h

theorem blkCore_kept (V : View) (w : Work) (istart iend : Nat) (rep : Reps) :
    TablesKept w.ms (blkCore V w istart iend rep).work.ms := scan_kept V (finderOf_kept V iend) iend _ w _ (.refl w.ms)

theorem State.blockWork_kept (s : State) : TablesKept s.ms s.blockWork.ms :=
  (s.ms.raiseNext_kept _).trans (MatchState.setNext_kept _ _ _)

/-- BLK_MATCH's tables. -/
theorem blkMatch_kept (s : State) (istart n : Nat) (rep : Reps) : TablesKept s.ms (blkMatch s istart n rep).work.ms :=
  s.blockWork_kept.trans (blkCore_kept s.view _ _ _ _)

/-! ## The LDM's split of a block -/

theorem ldmSplit_kept (V : View) (ctr iend : Nat) {m : MatchState} :
    ∀ (k : Nat) (r : LdmRun), TablesKept m r.work.ms → TablesKept m (ldmSplit V ctr iend k r).work.ms
  | 0, _, h => h
  | k + 1, r, h => by
    unfold ldmSplit
    split
    · dsimp only
      split
      · exact h
      · have hb := fun stop => h.trans (blkCore_kept V r.work r.ip stop r.rep)
        split
        · exact hb _
        · exact ldmSplit_kept V ctr iend k _ (hb _)
    · exact h

theorem ldmBlkMatch_kept (s : State) (istart n : Nat) (rep : Reps) :
    TablesKept s.ms (ldmBlkMatch s istart n rep).1.work.ms := by
  have h := ldmSplit_kept s.view s.freeCtr (istart + n) (s.ldm.pending.length + 1)
    { work := s.blockWork, rep := rep, ip := istart, taken := 0, queue := { passed := [], rest := s.ldm.pending } } s.blockWork_kept
  unfold ldmBlkMatch
  dsimp only
  split
  · exact h
  · exact h.trans (blkCore_kept s.view _ _ _ _)

/-! ## The LDM State -/

/-- The LDM's two sparse tables are canonical. -/
def LdmState.wf (l : LdmState) : Prop := sparseWf .zero l.table = true ∧ sparseWf 0 l.bucketPos = true

theorem LdmState.insert_wf {l : LdmState} (h : l.wf) (V : LdmView) (slot checksum idx : Nat) :
    (l.insert V slot checksum idx).wf := ⟨sparseSet_wf h.1 _ _, sparseSet_wf h.2 _ _⟩

theorem LdmState.insertCandidate_wf {l : LdmState} (h : l.wf) (V : LdmView) (q : Nat) : (l.insertCandidate V q).wf := by
  unfold LdmState.insertCandidate
  dsimp only
  split
  · exact LdmState.insert_wf h V _ _ _
  · exact h

theorem LdmState.insertCandidates_wf (V : LdmView) :
    ∀ (n q : Nat) (l : LdmState), l.wf → (LdmState.insertCandidates V n q l).wf
  | 0, _, _, h => h
  | n + 1, q, _, h => LdmState.insertCandidates_wf V n (q + 1) _ (LdmState.insertCandidate_wf h V q)

theorem LdmState.fill_wf {l : LdmState} (h : l.wf) (V : LdmView) (start stop : Nat) : (l.fill V start stop).wf :=
  LdmState.insertCandidates_wf V _ _ _ h

theorem LdmState.scan_wf (V : LdmView) (iend ilimit : Nat) :
    ∀ (k : Nat) (l : LdmState) (ip anchor : Nat), l.wf → (LdmState.scan V iend ilimit k l ip anchor).1.wf
  | 0, _, _, _, h => h
  | k + 1, l, ip, anchor, h => by
    unfold LdmState.scan
    dsimp only
    split
    · split
      · split
        · exact LdmState.scan_wf V iend ilimit k _ _ _ (LdmState.insert_wf h V _ _ _)
        · next b _ =>
          have hi : ((l.push V.ctr (ip - b.bwd - anchor) (b.fwd + b.bwd) (ip - b.idx)).insert V (V.parts ip).1 (V.parts ip).2.1 ip).wf :=
            LdmState.insert_wf (l := l.push _ _ _ _) h V _ _ _
          refine LdmState.scan_wf V iend ilimit k _ _ _ ?_
          split
          · exact LdmState.insertCandidates_wf V _ _ _ hi
          · exact hi
      · exact LdmState.scan_wf V iend ilimit k _ _ _ h
    · exact h

theorem LdmState.genChunk_wf {l : LdmState} (h : l.wf) (V : LdmView) (istart iend : Nat) : (l.genChunk V istart iend).1.wf := by
  unfold LdmState.genChunk
  dsimp only
  split
  · exact h
  · exact LdmState.scan_wf V _ _ _ _ _ _ h

theorem LdmState.correct_wf {l : LdmState} (h : l.wf) (aw corr : Nat) : (l.correct aw corr).wf := ⟨sparseMap_wf _ h.1, h.2⟩

theorem ldmChunk_wf (s : State) {l : LdmState} (h : l.wf) (p ce leftover : Nat) : (ldmChunk s l p ce leftover).1.wf := by
  have hc : (if s.p.needsCorrection (l.w.idx s.impl.addrW ce) then
      l.correct s.impl.addrW (corrOf 0 s.p.windowSize (l.w.idx s.impl.addrW p)) else l).wf := by
    split
    · exact LdmState.correct_wf h _ _
    · exact h
  unfold ldmChunk
  extract_lets aw maxDist l1 l2 V first r
  have h2 : l2.wf := hc
  have hr : r.1.wf := LdmState.genChunk_wf h2 V _ _
  split <;> exact hr

theorem ldmChunks_wf (s : State) (stop : Nat) :
    ∀ (k : Nat) (l : LdmState) (p leftover : Nat), l.wf → (ldmChunks s stop k l p leftover).wf
  | 0, _, _, _, h => h
  | k + 1, l, p, leftover, h => by
    unfold ldmChunks
    dsimp only
    split
    · exact ldmChunks_wf s stop k _ _ _ (ldmChunk_wf s h _ _ _)
    · exact h

/-- LDM_GENERATE's tables. -/
theorem ldmGenerate_wf {s : State} (h : s.ldm.wf) (src n : Nat) : (ldmGenerate s src n).wf := ldmChunks_wf s _ _ _ _ _ h

end Sys2Proof.Machine
end

