-- ==== Sys2Proof/Tests/Slice0.lean ====
section
/-! SUPPORT. The author's tests: decoding by words written out from the spec, ill-formed terms refused, vectors of
95_test_vectors.md, and for every obligation with hypotheses a concrete state and operands that meet them. Expected values are
the spec's. -/

namespace Sys2Proof.Tests

set_option Elab.async false

open Sys2Proof Sys2Proof.Machine

/-! ## Well-formedness (30_encoding.md R60): every check refuses an ill-formed term -/

theorem test_wf_refuses_dictLoad_mod2 : ¬ (Instr.dictLoad 0x02).WellFormed := by decide
theorem test_wf_refuses_blockCompress_mod2 : ¬ (Instr.blockCompress 0x02).WellFormed := by decide
theorem test_wf_refuses_tabFill_mod80 : ¬ (Instr.tabFill 0x81).WellFormed := by decide
theorem test_wf_accepts : (Instr.dictLoad 1).WellFormed ∧ (Instr.tabFill 0).WellFormed ∧ Instr.dbgRead.WellFormed := by decide

/-! ## Decoding: the word table of 95_test_vectors.md 2.1, one word for every constructor -/

theorem test_decode_ctxInit : decode 0x00000001 = .ok .ctxInit := by decide
theorem test_decode_paramsDerive : decode 0x00000002 = .ok .paramsDerive := by decide
theorem test_decode_dictLoad_0 : decode 0x00000003 = .ok (.dictLoad 0) := by decide
theorem test_decode_dictLoad_1 : decode 0x00000103 = .ok (.dictLoad 1) := by decide
theorem test_decode_dictAttach : decode 0x00000004 = .ok .dictAttach := by decide
theorem test_decode_frameContinue : decode 0x00000005 = .ok .frameContinue := by decide
theorem test_decode_frameEnd : decode 0x00000006 = .ok .frameEnd := by decide
theorem test_decode_blockCompress_0 : decode 0x00000007 = .ok (.blockCompress 0) := by decide
theorem test_decode_blockCompress_1 : decode 0x00000107 = .ok (.blockCompress 1) := by decide
theorem test_decode_dmsBuild : decode 0x00000008 = .ok .dmsBuild := by decide
theorem test_decode_winAppend : decode 0x00000010 = .ok .winAppend := by decide
theorem test_decode_winEnforceMaxdist : decode 0x00000011 = .ok .winEnforceMaxdist := by decide
theorem test_decode_winNeedsCorrection : decode 0x00000012 = .ok .winNeedsCorrection := by decide
theorem test_decode_winCorrectOverflow : decode 0x00000013 = .ok .winCorrectOverflow := by decide
theorem test_decode_tabFill_0 : decode 0x00000020 = .ok (.tabFill 0) := by decide
theorem test_decode_tabFill_1 : decode 0x00000120 = .ok (.tabFill 1) := by decide
theorem test_decode_h1Insfind : decode 0x00000021 = .ok .h1Insfind := by decide
theorem test_decode_dhInsfind : decode 0x00000022 = .ok .dhInsfind := by decide
theorem test_decode_hcInsfind : decode 0x00000023 = .ok .hcInsfind := by decide
theorem test_decode_hcSearch : decode 0x00000024 = .ok .hcSearch := by decide
theorem test_decode_btUpdate : decode 0x00000025 = .ok .btUpdate := by decide
theorem test_decode_btSearch : decode 0x00000026 = .ok .btSearch := by decide
theorem test_decode_h3Insfind : decode 0x00000027 = .ok .h3Insfind := by decide
theorem test_decode_blkMatch : decode 0x00000030 = .ok .blkMatch := by decide
theorem test_decode_ldmGenerate : decode 0x00000040 = .ok .ldmGenerate := by decide
theorem test_decode_ldmBlkMatch : decode 0x00000041 = .ok .ldmBlkMatch := by decide
theorem test_decode_seqReset : decode 0x00000050 = .ok .seqReset := by decide
theorem test_decode_seqStore : decode 0x00000051 = .ok .seqStore := by decide
theorem test_decode_seqLastlit : decode 0x00000052 = .ok .seqLastlit := by decide
theorem test_decode_seqToCodes : decode 0x00000053 = .ok .seqToCodes := by decide
theorem test_decode_litCompress : decode 0x00000060 = .ok .litCompress := by decide
theorem test_decode_seqEncode : decode 0x00000061 = .ok .seqEncode := by decide
theorem test_decode_dbgRead : decode 0x00000070 = .ok .dbgRead := by decide

theorem test_illegal_opcodes :
    ([0x00000000, 0x00000009, 0x00000014, 0x00000028, 0x00000031, 0x00000042, 0x00000054, 0x00000062, 0x00000071,
      0x000000FF] : List Word).all (fun w => decide (decode w = .illegal .reservedOpcode)) = true := by decide +kernel
theorem test_illegal_reserved_bits : decode 0x00010001 = .illegal .reservedBits := by decide
theorem test_illegal_mod_bits :
    ([0x00000101, 0x00000206, 0x00000110] : List Word).all (fun w => decide (decode w = .illegal .undefinedMod)) = true := by
  decide +kernel
theorem test_encode_block_compress_last : encode (.blockCompress 1) = 0x00000107 := by decide

/-! ## A bench: small states in the middle of a frame -/

/-- The command answers a next state that passes the check. -/
def ends (o : Host.Outcome State Fault Refusal) (f : State → Bool) : Bool :=
  match o with
  | .next t => f t
  | .fault _ => false
  | .refused _ => false

/-- The command is a refused launch of this kind. -/
def refuses (o : Host.Outcome State Fault Refusal) (r : Refusal) : Bool :=
  match o with
  | .refused q => q == r
  | .next _ => false
  | .fault _ => false

/-- The default configuration of 95_test_vectors.md with another strategy, searchLog and minMatch. -/
def cfg (strategy searchLog minMatch : Byte) : CfgRegs :=
  { CfgRegs.zero with
    windowLog := 17, hashLog := 12, chainLog := 12, searchLog := searchLog, minMatch := minMatch, strategy := strategy
    flags := 1, pledged := 300 }

/-- A Compressed Block State as `CTX_INIT` leaves it, its unspecified distributions empty. -/
def freshBs : BlockState := { BlockState.reset with rep := { r0 := 1, r1 := 4, r2 := 8 } }

/-- Memory that holds `bytes` from `a` up, before the cells `rest`. -/
def cellsFrom (rest : Memory) : Nat → List Byte → Memory
  | _, [] => rest
  | a, b :: bs => if b = 0 then cellsFrom rest (a + 1) bs else (a, b) :: cellsFrom rest (a + 1) bs

/-- Stage *initialized* with `bytes` at 0x1000 in the window (indices 1, 2, …), as after `CTX_INIT`, `WIN_APPEND`. -/
def bench (c : CfgRegs) (bytes : List Byte) : State :=
  { State.reset with
    cfg := c, p := c.latch, ms := c.latch.freshMs, stage := .initialized, bs0 := freshBs, bs1 := freshBs
    mem := cellsFrom [] 0x1000 bytes
    w := { base := 0xFFF, dictBase := 0, nextSrc := 0x1000 + BitVec.ofNat 64 bytes.length, dictLimit := 1, lowLimit := 1 } }

/-- The same with operands. -/
def withOps (s : State) (a b c d : DWord) : State := { s with op0 := a, op1 := b, op2 := c, op3 := d }

/-- `"abcdefgh"`. -/
def unit8 : List Byte := [0x61, 0x62, 0x63, 0x64, 0x65, 0x66, 0x67, 0x68]

/-- `BUF` of 95_test_vectors.md, 56 bytes. -/
def buf : List Byte :=
  unit8 ++ unit8 ++ unit8 ++ unit8 ++ [0x61, 0x62, 0x63, 0x64, 0x58, 0x59, 0x5A, 0x57] ++ unit8 ++ unit8

/-- The bench with `BUF` and strategy `st`. -/
def bufBench (st : Byte) : State := bench (cfg st 2 4) buf

/-! ## Vectors of 95_test_vectors.md, one command each -/

/-- V-WIN3 -/
theorem test_win_append_other_place :
    ends (exec .winAppend (withOps { bench (cfg 1 1 4) [] with
      w := { base := 0xFFF, dictBase := 0, nextSrc := 0x1136, dictLimit := 1, lowLimit := 1 } } 0x5000 100 0 0)) (fun t =>
      t.res0 == 0 && t.ms.nextToUpdate == 311 &&
        t.w == { base := 0x4EC9, dictBase := 0xFFF, nextSrc := 0x5064, dictLimit := 311, lowLimit := 1 }) = true := by
  decide +kernel
/-- V-WIN6, third append: the overlap raises `lowLimit` to 129. -/
theorem test_win_append_overlap :
    ends (exec .winAppend (withOps { bench (cfg 1 1 4) [] with
      w := { base := 0x1DFF, dictBase := 0x1FFF, nextSrc := 0x1F80, dictLimit := 257, lowLimit := 1 } } 0x1F80 0x100 0 0))
      (fun t => t.res0 == 1 &&
        t.w == { base := 0x1DFF, dictBase := 0x1FFF, nextSrc := 0x2080, dictLimit := 257, lowLimit := 129 }) = true := by
  decide +kernel
/-- V-WIN7 -/
theorem test_win_correct_overflow :
    ends (exec .winCorrectOverflow (withOps { bench (cfg 1 1 4) [] with
      w := { base := 0xFFF, dictBase := 0, nextSrc := 0x4A3E0, dictLimit := 1, lowLimit := 1 }
      ms := { (cfg 1 1 4).latch.freshMs with hashTable := { size := 4096, cells := [(3, 200000), (9, 100000)] } } }
      12 131072 0x3E090 0)) (fun t =>
      t.res0 == 118784 && t.ms.hashTable.cells == [(3, 81216)] && t.ms.nextToUpdate == 0 &&
        t.w == { base := 0x1DFFF, dictBase := 0x1D000, nextSrc := 0x4A3E0, dictLimit := 1, lowLimit := 1 }) = true := by
  decide +kernel
/-- V-WIN8 -/
theorem test_win_needs_correction :
    ends (exec .winNeedsCorrection (withOps { bench (cfg 1 1 4) [] with
      w := { base := 0xFFF, dictBase := 0, nextSrc := 0x60030000, dictLimit := 1, lowLimit := 1 } } (0xFFF + 1610743809) 0 0 0))
      (fun t => t.res0 == 1) = true := by
  decide +kernel
/-- V-WIN9 -/
theorem test_win_enforce_maxdist :
    ends (exec .winEnforceMaxdist (withOps { bench (cfg 1 1 4) [] with
      w := { base := 0xFFF, dictBase := 0, nextSrc := 0x1BB8, dictLimit := 1, lowLimit := 1 } } 0x1BB8 1024 0 0))
      (fun t => t.w.lowLimit == 1977 && t.w.dictLimit == 1977) = true := by
  decide +kernel
/-- V-H1, the third call -/
theorem test_h1_insfind :
    ends (exec .h1Insfind (withOps { bufBench 1 with
      ms := { (cfg 1 2 4).latch.freshMs with hashTable := { size := 4096, cells := [(1584, 9)] } } } 0x1010 0 0 0)) (fun t =>
      t.res0 == 9 && t.ms.hashTable.cells == [(1584, 17)] && t.ms.nextToUpdate == 1) = true := by
  decide +kernel
/-- V-DH -/
theorem test_dh_insfind :
    ends (exec .dhInsfind (withOps (bufBench 2) 0x1000 0 0 0)) (fun t =>
      t.res0 == 0 && t.res1 == 0 && t.ms.hashTable.cells == [(1263, 1)] && t.ms.chainTable.cells == [(1584, 1)]) = true := by
  decide +kernel
/-- V-HC -/
theorem test_hc_insfind :
    ends (exec .hcInsfind (withOps (bufBench 3) 0x1008 0 0 0)) (fun t =>
      t.res0 == 1 && t.ms.nextToUpdate == 9 && t.ms.hashTable.get 1584 == 1 && t.ms.chainTable.cells == []) = true := by
  decide +kernel
/-- V-HC, index 41 -/
theorem test_hc_search :
    ends (exec .hcSearch (withOps (bufBench 3) 0x1028 0x1038 0 0)) (fun t =>
      t.res0 == 16 && t.res1 == 17 && t.ms.nextToUpdate == 41 && t.ms.chainTable.get 33 == 25) = true := by
  decide +kernel
/-- V-BT -/
theorem test_bt_search :
    ends (exec .btSearch (withOps (bufBench 6) 0x1008 0x1038 0 0)) (fun t =>
      t.res0 == 28 && t.res1 == 1 && t.ms.nextToUpdate == 10) = true := by
  decide +kernel
/-- V-BT, a position already passed -/
theorem test_bt_search_passed :
    ends (exec .btSearch (withOps { bufBench 6 with
      ms := { (cfg 6 2 4).latch.freshMs with nextToUpdate := 42 } } 0x1013 0x1038 0 0)) (fun t =>
      t.res0 == 0 && t.res1 == 0 && t.ms.nextToUpdate == 42) = true := by
  decide +kernel
/-- 41_tables.md R124: the tree insertion up to a position does not include it. -/
theorem test_bt_update :
    ends (exec .btUpdate (withOps (bufBench 6) 0x1008 0x1038 0 0)) (fun t =>
      t.ms.nextToUpdate == 9 && t.ms.hashTable.get 1584 == 1) = true := by
  decide +kernel
/-- V-H3 -/
theorem test_h3_insfind :
    ends (exec .h3Insfind (withOps (bench (cfg 6 2 3) buf) 0x1008 0 0 0)) (fun t =>
      t.res0 == 1 && t.ms.nextToUpdate3 == 9 && t.ms.hashTable3.get 82897 == 1) = true := by
  decide +kernel
/-- V-FILL, strategy 1, fast -/
theorem test_tab_fill_fast :
    ends (exec (.tabFill 0) (withOps (bufBench 1) 0x1038 0 0 0)) (fun t =>
      t.ms.nextToUpdate == 57 && t.ms.hashTable.cells == [(253, 31), (1350, 16), (1584, 25), (1591, 10), (1597, 43), (1603, 28),
        (1609, 13), (1639, 34), (2489, 37), (3371, 40), (3535, 46)]) = true := by
  decide +kernel
/-- V-BLK1, strategy 1 -/
theorem test_blk_match_hash :
    ends (exec .blkMatch (withOps (bufBench 1) 0x1000 56 0 0)) (fun t =>
      t.res0 == 0 && t.res1 == 0x1038 && t.nextBs.rep == { r0 := 40, r1 := 8, r2 := 8 } && t.seq.lit.length == 12 &&
      t.seq.seqs == [{ offset := 11, litLength := 8, matchLength := 25 }, { offset := 1, litLength := 4, matchLength := 1 },
        { offset := 43, litLength := 0, matchLength := 9 }]) = true := by
  decide +kernel
/-- V-BLK1, strategy 3 -/
theorem test_blk_match_chain :
    ends (exec .blkMatch (withOps (bufBench 3) 0x1000 56 0 0)) (fun t =>
      t.nextBs.rep == { r0 := 24, r1 := 8, r2 := 8 } && t.ms.nextToUpdate == 45 &&
      t.seq.seqs == [{ offset := 11, litLength := 8, matchLength := 25 }, { offset := 1, litLength := 4, matchLength := 1 },
        { offset := 27, litLength := 0, matchLength := 9 }]) = true := by
  decide +kernel

/-- The bench with the LDM on, minimum match 16, rate 0 (V-LDM1's parameters), and `BUF`. -/
def ldmBench : State :=
  let c : CfgRegs := { cfg 1 1 4 with
    flags := 9, pledged := 56, ldmHashLog := 10, ldmBucketLog := 2, ldmMinMatch := 16, ldmRateLog := 0 }
  let s := bench c buf
  { s with ldm := { LdmState.reset with w := s.w } }

/-- 43_ldm.md R179: index 1 is not above `lowLimit`, so the first match is found at index 10 and extended back to 9: 28 bytes, 8
back. The last 16 bytes repeat at 1, 9 and 17; of the two allowed the bucket holds 9 first: 32 back. -/
theorem test_ldm_generate :
    ends (exec .ldmGenerate (withOps ldmBench 0x1000 56 0 0)) (fun t =>
      t.res0 == 2 && t.ldm.seq == [{ litLength := 8, matchLength := 28, offset := 8 },
        { litLength := 4, matchLength := 16, offset := 32 }]) = true := by
  decide +kernel
/-- 43_ldm.md R177: the queued match is taken as it is; a stored offset of a real offset 8 is 11. -/
theorem test_ldm_blk_match :
    ends (exec .ldmBlkMatch (withOps { ldmBench with
      ldm := { ldmBench.ldm with seq := [{ litLength := 8, matchLength := 28, offset := 8 }], queueSrc := some 0x1000 } }
      0x1000 56 0 0)) (fun t => t.seq.seqs.head? == some { offset := 11, litLength := 8, matchLength := 25 }) = true := by
  decide +kernel

/-- 43_ldm.md R177: of the block of 56 bytes 8 + 28 are consumed from the queue, so the next `src` is 36 bytes further on. -/
theorem test_ldm_blk_match_next_src :
    ends (exec .ldmBlkMatch (withOps { ldmBench with
      ldm := { ldmBench.ldm with seq := [{ litLength := 8, matchLength := 28, offset := 8 }], queueSrc := some 0x1000 } }
      0x1000 56 0 0)) (fun t => t.ldm.queueSrc == some 0x1024 && t.queueHere 0x1024 && !t.queueHere 0x1038) = true := by
  decide +kernel

/-- V-SEQ1's window: `"0123456789abcdef"` at 0x1000. -/
def seqBench : State :=
  bench (cfg 1 1 4) [0x30, 0x31, 0x32, 0x33, 0x34, 0x35, 0x36, 0x37, 0x38, 0x39, 0x61, 0x62, 0x63, 0x64, 0x65, 0x66]

/-- V-SEQ1 -/
theorem test_seq_store :
    ends (exec .seqStore (withOps seqBench 3 0x1000 5 7)) (fun t =>
      t.seq.seqs == [{ offset := 5, litLength := 3, matchLength := 7 }] && t.seq.lit == [0x30, 0x31, 0x32]) = true := by
  decide +kernel
/-- E11, the second call -/
theorem test_seq_store_fatal :
    ends (exec .seqStore (withOps { seqBench with
      seq := { SeqStore.empty with seqs := [{ offset := 5, litLength := 0, matchLength := 4464 }], longMatch := some 0 } }
      0 0x1000 5 70000)) (fun t => t.status.code == 1 && t.status.fatal && t.seq.seqs.length == 1) = true := by
  decide +kernel
/-- V-SEQ1 -/
theorem test_seq_to_codes :
    ends (exec .seqToCodes { seqBench with seq := { SeqStore.empty with
      seqs := [{ offset := 5, litLength := 3, matchLength := 7 }, { offset := 1, litLength := 0, matchLength := 0 },
        { offset := 1003, litLength := 2, matchLength := 300 }] } }) (fun t =>
      t.seq.codesValid && t.seq.codes.map (fun c => (c.ll, c.of, c.ml)) == [(3, 2, 7), (0, 0, 0), (2, 9, 44)]) = true := by
  decide +kernel
/-- V-SEQ1: `SEQ_LASTLIT` -/
theorem test_seq_lastlit :
    ends (exec .seqLastlit (withOps seqBench 0x1005 4 0 0)) (fun t => t.seq.lit == [0x35, 0x36, 0x37, 0x38]) = true := by
  decide +kernel
/-- 44_sequence_store.md R186 -/
theorem test_seq_reset :
    ends (exec .seqReset { seqBench with seq := { SeqStore.empty with lit := [1], longLit := some 0 } })
      (fun t => t.seq == SeqStore.empty) = true := by
  decide +kernel
/-- V-LIT2, 100 equal literals -/
theorem test_lit_compress_rle :
    ends (exec .litCompress (withOps { seqBench with seq := { SeqStore.empty with lit := List.replicate 100 0x41 } }
      0x9000 512 0 0)) (fun t => t.res0 == 3 && t.res1 == 1 && t.mem.readBytes 0x9000 3 == [0x45, 0x06, 0x41]) = true := by
  decide +kernel
/-- V-SQE1, the store of X7 -/
theorem test_seq_encode :
    ends (exec .seqEncode (withOps { seqBench with
      seq := { SeqStore.empty with seqs := [{ offset := 1, litLength := 2, matchLength := 295 }] } } 0x9000 512 0 0)) (fun t =>
      t.res0 == 6 && t.res1 == 0 && t.mem.readBytes 0x9000 6 == [0x01, 0x00, 0x27, 0x2A, 0xC0, 0x02]) = true := by
  decide +kernel
/-- V-FRM4 -/
theorem test_frame_end_one_byte :
    ends (exec .frameEnd (withOps { bench { cfg 1 1 4 with pledged := 1 } [] with mem := [(0x1000, 0xAA)] } 0x1000 1 0x8000 64))
      (fun t => t.res0 == 10 && t.stage == .created &&
        t.mem.readBytes 0x8000 10 == [0x28, 0xB5, 0x2F, 0xFD, 0x20, 0x01, 0x09, 0x00, 0x00, 0xAA]) = true := by
  decide +kernel
/-- V-FRM3: the empty frame with its checksum -/
theorem test_frame_end_checksum :
    ends (exec .frameEnd (withOps (bench { cfg 1 1 4 with flags := 3, pledged := 0xFFFFFFFFFFFFFFFF } []) 0 0 0x8000 64)) (fun t =>
      t.res0 == 13 && t.mem.readBytes 0x8000 13 ==
        [0x28, 0xB5, 0x2F, 0xFD, 0x04, 0x38, 0x01, 0x00, 0x00, 0x99, 0xE9, 0xD8, 0x51]) = true := by
  decide +kernel
/-- V-BLC1: header only -/
theorem test_frame_continue_header :
    ends (exec .frameContinue (withOps (bench { cfg 1 1 4 with pledged := 0xFFFFFFFFFFFFFFFF } []) 0 0 0x8000 64)) (fun t =>
      t.res0 == 6 && t.stage == .ongoing && t.mem.readBytes 0x8000 6 == [0x28, 0xB5, 0x2F, 0xFD, 0x00, 0x38]) = true := by
  decide +kernel
/-- V-BLC1: `BUF` as the last block -/
theorem test_block_compress_last :
    ends (exec (.blockCompress 1) (withOps { bufBench 1 with stage := .ongoing } 0x1000 56 0x8006 58)) (fun t =>
      t.res0 == 25 && t.res1 == 2 && t.stage == .ending && t.mem.readBytes 0x8006 25 ==
        [0xB5, 0x00, 0x00, 0x60, 0x61, 0x62, 0x63, 0x64, 0x65, 0x66, 0x67, 0x68, 0x58, 0x59, 0x5A, 0x57,
         0x03, 0x00, 0x4B, 0x31, 0x00, 0x16, 0x19, 0x53, 0xB8]) = true := by
  decide +kernel
/-- V-BLC1: the empty block -/
theorem test_block_compress_empty :
    ends (exec (.blockCompress 0) (withOps { bufBench 1 with stage := .ongoing } 0x1000 0 0x8006 3)) (fun t =>
      t.res0 == 3 && t.res1 == 0 && t.mem.readBytes 0x8006 3 == [0x00, 0x00, 0x00]) = true := by
  decide +kernel
/-- 95_test_vectors.md 2.11 -/
theorem test_params_derive :
    ends (exec .paramsDerive (withOps State.reset 3 0xFFFFFFFFFFFFFFFF 0 0)) (fun t =>
      t.res0 == 0x0000020501101115) = true := by
  decide +kernel
/-- 48_frame_assembler.md R281: what `CTX_INIT` latches and empties -/
theorem test_ctx_init :
    ends (exec .ctxInit { State.reset with cfg := cfg 3 1 3 }) (fun t =>
      t.stage == .initialized && t.p.strategy == 3 && t.ms.chainTable.size == 4096 && t.ms.hashTable3.size == 131072 &&
        t.bs0.rep == { r0 := 1, r1 := 4, r2 := 8 }) = true := by
  decide +kernel
/-- E5 -/
theorem test_ctx_init_reset_config :
    ends (exec .ctxInit State.reset) (fun t => t.status.code == 2 && t.stage == .created && t.ms.hashTable.size == 0) = true := by
  decide +kernel
/-- E13 and V-SEQ1: `SEQ.matchLength[0]` -/
theorem test_dbg_read :
    ends (exec .dbgRead (withOps { seqBench with
      seq := { SeqStore.empty with seqs := [{ offset := 1, litLength := 2, matchLength := 295 }] } } 1 0x200000000 0 0))
      (fun t => t.res0 == 295) = true := by
  decide +kernel
theorem test_dbg_read_space2 : ends (exec .dbgRead (withOps seqBench 2 0 0 0)) (fun t => t.status.code == 2) = true := by
  decide +kernel

/-! ## Witnesses: for every obligation with hypotheses, states and operands that meet them together -/

/-- The code a command ends with. -/
def codeOf (o : Host.Outcome State Fault Refusal) : Option Nat :=
  match o with
  | .next t => some t.status.code.toNat
  | .fault _ => none
  | .refused _ => none

/-- A host action pending on the machine after reset. -/
def pending (a : HostAction) : State := { State.reset with host := [a] }

theorem witness_IllegalWordsOnlyReport :
    (pending (.write 0 0x101)).host = .write 0 0x101 :: [] ∧
      decode ((0x101 : DWord).setWidth 32) = .illegal .undefinedMod ∧
      decode ((0x10001 : DWord).setWidth 32) = .illegal .reservedBits ∧
      decode ((9 : DWord).setWidth 32) = .illegal .reservedOpcode := by decide +kernel

theorem witness_StepRunsTheDecodedCommand :
    (pending (.write 0 6)).host = .write 0 6 :: [] ∧ decode ((6 : DWord).setWidth 32) = .ok .frameEnd ∧
      decodeTableWord 32 0x107 = some (.blockCompress 1) ∧ (pending (.write 0 6)).changed = .none ∧
      ends (step (pending (.write 0 6))) (fun t => t.status.code == 3) = true := by decide +kernel

theorem witness_HostRegistersReadBack :
    writableWidth 16 = some 8 ∧ writableWidth 24 = some 64 ∧ writableWidth 27 = some 16 ∧ writableWidth 21 = some 32 ∧
      writableWidth 6 = none ∧ isRegister 9 = false ∧ isRegister 77 = false ∧
      (pending (.write 16 5)).host = .write (15 + 1) 5 :: [] ∧ (pending (.read 1)).host = .read 1 :: [] ∧
      State.reset.host = [] := by decide +kernel

/-- V-WIN6's window before its third append: an external dictionary at 0x2000, a prefix that runs into it. -/
def extBench : State :=
  withOps { bench (cfg 1 1 4) [] with
    w := { base := 0x1DFF, dictBase := 0x1FFF, nextSrc := 0x1F80, dictLimit := 257, lowLimit := 1 } } 0x1F80 0x100 0 0

theorem witness_HostStoreChangesOneByte :
    let live (s : State) (a : Nat) : Bool := s.windowLive && s.w.covers s.impl.addrW a 1
    let s : State := { bufBench 1 with host := [.store 0x1000 7] }
    let u : State := { bufBench 1 with host := [.store 0x1038 7] }
    let v : State := { bufBench 1 with host := [.store 0x1000 0x61] }
    (s.mem.wf = true ∧ live s 0x1000 = true ∧ s.mem.read 0x1000 ≠ 7) ∧
      (u.mem.wf = true ∧ live u 0x1038 = false ∧ u.dms.covers u.impl.addrW 0x1038 1 = false) ∧
      (live v 0x1000 = true ∧ v.mem.read 0x1000 = 0x61) := by
  decide +kernel
/-- With ADDR_W = 32 an address of 33 bits whose low 32 are live history is no live byte: BLK_MATCH still runs. -/
theorem witness_HostStore_beyond :
    let s0 := withOps (bufBench 1) 0x1000 56 0 0
    let s : State := { s0 with
      impl := { s0.impl with addrW := 32 }, host := [.store 0x100001003 7, .write 0 0x30]
      w := { s0.w with base := 0xFFF } }
    s.mem.wf = true ∧ s.impl.legal = true ∧ 2 ^ s.impl.addrW ≤ 0x100001003 ∧ s.w.covers s.impl.addrW 0x100001003 1 = true ∧
      s.mem.read 0x100001003 ≠ 7 ∧
      ends (step s) (fun t => t.changed == s.changed && t.mem.read 0x1003 == s.mem.read 0x1003 &&
        ends (step t) (fun u => u.status.code == 0)) = true := by decide +kernel
/-- BLK_MATCH after a change of the block is refused; H1_INSFIND of an unchanged history, and SEQ_RESET after the change, run. -/
theorem witness_HostStore_launch :
    let s : State := { (withOps (bufBench 1) 0x1000 56 0 0).hostStore 0x1003 7 with host := [.write 0 0x30] }
    let s1 : State := { s with host := [], freeCtr := 1, cmd := 0x30 }
    s1.historyBroken .blkMatch = true ∧ codeOf (exec .blkMatch s1) = some 0 ∧ refuses (step s) .historyChanged = true ∧
      s1.historyBroken .seqReset = false ∧ codeOf (exec .seqReset s1) = some 0 := by decide +kernel
/-- A bank attached under a prefix of 8 bytes. -/
def attachedBench : State :=
  withOps { bufBench 1 with
    w := { base := 0x1FC7, dictBase := 0, nextSrc := 0x2008, dictLimit := 57, lowLimit := 57 }
    ms := { (bufBench 1).ms with dmsAttached := true, loadedDictEnd := 57, nextToUpdate := 57 }
    dms := { DmsBank.reset with
      valid := true, p := (cfg 1 1 4).latch, endIdx := 57
      hashTable := (cfg 1 1 4).latch.freshMs.hashTable
      w := { base := 0xFFF, dictBase := 0, nextSrc := 0x1038, dictLimit := 1, lowLimit := 1 } } } 0x2000 8 0 0

/-- A store that changes a live byte at index `x`, then BLK_MATCH: refused though the command alone would succeed. -/
def changedThenMatch (s : State) (a : DWord) : Bool :=
  let s0 : State := { s with host := [.store a 7, .write 0 0x30] }
  match step s0 with
  | .next t =>
    s.windowLive && s.impl.legal && s.mem.read a.toNat != 7 &&
      codeOf (exec .blkMatch { t with host := [], freeCtr := t.freeCtr + 1, cmd := 0x30 }) == some 0 &&
      refuses (step t) .historyChanged
  | .fault _ => false
  | .refused _ => false

/-- A byte of the prefix, of the external dictionary, of the attached bank's content. -/
theorem witness_HostStore_then_match :
    (let s := withOps (bufBench 1) 0x1000 56 0 0
     s.w.dictLimit.toNat ≤ 4 ∧ 4 < s.cur ∧ 0x1003 = addA s.impl.addrW s.w.base.toNat 4 ∧ s.w.lowLimit.toNat ≤ 4 ∧
       changedThenMatch s 0x1003 = true) ∧
      (let s := withOps extBench 0x1F00 0 0 0
       s.w.lowLimit.toNat ≤ 17 ∧ 17 < s.w.dictLimit.toNat ∧ 0x2010 = addA s.impl.addrW s.w.dictBase.toNat 17 ∧
         changedThenMatch s 0x2010 = true) ∧
      (let s := attachedBench
       s.dms.valid = true ∧ s.ms.dmsAttached = true ∧ s.dms.w.lowLimit.toNat ≤ 4 ∧ 4 < s.dms.endIdx.toNat ∧
         0x1003 = addA s.impl.addrW s.dms.w.base.toNat 4 ∧ changedThenMatch s 0x1003 = true) := by decide +kernel
/-- 93_implementation_defined.md U12: the chunk overwrites dictionary bytes, and its append drops them; the next command runs. -/
theorem witness_HostStore_overlap :
    let s := extBench
    (s.Ready ∧ s.impl.legal = true ∧ s.WindowOk ∧ s.changed.window ≤ s.w.lowLimit.toNat ∧ s.rangeOk s.op0 s.op1 = true ∧
      s.cur + s.op1.toNat < 2 ^ 32 ∧ s.op0.toNat ≤ 0x2010 ∧ 0x2010 < s.op0.toNat + s.op1.toNat) ∧
      addA s.impl.addrW s.w.base.toNat s.w.dictLimit.toNat + (s.cur - s.w.dictLimit.toNat) < 2 ^ s.impl.addrW ∧
      addA s.impl.addrW s.w.dictBase.toNat s.w.lowLimit.toNat + (s.w.dictLimit.toNat - s.w.lowLimit.toNat) <
        2 ^ s.impl.addrW ∧ (s.hostStore 0x2010 7).changed.window = 18 ∧
      ends (exec .winAppend (s.hostStore 0x2010 7)) (fun t => t.w.lowLimit == 129 && !t.historyBroken .blkMatch) = true := by
  decide +kernel

theorem witness_HardwareResetGivesTheStatedValues : (pending .reset).host = .reset :: [] := by decide +kernel

/-- The bench with the fatal bit, and with the lost-frame bit. -/
def fatalBench : State := { bufBench 1 with status := { code := 1, fatal := true, unspec := false } }
def lostBench : State := { bufBench 1 with status := { code := 5, fatal := false, unspec := true }, stage := .ongoing }

theorem witness_FatalGateRefusesAllButDebug : fatalBench.status.fatal = true ∧ Instr.ctxInit ≠ .dbgRead := by decide +kernel

theorem witness_LostFrameGateRefusesAllButThree :
    lostBench.status.unspec = true ∧ lostBench.status.fatal = false ∧ Instr.frameEnd ≠ .ctxInit ∧
      Instr.frameEnd ≠ .paramsDerive ∧ Instr.frameEnd ≠ .dmsBuild := by decide +kernel

theorem witness_StageCheckRefuses :
    State.reset.GatesOpen ∧ Instr.frameEnd.legalIn State.reset.stage = false ∧
      (let s : State := { bufBench 1 with ms := { (bufBench 1).ms with dmsAttached := true } }
       s.GatesOpen ∧ s.ms.dmsAttached = true) := by decide +kernel

theorem witness_OperandChecksAreExact :
    Instr.blkMatch.letThrough (bufBench 1) = true ∧
      Instr.blkMatch.operandsOk (withOps (bufBench 1) 0x1000 56 0 0) = true ∧
      Instr.blkMatch.operandsOk (withOps (bufBench 1) 0x1000 57 0 0) = false := by decide +kernel

/-- A machine with the least table storage (E7). -/
def smallTab (s : State) : State := { s with impl := { s.impl with tabCap := 4096 } }

/-- Two bytes of a 16-bit signed entry. -/
def norm16 (v : Int) : List Byte := leBytes 2 (BitVec.ofInt 16 v).toNat

/-- A descriptor (48_frame_assembler.md R307): repeat offsets `r`, 4, 8; a Huffman table of two symbols of one bit; the default
distributions (log 36 on its last two bytes). -/
def descriptorBytes (r : Nat) : List Byte :=
  leBytes 4 r ++ leBytes 4 4 ++ leBytes 4 8 ++ [1, 1, 0, 0, 1, 1] ++ List.replicate 254 0 ++
    [28, 5] ++ (ofDefaultNorm.map norm16).flatten ++ List.replicate 6 0 ++
    [52, 6] ++ (mlDefaultNorm.map norm16).flatten ++ [35, 6] ++ (llDefaultNorm.map norm16).flatten

/-- An empty window, `BUF` at 0x1000 and a descriptor at 0x600, the operands of a dictionary command set. -/
def dictBench (r : Nat) : State :=
  withOps { bufBench 1 with
    w := .init, mem := cellsFrom (cellsFrom [] 0x1000 buf) 0x600 (descriptorBytes r) } 0x1000 56 0x600 7

theorem test_descriptor_has_520_bytes : (descriptorBytes 1).length = 520 := by decide +kernel

theorem witness_LaterChecks_memory :
    let s := smallTab { State.reset with cfg := cfg 2 1 4 }
    (Instr.ctxInit.letThrough s = true ∧ Instr.ctxInit.operandsOk s = true ∧ s.impl.tabCap < s.cfg.workspace) ∧
      Instr.dmsBuild.letThrough s = true ∧ Instr.dmsBuild.operandsOk s = true ∧ s.impl.tabCap < s.cfg.baseEntries := by
  decide +kernel

theorem witness_LaterChecks_descriptor :
    let s := dictBench 0
    (Instr.dmsBuild.letThrough s = true ∧ Instr.dmsBuild.operandsOk s = true ∧ s.cfg.baseEntries ≤ s.impl.tabCap ∧
      s.descriptorOk = false) ∧ (Instr.dictLoad 1).letThrough s = true ∧ (Instr.dictLoad 1).operandsOk s = true := by
  decide +kernel

theorem witness_LaterChecks_pledge :
    let s := withOps (bufBench 1) 0x1000 299 0x8000 64
    let u := withOps (bufBench 1) 0x1000 301 0x8000 64
    (Instr.frameEnd.letThrough s = true ∧ Instr.frameEnd.operandsOk s = true ∧ s.p.pledged.toNat ≠ 2 ^ 64 - 1 ∧
      s.consumed.toNat + s.op1.toNat < s.p.pledged.toNat) ∧ Instr.frameEnd.operandsOk u = true ∧
      u.p.pledged.toNat < u.consumed.toNat + u.op1.toNat := by decide +kernel

/-- Every code comes from some command: the premises of ResultCodesComeFromTheirCommands and ErrorsLeaveTheStatedState. -/
theorem witness_ResultCodes_1_to_3 :
    codeOf (exec .ctxInit fatalBench) = some 1 ∧ codeOf (exec .ctxInit State.reset) = some 2 ∧
      codeOf (exec .frameEnd State.reset) = some 3 := by decide +kernel
theorem witness_ResultCodes_4_to_7 :
    codeOf (exec .ctxInit (smallTab { State.reset with cfg := cfg 2 1 4 })) = some 4 ∧
      codeOf (exec .litCompress (withOps (bufBench 1) 0x8000 0 0 0)) = some 5 ∧
      codeOf (exec .dmsBuild (dictBench 0)) = some 6 ∧
      codeOf (exec .frameEnd (withOps (bufBench 1) 0x1000 299 0x8000 64)) = some 7 := by decide +kernel

/-- E11: the second long match length sets `fatal`, from a state where it is 0. -/
def secondLong : State :=
  withOps { seqBench with
    seq := { SeqStore.empty with seqs := [{ offset := 5, litLength := 0, matchLength := 4464 }], longMatch := some 0 } }
    0 0x1000 5 70000

theorem witness_StickyBits_fatal :
    secondLong.status.fatal = false ∧ ends (exec .seqStore secondLong) (fun t => t.status.fatal) = true := by decide +kernel
theorem witness_StickyBits_lost :
    (let s := withOps { bufBench 1 with stage := .ongoing } 0x1000 56 0x8000 2
     s.status.unspec = false ∧ ends (exec (.blockCompress 0) s) (fun t => t.status.unspec) = true) ∧
      lostBench.status.unspec = true ∧ ends (exec .ctxInit lostBench) (fun t => !t.status.unspec) = true := by decide +kernel

/-- The LDM bench with a queue that begins at 0x1000. -/
def queued (off : Word) : State :=
  withOps { ldmBench with
    ldm := { ldmBench.ldm with seq := [{ litLength := 8, matchLength := 28, offset := off }], queueSrc := some 0x1000 } }
    0x1000 56 0 0

theorem witness_Refusals_ldm :
    (let s : State := { queued 8 with ldm := { (queued 8).ldm with queueSrc := some 0x1001 } }
     Instr.ldmBlkMatch.letThrough s = true ∧ Instr.ldmBlkMatch.operandsOk s = true ∧ s.ldm.queueSrc = some 0x1001 ∧
       s.op0 ≠ 0x1001 ∧ refuses (exec .ldmBlkMatch s) .ldmSourceMismatch = true) ∧
      (let s := queued 9
       Instr.ldmBlkMatch.operandsOk s = true ∧ s.ldm.queueSrc = some s.op0 ∧
         (∃ q, s.ldm.pending[0]? = some q ∧
           s.idx s.op0.toNat + rawLength (s.ldm.pending.take 0) + q.litLength.toNat < q.offset.toNat + s.histLow) ∧
         refuses (exec .ldmBlkMatch s) .ldmBelowHistory = true) ∧
      (queued 8).queueReachesBelow 0x1000 = false :=
  ⟨by decide +kernel, ⟨by decide +kernel, by decide +kernel, ⟨_, rfl, by decide +kernel⟩, by decide +kernel⟩, by decide +kernel⟩
/-- 43_ldm.md R177: the queue holds an offset below the history, in a sequence this block of 8 bytes does not reach. -/
theorem test_ldm_blk_match_queue_holds :
    refuses (exec .ldmBlkMatch (withOps (queued 9) 0x1000 8 0 0)) .ldmBelowHistory = true := by decide +kernel
/-- 43_ldm.md R180: 10 bytes skipped: the 8 literals of the first sequence and 2 of its 28 match bytes; skipped whole, it stays
in the queue before `LDM.pos` with no literals and no match. -/
theorem test_ldm_skip :
    ldmSkip 4 0 10 [{ litLength := 8, matchLength := 28, offset := 8 }] =
        { passed := [], rest := [{ litLength := 0, matchLength := 26, offset := 8 }] } ∧
      ldmSkip 4 0 34 [{ litLength := 8, matchLength := 28, offset := 8 }, { litLength := 1, matchLength := 9, offset := 2 }] =
        { passed := [{ litLength := 0, matchLength := 2, offset := 8 }],
          rest := [{ litLength := 3, matchLength := 9, offset := 2 }] } ∧
      ldmSkip 4 0 36 [{ litLength := 8, matchLength := 28, offset := 8 }] =
        { passed := [{ litLength := 0, matchLength := 0, offset := 8 }], rest := [] } := by decide +kernel
theorem witness_Refusals_destination :
    (let s := withOps { bufBench 1 with stage := .ongoing } 0x1000 56 0x1037 60
     (Instr.blockCompress 0).letThrough s = true ∧ (Instr.blockCompress 0).operandsOk s = true ∧
       s.destClash s.op0.toNat s.op1.toNat s.op2.toNat s.op3.toNat = true) ∧
      (let s := withOps (bufBench 1) 0x1000 300 0x1037 60
       Instr.frameEnd.letThrough s = true ∧ Instr.frameEnd.operandsOk s = true ∧ s.pledgeOk 300 false = true ∧
         s.pledgeOk 300 true = true ∧ s.destClash s.op0.toNat s.op1.toNat s.op2.toNat s.op3.toNat = true) ∧
      (let s := withOps (bufBench 1) 0xFFF 2 0 0
       s.Ready ∧ s.rangeOk s.op0 s.op1 = true ∧ s.destClash 0 0 s.op0.toNat s.op1.toNat = true) := by decide +kernel

/-- A command with a destination that answers next, and one without: the premises of the whole-machine rules. -/
theorem witness_MemoryChangesOnlyInTheDestination :
    let s := withOps (bufBench 1) 0x9000 64 0 0
    s.mem.wf = true ∧ Instr.litCompress.destination s = some (0x9000, 64) ∧ Instr.seqReset.destination s = none ∧
      codeOf (exec .litCompress s) = some 0 ∧ codeOf (exec .seqReset s) = some 0 ∧
      codeOf (exec .litCompress { s with op1 := 0 }) = some 5 := by decide +kernel
theorem witness_CommandsKeepHostRegistersAndBank :
    codeOf (exec .seqReset (bufBench 1)) = some 0 ∧ Instr.seqReset ≠ .dmsBuild ∧ Instr.seqReset ≠ .ctxInit := by
  decide +kernel
theorem witness_StageMoves_init : State.reset.stage ≠ .initialized ∧
    ends (exec .ctxInit { State.reset with cfg := cfg 1 1 4 }) (fun t => t.stage == .initialized) = true := by decide +kernel
theorem witness_StageMoves_frame :
    (bufBench 1).stage = .initialized ∧
      ends (exec .frameContinue (withOps (bufBench 1) 0x1000 0 0x8000 64)) (fun t => t.stage == .ongoing) = true ∧
      ends (exec (.blockCompress 1) (withOps { bufBench 1 with stage := .ongoing } 0x1000 0 0x8000 3))
        (fun t => t.stage == .ending) = true := by decide +kernel

theorem witness_CtxInitCompletes :
    let s : State := { State.reset with cfg := cfg 6 1 3 }
    let u : State := { State.reset with cfg := ldmBench.cfg }
    (s.status.fatal = false ∧ s.cfg.valid = true ∧ s.cfg.workspace ≤ s.impl.tabCap ∧ s.cfg.ldmEnable = false) ∧
      u.cfg.valid = true ∧ u.cfg.workspace ≤ u.impl.tabCap ∧ u.cfg.ldmEnable = true := by decide +kernel
theorem witness_ParamsDerive :
    State.reset.status.fatal = false ∧ State.reset.impl.legal = true ∧ (0 : DWord).toNat % 2 ^ 32 = 0 ∧
      22 < (23 : DWord).toNat % 2 ^ 32 ∧ (0x7FFFFFFF : DWord).toNat % 2 ^ 32 < 2 ^ 31 := by decide +kernel
theorem witness_DictLoadCompletes :
    let s := dictBench 1
    s.GatesOpen ∧ s.stage = .initialized ∧ s.impl.legal = true ∧ s.WindowOk ∧ s.dictOperandsOk = true ∧
      s.cur + s.op1.toNat < 2 ^ 32 ∧ s.descriptorOk = true ∧ 0 < s.op1.toNat ∧ s.op2 ≠ 0 ∧ s.p.ldmEnable = false ∧
      ({ s with op2 := 0 } : State).descriptorOk = true ∧
      (let u : State := { s with op1 := 0, op2 := 0 }
       u.dictOperandsOk = true ∧ u.cur + u.op1.toNat < 2 ^ 32 ∧ u.descriptorOk = true) := by decide +kernel
theorem witness_DmsBuildCompletes :
    let s := dictBench 56
    s.status.fatal = false ∧ s.ms.dmsAttached = false ∧ s.impl.legal = true ∧ s.cfg.coreValid = true ∧
      s.dictOperandsOk = true ∧ s.op1.toNat + 1 < 2 ^ 32 ∧ s.cfg.baseEntries ≤ s.impl.tabCap ∧ s.descriptorOk = true ∧
      s.op2 ≠ 0 ∧ ({ s with op2 := 0 } : State).descriptorOk = true := by decide +kernel
theorem witness_DictAttachCompletes :
    let s (e : Word) : State := { bufBench 1 with
      w := .init
      dms := { DmsBank.reset with
        valid := true, p := (cfg 1 1 4).latch, endIdx := e
        w := { base := 0xFFF, dictBase := 0, nextSrc := 0x1038, dictLimit := 1, lowLimit := 1 } } }
    ((s 57).GatesOpen ∧ (s 57).stage = .initialized ∧ (s 57).impl.legal = true ∧ (s 57).dms.valid = true ∧
      (s 57).dms.p.layout = (s 57).p.layout ∧ (s 57).cur = 1 ∧ (s 57).dms.endIdx ≠ 1) ∧ (s 1).dms.endIdx = 1 ∧
      (s 1).cur = 1 := by decide +kernel

theorem witness_WinAppendCompletes :
    let s := withOps (bufBench 1) 0x1038 8 0 0
    let u := withOps (bufBench 1) 0x5000 8 0 0
    (s.Ready ∧ s.impl.legal = true ∧ s.WindowOk ∧ s.rangeOk s.op0 s.op1 = true ∧ s.cur + s.op1.toNat < 2 ^ 32 ∧
      s.op0 = s.w.nextSrc) ∧ u.rangeOk u.op0 u.op1 = true ∧ u.op0 ≠ u.w.nextSrc ∧ u.op1 ≠ 0 ∧ ldmBench.p.ldmEnable = true := by
  decide +kernel
theorem witness_WinEnforceMaxdist :
    let s := withOps (bufBench 1) 0x1038 20 0 0
    s.Ready ∧ s.WindowOk ∧ s.posOk s.op0 = true ∧ s.op1.toNat + s.ms.loadedDictEnd.toNat < s.idx s.op0.toNat ∧
      s.idx s.op0.toNat ≤ 57 + s.ms.loadedDictEnd.toNat := by decide +kernel
theorem witness_WinNeedsCorrection :
    let s := withOps (bufBench 1) 0x1038 0 0 0
    (s.Ready ∧ s.posOk s.op0 = true) ∧ (withOps (bufBench 1) 0x1039 0 0 0).posOk 0x1039 = false ∧
      State.reset.GatesOpen ∧ State.reset.stage.isIO = false := by decide +kernel
theorem witness_WinCorrectOverflow :
    let s := withOps (bufBench 1) 2 8 0x1038 0
    s.Ready ∧ s.impl.legal = true ∧ s.WindowOk ∧ s.op0.toNat ≤ 30 ∧ s.posOk s.op2 = true ∧
      (if s.idx s.op2.toNat % 2 ^ s.op0.toNat = 0 then 2 ^ s.op0.toNat else s.idx s.op2.toNat % 2 ^ s.op0.toNat) + s.op1.toNat <
        s.idx s.op2.toNat ∧ s.op1.toNat % 2 ^ s.op0.toNat = 0 ∧ s.canonical = true ∧
      codeOf (exec .winCorrectOverflow s) = some 0 := by decide +kernel
theorem witness_BlockStepCorrection :
    (bufBench 1).p.inRange = true ∧ 56 ≤ (bufBench 1).p.blockSizeMax ∧
      (bufBench 1).p.needsCorrection (1700000000 + 56) = true ∧
      corrOf (bufBench 1).p.cycleLog (bufBench 1).p.windowSize 1700000000 ≤ 1700000000 := by decide +kernel
theorem witness_MatchLen : (9 : Nat) ≤ 57 ∧ (bufBench 1).view.matchLen 9 1 57 = 28 := by decide +kernel

theorem witness_SingleHash :
    let s := withOps (bufBench 1) 0x1000 0 0 0
    s.Ready ∧ s.canonical = true ∧ s.TablesSized ∧ s.WindowOk ∧ s.p.layout = .singleHash ∧ s.posOk s.op0 = true ∧
      s.idx s.op0.toNat + 8 ≤ s.cur := by decide +kernel
theorem witness_DualHash :
    let s := withOps (bufBench 2) 0x1030 0 0 0
    s.Ready ∧ s.canonical = true ∧ s.TablesSized ∧ s.WindowOk ∧ s.p.layout = .dualHash ∧ s.posOk s.op0 = true ∧
      s.idx s.op0.toNat + 8 ≤ s.cur := by decide +kernel
theorem witness_HashChainInsert :
    let s := withOps (bufBench 3) 0x1010 0 0 0
    s.Ready ∧ s.canonical = true ∧ s.TablesSized ∧ s.WindowOk ∧ s.p.layout = .hashChain ∧ s.posOk s.op0 = true ∧
      s.idx s.op0.toNat + 8 ≤ s.cur := by decide +kernel
theorem witness_HashChainSearch :
    let s := withOps (bufBench 3) 0x1010 0x1038 0 0
    s.Ready ∧ s.impl.legal = true ∧ s.TablesSized ∧ s.WindowOk ∧ s.BankOk ∧ s.p.layout = .hashChain ∧
      s.posOk s.op0 = true ∧ s.posOk s.op1 = true ∧ s.idx s.op0.toNat + 8 ≤ s.idx s.op1.toNat := by decide +kernel
theorem witness_Tree :
    let s := withOps (bufBench 6) 0x1010 0x1038 0 0
    s.Ready ∧ s.canonical = true ∧ s.impl.legal = true ∧ s.TablesSized ∧ s.WindowOk ∧ s.BankOk ∧
      s.p.layout = .binaryTree ∧ s.posOk s.op0 = true ∧ s.posOk s.op1 = true ∧
      s.idx s.op0.toNat + 8 ≤ s.idx s.op1.toNat := by decide +kernel
theorem witness_ShortHash :
    let s := withOps (bench (cfg 6 2 3) buf) 0x1010 0 0 0
    s.Ready ∧ s.canonical = true ∧ s.TablesSized ∧ s.WindowOk ∧ s.p.minMatch.toNat = 3 ∧ s.posOk s.op0 = true ∧
      s.idx s.op0.toNat + 8 ≤ s.cur := by decide +kernel
theorem witness_TabFill :
    let s := withOps (bufBench 1) 0x1038 0 0 0
    let u := withOps (bufBench 1) 0x1003 0 0 0
    (s.Ready ∧ s.canonical = true ∧ s.TablesSized ∧ s.WindowOk ∧ s.posOk s.op0 = true ∧ 8 ≤ s.idx s.op0.toNat ∧
      max s.ms.nextToUpdate.toNat s.w.lowLimit.toNat ≤ s.idx s.op0.toNat - 8 ∧ s.p.layout = .singleHash) ∧
      u.posOk u.op0 = true ∧ u.idx u.op0.toNat < 8 := by decide +kernel

theorem witness_BlkMatch :
    let s := withOps (bufBench 1) 0x1000 56 0 0
    s.Ready ∧ s.impl.legal = true ∧ s.blockOk s.op0 s.op1 = true ∧ s.seq.longLit = none ∧ s.seq.longMatch = none ∧
      s.RunOk ∧ s.cur + 2 ^ 17 + 3 < 2 ^ 32 ∧ s.seq = SeqStore.empty ∧ codeOf (exec .blkMatch s) = some 0 ∧
      s.prev.rep.r0 ≠ 0 := by decide +kernel
theorem witness_LdmGenerate :
    let s := withOps ldmBench 0x1000 56 0 0
    s.Ready ∧ s.p.ldmEnable = true ∧ s.spanOk s.ldm.w s.op0 s.op1 = true ∧
      s.op1.toNat / s.p.ldmMinMatch.toNat ≤ s.impl.ldmSeqCap ∧ s.impl.legal = true ∧ s.op1.toNat < 2 ^ 32 ∧
      s.ldm.w.cur s.impl.addrW < 2 ^ 32 ∧
      s.ldm.w.idx s.impl.addrW s.op0.toNat + s.op1.toNat ≤ s.ldm.w.cur s.impl.addrW ∧
      ends (exec .ldmGenerate s) (fun t => t.ldm.seq[1]? == some { litLength := 4, matchLength := 16, offset := 32 }) = true := by
  decide +kernel
theorem witness_LdmBlkMatch :
    let s : State := withOps { ldmBench with
      ldm := { ldmBench.ldm with seq := [{ litLength := 0, matchLength := 12, offset := 16 }], queueSrc := some 0x1010 } }
      0x1010 40 0 0
    let u : State := { s with ldm := ldmBench.ldm }
    (s.Ready ∧ s.p.ldmEnable = true ∧ s.p.inRange = true ∧ s.blockOk s.op0 s.op1 = true ∧ s.queueHere s.op0 = true ∧
      s.seq.longLit = none ∧ s.seq.longMatch = none ∧ s.ldm.pending ≠ [] ∧
      (∀ q ∈ s.ldm.pending, 3 ≤ q.matchLength.toNat) ∧ s.queueReachesBelow s.op0 = false ∧
      s.ldm.pos ≤ s.ldm.seq.length ∧ (∀ q ∈ s.ldm.pending, q.offset ≠ 0 ∧ q.offset.toNat + 3 < 2 ^ 32 ∧
        q.litLength.toNat + q.matchLength.toNat ≤ s.op1.toNat) ∧ rawLength s.ldm.pending ≤ s.op1.toNat) ∧
      (u.queueHere u.op0 = true ∧ u.ldm.pending = []) := by decide +kernel

theorem witness_SeqStore :
    let s := withOps seqBench 3 0x1000 5 7
    (s.Ready ∧ s.spanOk s.w s.op1 s.op0 = true ∧ 1 ≤ s.op2.toNat ∧ s.op2.toNat < 2 ^ 32 ∧ s.op0.toNat < 2 ^ 17 ∧
      s.op3.toNat < 2 ^ 17 ∧ s.seq.seqs.length < 43690 ∧ s.seq.lit.length + s.op0.toNat ≤ 131072 ∧
      ¬ 65535 < s.op0.toNat ∧ ¬ 65535 < s.op3.toNat) ∧
      (let u := secondLong
       u.Ready ∧ u.spanOk u.w u.op1 u.op0 = true ∧ 1 ≤ u.op2.toNat ∧ u.op3.toNat < 2 ^ 17 ∧ 65535 < u.op3.toNat ∧
         u.seq.longMatch ≠ none) := by decide +kernel
theorem witness_SeqLastlit :
    let s := withOps seqBench 0x1005 4 0 0
    s.Ready ∧ s.spanOk s.w s.op0 s.op1 = true ∧ s.seq.lit.length + s.op1.toNat ≤ 131072 := by decide +kernel
theorem witness_SeqToCodes :
    let q : Seq := { offset := 1, litLength := 2, matchLength := 295 }
    let s : State := { seqBench with seq := { SeqStore.empty with seqs := [q] } }
    s.Ready ∧ s.seq.seqs[0]? = some q := by decide +kernel
theorem witness_Codes : llCode 16 = llCode 17 ∧ mlCode 32 = mlCode 33 ∧ highbit 2 = highbit 3 ∧ llCode 65535 = 34 ∧
    mlCode 65535 = 51 := by decide +kernel
theorem witness_LitCompress :
    let s : State := withOps { seqBench with seq := { SeqStore.empty with lit := List.replicate 100 0x41 } } 0x9000 3 0 0
    (s.Ready ∧ s.mem.wf = true ∧ s.rangeOk s.op0 s.op1 = true ∧ s.destClash 0 0 s.op0.toNat s.op1.toNat = false ∧
      (litCompress s.prev.huf s.seq.lit).bytes.length ≤ s.op1.toNat) ∧ 63 < s.seq.lit.length ∧
      s.seq.lit = List.replicate s.seq.lit.length 0x41 ∧
      (let u : State := { s with op1 := 2 }
       u.rangeOk u.op0 u.op1 = true ∧ u.destClash 0 0 u.op0.toNat u.op1.toNat = false ∧
         u.op1.toNat < (litCompress u.prev.huf u.seq.lit).bytes.length) := by decide +kernel
theorem witness_SeqEncode :
    let s (n : DWord) : State := withOps { seqBench with
      seq := { SeqStore.empty with seqs := [{ offset := 1, litLength := 2, matchLength := 295 }] } } 0x9000 n 0 0
    (s 6).Ready ∧ (s 6).rangeOk (s 6).op0 (s 6).op1 = true ∧ (s 6).destClash 0 0 0x9000 6 = false ∧
      ((seqEncode (s 6).prev (s 6).freeCtr (s 6).seq).2.map (fun o => o.bytes.length)) = some 6 ∧ (s 5).op1.toNat < 6 ∧
      seqBench.seq.seqs = [] ∧ ((seqEncode seqBench.prev 0 seqBench.seq).2.map (fun o => o.bytes.length)) = some 1 ∧
      (withOps seqBench 0x9000 0 0 0).op1.toNat < 1 ∧ (withOps seqBench 0x9000 0 0 0).destClash 0 0 0x9000 0 = false := by
  decide +kernel
/-- 60_exceptions.md R331: an empty store whose one byte does not fit has its codes valid after the error. -/
theorem test_seq_encode_empty_cap0 :
    ends (exec .seqEncode (withOps seqBench 0x9000 0 0 0)) (fun t => t.status.code == 5 && t.seq.codesValid) = true := by
  decide +kernel

theorem witness_FrameHeader :
    (bufBench 1).p.inRange = true ∧ (bufBench 1).p.sizeKnown = true ∧ (bufBench 1).p.noDictIDFlag = false := by decide +kernel
theorem witness_BlockCompress :
    let s := withOps { bufBench 1 with stage := .ongoing } 0x1000 56 0x8000 59
    s.GatesOpen ∧ s.stage = .ongoing ∧ s.mem.wf = true ∧ s.op1.toNat ≤ s.p.blockSizeMax ∧
      s.spanOk s.w s.op0 s.op1 = true ∧ s.rangeOk s.op2 s.op3 = true ∧
      s.destClash s.op0.toNat s.op1.toNat s.op2.toNat s.op3.toNat = false ∧ s.op1.toNat + 3 ≤ s.op3.toNat := by decide +kernel
theorem witness_UnitThatDoesNotFit :
    (let s := withOps (bufBench 1) 0x1000 300 0x8000 6
     s.GatesOpen ∧ s.stage = .initialized ∧ s.rangeOk s.op0 s.op1 = true ∧ s.rangeOk s.op2 s.op3 = true ∧
       s.cur + s.op1.toNat < 2 ^ s.impl.addrW ∧
       s.destClash s.op0.toNat s.op1.toNat s.op2.toNat s.op3.toNat = false ∧ s.op3.toNat < s.frameHeader.length ∧
       s.pledgeOk s.op1.toNat false = true ∧ s.pledgeOk s.op1.toNat true = true) ∧
      (let s := withOps { bufBench 1 with stage := .ongoing } 0x1000 56 0x8000 24
       s.GatesOpen ∧ s.stage = .ongoing ∧ s.op1.toNat ≤ s.p.blockSizeMax ∧ s.spanOk s.w s.op0 s.op1 = true ∧
         s.rangeOk s.op2 s.op3 = true ∧ s.destClash s.op0.toNat s.op1.toNat s.op2.toNat s.op3.toNat = false ∧
         s.op3.toNat < 3 + (blockBody (blockWindow s s.op0.toNat s.op1.toNat) s.op0.toNat s.op1.toNat).2.2.length) := by
  decide +kernel
/-- V-BLC1's block is a unit of 25 bytes: 24 lose the frame, in BLOCK_COMPRESS and in a frame command (6 bytes of header before
it), 25 do not. -/
theorem witness_UnitThatDoesNotFit_block :
    (let s := withOps { bufBench 1 with stage := .ongoing } 0x1000 56 0x8000 0
     (blockStep s 0x1000 56 true 0x8000 24).2.isNone = true ∧ (blockStep s 0x1000 56 true 0x8000 25).2.isNone = false) ∧
      (let s := withOps { bufBench 1 with
         w := .init, p := { (bufBench 1).p with pledged := 0xFFFFFFFFFFFFFFFF } } 0x1000 56 0x8000 30
       s.Ready ∧ s.mem.wf = true ∧ s.rangeOk s.op0 s.op1 = true ∧ s.rangeOk s.op2 s.op3 = true ∧
         s.cur + s.op1.toNat < 2 ^ s.impl.addrW ∧
         s.destClash s.op0.toNat s.op1.toNat s.op2.toNat s.op3.toNat = false ∧
         (∀ last, s.pledgeOk s.op1.toNat last = true) ∧
         (match s.writeHeader s.op2.toNat s.op3.toNat with
          | none => false
          | some (u, w) => decide (w = 6) && !(frameChunk u 0x1000 56 0x8000 30 true w).2.2 &&
              !(frameChunk u 0x1000 56 0x8000 30 false w).2.2) = true ∧ s.status.unspec = false ∧
         ends (exec .frameEnd s) (fun t => t.status.unspec && t.res0 == 6) = true ∧
         ends (exec .frameContinue s) (fun t => t.status.unspec && t.res0 == 6) = true) := by decide +kernel
theorem witness_FrameContinue :
    let s := withOps (bufBench 1) 0x1038 56 0x8000 77
    (s.Ready ∧ s.mem.wf = true ∧ s.rangeOk s.op0 s.op1 = true ∧ s.rangeOk s.op2 s.op3 = true ∧
      s.cur + s.op1.toNat < 2 ^ s.impl.addrW ∧ s.pledgeOk s.op1.toNat false = true ∧
      s.destClash s.op0.toNat s.op1.toNat s.op2.toNat s.op3.toNat = false ∧
      18 + s.op1.toNat + 3 * (s.op1.toNat / s.p.blockSizeMax + 1) ≤ s.op3.toNat) ∧ s.stage = .initialized ∧
      s.consumed.toNat + s.op1.toNat < 2 ^ 64 := by decide +kernel
theorem witness_FrameEnd :
    let s := withOps { bufBench 1 with p := { (bufBench 1).p with pledged := 56, checksumFlag := true } } 0x1038 56 0x8000 84
    let u := withOps { bufBench 1 with p := { (bufBench 1).p with pledged := 0 } } 0 0 0x8000 28
    (s.Ready ∧ s.mem.wf = true ∧ s.rangeOk s.op0 s.op1 = true ∧ s.rangeOk s.op2 s.op3 = true ∧
      s.cur + s.op1.toNat < 2 ^ s.impl.addrW ∧ s.pledgeOk s.op1.toNat true = true ∧
      s.destClash s.op0.toNat s.op1.toNat s.op2.toNat s.op3.toNat = false ∧
      25 + s.op1.toNat + 3 * (s.op1.toNat / s.p.blockSizeMax + 1) ≤ s.op3.toNat ∧ s.p.checksumFlag = true) ∧
      u.Ready ∧ u.pledgeOk u.op1.toNat true = true ∧ u.op1 = 0 := by decide +kernel
theorem witness_DebugRead :
    let s : State := { seqBench with
      ms := (cfg 6 1 3).latch.freshMs
      dms := { DmsBank.reset with valid := true, hashTable := .zeros 64, chainTable := .zeros 64 }
      p := ldmBench.p
      seq := SeqStore.toCodes { SeqStore.empty with
        seqs := [{ offset := 1, litLength := 2, matchLength := 295 }], lit := [0x61, 0x62] } }
    (s.status.unspec = false ∧ 4095 < s.ms.hashTable.size ∧ 4095 < s.ms.chainTable.size ∧ 131071 < s.ms.hashTable3.size ∧
      ¬ 4096 < s.ms.hashTable.size ∧ s.dms.valid = true ∧ 63 < s.dms.hashTable.size ∧ 63 < s.dms.chainTable.size ∧
      s.p.ldmEnable = true ∧ 1023 < 2 ^ s.p.ldmHashLog.toNat ∧ s.seq.seqs[0]? ≠ none ∧ s.seq.seqs[1]? = none ∧
      s.seq.lit[1]? = some 0x62 ∧ s.seq.lit[2]? = none ∧ s.seq.codesValid = true ∧ s.seq.codes[0]? ≠ none ∧
      1 < (withOps s 2 0 0 0).op0.toNat) ∧
      ends (exec .dbgRead (withOps s 1 0x600000000 0 0)) (fun t => t.res0 == 44) = true := by decide +kernel

/-- The premises of the invariants: states in the middle of a frame that meet them, and a step from one. -/
theorem witness_StepKeeps :
    let s : State := { withOps (bufBench 1) 0x1000 0 0 0 with host := [.write 0 0x21] }
    s.canonical = true ∧ s.TablesSized ∧ s.RunOk ∧
      ends (step s) (fun t => t.status.code == 0 && t.ms.hashTable.cells == [(1584, 1)]) = true := by decide +kernel

end Sys2Proof.Tests
end

/-! # Proofs of the state family (10_state.md)

## The frame of a command: what no command changes -/

section
namespace Sys2Proof.Machine

open Sys2Proof

/-- `t` is `s` but for what a command other than CTX_INIT and DMS_BUILD may write. -/
def CommandFrame (s t : State) : Prop :=
  t = { s with
    freeCtr := t.freeCtr, mem := t.mem, status := t.status, res0 := t.res0, res1 := t.res1, stage := t.stage, w := t.w
    ms := t.ms, seq := t.seq, bs0 := t.bs0, bs1 := t.bs1, prevSel := t.prevSel, dictID := t.dictID
    consumed := t.consumed, isFirstBlock := t.isFirstBlock, chk := t.chk, ldm := t.ldm }

theorem CommandFrame.trans {s t u : State} (h : CommandFrame s t) (k : CommandFrame t u) : CommandFrame s u := by
  unfold CommandFrame at *
  rw [h] at k
  exact k

theorem CommandFrame.refl (s : State) : CommandFrame s s := rfl
theorem CommandFrame.withCode {s t : State} (h : CommandFrame s t) (c : Byte) : CommandFrame s (t.withCode c) := h.trans rfl
theorem CommandFrame.setRes0 {s t : State} (h : CommandFrame s t) (v : Nat) : CommandFrame s (t.setRes0 v) := h.trans rfl
theorem CommandFrame.setRes1 {s t : State} (h : CommandFrame s t) (v : Nat) : CommandFrame s (t.setRes1 v) := h.trans rfl
theorem CommandFrame.setFatal {s t : State} (h : CommandFrame s t) : CommandFrame s t.setFatal := h.trans rfl
theorem CommandFrame.setUnspec {s t : State} (h : CommandFrame s t) : CommandFrame s t.setUnspec := h.trans rfl
theorem CommandFrame.setStage {s t : State} (h : CommandFrame s t) (g : Stage) : CommandFrame s { t with stage := g } :=
  h.trans rfl
theorem CommandFrame.setMs (s : State) (m : MatchState) : CommandFrame s { s with ms := m } := rfl
theorem CommandFrame.setSeq (s : State) (q : SeqStore) : CommandFrame s { s with seq := q } := rfl
theorem CommandFrame.setLdm (s : State) (l : LdmState) : CommandFrame s { s with ldm := l } := rfl
theorem CommandFrame.writeDst {s t : State} (h : CommandFrame s t) (a : Nat) (bytes : List Byte) :
    CommandFrame s (t.writeDst a bytes) := h.trans rfl

theorem FlowFrame.command {s t : State} (h : FlowFrame s t) : CommandFrame s t := by
  unfold FlowFrame CommandFrame at *
  rw [h]

theorem BlockFrame.command {s t : State} (h : BlockFrame s t) : CommandFrame s t := h.step.flow.command

theorem CommandFrame.setPrev {s t : State} (h : CommandFrame s t) (b : BlockState) : CommandFrame s (t.setPrev b) :=
  h.trans (BlockFrame.setPrev t b).command
theorem CommandFrame.setNextBs {s t : State} (h : CommandFrame s t) (b : BlockState) : CommandFrame s (t.setNextBs b) :=
  h.trans (BlockFrame.setNextBs t b).command

theorem winAppend_command (s : State) (src n : Nat) : CommandFrame s (winAppend s src n).1 := by
  rw [winAppend_frame]; rfl

theorem winEnforceMaxDist_command (s : State) (e d : Nat) : CommandFrame s (winEnforceMaxDist s e d) := by
  rw [winEnforceMaxDist_frame]; rfl

theorem dictLoadContent_command (s : State) (src len : Nat) (full : Bool) :
    CommandFrame s (dictLoadContent s src len full) := by
  unfold dictLoadContent
  split
  · rfl
  · refine (winAppend_command s src len).trans ?_
    unfold dictContent
    dsimp only
    generalize (winAppend s src len).1 = s1
    split <;> rfl

theorem winCorrectOverflow_command (s : State) (c d i : Nat) : CommandFrame s (winCorrectOverflow s c d i) := by
  rw [winCorrectOverflow_frame]; rfl

theorem State.attach_command (s : State) : CommandFrame s s.attach := by
  refine CommandFrame.setPrev ?_ s.dms.bs; rfl

theorem finishMatch_command {s t : State} {iend : Nat} {r : MatchRun} (h : (finishMatch s iend r).outcome = .next t) :
    CommandFrame s t := by
  have hw : CommandFrame s (s.withWork r.work) := rfl
  rcases finishMatch_next h with ⟨_, rfl⟩ | ⟨_, rfl⟩
  · exact hw.setFatal.withCode 1
  · exact (((hw.setNextBs _).setRes0 _).setRes1 _).withCode 0

theorem FrameRun.command {s t : State} (h : FrameRun s t) : CommandFrame s t := by
  rcases h with ⟨_, _, rfl⟩ | ⟨u, w, hu, _, _, _, rfl⟩
  · exact ((CommandFrame.refl s).setRes0 0).withCode 5
  · exact (hu.command.setUnspec.setRes0 w).withCode 5

/-- The checks of R327 write `STATUS.code` only. -/
theorem TurnedAway.withCode {i : Instr} {s t : State} (h : TurnedAway i s t) : ∃ c, t = s.withCode c := by
  rcases h with ⟨_, _, h⟩ | ⟨_, h⟩ | ⟨_, _, h⟩ <;> exact ⟨_, h⟩

/-- What the work of a command leaves of the state before, for every command but CTX_INIT and DMS_BUILD. -/
theorem Worked.command {i : Instr} {s t : State} (h : Worked i s t) (hc : i ≠ .ctxInit) (hd : i ≠ .dmsBuild) :
    CommandFrame s t := by
  have hs := CommandFrame.refl s
  cases i with
  | ctxInit => exact absurd rfl hc
  | dmsBuild => exact absurd rfl hd
  | dictLoad m =>
    rcases h with ⟨_, rfl⟩ | ⟨_, rfl⟩
    · exact hs.withCode 6
    · have hl := dictLoadContent_command s s.op0.toNat s.op1.toNat (modBit0 m)
      refine CommandFrame.trans (t := if s.op2 = 0 then _ else _) ?_ rfl
      split
      · exact hl
      · exact hl.setPrev _
  | dictAttach =>
    subst h
    split
    · exact hs.withCode 0
    · exact s.attach_command.withCode 0
  | frameContinue =>
    rcases h with ⟨_, rfl⟩ | ⟨_, h | ⟨u, w, hu, _, _, _, rfl⟩⟩
    · exact hs.withCode 7
    · exact h.command
    · exact ((hu.command.setRes0 _).setRes1 _).withCode 0
  | frameEnd =>
    rcases h with ⟨_, rfl⟩ | ⟨_, h | ⟨u, w, hu, _, _, rfl⟩⟩
    · exact hs.withCode 7
    · exact h.command
    · exact (((hu.command.setRes0 _).setRes1 _).setStage .created).withCode 0
  | blockCompress m =>
    rcases h with ⟨u, hu, _, _, rfl⟩ | ⟨u, k, typ, hu, _, _, rfl⟩
    · exact (hu.flow.command.setUnspec.setRes0 0).withCode 5
    · have hr := (hu.flow.command.setRes0 k).setRes1 typ
      split
      · exact (hr.setStage .ending).withCode 0
      · exact hr.withCode 0
  | winAppend => subst h; exact ((winAppend_command s _ _).setRes0 _).withCode 0
  | winEnforceMaxdist => subst h; exact (winEnforceMaxDist_command s _ _).withCode 0
  | winCorrectOverflow => subst h; exact ((winCorrectOverflow_command s _ _ _).setRes0 _).withCode 0
  | paramsDerive => subst h; exact ((hs.setRes0 _).setRes1 _).withCode 0
  | winNeedsCorrection => subst h; exact (hs.setRes0 _).withCode 0
  | dbgRead => obtain ⟨v, _, rfl⟩ := h; exact (hs.setRes0 v).withCode 0
  | tabFill _ | btUpdate => subst h; exact (CommandFrame.setMs s _).withCode 0
  | h1Insfind | hcInsfind | h3Insfind => subst h; exact ((CommandFrame.setMs s _).setRes0 _).withCode 0
  | dhInsfind | hcSearch | btSearch => subst h; exact (((CommandFrame.setMs s _).setRes0 _).setRes1 _).withCode 0
  | blkMatch => exact finishMatch_command h
  | ldmBlkMatch => exact (CommandFrame.setLdm s _).trans (finishMatch_command h.2.2)
  | ldmGenerate => subst h; exact ((CommandFrame.setLdm s _).setRes0 _).withCode 0
  | seqStore =>
    rcases h with ⟨_, rfl⟩ | ⟨_, rfl⟩
    · exact (CommandFrame.setSeq s _).setFatal.withCode 1
    · exact (CommandFrame.setSeq s _).withCode 0
  | seqReset | seqLastlit | seqToCodes => subst h; exact (CommandFrame.setSeq s _).withCode 0
  | litCompress =>
    rcases h with ⟨_, rfl⟩ | ⟨_, rfl⟩
    · exact hs.withCode 5
    · exact ((((hs.writeDst _ _).setNextBs _).setRes0 _).setRes1 _).withCode 0
  | seqEncode =>
    rcases h with ⟨_, rfl⟩ | ⟨_, _, _, rfl⟩ | ⟨o, _, _, rfl⟩
    · exact (CommandFrame.setSeq s _).withCode 1
    · exact (CommandFrame.setSeq s _).withCode 5
    · exact (((((CommandFrame.setSeq s _).writeDst _ _).setNextBs _).setRes0 _).setRes1 _).withCode 0

/-- What CTX_INIT leaves (R281): it was turned away, or the parameters did not fit, or the context is fresh. -/
theorem ctxInit_next {s t : State} (h : exec .ctxInit s = .next t) :
    (∃ c, t = s.withCode c) ∨ (s.cfg.valid = true ∧ t = s.ctxInit.withCode 0) := by
  rcases exec_next h with h | ⟨_, ho, ⟨_, h⟩ | ⟨_, h⟩⟩
  · exact .inl h.withCode
  · exact .inl ⟨_, h⟩
  · exact .inr ⟨ho, h⟩

/-- What DMS_BUILD leaves (R309): nothing changed but the code, or the bank built, which no frame referenced. -/
theorem dmsBuild_next {s t : State} (h : exec .dmsBuild s = .next t) :
    (∃ c, t = s.withCode c) ∨
      (Instr.dmsBuild.letThrough s = true ∧ Instr.dmsBuild.operandsOk s = true ∧
        t = ({ s with dms := buildBank s } : State).withCode 0) := by
  rcases exec_next h with h | ⟨hl, ho, ⟨_, h⟩ | ⟨_, _, h⟩ | ⟨_, _, h⟩⟩
  · exact .inl h.withCode
  · exact .inl ⟨_, h⟩
  · exact .inl ⟨_, h⟩
  · exact .inr ⟨hl, ho, h⟩

/-- THE FRAME OF exec: whatever a command answers, it is the state before but for what that command may write. -/
theorem exec_command {i : Instr} {s t : State} (h : exec i s = .next t) :
    ∃ p dms, CommandFrame { s with p := p, dms := dms } t ∧ (i ≠ .ctxInit → p = s.p) ∧ (i ≠ .dmsBuild → dms = s.dms) := by
  by_cases hc : i = .ctxInit
  · subst hc
    refine ⟨t.p, s.dms, ?_, fun h => absurd rfl h, fun _ => rfl⟩
    rcases ctxInit_next h with ⟨c, rfl⟩ | ⟨_, rfl⟩ <;> rfl
  · by_cases hd : i = .dmsBuild
    · subst hd
      refine ⟨s.p, t.dms, ?_, fun _ => rfl, fun h => absurd rfl h⟩
      rcases dmsBuild_next h with ⟨c, rfl⟩ | ⟨_, _, rfl⟩ <;> rfl
    · refine ⟨s.p, s.dms, ?_, fun _ => rfl, fun _ => rfl⟩
      rcases exec_next h with h | ⟨_, _, h⟩
      · obtain ⟨c, rfl⟩ := h.withCode
        exact (CommandFrame.refl s).withCode c
      · exact h.command hc hd

/-- Settles O17: read off the frame of `exec`, field by field. -/
theorem commandsKeepHostRegistersAndBank : Obligations.CommandsKeepHostRegistersAndBank := by
  intro i s t h
  obtain ⟨p, dms, hf, hp, hd⟩ := exec_command h
  unfold CommandFrame at hf
  rw [hf]
  exact ⟨rfl, rfl, rfl, rfl, rfl, rfl, rfl, rfl, rfl, rfl, rfl, hd, hp⟩

end Sys2Proof.Machine
end

/-! ## The induction over a step -/

section
namespace Sys2Proof.Machine

open Sys2Proof

/-- `t` is `s` but for what a host action other than a store or a reset, and the model's own record, may write: the registers
the host writes, `STATUS.code`, and the model's own fields. -/
def HostFrame (s t : State) : Prop :=
  t = { s with
    host := t.host, lastRead := t.lastRead, freeCtr := t.freeCtr, changed := t.changed, cmd := t.cmd, op0 := t.op0
    op1 := t.op1, op2 := t.op2, op3 := t.op3, cfg := t.cfg, status := { s.status with code := t.status.code } }

theorem State.writeReg_host (s : State) (n : Nat) (v : DWord) : HostFrame s (s.writeReg n v) := by
  unfold State.writeReg; split <;> rfl

/-- A write to `CMD` ends with an illegal word's code, or runs a command and updates the record of changed history. -/
theorem runCommand_next {v : DWord} {s t : State} (h : runCommand v s = .next t) :
    HostFrame s t ∨ ∃ i u, exec i { s with cmd := v.setWidth 32 } = .next u ∧ t = { u with changed := t.changed } := by
  unfold runCommand at h
  dsimp only at h
  split at h
  · cases h; exact .inl rfl
  · obtain ⟨u, hu, rfl, _⟩ := State.launch_next h
    exact .inr ⟨_, u, hu, rfl⟩

/-- THE INDUCTION OVER A STEP: a property of states that does not depend on what the host writes and on the model's own
fields, and that a byte store, a hardware reset and every command keep, every step keeps. -/
theorem step_keeps {I : State → Prop} (host : ∀ s t, HostFrame s t → I s → I t)
    (store : ∀ s a v, I s → I (s.hostStore a v)) (reset : ∀ s, I s → I (hardReset s))
    (command : ∀ i s t, exec i s = .next t → I s → I t) {s t : State} (hs : I s) (h : step s = .next t) : I t := by
  unfold step at h
  split at h
  · cases h; exact hs
  · next a rest _ =>
    have hr : I { s with host := rest, freeCtr := s.freeCtr + 1 } := host _ _ rfl hs
    generalize ({ s with host := rest, freeCtr := s.freeCtr + 1 } : State) = r at hr h
    unfold hostAct at h
    split at h
    · next v =>
      rcases runCommand_next h with hf | ⟨i, u, hu, ht⟩
      · exact host _ _ hf hr
      · exact host u t (by rw [ht]; rfl) (command i _ u hu (host _ _ rfl hr))
    · cases h; exact host _ _ (State.writeReg_host r _ _) hr
    · cases h; exact host _ _ rfl hr
    · cases h; exact store r _ _ hr
    · cases h; exact reset r hr

end Sys2Proof.Machine
end

/-! ## Commands that leave the window where it is -/

section
namespace Sys2Proof.Machine

open Sys2Proof

/-- The commands that can move the window or the reference to the bank. -/
def movesWindow (i : Instr) : Bool :=
  match i with
  | .ctxInit | .dictLoad _ | .dictAttach | .frameContinue | .frameEnd | .blockCompress _ | .winAppend | .winEnforceMaxdist
  | .winCorrectOverflow => true
  | .paramsDerive | .dmsBuild | .winNeedsCorrection | .tabFill _ | .h1Insfind | .dhInsfind | .hcInsfind | .hcSearch
  | .btUpdate | .btSearch | .h3Insfind | .blkMatch | .ldmGenerate | .ldmBlkMatch | .seqReset | .seqStore | .seqLastlit
  | .seqToCodes | .litCompress | .seqEncode | .dbgRead => false

/-- From `s` to `t` the window stays, the tables get other entries, and what was canonical is canonical. -/
def TableWork (s t : State) : Prop :=
  t.w = s.w ∧ TablesKept s.ms t.ms ∧ (s.ldm.wf → t.ldm.wf) ∧ (s.mem.wf = true → t.mem.wf = true)

theorem TableWork.refl (s : State) : TableWork s s := ⟨rfl, .refl _, id, id⟩

theorem TableWork.trans {s t u : State} (h : TableWork s t) (k : TableWork t u) : TableWork s u := by
  obtain ⟨hw, hm, hl, hr⟩ := h
  obtain ⟨kw, km, kl, kr⟩ := k
  exact ⟨kw.trans hw, hm.trans km, kl ∘ hl, kr ∘ hr⟩

theorem TableWork.withCode {s t : State} (h : TableWork s t) (c : Byte) : TableWork s (t.withCode c) := h
theorem TableWork.setRes0 {s t : State} (h : TableWork s t) (v : Nat) : TableWork s (t.setRes0 v) := h
theorem TableWork.setRes1 {s t : State} (h : TableWork s t) (v : Nat) : TableWork s (t.setRes1 v) := h
theorem TableWork.setFatal {s t : State} (h : TableWork s t) : TableWork s t.setFatal := h
theorem TableWork.setSeq {s t : State} (h : TableWork s t) (q : SeqStore) : TableWork s { t with seq := q } := h
theorem TableWork.setDms {s t : State} (h : TableWork s t) (d : DmsBank) : TableWork s { t with dms := d } := h

theorem TableWork.setMs {s : State} {m : MatchState} (h : TablesKept s.ms m) : TableWork s { s with ms := m } :=
  ⟨rfl, h, id, id⟩

theorem TableWork.setLdm {s t : State} (h : TableWork s t) {l : LdmState} (hl : s.ldm.wf → l.wf) :
    TableWork s { t with ldm := l } := by
  obtain ⟨hw, hm, _, hr⟩ := h
  exact ⟨hw, hm, hl, hr⟩

theorem TableWork.writeDst {s t : State} (h : TableWork s t) (a : Nat) (bytes : List Byte) :
    TableWork s (t.writeDst a bytes) := h.trans ⟨rfl, .refl _, id, fun h => Memory.writeBytes_wf h a bytes⟩

theorem TableWork.setPrev {s t : State} (h : TableWork s t) (b : BlockState) : TableWork s (t.setPrev b) := by
  unfold State.setPrev; split <;> exact h

theorem TableWork.setNextBs {s t : State} (h : TableWork s t) (b : BlockState) : TableWork s (t.setNextBs b) := by
  unfold State.setNextBs; split <;> exact h

theorem TableWork.withWork {s : State} {k : Work} (h : TablesKept s.ms k.ms) : TableWork s (s.withWork k) := ⟨rfl, h, id, id⟩

theorem finishMatch_tableWork {s t : State} {iend : Nat} {r : MatchRun} (hr : TablesKept s.ms r.work.ms)
    (h : (finishMatch s iend r).outcome = .next t) : TableWork s t := by
  have hw := TableWork.withWork hr
  rcases finishMatch_next h with ⟨_, rfl⟩ | ⟨_, rfl⟩
  · exact hw.setFatal.withCode 1
  · exact (((hw.setNextBs _).setRes0 _).setRes1 _).withCode 0

theorem State.entryMs_kept (s : State) : TablesKept s.ms s.entryMs := s.ms.raiseNext_kept _

theorem ldmBlkMatch_wf {s : State} (h : s.ldm.wf) (istart n : Nat) (rep : Reps) : (ldmBlkMatch s istart n rep).2.wf := h

/-- A command that does not move the window works on tables, memory and stores only. -/
theorem Worked.tableWork {i : Instr} {s t : State} (h : Worked i s t) (hi : movesWindow i = false) : TableWork s t := by
  have hs := TableWork.refl s
  have he := s.entryMs_kept
  cases i with
  | ctxInit | dictLoad _ | dictAttach | frameContinue | frameEnd | blockCompress _ | winAppend | winEnforceMaxdist
  | winCorrectOverflow => cases hi
  | paramsDerive => subst h; exact ((hs.setRes0 _).setRes1 _).withCode 0
  | winNeedsCorrection => subst h; exact (hs.setRes0 _).withCode 0
  | dbgRead => obtain ⟨v, _, rfl⟩ := h; exact (hs.setRes0 v).withCode 0
  | dmsBuild =>
    rcases h with ⟨_, rfl⟩ | ⟨_, _, rfl⟩ | ⟨_, _, rfl⟩
    · exact hs.withCode 4
    · exact hs.withCode 6
    · exact (hs.setDms _).withCode 0
  | seqReset | seqLastlit | seqToCodes => subst h; exact (hs.setSeq _).withCode 0
  | seqStore =>
    rcases h with ⟨_, rfl⟩ | ⟨_, rfl⟩
    · exact (hs.setSeq _).setFatal.withCode 1
    · exact (hs.setSeq _).withCode 0
  | tabFill m => subst h; exact (TableWork.setMs (he.trans (tabFill_kept _ _ _ _))).withCode 0
  | btUpdate => subst h; exact (TableWork.setMs (he.trans (btUpdate_kept _ _ _ _))).withCode 0
  | h1Insfind => subst h; exact ((TableWork.setMs (he.trans (h1InsFind_kept _ _ _))).setRes0 _).withCode 0
  | hcInsfind => subst h; exact ((TableWork.setMs (he.trans (hcInsFind_kept _ _ _))).setRes0 _).withCode 0
  | h3Insfind =>
    subst h
    have h3 := (he.trans (MatchState.raiseNext3_kept _ s.w.lowLimit.toNat)).trans (h3InsFind_kept s.view _ (s.idx s.op0.toNat))
    exact ((TableWork.setMs h3).setRes0 _).withCode 0
  | dhInsfind => subst h; exact (((TableWork.setMs (he.trans (dhInsFind_kept _ _ _))).setRes0 _).setRes1 _).withCode 0
  | hcSearch =>
    subst h
    exact (((TableWork.setMs (he.trans (hcSearch_kept _ _ _ (s.idx s.op1.toNat)))).setRes0 _).setRes1 _).withCode 0
  | btSearch => subst h; exact (((TableWork.setMs (he.trans (btSearch_kept _ _ _ _))).setRes0 _).setRes1 _).withCode 0
  | blkMatch => exact finishMatch_tableWork (blkMatch_kept _ _ _ _) h
  | ldmGenerate => subst h; exact ((hs.setLdm fun hl => ldmGenerate_wf hl _ _).setRes0 _).withCode 0
  | ldmBlkMatch =>
    exact (hs.setLdm fun hl => ldmBlkMatch_wf hl _ _ _).trans (finishMatch_tableWork (ldmBlkMatch_kept s _ _ _) h.2.2)
  | litCompress =>
    rcases h with ⟨_, rfl⟩ | ⟨_, rfl⟩
    · exact hs.withCode 5
    · exact ((((hs.writeDst _ _).setNextBs _).setRes0 _).setRes1 _).withCode 0
  | seqEncode =>
    rcases h with ⟨_, rfl⟩ | ⟨_, _, _, rfl⟩ | ⟨o, _, _, rfl⟩
    · exact (hs.setSeq _).withCode 1
    · exact (hs.setSeq _).withCode 5
    · exact (((((hs.setSeq _).writeDst _ _).setNextBs _).setRes0 _).setRes1 _).withCode 0

/-! ### A block's match finding and entropy stage -/

theorem blockMatch_kept (s : State) (src n : Nat) : TablesKept s.ms (blockMatch s src n).1.work.ms := by
  unfold blockMatch
  dsimp only
  split
  · exact ldmBlkMatch_kept { s with ldm := ldmGenerate s src n } _ _ _
  · exact blkMatch_kept s _ _ _

theorem blockMatch_wf {s : State} (h : s.ldm.wf) (src n : Nat) : (blockMatch s src n).2.wf := by
  unfold blockMatch
  dsimp only
  split
  · exact ldmBlkMatch_wf (s := { s with ldm := ldmGenerate s src n }) (ldmGenerate_wf h src n) _ _ _
  · exact h

theorem blockPayload_tableWork (s : State) (src n : Nat) : TableWork s (blockPayload s src n).1 := by
  have hm := blockMatch_kept s src n
  have hl : s.ldm.wf → (blockMatch s src n).2.wf := fun h => blockMatch_wf h src n
  unfold blockPayload
  dsimp only
  generalize blockMatch s src n = m at hm hl ⊢
  generalize litCompress _ _ = lit
  generalize seqEncode _ _ _ = sq
  have h1 : TableWork s { (s.withWork m.1.work).setNextRep m.1.rep with ldm := m.2 } :=
    ((TableWork.withWork hm).setNextBs _).setLdm hl
  generalize ({ (s.withWork m.1.work).setNextRep m.1.rep with ldm := m.2 } : State) = s1 at h1 ⊢
  have h2 : TableWork s { s1.setNextBs { s1.nextBs with huf := lit.huf } with seq := sq.1 } := (h1.setNextBs _).setSeq _
  generalize ({ s1.setNextBs { s1.nextBs with huf := lit.huf } with seq := sq.1 } : State) = s2 at h2 ⊢
  cases sq.2 with
  | none => exact h2
  | some o => exact h2.setNextBs _

theorem State.swapBs_tableWork (s : State) : TableWork s s.swapBs := by
  unfold State.swapBs
  extract_lets s1
  have h1 : TableWork s s1 := .refl s
  split
  · exact h1.setPrev _
  · exact h1

theorem blockBody_tableWork (s : State) (src n : Nat) : TableWork s (blockBody s src n).1 := by
  unfold blockBody
  extract_lets bytes r
  have hr : TableWork s r.1 := by
    show TableWork s (if n < Config.minCBlockInput then (s.seqReset, []) else blockPayload s.seqReset src n).1
    split
    · exact .refl s
    · exact blockPayload_tableWork s.seqReset src n
  split
  · exact hr
  · split
    · exact hr
    · exact hr.trans r.1.swapBs_tableWork

/-! ## What a command answers outside a running frame -/

/-- The window, the Match State and the LDM State stay. -/
def SameHistory (s t : State) : Prop := t.w = s.w ∧ t.ms = s.ms ∧ t.ldm = s.ldm

/-- The history, the stage and the lost-frame flag stay. -/
def FrameAlone (s t : State) : Prop := SameHistory s t ∧ t.stage = s.stage ∧ t.status.unspec = s.status.unspec

theorem FrameAlone.refl (s : State) : FrameAlone s s := ⟨⟨rfl, rfl, rfl⟩, rfl, rfl⟩
theorem FrameAlone.withCode {s t : State} (h : FrameAlone s t) (c : Byte) : FrameAlone s (t.withCode c) := h
theorem FrameAlone.setRes0 {s t : State} (h : FrameAlone s t) (v : Nat) : FrameAlone s (t.setRes0 v) := h
theorem FrameAlone.setRes1 {s t : State} (h : FrameAlone s t) (v : Nat) : FrameAlone s (t.setRes1 v) := h
theorem FrameAlone.setDms {s t : State} (h : FrameAlone s t) (d : DmsBank) : FrameAlone s { t with dms := d } := h

/-- A command that passed its checks and is legal in no stage but *initialized* and *ongoing*, nor in a lost frame, ran in an
open frame. -/
theorem letThrough_open {i : Instr} {s : State} (h : i.letThrough s = true) (hl : i.runsWhenLost = false)
    (h0 : i.legalIn .created = false) (h3 : i.legalIn .ending = false) : s.stage.isIO = true ∧ s.status.unspec = false := by
  simp only [Instr.letThrough, hl, Bool.false_or, Bool.and_eq_true, Bool.not_eq_true'] at h
  obtain ⟨⟨⟨_, hu⟩, hg⟩, _⟩ := h
  refine ⟨?_, hu⟩
  cases hst : s.stage with
  | created => rw [hst, h0] at hg; cases hg
  | ending => rw [hst, h3] at hg; cases hg
  | initialized | ongoing => rfl

/-- A command other than CTX_INIT ran in an open frame that is not lost, or it left the frame alone. -/
theorem exec_open_or_alone {i : Instr} {s t : State} (h : exec i s = .next t) (hc : i ≠ .ctxInit) :
    (s.stage.isIO = true ∧ s.status.unspec = false ∧ i.operandsOk s = true) ∨ FrameAlone s t := by
  have hs := FrameAlone.refl s
  rcases exec_next h with h | ⟨hl, ho, h⟩
  · obtain ⟨c, rfl⟩ := h.withCode
    exact .inr (hs.withCode c)
  have hopen := fun hr h0 h3 => and_assoc.mp ⟨letThrough_open hl hr h0 h3, ho⟩
  cases i with
  | ctxInit => exact absurd rfl hc
  | paramsDerive => subst h; exact .inr (((hs.setRes0 _).setRes1 _).withCode 0)
  | dmsBuild =>
    rcases h with ⟨_, rfl⟩ | ⟨_, _, rfl⟩ | ⟨_, _, rfl⟩
    · exact .inr (hs.withCode 4)
    · exact .inr (hs.withCode 6)
    · exact .inr ((hs.setDms _).withCode 0)
  | dbgRead => obtain ⟨v, _, rfl⟩ := h; exact .inr ((hs.setRes0 v).withCode 0)
  | _ => exact .inl (hopen rfl rfl rfl)

end Sys2Proof.Machine
end

/-! ## The shape of the tables: sizes and canonical form -/

section
namespace Sys2Proof.Machine

open Sys2Proof

/-- From `s` to `t` the three tables keep their sizes, and what was canonical is canonical. -/
def ShapeKept (s t : State) : Prop :=
  TableKept s.ms.hashTable t.ms.hashTable ∧ TableKept s.ms.chainTable t.ms.chainTable ∧
  TableKept s.ms.hashTable3 t.ms.hashTable3 ∧ (s.ldm.wf → t.ldm.wf) ∧ (s.mem.wf = true → t.mem.wf = true)

theorem ShapeKept.refl (s : State) : ShapeKept s s := ⟨.refl _, .refl _, .refl _, id, id⟩

theorem ShapeKept.trans {s t u : State} (h : ShapeKept s t) (k : ShapeKept t u) : ShapeKept s u := by
  obtain ⟨h1, h2, h3, hl, hm⟩ := h
  obtain ⟨k1, k2, k3, kl, km⟩ := k
  exact ⟨h1.trans k1, h2.trans k2, h3.trans k3, kl ∘ hl, km ∘ hm⟩

theorem TableWork.shape {s t : State} (h : TableWork s t) : ShapeKept s t := by
  obtain ⟨_, hm, hl, hr⟩ := h
  exact ⟨hm.hash, hm.chain, hm.hash3, hl, hr⟩

theorem ShapeKept.sized {s t : State} (h : ShapeKept s t) (p : Latched) : t.ms.sized p = s.ms.sized p := by
  obtain ⟨h1, h2, h3, _, _⟩ := h
  simp only [MatchState.sized, h1.1, h2.1, h3.1]

theorem ShapeKept.withCode {s t : State} (h : ShapeKept s t) (c : Byte) : ShapeKept s (t.withCode c) := h
theorem ShapeKept.setRes0 {s t : State} (h : ShapeKept s t) (v : Nat) : ShapeKept s (t.setRes0 v) := h
theorem ShapeKept.setDictID {s t : State} (h : ShapeKept s t) (v : Word) : ShapeKept s { t with dictID := v } := h

theorem ShapeKept.setPrev {s t : State} (h : ShapeKept s t) (b : BlockState) : ShapeKept s (t.setPrev b) :=
  h.trans ((TableWork.refl t).setPrev b).shape

/-- The tables stay when only the cursors and the dictionary fields of the Match State change. -/
theorem ShapeKept.sameTables {s t : State} (hh : t.ms.hashTable = s.ms.hashTable) (hc : t.ms.chainTable = s.ms.chainTable)
    (h3 : t.ms.hashTable3 = s.ms.hashTable3) (ht : t.ldm.table = s.ldm.table) (hb : t.ldm.bucketPos = s.ldm.bucketPos)
    (hm : t.mem = s.mem) : ShapeKept s t := by
  refine ⟨?_, ?_, ?_, fun h => ?_, fun h => hm ▸ h⟩
  · rw [hh]; exact .refl _
  · rw [hc]; exact .refl _
  · rw [h3]; exact .refl _
  · rw [LdmState.wf, ht, hb]; exact h

/-! ### Window work -/

theorem MatchState.freshPrefix_tables (m : MatchState) (d : Word) :
    (m.freshPrefix d).hashTable = m.hashTable ∧ (m.freshPrefix d).chainTable = m.chainTable ∧
    (m.freshPrefix d).hashTable3 = m.hashTable3 := by
  unfold MatchState.freshPrefix; split <;> exact ⟨rfl, rfl, rfl⟩

theorem winAppend_shape (s : State) (src n : Nat) : ShapeKept s (winAppend s src n).1 := by
  have hms : (winAppend s src n).1.ms.hashTable = s.ms.hashTable ∧ (winAppend s src n).1.ms.chainTable = s.ms.chainTable ∧
      (winAppend s src n).1.ms.hashTable3 = s.ms.hashTable3 := by
    rw [winAppend_ms]
    split
    · exact ⟨rfl, rfl, rfl⟩
    · exact MatchState.freshPrefix_tables _ _
  obtain ⟨hh, hc, h3⟩ := hms
  refine .sameTables hh hc h3 ?_ ?_ ?_ <;> rw [winAppend_frame]

theorem winEnforceMaxDist_shape (s : State) (e d : Nat) : ShapeKept s (winEnforceMaxDist s e d) := by
  unfold winEnforceMaxDist
  split
  · exact .sameTables rfl rfl rfl rfl rfl rfl
  · exact .refl s

theorem winCorrectOverflow_shape (s : State) (c d i : Nat) : ShapeKept s (winCorrectOverflow s c d i) := by
  have hr := s.ms.reduce_kept s.p.layout (corrOf c d i)
  exact ⟨hr.hash, hr.chain, hr.hash3, id, id⟩

theorem blockWindow_shape (s : State) (src n : Nat) : ShapeKept s (blockWindow s src n) := by
  unfold blockWindow
  extract_lets s1
  have h1 : ShapeKept s s1 := by
    show ShapeKept s (if _ then _ else _)
    split
    · exact winCorrectOverflow_shape s _ _ _
    · exact .refl s
  exact h1.trans (winEnforceMaxDist_shape s1 _ _)

/-! ### Blocks, chunks and dictionaries -/

theorem blockStep_shape (s : State) (src n : Nat) (last : Bool) (dst cap : Nat) :
    ShapeKept s (blockStep s src n last dst cap).1 := by
  unfold blockStep
  extract_lets b u s1
  have hb : ShapeKept s b.1 := (blockWindow_shape s src n).trans (blockBody_tableWork _ src n).shape
  have h1 : ShapeKept s s1 := hb
  split
  · exact h1
  · exact h1.trans ((TableWork.refl s1).writeDst dst u).shape

theorem frameBlocks_shape (last : Bool) (dst cap : Nat) : ∀ (fuel : Nat) (s : State) (p rem w : Nat),
    ShapeKept s (frameBlocks last dst cap fuel s p rem w).1
  | 0, s, _, _, _ => .refl s
  | fuel + 1, s, p, rem, w => by
    unfold frameBlocks
    split
    · exact .refl s
    · extract_lets b r
      have hr : ShapeKept s r.1 := blockStep_shape s _ _ _ _ _
      split
      · exact hr
      · exact hr.trans (frameBlocks_shape last dst cap fuel r.1 _ _ _)

theorem State.takeChunk_shape (s : State) (src n : Nat) : ShapeKept s (s.takeChunk src n) := by
  unfold State.takeChunk
  dsimp only
  split <;> exact winAppend_shape s src n

theorem frameChunk_shape (s : State) (src n dst cap : Nat) (last : Bool) (w : Nat) :
    ShapeKept s (frameChunk s src n dst cap last w).1 := by
  unfold frameChunk
  split
  · exact .refl s
  · extract_lets r
    have hr : ShapeKept s r.1 := (s.takeChunk_shape src n).trans (frameBlocks_shape _ _ _ _ _ _ _ _)
    split <;> exact hr

/-- After its append DICT_LOAD fills tables: the window and the reference to the bank stay. -/
theorem dictContent_after (s : State) (src len : Nat) (full : Bool) :
    (dictContent s src len full).w = (winAppend s src len).1.w ∧
    (dictContent s src len full).ms.dmsAttached = (winAppend s src len).1.ms.dmsAttached ∧
    ShapeKept (winAppend s src len).1 (dictContent s src len full) := by
  unfold dictContent
  dsimp only
  generalize (winAppend s src len).1 = s1
  have hm : TablesKept { s1.ms with loadedDictEnd := word32 (s1.idx (src + len)) }
      (if len > Config.hashRead then
        tabFill s1.view { s1.ms with loadedDictEnd := word32 (s1.idx (src + len)) } (s1.idx (src + len)) full
      else { s1.ms with loadedDictEnd := word32 (s1.idx (src + len)) }) := by
    split
    · exact tabFill_kept _ _ _ _
    · exact .refl _
  generalize (if len > Config.hashRead then
        tabFill s1.view { s1.ms with loadedDictEnd := word32 (s1.idx (src + len)) } (s1.idx (src + len)) full
      else { s1.ms with loadedDictEnd := word32 (s1.idx (src + len)) }) = m1 at hm ⊢
  split
  · exact ⟨rfl, hm.attached, hm.hash, hm.chain, hm.hash3, fun h => LdmState.fill_wf h _ _ _, id⟩
  · exact ⟨rfl, hm.attached, hm.hash, hm.chain, hm.hash3, id, id⟩

theorem dictLoadContent_shape (s : State) (src len : Nat) (full : Bool) : ShapeKept s (dictLoadContent s src len full) := by
  unfold dictLoadContent
  split
  · exact .sameTables rfl rfl rfl rfl rfl rfl
  · exact (winAppend_shape s src len).trans (dictContent_after s src len full).2.2

theorem State.attach_shape (s : State) : ShapeKept s s.attach := by
  refine ShapeKept.setPrev ?_ s.dms.bs
  exact .sameTables rfl rfl rfl rfl rfl rfl

/-! ## What a frame command leaves of the history -/

theorem SameHistory.refl (s : State) : SameHistory s s := ⟨rfl, rfl, rfl⟩

theorem SameHistory.trans {s t u : State} (h : SameHistory s t) (k : SameHistory t u) : SameHistory s u := by
  obtain ⟨h1, h2, h3⟩ := h
  obtain ⟨k1, k2, k3⟩ := k
  exact ⟨k1.trans h1, k2.trans h2, k3.trans h3⟩

theorem SameHistory.shape {s t : State} (h : SameHistory s t) (hm : s.mem.wf = true → t.mem.wf = true) : ShapeKept s t := by
  obtain ⟨_, hms, hl⟩ := h
  refine ⟨?_, ?_, ?_, ?_, hm⟩
  · rw [hms]; exact .refl _
  · rw [hms]; exact .refl _
  · rw [hms]; exact .refl _
  · rw [hl]; exact id

/-- The history of `t` is that of a chunk of the frame command whose operands `s` holds, begun with `w` bytes written, all
units of which were written unless `t` has lost the frame. -/
def ChunkRun (last : Bool) (s t : State) : Prop :=
  ∃ s1 w, SameHistory s s1 ∧ FlowFrame s s1 ∧ w ≤ s.op3.toNat ∧
    SameHistory (frameChunk s1 s.op0.toNat s.op1.toNat s.op2.toNat s.op3.toNat last w).1 t ∧
    (t.status.unspec = false → (frameChunk s1 s.op0.toNat s.op1.toNat s.op2.toNat s.op3.toNat last w).2.2 = true)

/-- A chunk that was not written whole has lost the frame. -/
theorem frameChunk_lost {s : State} {src n dst cap : Nat} {last : Bool} {w : Nat} (hw : w ≤ cap)
    (h : (frameChunk s src n dst cap last w).2.2 = false) :
    (frameChunk s src n dst cap last w).1.status.unspec = true := by
  obtain ⟨u, w', _, _, _, _, hr | ⟨_, hr⟩⟩ := frameChunk_cases s src n dst cap last w hw
  · rw [hr] at h; cases h
  · rw [hr]; rfl

theorem State.writeHeader_cases (s : State) (dst cap : Nat) :
    s.writeHeader dst cap = none ∨
      ∃ s1 w, s.writeHeader dst cap = some (s1, w) ∧ SameHistory s s1 ∧ FlowFrame s s1 ∧ w ≤ cap := by
  unfold State.writeHeader
  split
  · split
    · exact .inl rfl
    · exact .inr ⟨_, _, rfl, ⟨rfl, rfl, rfl⟩, rfl, by omega⟩
  · exact .inr ⟨s, 0, rfl, .refl s, .refl s, Nat.zero_le _⟩

theorem frameWork_chunkRun {s t : State} {last : Bool} {finish : State → Nat → Done}
    (hfin : ∀ u w t, (finish u w).outcome = .next t → SameHistory u t)
    (h : (frameWork s last finish).outcome = .next t) : FrameAlone s t ∨ ChunkRun last s t := by
  unfold frameWork at h
  rcases s.writeHeader_cases s.op2.toNat s.op3.toNat with he | ⟨s1, w, he, hs, hf, hw⟩
  · rw [he] at h
    cases h
    exact .inl (FrameAlone.refl s)
  · rw [he] at h
    right
    refine ⟨s1, w, hs, hf, hw, ?_⟩
    have hlost := frameChunk_lost (s := s1) (src := s.op0.toNat) (n := s.op1.toNat) (dst := s.op2.toNat) (last := last) hw
    dsimp only at h
    generalize frameChunk s1 s.op0.toNat s.op1.toNat s.op2.toNat s.op3.toNat last w = r at h hlost ⊢
    cases hr : r.2.2
    · rw [hr] at h
      cases h
      have hu := hlost hr
      exact ⟨⟨rfl, rfl, rfl⟩, fun h0 => absurd hu (by simpa using h0)⟩
    · rw [hr] at h
      exact ⟨hfin _ _ _ h, fun _ => rfl⟩

theorem frameEpilogue_history {u t : State} {n dst cap w : Nat} (h : (frameEpilogue u n dst cap w).outcome = .next t) :
    SameHistory u t := by
  have tail : ∀ (a b : State) (v : Nat) (bytes : List Byte) (x : Nat), a.writeTail dst cap v bytes = some (b, x) →
      SameHistory a b := by
    intro a b v bytes x hx
    unfold State.writeTail at hx
    split at hx <;> cases hx
    exact ⟨rfl, rfl, rfl⟩
  have opt : ∀ (c : Prop) [Decidable c] (a b : State) (v : Nat) (bytes : List Byte) (x : Nat),
      (if c then a.writeTail dst cap v bytes else some (a, v)) = some (b, x) → SameHistory a b := by
    intro c _ a b v bytes x hx
    split at hx
    · exact tail a b v bytes x hx
    · cases hx; exact .refl a
  unfold frameEpilogue at h
  split at h
  · cases h; exact ⟨rfl, rfl, rfl⟩
  · next s1 w1 h1 =>
    have hs1 := opt _ _ _ _ _ _ h1
    split at h
    · cases h; exact hs1
    · next s2 w2 h2 =>
      cases h
      have hs2 := opt _ _ _ _ _ _ h2
      exact hs1.trans hs2

/-- The frame commands: turned away, or a chunk ran. -/
theorem frameChecked_chunkRun {s t : State} {last : Bool} {finish : State → Nat → Done}
    (hfin : ∀ u w t, (finish u w).outcome = .next t → SameHistory u t)
    (h : (frameChecked s last (frameWork s last finish)).outcome = .next t) : FrameAlone s t ∨ ChunkRun last s t := by
  have hs := FrameAlone.refl s
  unfold frameChecked gatedIO at h
  rcases gated_next h with ⟨_, rfl⟩ | ⟨_, _, rfl⟩ | ⟨_, _, h⟩
  · exact .inl (hs.withCode 1)
  · exact .inl (hs.withCode 3)
  rcases require_next h with ⟨_, rfl⟩ | ⟨_, h⟩
  · exact .inl (hs.withCode _)
  rcases require_next h with ⟨_, rfl⟩ | ⟨_, h⟩
  · exact .inl (hs.withCode _)
  exact frameWork_chunkRun hfin (requireDisjoint_next h).2

theorem execFrameContinue_chunkRun {s t : State} (h : exec .frameContinue s = .next t) :
    FrameAlone s t ∨ ChunkRun false s t := by
  refine frameChecked_chunkRun (fun u w t h => ?_) h
  cases h; exact ⟨rfl, rfl, rfl⟩

theorem execFrameEnd_chunkRun {s t : State} (h : exec .frameEnd s = .next t) : FrameAlone s t ∨ ChunkRun true s t :=
  frameChecked_chunkRun (fun _ _ _ h => frameEpilogue_history h) h

/-- BLOCK_COMPRESS: turned away, or a block step ran. -/
theorem execBlockCompress_step {m : Byte} {s t : State} (h : exec (.blockCompress m) s = .next t) :
    FrameAlone s t ∨ SameHistory (blockStep s s.op0.toNat s.op1.toNat (modBit0 m) s.op2.toNat s.op3.toNat).1 t := by
  have hs := FrameAlone.refl s
  change (gated _ s _).outcome = _ at h
  rcases gated_next h with ⟨_, rfl⟩ | ⟨_, _, rfl⟩ | ⟨_, _, h⟩
  · exact .inl (hs.withCode 1)
  · exact .inl (hs.withCode 3)
  rcases require_next h with ⟨_, rfl⟩ | ⟨_, h⟩
  · exact .inl (hs.withCode _)
  obtain ⟨_, h⟩ := requireDisjoint_next h
  right
  generalize blockStep s s.op0.toNat s.op1.toNat (modBit0 m) s.op2.toNat s.op3.toNat = r at h ⊢
  dsimp only at h
  split at h
  · cases h; exact ⟨rfl, rfl, rfl⟩
  · split at h <;> (cases h; exact ⟨rfl, rfl, rfl⟩)

end Sys2Proof.Machine
end

/-! ## Canonical form and table sizes -/

section
namespace Sys2Proof.Machine

open Sys2Proof

theorem FrameRun.mem_wf {s t : State} (h : FrameRun s t) (hm : s.mem.wf = true) : t.mem.wf = true := by
  rcases h with ⟨_, _, rfl⟩ | ⟨u, w, _, _, hw, _, rfl⟩
  · exact hm
  · exact hw.wf hm

/-- A frame command keeps memory canonical. -/
theorem frameWorked_mem_wf {i : Instr} {s t : State} (hi : i = .frameContinue ∨ i = .frameEnd ∨ ∃ m, i = .blockCompress m)
    (h : exec i s = .next t) (hm : s.mem.wf = true) : t.mem.wf = true := by
  rcases exec_next h with h | ⟨_, _, h⟩
  · obtain ⟨c, rfl⟩ := h.withCode
    exact hm
  rcases hi with rfl | rfl | ⟨m, rfl⟩
  · rcases h with ⟨_, rfl⟩ | ⟨_, h | ⟨u, w, _, _, hw, _, rfl⟩⟩
    · exact hm
    · exact h.mem_wf hm
    · exact hw.wf hm
  · rcases h with ⟨_, rfl⟩ | ⟨_, h | ⟨u, w, _, hw, _, rfl⟩⟩
    · exact hm
    · exact h.mem_wf hm
    · exact hw.wf hm
  · rcases h with ⟨u, _, hu, _, rfl⟩ | ⟨u, k, typ, _, _, hw, rfl⟩
    · simpa [hu] using hm
    · split <;> exact hw.wf hm

theorem ChunkRun.shape {last : Bool} {s t : State} (h : ChunkRun last s t) (hm : s.mem.wf = true → t.mem.wf = true) :
    ShapeKept s t := by
  obtain ⟨s1, w, hs, _, _, ht, _⟩ := h
  have hc := frameChunk_shape s1 s.op0.toNat s.op1.toNat s.op2.toNat s.op3.toNat last w
  generalize (frameChunk s1 s.op0.toNat s.op1.toNat s.op2.toNat s.op3.toNat last w).1 = u at hc ht
  obtain ⟨_, hms, hl⟩ := hs
  obtain ⟨_, tms, tl⟩ := ht
  obtain ⟨h1, h2, h3, h4, _⟩ := hc
  rw [hms, ← tms] at h1 h2 h3
  rw [hl, ← tl] at h4
  exact ⟨h1, h2, h3, h4, hm⟩

theorem FrameAlone.shape {s t : State} (h : FrameAlone s t) (hm : s.mem.wf = true → t.mem.wf = true) : ShapeKept s t :=
  SameHistory.shape h.1 hm

/-- Every command but CTX_INIT keeps the tables' sizes and every canonical form but the bank's. -/
theorem exec_shape {i : Instr} {s t : State} (h : exec i s = .next t) (hc : i ≠ .ctxInit) : ShapeKept s t := by
  have hs := ShapeKept.refl s
  have worked : (Worked i s t → ShapeKept s t) → ShapeKept s t := by
    intro hw
    rcases exec_next h with h | ⟨_, _, h⟩
    · obtain ⟨c, rfl⟩ := h.withCode
      exact hs.withCode c
    · exact hw h
  cases i with
  | ctxInit => exact absurd rfl hc
  | frameContinue =>
    have hm := frameWorked_mem_wf (.inl rfl) h
    exact (execFrameContinue_chunkRun h).elim (·.shape hm) (·.shape hm)
  | frameEnd =>
    have hm := frameWorked_mem_wf (.inr (.inl rfl)) h
    exact (execFrameEnd_chunkRun h).elim (·.shape hm) (·.shape hm)
  | blockCompress m =>
    have hm := frameWorked_mem_wf (.inr (.inr ⟨m, rfl⟩)) h
    rcases execBlockCompress_step h with ha | ht
    · exact ha.shape hm
    · have hb := blockStep_shape s s.op0.toNat s.op1.toNat (modBit0 m) s.op2.toNat s.op3.toNat
      generalize (blockStep s s.op0.toNat s.op1.toNat (modBit0 m) s.op2.toNat s.op3.toNat).1 = u at hb ht
      obtain ⟨_, tms, tl⟩ := ht
      obtain ⟨h1, h2, h3, h4, _⟩ := hb
      rw [← tms] at h1 h2 h3
      rw [← tl] at h4
      exact ⟨h1, h2, h3, h4, hm⟩
  | dictLoad m =>
    refine worked fun h => ?_
    rcases h with ⟨_, rfl⟩ | ⟨_, rfl⟩
    · exact hs.withCode 6
    · have hl := dictLoadContent_shape s s.op0.toNat s.op1.toNat (modBit0 m)
      refine ShapeKept.withCode (ShapeKept.setDictID (t := if s.op2 = 0 then _ else _) ?_ _) 0
      split
      · exact hl
      · exact hl.setPrev _
  | dictAttach =>
    refine worked fun h => ?_
    subst h
    split
    · exact hs.withCode 0
    · exact s.attach_shape.withCode 0
  | winAppend => exact worked fun h => h ▸ ((winAppend_shape s _ _).setRes0 _).withCode 0
  | winEnforceMaxdist => exact worked fun h => h ▸ (winEnforceMaxDist_shape s _ _).withCode 0
  | winCorrectOverflow => exact worked fun h => h ▸ ((winCorrectOverflow_shape s _ _ _).setRes0 _).withCode 0
  | _ => exact worked fun h => (h.tableWork rfl).shape

/-! ### Canonical form -/

theorem State.canonical_iff (s : State) :
    s.canonical = true ↔ s.mem.wf = true ∧ s.ms.hashTable.wf = true ∧ s.ms.chainTable.wf = true ∧
      s.ms.hashTable3.wf = true ∧ s.ldm.wf ∧ s.dms.hashTable.wf = true ∧ s.dms.chainTable.wf = true := by
  simp only [State.canonical, LdmState.wf, Bool.and_eq_true]
  tauto

theorem ShapeKept.canonical {s t : State} (h : ShapeKept s t) (hd : t.dms = s.dms) (hs : s.canonical = true) :
    t.canonical = true := by
  rw [State.canonical_iff] at hs ⊢
  obtain ⟨h1, h2, h3, hl, hm⟩ := h
  obtain ⟨m, a, b, c, l, d⟩ := hs
  rw [hd]
  exact ⟨hm m, h1.2 a, h2.2 b, h3.2 c, hl l, d⟩

theorem Latched.freshMs_wf (p : Latched) :
    p.freshMs.hashTable.wf = true ∧ p.freshMs.chainTable.wf = true ∧ p.freshMs.hashTable3.wf = true := by
  unfold Latched.freshMs Latched.freshHash Latched.freshChain
  refine ⟨Table.zeros_wf _, ?_, ?_⟩
  · dsimp only; split
    · exact Table.absent_wf
    · exact Table.zeros_wf _
  · dsimp only; split
    · exact Table.absent_wf
    · exact Table.zeros_wf _

theorem buildBank_wf (s : State) : (buildBank s).hashTable.wf = true ∧ (buildBank s).chainTable.wf = true := by
  obtain ⟨hh, hc, _⟩ := s.cfg.bankParams.freshMs_wf
  have hk : ∀ (c : Prop) [Decidable c] V (e : Nat),
      TablesKept s.cfg.bankParams.bankMs (if c then tabFill V s.cfg.bankParams.bankMs e true else s.cfg.bankParams.bankMs) := by
    intro c _ V e
    split
    · exact tabFill_kept _ _ _ _
    · exact .refl _
  exact ⟨(hk _ _ _).hash.2 hh, (hk _ _ _).chain.2 hc⟩

theorem State.ctxInit_canonical {s : State} (hs : s.canonical = true) : s.ctxInit.canonical = true := by
  rw [State.canonical_iff] at hs ⊢
  obtain ⟨m, _, _, _, l, d⟩ := hs
  obtain ⟨hh, hc, h3⟩ := s.cfg.latch.freshMs_wf
  refine ⟨m, hh, hc, h3, ?_, d⟩
  unfold State.ctxInit
  dsimp only
  split
  · exact ⟨rfl, rfl⟩
  · exact l

theorem exec_canonical {i : Instr} {s t : State} (h : exec i s = .next t) (hs : s.canonical = true) : t.canonical = true := by
  by_cases hc : i = .ctxInit
  · subst hc
    rcases ctxInit_next h with ⟨c, rfl⟩ | ⟨_, rfl⟩
    · exact hs
    · exact State.ctxInit_canonical hs
  by_cases hd : i = .dmsBuild
  · subst hd
    rcases dmsBuild_next h with ⟨c, rfl⟩ | ⟨_, _, rfl⟩
    · exact hs
    · obtain ⟨dh, dc⟩ := buildBank_wf s
      have hs := s.canonical_iff.mp hs
      obtain ⟨m, a, b, c, l, _, _⟩ := hs
      exact (State.canonical_iff _).mpr ⟨m, a, b, c, l, dh, dc⟩
  · obtain ⟨_, _, _, _, _, _, _, _, _, _, _, hdms, _⟩ := commandsKeepHostRegistersAndBank i s t h
    exact (exec_shape h hc).canonical (hdms hd) hs

theorem hardReset_canonical {s : State} (hs : s.canonical = true) : (hardReset s).canonical = true := by
  rw [State.canonical_iff] at hs ⊢
  exact ⟨hs.1, rfl, rfl, rfl, ⟨rfl, rfl⟩, rfl, rfl⟩

theorem hostStore_canonical {s : State} (a : Nat) (v : Byte) (hs : s.canonical = true) : (s.hostStore a v).canonical = true := by
  rw [State.canonical_iff] at hs ⊢
  exact ⟨Memory.write_wf hs.1 a v, hs.2⟩

theorem HostFrame.canonical {s t : State} (h : HostFrame s t) (hs : s.canonical = true) : t.canonical = true := by
  unfold HostFrame at h
  rw [h]
  exact hs

/-- Settles O57: canonical form is an invariant of a step; each command keeps the shape of the tables (`exec_shape`), and
CTX_INIT and DMS_BUILD make fresh canonical tables. -/
theorem stepKeepsCanonicalForm : Obligations.StepKeepsCanonicalForm := fun _ _ =>
  step_keeps (I := fun s => s.canonical = true) (fun _ _ => HostFrame.canonical) (fun _ => hostStore_canonical)
    (fun _ => hardReset_canonical) (fun _ _ _ => exec_canonical)

/-! ### Table sizes -/

/-- `ParamsValid` on the seven compression parameters is the range of what is latched from them (R281, R282). -/
theorem CfgRegs.latch_inRange {c : CfgRegs} (h : c.valid = true) : c.latch.inRange = true := by
  simp only [CfgRegs.valid, Bool.and_eq_true] at h
  exact h.1.1

theorem layoutOf_eq_single (n : Nat) : layoutOf n = .singleHash ↔ n = 1 := by
  unfold layoutOf
  split
  · simp [*]
  · split
    · simp [*]
    · split <;> simp [*]

theorem Latched.freshMs_sized {p : Latched} (h : p.inRange = true) : p.freshMs.sized p = true := by
  have hw : 10 ≤ p.windowLog.toNat := (of_decide_eq_true h).2.2.1
  unfold MatchState.sized Latched.freshMs
  refine decide_eq_true ⟨rfl, ?_, ?_⟩
  · simp only [Latched.freshChain, Latched.layout, layoutOf_eq_single]
    split <;> rfl
  · unfold Latched.hashLog3
    dsimp only
    split
    · rw [if_neg (by omega)]; rfl
    · rfl

theorem exec_tablesSized {i : Instr} {s t : State} (h : exec i s = .next t) (hs : s.TablesSized) : t.TablesSized := by
  by_cases hc : i = .ctxInit
  · subst hc
    rcases ctxInit_next h with ⟨c, rfl⟩ | ⟨hv, rfl⟩
    · exact hs
    · intro _
      have hr := CfgRegs.latch_inRange hv
      exact ⟨hr, Latched.freshMs_sized hr⟩
  · intro ht
    have hst : s.stage.isIO = true := by
      rcases exec_open_or_alone h hc with ⟨ho, _⟩ | ⟨_, hst, _⟩
      · exact ho
      · exact hst ▸ ht
    obtain ⟨_, _, _, _, _, _, _, _, _, _, _, _, hp⟩ := commandsKeepHostRegistersAndBank i s t h
    rw [hp hc, (exec_shape h hc).sized]
    exact hs hst

theorem HostFrame.tablesSized {s t : State} (h : HostFrame s t) (hs : s.TablesSized) : t.TablesSized := by
  unfold HostFrame at h
  rw [h]
  exact hs

/-- Settles O58: the sizes are an invariant of a step; CTX_INIT makes tables of the latched sizes, the other commands keep
sizes and parameters, and open no frame. -/
theorem stepKeepsTableSizes : Obligations.StepKeepsTableSizes := fun _ _ =>
  step_keeps (I := State.TablesSized) (fun _ _ => HostFrame.tablesSized) (fun _ _ _ hs => hs)
    (fun s _ h => by cases h) (fun _ _ _ => exec_tablesSized)

end Sys2Proof.Machine
end

/-! ## The arithmetic of a window -/

section
namespace Sys2Proof.Machine

open Sys2Proof

/-! ### Address arithmetic modulo `2^ADDR_W` -/

theorem addA_lt (aw a b : Nat) : addA aw a b < 2 ^ aw := Nat.mod_lt _ (by positivity)

theorem subA_lt (aw a b : Nat) : subA aw a b < 2 ^ aw := Nat.mod_lt _ (by positivity)

/-- `a -_ADDR_W b` is the number below `2^ADDR_W` that `b` must be moved by to come to `a`. -/
theorem subA_add (aw a b : Nat) : subA aw a b + b ≡ a [MOD 2 ^ aw] := by
  have hb : b % 2 ^ aw ≤ 2 ^ aw := (Nat.mod_lt _ (by positivity)).le
  calc subA aw a b + b ≡ (a % 2 ^ aw + (2 ^ aw - b % 2 ^ aw)) + b % 2 ^ aw [MOD 2 ^ aw] :=
        (Nat.mod_modEq _ _).add (Nat.mod_modEq b _).symm
    _ = a % 2 ^ aw + 2 ^ aw := by omega
    _ ≡ a % 2 ^ aw [MOD 2 ^ aw] := Nat.add_modEq_right
    _ ≡ a [MOD 2 ^ aw] := Nat.mod_modEq a _

theorem subA_eq {aw a b x : Nat} (hx : x < 2 ^ aw) (h : x + b ≡ a [MOD 2 ^ aw]) : subA aw a b = x :=
  Nat.ModEq.eq_of_lt_of_lt (Nat.ModEq.add_right_cancel' b ((subA_add aw a b).trans h.symm)) (subA_lt aw a b) hx

/-- A sum of two numbers below `m` wraps at most once. -/
theorem mod_once {a b m : Nat} (ha : a < m) (hb : b < m) :
    (a + b < m ∧ (a + b) % m = a + b) ∨ (m ≤ a + b ∧ (a + b) % m = a + b - m) := by
  rcases Nat.lt_or_ge (a + b) m with h | h
  · exact .inl ⟨h, Nat.mod_eq_of_lt h⟩
  · exact .inr ⟨h, by rw [Nat.mod_eq_sub_mod h, Nat.mod_eq_of_lt (by omega)]⟩

theorem toNat_ofNat_lt {w v n : Nat} (hv : v < 2 ^ n) (hn : n ≤ w) : (BitVec.ofNat w v).toNat = v := by
  rw [BitVec.toNat_ofNat, Nat.mod_eq_of_lt (hv.trans_le (Nat.pow_le_pow_right (by norm_num) hn))]

theorem fit_toNat {w ctr tag v : Nat} (h : v < 2 ^ w) : (fit w ctr tag v).toNat = v := by
  rw [fit, if_pos h, BitVec.toNat_ofNat, Nat.mod_eq_of_lt h]

/-! ### Indices of a window -/

theorem Window.cur_eq_idx (aw : Nat) (w : Window) : w.cur aw = w.idx aw w.nextSrc.toNat := rfl

theorem Window.idx_lt (aw : Nat) (w : Window) (a : Nat) : w.idx aw a < 2 ^ aw := subA_lt _ _ _

theorem Window.idx_mod (aw : Nat) (w : Window) (a : Nat) : w.idx aw (a % 2 ^ aw) = w.idx aw a :=
  subA_eq (subA_lt _ _ _) ((subA_add aw a _).trans (Nat.mod_modEq a _).symm)

theorem Window.idx_add {aw : Nat} {w : Window} {a n : Nat} (h : w.idx aw a + n < 2 ^ aw) :
    w.idx aw (a + n) = w.idx aw a + n := by
  refine subA_eq h ?_
  have := (subA_add aw a w.base.toNat).add_right n
  rwa [Nat.add_right_comm] at this

/-- An index beyond a span that wraps is below the span's length. -/
theorem Window.idx_add_wrapped {aw : Nat} {w : Window} {a n : Nat} (hn : n < 2 ^ aw) (h : 2 ^ aw ≤ w.idx aw a + n) :
    w.idx aw (a + n) < n := by
  have hlt := w.idx_lt aw a
  have he : w.idx aw (a + n) = w.idx aw a + n - 2 ^ aw := by
    refine subA_eq (by omega) ?_
    calc w.idx aw a + n - 2 ^ aw + w.base.toNat
        ≡ w.idx aw a + n - 2 ^ aw + w.base.toNat + 2 ^ aw [MOD 2 ^ aw] := Nat.add_modEq_right.symm
      _ = w.idx aw a + w.base.toNat + n := by omega
      _ ≡ a + n [MOD 2 ^ aw] := (subA_add aw a w.base.toNat).add_right n
  omega

theorem Window.idx_openFresh {aw ctr : Nat} {w : Window} {src : Nat} (haw : aw ≤ 64) :
    (w.openFresh aw ctr src).idx aw src = w.cur aw := by
  unfold Window.idx Window.openFresh
  dsimp only
  rw [toNat_ofNat_lt (subA_lt _ _ _) haw]
  refine subA_eq (subA_lt _ _ _) ?_
  rw [Nat.add_comm]
  exact subA_add _ _ _

theorem Window.cur_extend {aw ctr : Nat} {w : Window} {src n : Nat} (haw : aw ≤ 64) :
    (w.extend aw ctr src n).cur aw = w.idx aw (src + n) := by
  rw [Window.cur_eq_idx]
  unfold Window.extend
  dsimp only
  rw [toNat_ofNat_lt (Nat.mod_lt _ (by positivity)) haw]
  exact w.idx_mod aw (src + n)

theorem Window.idx_shift {aw : Nat} {w : Window} {corr a : Nat} (haw : aw ≤ 64) (h : corr ≤ w.idx aw a) :
    (w.shift aw corr).idx aw a = w.idx aw a - corr := by
  have hlt := w.idx_lt aw a
  unfold Window.idx Window.shift at *
  dsimp only
  rw [toNat_ofNat_lt (addA_lt _ _ _) haw]
  refine subA_eq (by omega) ?_
  calc subA aw a w.base.toNat - corr + addA aw w.base.toNat corr
      ≡ subA aw a w.base.toNat - corr + (w.base.toNat + corr) [MOD 2 ^ aw] := (Nat.mod_modEq _ _).add_left _
    _ = subA aw a w.base.toNat + w.base.toNat := by omega
    _ ≡ a [MOD 2 ^ aw] := subA_add aw a w.base.toNat

/-! ### The order of the limits -/

/-- `1 <= lowLimit <= dictLimit <= cur` (10_state.md R19). -/
def Window.Ordered (aw : Nat) (w : Window) : Prop :=
  1 ≤ w.lowLimit.toNat ∧ w.lowLimit.toNat ≤ w.dictLimit.toNat ∧ w.dictLimit.toNat ≤ w.cur aw

/-- The overlap an append drops leaves at least index 1 below it: the range appended cannot end where the external
dictionary's index 0 stands without the window being longer than the address space. -/
theorem Window.extend_limits {aw ctr : Nat} {w : Window} {src n : Nat} (hlow : 1 ≤ w.lowLimit.toNat)
    (hdict : w.lowLimit.toNat ≤ w.dictLimit.toNat) (hn : w.dictLimit.toNat + n < 2 ^ aw) (hend : src + n ≤ 2 ^ aw) :
    1 ≤ (w.extend aw ctr src n).lowLimit.toNat ∧ (w.extend aw ctr src n).lowLimit.toNat ≤ w.dictLimit.toNat := by
  unfold Window.extend
  dsimp only
  split
  · next hover =>
    split
    · exact ⟨by omega, le_refl _⟩
    · next hhigh =>
      have h32 := w.dictLimit.isLt
      rw [fit_toNat (by omega)]
      refine ⟨Nat.one_le_iff_ne_zero.mpr fun h0 => ?_, by omega⟩
      have hmod : w.dictBase.toNat % 2 ^ aw = (src + n) % 2 ^ aw := by
        have := subA_add aw (src + n) w.dictBase.toNat
        rwa [h0, Nat.zero_add] at this
      obtain ⟨ho1, ho2⟩ := hover
      have hd := Nat.mod_lt w.dictBase.toNat (show 0 < 2 ^ aw by positivity)
      unfold addA at ho1 ho2
      rw [← Nat.mod_add_mod] at ho1 ho2
      have c1 := mod_once hd (show w.lowLimit.toNat < 2 ^ aw by omega)
      have c2 := mod_once hd (show w.dictLimit.toNat < 2 ^ aw by omega)
      rcases Nat.lt_or_eq_of_le hend with hlt | heq
      · rw [Nat.mod_eq_of_lt hlt] at hmod
        omega
      · rw [heq, Nat.mod_self] at hmod
        omega
  · exact ⟨hlow, hdict⟩

/-- What an append of `n` bytes does to an ordered window (40_window.md R91, R92): the bytes get the indices from `cur` up, and
the limits stay in order, the dictionary limit not falling. -/
theorem Window.append_ordered {aw ctr : Nat} {w : Window} {src n : Nat} (haw : aw ≤ 64) (h : w.Ordered aw)
    (h32 : w.cur aw < 2 ^ 32) (hn : w.cur aw + n < 2 ^ aw) (hend : src + n ≤ 2 ^ aw) :
    (w.append aw ctr src n).1.cur aw = w.cur aw + n ∧ (n ≠ 0 → (w.append aw ctr src n).1.idx aw src = w.cur aw) ∧
    (w.append aw ctr src n).1.Ordered aw ∧ w.dictLimit.toNat ≤ (w.append aw ctr src n).1.dictLimit.toNat := by
  obtain ⟨hlow, hdict, hcur⟩ := h
  unfold Window.append
  by_cases h0 : n = 0
  · simp only [h0, if_true]
    exact ⟨rfl, fun h => absurd rfl h, ⟨hlow, hdict, hcur⟩, le_refl _⟩
  simp only [h0, if_false]
  split
  · next hsrc =>
    have hidx : w.idx aw src = w.cur aw := by rw [hsrc]; rfl
    have hce : (w.extend aw ctr src n).cur aw = w.cur aw + n := by
      rw [Window.cur_extend haw, Window.idx_add (by omega), hidx]
    obtain ⟨h1, h2⟩ := w.extend_limits (ctr := ctr) (src := src) hlow hdict (by omega) hend
    refine ⟨hce, fun _ => hidx, ⟨h1, h2, ?_⟩, le_refl _⟩
    rw [hce]
    exact hcur.trans (Nat.le_add_right _ _)
  · have hidx := w.idx_openFresh (ctr := ctr) (src := src) haw
    have hdl : (w.openFresh aw ctr src).dictLimit.toNat = w.cur aw := fit_toNat h32
    have hll : 1 ≤ (w.openFresh aw ctr src).lowLimit.toNat ∧ (w.openFresh aw ctr src).lowLimit.toNat ≤ w.cur aw := by
      unfold Window.openFresh
      dsimp only
      split
      · rw [fit_toNat h32]; omega
      · rw [fit_toNat (by omega)]; omega
    have hce : ((w.openFresh aw ctr src).extend aw ctr src n).cur aw = w.cur aw + n := by
      rw [Window.cur_extend haw, Window.idx_add (by omega), hidx]
    obtain ⟨h1, h2⟩ := (w.openFresh aw ctr src).extend_limits (ctr := ctr) (src := src) hll.1 (by omega) (by omega) hend
    have hde : ((w.openFresh aw ctr src).extend aw ctr src n).dictLimit.toNat = w.cur aw := hdl
    refine ⟨hce, fun _ => hidx, ⟨h1, h2, ?_⟩, ?_⟩
    · show (Window.dictLimit (Window.extend ..)).toNat ≤ Window.cur aw (Window.extend ..)
      rw [hde, hce]
      exact Nat.le_add_right _ _
    · exact hcur.trans hde.ge

theorem lowered_toNat (limit : Word) (corr : Nat) :
    (lowered limit corr).toNat = if limit.toNat ≤ corr then 1 else limit.toNat - corr := by
  unfold lowered
  split
  · rfl
  · rw [BitVec.toNat_ofNat, Nat.mod_eq_of_lt (by have := limit.isLt; omega)]

/-- A correction that leaves at least one index below `cur` keeps the order (40_window.md R99). -/
theorem Window.shift_ordered {aw : Nat} {w : Window} {corr : Nat} (haw : aw ≤ 64) (h : w.Ordered aw)
    (hc : corr < w.cur aw) : (w.shift aw corr).cur aw = w.cur aw - corr ∧ (w.shift aw corr).Ordered aw := by
  obtain ⟨hlow, hdict, hcur⟩ := h
  have hcs : (w.shift aw corr).cur aw = w.cur aw - corr := Window.idx_shift haw hc.le
  refine ⟨hcs, ?_⟩
  unfold Window.Ordered
  rw [hcs]
  unfold Window.shift
  dsimp only
  rw [lowered_toNat, lowered_toNat]
  split <;> split <;> omega

theorem newCurOf_pos (cycleLog maxDist curIdx : Nat) : 1 ≤ newCurOf cycleLog maxDist curIdx := by
  unfold newCurOf
  have : 0 < 2 ^ cycleLog := by positivity
  split <;> omega

/-- A correction is below the index it is computed from, unless that index is 0. -/
theorem corrOf_le (cycleLog maxDist curIdx : Nat) : corrOf cycleLog maxDist curIdx ≤ curIdx - 1 := by
  have := newCurOf_pos cycleLog maxDist curIdx
  unfold corrOf
  omega

/-- Dropping what lies too far back keeps the order (40_window.md R94). -/
theorem Window.enforce_ordered {aw ctr : Nat} {w : Window} {endIdx maxDist dictEnd : Nat} (h : w.Ordered aw)
    (he : endIdx ≤ w.cur aw) (h32 : endIdx < 2 ^ 32) : (w.enforceMaxDist ctr endIdx maxDist dictEnd).Ordered aw := by
  obtain ⟨hlow, hdict, hcur⟩ := h
  unfold Window.enforceMaxDist
  split
  · unfold Window.dropBelow Window.Ordered
    have hl : (if w.lowLimit.toNat < endIdx - maxDist then fit 32 ctr 3 (endIdx - maxDist) else w.lowLimit).toNat =
        max w.lowLimit.toNat (endIdx - maxDist) := by
      split
      · rw [fit_toNat (by omega)]; omega
      · omega
    dsimp only
    have hcw : ∀ l d, ({ w with lowLimit := l, dictLimit := d } : Window).cur aw = w.cur aw := fun _ _ => rfl
    rw [hcw, hl]
    split <;> omega
  · exact ⟨hlow, hdict, hcur⟩

end Sys2Proof.Machine
end

/-! ## The window along the frame flow -/

section
namespace Sys2Proof.Machine

open Sys2Proof

/-- The window of a state is in order (10_state.md R19); nothing is said of `cur` inside a frame command. -/
abbrev State.Ordered (s : State) : Prop := s.w.Ordered s.impl.addrW

theorem State.windowOk_iff (s : State) : s.WindowOk ↔ s.Ordered ∧ s.cur < 2 ^ 32 := by
  unfold State.WindowOk State.Ordered Window.Ordered State.cur
  tauto

/-- A reference to the bank is not taken, and the dictionary limit does not fall under one that is held. -/
def BankHeld (s t : State) : Prop :=
  t.ms.dmsAttached = true → s.ms.dmsAttached = true ∧ s.w.dictLimit.toNat ≤ t.w.dictLimit.toNat

theorem BankHeld.trans {s t u : State} (h : BankHeld s t) (k : BankHeld t u) : BankHeld s u := fun hu =>
  have ⟨ht, kd⟩ := k hu
  have ⟨hs, hd⟩ := h ht
  ⟨hs, hd.trans kd⟩

theorem BankHeld.same {s t : State} (hw : t.w = s.w) (hm : t.ms.dmsAttached = s.ms.dmsAttached) : BankHeld s t := fun h =>
  ⟨hm ▸ h, hw ▸ le_refl _⟩

theorem BankHeld.bankOk {s t : State} (h : BankHeld s t) (hd : t.dms = s.dms) (hs : s.BankOk) : t.BankOk := by
  intro ht
  obtain ⟨ha, hle⟩ := h ht
  obtain ⟨hv, hl, he⟩ := hs ha
  rw [hd]
  exact ⟨hv, hl, he.trans hle⟩

theorem winAppend_attached {s : State} {src n : Nat} (h : (winAppend s src n).1.ms.dmsAttached = true) :
    s.ms.dmsAttached = true := by
  rw [winAppend_ms] at h
  split at h
  · exact h
  · unfold MatchState.freshPrefix at h
    split at h
    · cases h
    · exact h

/-- `WinAppend` (R91) of `n` bytes that do not outgrow the address space. -/
theorem winAppend_ordered {s : State} {src n : Nat} (haw : s.impl.addrW ≤ 64) (h : s.WindowOk)
    (hn : s.cur + n < 2 ^ s.impl.addrW) (hend : src + n ≤ 2 ^ s.impl.addrW) :
    (winAppend s src n).1.Ordered ∧ (winAppend s src n).1.cur = s.cur + n ∧
    (n ≠ 0 → (winAppend s src n).1.idx src = s.cur) ∧ BankHeld s (winAppend s src n).1 := by
  obtain ⟨ho, h32⟩ := s.windowOk_iff.mp h
  have hi : (winAppend s src n).1.impl = s.impl := by rw [winAppend_frame]
  obtain ⟨hcur, hidx, hord, hdl⟩ := Window.append_ordered (ctr := s.freeCtr) haw ho h32 hn hend
  unfold State.Ordered State.cur State.idx
  rw [hi, winAppend_w]
  refine ⟨hord, hcur, hidx, fun ha => ⟨winAppend_attached ha, ?_⟩⟩
  rw [winAppend_w]
  exact hdl

theorem winEnforceMaxDist_ordered {s : State} {e d : Nat} (h : s.Ordered) (he : e ≤ s.cur) (h32 : e < 2 ^ 32) :
    (winEnforceMaxDist s e d).Ordered ∧ BankHeld s (winEnforceMaxDist s e d) := by
  unfold winEnforceMaxDist
  split
  · exact ⟨Window.enforce_ordered h he h32, fun ha => by cases ha⟩
  · exact ⟨h, .same rfl rfl⟩

/-- `EnforceMaxDist` moves no index. -/
theorem winEnforceMaxDist_idx (s : State) (e d a : Nat) : (winEnforceMaxDist s e d).idx a = s.idx a := by
  unfold winEnforceMaxDist Window.enforceMaxDist
  split <;> rfl

theorem winEnforceMaxDist_cur (s : State) (e d : Nat) : (winEnforceMaxDist s e d).cur = s.cur := by
  unfold winEnforceMaxDist Window.enforceMaxDist
  split <;> rfl

/-- `WinCorrectOverflow` (R98) at a position inside the window: every index from the correction up moves down by it. -/
theorem winCorrectOverflow_ordered {s : State} {c d i : Nat} (haw : s.impl.addrW ≤ 64) (h : s.Ordered) (hi : i ≤ s.cur) :
    (winCorrectOverflow s c d i).Ordered ∧ (winCorrectOverflow s c d i).cur = s.cur - corrOf c d i ∧
    (∀ a, corrOf c d i ≤ s.idx a → (winCorrectOverflow s c d i).idx a = s.idx a - corrOf c d i) ∧
    BankHeld s (winCorrectOverflow s c d i) := by
  have hc := corrOf_le c d i
  have hpos : 1 ≤ s.cur := h.1.trans (h.2.1.trans h.2.2)
  obtain ⟨hcur, hord⟩ := Window.shift_ordered haw h (show corrOf c d i < s.cur by omega)
  exact ⟨hord, hcur, fun a ha => Window.idx_shift haw ha, fun ha => by cases ha⟩

/-! ### One block -/

/-- What the window work of a block leaves: every index from `corr` up moved down by it, the window in order. -/
structure WindowMoved (s t : State) (corr : Nat) : Prop where
  ordered : t.Ordered
  cur : t.cur = s.cur - corr
  idx : ∀ a, corr ≤ s.idx a → t.idx a = s.idx a - corr
  bank : BankHeld s t

theorem WindowMoved.refl {s : State} (h : s.Ordered) : WindowMoved s s 0 := ⟨h, rfl, fun _ _ => rfl, .same rfl rfl⟩

/-- The parameters' bounds (48_frame_assembler.md R282) that keep every index of a block below `2^32`. -/
theorem Latched.inRange_bounds {p : Latched} (h : p.inRange = true) :
    p.cycleLog ≤ 30 ∧ p.windowSize ≤ 2 ^ 31 ∧ p.blockSizeMax ≤ 2 ^ 17 := by
  obtain ⟨_, _, _, hw, _, _, _, hc, _⟩ := of_decide_eq_true h
  refine ⟨?_, Nat.pow_le_pow_right (by norm_num) hw, Nat.min_le_left _ _⟩
  unfold Latched.cycleLog
  split <;> omega

/-- A correction at index `i` of a window below `2^32` brings the position to where a block still fits below `2^32`. -/
theorem corrOf_lands {p : Latched} (h : p.inRange = true) (i : Nat) :
    i - corrOf p.cycleLog p.windowSize i ≤ 2 ^ 30 + 2 ^ 31 := by
  obtain ⟨hc, hw, _⟩ := Latched.inRange_bounds h
  have hp : 2 ^ p.cycleLog ≤ 2 ^ 30 := Nat.pow_le_pow_right (by norm_num) hc
  have hm : i % 2 ^ p.cycleLog < 2 ^ p.cycleLog := Nat.mod_lt _ (by positivity)
  unfold corrOf newCurOf
  split <;> omega

theorem Latched.idxCeiling_lt {p : Latched} (h : p.inRange = true) : p.idxCeiling < 2 ^ 32 - 2 ^ 17 := by
  obtain ⟨_, hw, _⟩ := Latched.inRange_bounds h
  unfold Latched.idxCeiling
  omega

theorem Latched.lt_idxCeiling (p : Latched) : 2 ^ 17 < p.idxCeiling := by
  unfold Latched.idxCeiling
  omega

/-- The window work of a block (R292) at a position and an end in the window: the index of the end comes out below `2^32`. An
end that wraps around the address space (log 40) has an index too small for a correction. -/
theorem blockWindow_moved {s : State} {src n : Nat} (haw : 32 ≤ s.impl.addrW ∧ s.impl.addrW ≤ 64)
    (hp : s.p.inRange = true) (h : s.Ordered) (hn : n ≤ s.p.blockSizeMax) (hs : s.idx src ≤ s.cur)
    (he : s.idx (src + n) ≤ s.cur) :
    ∃ corr, WindowMoved s (blockWindow s src n) corr ∧ corr ≤ s.idx src ∧ (blockWindow s src n).idx (src + n) < 2 ^ 32 := by
  obtain ⟨_, _, hb⟩ := Latched.inRange_bounds hp
  have hceil := Latched.idxCeiling_lt hp
  have hfloor := s.p.lt_idxCeiling
  unfold blockWindow
  extract_lets s1
  have h1 : ∃ corr, WindowMoved s s1 corr ∧ corr ≤ s.idx src ∧ s1.idx (src + n) < 2 ^ 32 ∧ s1.idx (src + n) ≤ s1.cur := by
    show ∃ corr, WindowMoved s (if s.p.needsCorrection (s.idx (src + n)) = true then _ else _) corr ∧ _
    have hneeds : s.p.needsCorrection (s.idx (src + n)) = true ↔ s.p.idxCeiling < s.idx (src + n) := decide_eq_true_iff
    by_cases hc : s.p.needsCorrection (s.idx (src + n)) = true
    · have hs1 : s1 = winCorrectOverflow s s.p.cycleLog s.p.windowSize (s.idx src) := if_pos hc
      rw [if_pos hc, hs1]
      obtain ⟨hord, hcur, hidx, hbank⟩ :=
        winCorrectOverflow_ordered (c := s.p.cycleLog) (d := s.p.windowSize) haw.2 h hs
      have hle := corrOf_le s.p.cycleLog s.p.windowSize (s.idx src)
      have hland := corrOf_lands hp (s.idx src)
      have hend : s.idx (src + n) = s.idx src + n := by
        rcases Nat.lt_or_ge (s.idx src + n) (2 ^ s.impl.addrW) with hlt | hge
        · exact Window.idx_add hlt
        · have hn' : n < 2 ^ s.impl.addrW :=
            lt_of_lt_of_le (show n < 2 ^ 32 by omega) (Nat.pow_le_pow_right (by norm_num) haw.1)
          have hw : s.idx (src + n) < n := Window.idx_add_wrapped hn' hge
          have := hneeds.mp hc
          omega
      have hend' := hidx (src + n) (by omega)
      refine ⟨_, ⟨hord, hcur, hidx, hbank⟩, by omega, ?_, ?_⟩ <;> omega
    · have hs1 : s1 = s := if_neg hc
      rw [if_neg hc, hs1]
      have := mt hneeds.mpr hc
      exact ⟨0, .refl h, Nat.zero_le _, by omega, he⟩
  obtain ⟨corr, ⟨hord, hcur, hidx, hbank⟩, hle, h32, hec⟩ := h1
  obtain ⟨hord', hbank'⟩ := winEnforceMaxDist_ordered (d := s.p.windowSize) hord hec h32
  refine ⟨corr, ⟨hord', ?_, fun a ha => ?_, hbank.trans hbank'⟩, hle, ?_⟩
  · rw [winEnforceMaxDist_cur, hcur]
  · rw [winEnforceMaxDist_idx, hidx a ha]
  · rw [winEnforceMaxDist_idx]; exact h32

/-- A block's match finding and its output leave the window where its window work put it. -/
theorem blockStep_window (s : State) (src n : Nat) (last : Bool) (dst cap : Nat) :
    (blockStep s src n last dst cap).1.w = (blockWindow s src n).w ∧
    (blockStep s src n last dst cap).1.ms.dmsAttached = (blockWindow s src n).ms.dmsAttached := by
  obtain ⟨hw, hm, _, _⟩ := blockBody_tableWork (blockWindow s src n) src n
  unfold blockStep
  dsimp only
  split <;> exact ⟨hw, hm.attached⟩

theorem WindowMoved.same {s t u : State} {corr : Nat} (h : WindowMoved s t corr) (hi : u.impl = t.impl) (hw : u.w = t.w)
    (hm : u.ms.dmsAttached = t.ms.dmsAttached) : WindowMoved s u corr := by
  obtain ⟨ho, hc, hx, hb⟩ := h
  refine ⟨?_, ?_, fun a ha => ?_, hb.trans (.same hw hm)⟩
  · unfold State.Ordered; rw [hi, hw]; exact ho
  · unfold State.cur; rw [hi, hw]; exact hc
  · unfold State.idx; rw [hi, hw]; exact hx a ha

/-- A block step at a position and an end in the window. -/
theorem blockStep_moved {s : State} {src n : Nat} {last : Bool} {dst cap : Nat}
    (haw : 32 ≤ s.impl.addrW ∧ s.impl.addrW ≤ 64) (hp : s.p.inRange = true) (h : s.Ordered) (hn : n ≤ s.p.blockSizeMax)
    (hs : s.idx src ≤ s.cur) (he : s.idx (src + n) ≤ s.cur) :
    ∃ corr, WindowMoved s (blockStep s src n last dst cap).1 corr ∧ corr ≤ s.idx src ∧
      (blockStep s src n last dst cap).1.idx (src + n) < 2 ^ 32 := by
  obtain ⟨corr, hm, hle, h32⟩ := blockWindow_moved haw hp h hn hs he
  obtain ⟨hw, ha⟩ := blockStep_window s src n last dst cap
  have hbi : (blockWindow s src n).impl = s.impl := by rw [blockWindow_frame]
  have hi : (blockStep s src n last dst cap).1.impl = s.impl := by
    rcases hb : blockStep s src n last dst cap with ⟨t, _ | k⟩
    · obtain ⟨u, hu, _, _, _, rfl, _⟩ := blockStep_none hb
      dsimp only; rw [hu]; rfl
    · obtain ⟨ht, _⟩ := blockStep_some hb
      dsimp only; rw [ht]
  refine ⟨corr, hm.same (hi.trans hbi.symm) hw ha, hle, ?_⟩
  unfold State.idx at h32 ⊢
  rw [hi, hw]
  rwa [hbi] at h32

/-! ### The chunk of a frame command -/

/-- In a frame command under way the `rem` bytes from `p` up are still to be worked on: they are the end of the window, which
is in order, though `cur` may be above `2^32`. -/
structure ChunkLeft (s : State) (p rem : Nat) : Prop where
  addrW : 32 ≤ s.impl.addrW ∧ s.impl.addrW ≤ 64
  params : s.p.inRange = true
  ordered : s.Ordered
  start : s.idx p < 2 ^ 32
  stop : s.cur = s.idx p + rem

theorem ChunkLeft.done {s : State} {p : Nat} (h : ChunkLeft s p 0) : s.WindowOk :=
  s.windowOk_iff.mpr ⟨h.ordered, h.stop ▸ h.start⟩

/-- A block that is written leaves the rest of the chunk. -/
theorem ChunkLeft.block {s t : State} {p rem b dst cap : Nat} {last : Bool} {k : Nat × Nat} (h : ChunkLeft s p rem)
    (hb : b ≤ s.p.blockSizeMax) (hrem : b ≤ rem) (hk : blockStep s p b last dst cap = (t, some k)) :
    ChunkLeft t (p + b) (rem - b) ∧ BankHeld s t := by
  obtain ⟨haw, hp, hord, _, hstop⟩ := h
  have hlt : s.cur < 2 ^ s.impl.addrW := Window.idx_lt _ _ _
  have hend : s.idx (p + b) = s.idx p + b := Window.idx_add (lt_of_le_of_lt (show s.idx p + b ≤ s.cur by omega) hlt)
  obtain ⟨corr, ⟨hord', hcur, hidx, hbank⟩, hle, h32⟩ :=
    blockStep_moved (last := last) (dst := dst) (cap := cap) haw hp hord hb (show s.idx p ≤ s.cur by omega) (by omega)
  rw [hk] at hord' hcur hidx hbank h32
  obtain ⟨ht, _⟩ := blockStep_some hk
  have hti : t.impl = s.impl := by rw [ht]
  have hidx := hidx (p + b) (by omega)
  dsimp only at hcur hidx
  exact ⟨⟨hti ▸ haw, ht.p ▸ hp, hord', h32, by omega⟩, hbank⟩

/-- The block loop of a frame command that writes all its units. -/
theorem frameBlocks_window (last : Bool) (dst cap : Nat) : ∀ (fuel : Nat) (s : State) (p rem w : Nat),
    ChunkLeft s p rem → rem ≤ fuel * s.p.blockSizeMax → (frameBlocks last dst cap fuel s p rem w).2.2 = true →
    (frameBlocks last dst cap fuel s p rem w).1.WindowOk ∧ BankHeld s (frameBlocks last dst cap fuel s p rem w).1
  | 0, s, p, rem, w, h, hf, _ => by
    obtain rfl : rem = 0 := by omega
    exact ⟨h.done, .same rfl rfl⟩
  | fuel + 1, s, p, rem, w, h, hf, hall => by
    unfold frameBlocks at hall ⊢
    by_cases hr : rem = 0
    · subst hr
      exact ⟨h.done, .same rfl rfl⟩
    simp only [hr, if_false] at hall ⊢
    rcases hb : blockStep s p (min rem s.p.blockSizeMax) (last && min rem s.p.blockSizeMax == rem) (dst + w) (cap - w)
      with ⟨t, _ | k⟩
    · rw [hb] at hall; cases hall
    rw [hb] at hall
    dsimp only at hall ⊢
    obtain ⟨hleft, hbank⟩ := h.block (Nat.min_le_right _ _) (Nat.min_le_left _ _) hb
    have htp : t.p = s.p := (blockStep_some hb).1.p
    have hfuel : rem - min rem s.p.blockSizeMax ≤ fuel * s.p.blockSizeMax := by
      rw [Nat.add_mul, Nat.one_mul] at hf
      omega
    obtain ⟨hok, hbank'⟩ := frameBlocks_window last dst cap fuel t _ _ (w + k.1) hleft (htp ▸ hfuel) hall
    exact ⟨hok, hbank.trans hbank'⟩

/-- The chunk of a frame command that is written whole. -/
theorem frameChunk_window {s : State} {src n dst cap : Nat} {last : Bool} {w : Nat}
    (haw : 32 ≤ s.impl.addrW ∧ s.impl.addrW ≤ 64) (hp : s.p.inRange = true) (h : s.WindowOk) (hn : s.cur + n < 2 ^ s.impl.addrW)
    (hend : src + n ≤ 2 ^ s.impl.addrW) (htrue : (frameChunk s src n dst cap last w).2.2 = true) :
    (frameChunk s src n dst cap last w).1.WindowOk ∧ BankHeld s (frameChunk s src n dst cap last w).1 := by
  unfold frameChunk at htrue ⊢
  by_cases h0 : n = 0
  · simp only [h0, if_true]
    exact ⟨h, .same rfl rfl⟩
  simp only [h0, if_false] at htrue ⊢
  obtain ⟨hord, hcur, hidx, hbank⟩ := winAppend_ordered haw.2 h hn hend
  obtain ⟨hf, _, _, _, hpp, _⟩ := s.takeChunk_frame src n
  have hti : (s.takeChunk src n).impl = s.impl := by rw [hf]
  have htw : (s.takeChunk src n).w = (winAppend s src n).1.w ∧ (s.takeChunk src n).ms = (winAppend s src n).1.ms := by
    unfold State.takeChunk; dsimp only; split <;> exact ⟨rfl, rfl⟩
  have hai : (winAppend s src n).1.impl = s.impl := by rw [winAppend_frame]
  have hmoved : WindowMoved (winAppend s src n).1 (s.takeChunk src n) 0 :=
    (WindowMoved.refl hord).same (hti.trans hai.symm) htw.1 (by rw [htw.2])
  have hix := (hmoved.idx src (Nat.zero_le _)).trans (hidx h0)
  have hcx := hmoved.cur.trans hcur
  have h32 := (s.windowOk_iff.mp h).2
  have hleft : ChunkLeft (s.takeChunk src n) src n :=
    ⟨hti ▸ haw, hpp ▸ hp, hmoved.ordered, by omega, by omega⟩
  have hfuel : n ≤ (n / s.p.blockSizeMax + 1) * s.p.blockSizeMax := by
    rw [Nat.add_mul, Nat.one_mul]
    exact (Nat.lt_div_mul_add s.p.blockSizeMax_pos).le
  have hloop := frameBlocks_window last dst cap (n / s.p.blockSizeMax + 1) (s.takeChunk src n) src n w hleft (hpp ▸ hfuel)
  have hheld := hbank.trans hmoved.bank
  generalize frameBlocks last dst cap (n / s.p.blockSizeMax + 1) (s.takeChunk src n) src n w = r at htrue hloop ⊢
  cases hr : r.2.2
  · rw [hr] at htrue; simp [hr] at htrue
  · obtain ⟨hok, hb⟩ := hloop hr
    exact ⟨hok, hheld.trans hb⟩

end Sys2Proof.Machine
end

/-! ## The window invariant -/

section
namespace Sys2Proof.Machine

open Sys2Proof

/-- The window of `t` is in order between commands, and a reference to the bank that `t` holds was held in `s`. -/
def WindowStep (s t : State) : Prop := t.WindowOk ∧ BankHeld s t

theorem WindowStep.same {s t u : State} (h : WindowStep s t) (hi : u.impl = t.impl) (hw : u.w = t.w)
    (hm : u.ms.dmsAttached = t.ms.dmsAttached) : WindowStep s u := by
  obtain ⟨hok, hb⟩ := h
  refine ⟨?_, hb.trans (.same hw hm)⟩
  unfold State.WindowOk State.cur at hok ⊢
  rw [hi, hw]
  exact hok

theorem WindowStep.refl {s : State} (h : s.WindowOk) : WindowStep s s := ⟨h, .same rfl rfl⟩

theorem WindowStep.withCode {s t : State} (h : WindowStep s t) (c : Byte) : WindowStep s (t.withCode c) := h
theorem WindowStep.setRes0 {s t : State} (h : WindowStep s t) (v : Nat) : WindowStep s (t.setRes0 v) := h
theorem WindowStep.setDictID {s t : State} (h : WindowStep s t) (v : Word) : WindowStep s { t with dictID := v } := h

theorem WindowStep.setPrev {s t : State} (h : WindowStep s t) (b : BlockState) : WindowStep s (t.setPrev b) :=
  h.same (by simp) (by simp) (by simp)

theorem State.rangeOk_end {s : State} {a n : DWord} (h : s.rangeOk a n = true) :
    a.toNat + n.toNat ≤ 2 ^ s.impl.addrW := by
  simp only [State.rangeOk, Bool.and_eq_true, decide_eq_true_eq] at h
  exact h.2

theorem State.inPrefix_le {s : State} {a : Nat} (h : s.w.inPrefix s.impl.addrW a = true) : s.idx a ≤ s.cur :=
  (of_decide_eq_true h).2

theorem State.posOk_le {s : State} {a : DWord} (h : s.posOk a = true) : s.idx a.toNat ≤ s.cur := by
  simp only [State.posOk, Bool.and_eq_true] at h
  exact s.inPrefix_le h.2

theorem State.spanOk_le {s : State} {a n : DWord} (h : s.spanOk s.w a n = true) :
    s.idx a.toNat ≤ s.cur ∧ s.idx (a.toNat + n.toNat) ≤ s.cur := by
  simp only [State.spanOk, Bool.and_eq_true] at h
  exact ⟨s.inPrefix_le h.1.2, s.inPrefix_le h.2⟩

theorem Impl.legal_addrW {c : Config.Impl} (h : c.legal = true) : 32 ≤ c.addrW ∧ c.addrW ≤ 64 := by
  simp only [Config.Impl.legal, Bool.and_eq_true, decide_eq_true_eq] at h
  exact ⟨h.1.1, h.1.2.1⟩

theorem frameChunk_impl {s : State} {src n dst cap : Nat} {last : Bool} {w : Nat} (hw : w ≤ cap) :
    (frameChunk s src n dst cap last w).1.impl = s.impl := by
  obtain ⟨u, w', hu, _, _, _, hr | ⟨_, hr⟩⟩ := frameChunk_cases s src n dst cap last w hw
  · rw [hr]; dsimp only; rw [hu]
  · rw [hr]; dsimp only; rw [hu]; rfl

/-- A chunk of a frame command that has not lost the frame. -/
theorem ChunkRun.window {last : Bool} {s t : State} (hc : ChunkRun last s t) (haw : 32 ≤ s.impl.addrW ∧ s.impl.addrW ≤ 64)
    (hp : s.p.inRange = true) (h : s.WindowOk) (hn : s.cur + s.op1.toNat < 2 ^ s.impl.addrW)
    (hend : s.op0.toNat + s.op1.toNat ≤ 2 ^ s.impl.addrW) (hi : t.impl = s.impl) (hu : t.status.unspec = false) :
    WindowStep s t := by
  obtain ⟨s1, w, hs, hf, hw, ht, hflag⟩ := hc
  have hflag := hflag hu
  have hi1 : s1.impl = s.impl := by rw [hf]
  have hp1 : s1.p = s.p := by rw [hf]
  have hs1 : WindowStep s s1 := (WindowStep.refl h).same hi1 hs.1 (by rw [hs.2.1])
  have hcur : s1.cur = s.cur := by unfold State.cur; rw [hi1, hs.1]
  have hu1 : (frameChunk s1 s.op0.toNat s.op1.toNat s.op2.toNat s.op3.toNat last w).1.impl = s1.impl :=
    frameChunk_impl hw
  obtain ⟨hok, hb⟩ := frameChunk_window (hi1 ▸ haw) (hp1 ▸ hp) hs1.1 (by rw [hcur, hi1]; exact hn)
    (by rw [hi1]; exact hend) hflag
  have hrun : WindowStep s (frameChunk s1 s.op0.toNat s.op1.toNat s.op2.toNat s.op3.toNat last w).1 := ⟨hok, hs1.2.trans hb⟩
  exact hrun.same (by rw [hi, hu1, hi1]) ht.1 (by rw [ht.2.1])

/-- The chunk's preconditions (R293). -/
theorem frameOperands {s : State} (h : Instr.frameEnd.operandsOk s = true) :
    s.op0.toNat + s.op1.toNat ≤ 2 ^ s.impl.addrW ∧ s.cur + s.op1.toNat < 2 ^ s.impl.addrW := by
  simp only [Instr.operandsOk, Bool.and_eq_true, decide_eq_true_eq] at h
  exact ⟨s.rangeOk_end h.1.1, h.2⟩

theorem blockCompress_window {m : Byte} {s t : State} (ho : (Instr.blockCompress m).operandsOk s = true)
    (hr : SameHistory (blockStep s s.op0.toNat s.op1.toNat (modBit0 m) s.op2.toNat s.op3.toNat).1 t)
    (haw : 32 ≤ s.impl.addrW ∧ s.impl.addrW ≤ 64) (hp : s.p.inRange = true) (h : s.WindowOk) (hi : t.impl = s.impl) :
    WindowStep s t := by
  simp only [Instr.operandsOk, Bool.and_eq_true, decide_eq_true_eq] at ho
  obtain ⟨⟨hn, hspan⟩, _⟩ := ho
  obtain ⟨hs, he⟩ := s.spanOk_le hspan
  obtain ⟨hord, h32⟩ := s.windowOk_iff.mp h
  obtain ⟨corr, hm, _, _⟩ := blockWindow_moved haw hp hord hn hs he
  have hw := blockStep_window s s.op0.toNat s.op1.toNat (modBit0 m) s.op2.toNat s.op3.toNat
  have hbi : (blockWindow s s.op0.toNat s.op1.toNat).impl = s.impl := by rw [blockWindow_frame]
  have hcur := hm.cur
  have hok : WindowStep s (blockWindow s s.op0.toNat s.op1.toNat) :=
    ⟨(State.windowOk_iff _).mpr ⟨hm.ordered, by omega⟩, hm.bank⟩
  exact hok.same (hi.trans hbi.symm) (hr.1.trans hw.1) ((congrArg _ hr.2.1).trans hw.2)

/-- WIN_APPEND and the append of DICT_LOAD: below `2^32` bytes of window in all. -/
theorem winAppend_window {s : State} {src n : Nat} (haw : 32 ≤ s.impl.addrW ∧ s.impl.addrW ≤ 64) (h : s.WindowOk)
    (hn : s.cur + n < 2 ^ 32) (hend : src + n ≤ 2 ^ s.impl.addrW) : WindowStep s (winAppend s src n).1 := by
  obtain ⟨hord, hcur, _, hb⟩ :=
    winAppend_ordered haw.2 h (hn.trans_le (Nat.pow_le_pow_right (by norm_num) haw.1)) hend
  exact ⟨(State.windowOk_iff _).mpr ⟨hord, hcur ▸ hn⟩, hb⟩

/-- The window after the content of a dictionary (R306). -/
theorem dictLoadContent_window {s : State} {src len : Nat} {full : Bool} (haw : 32 ≤ s.impl.addrW ∧ s.impl.addrW ≤ 64)
    (h : s.WindowOk) (hn : s.cur + len < 2 ^ 32) (hend : src + len ≤ 2 ^ s.impl.addrW) :
    WindowStep s (dictLoadContent s src len full) := by
  have hci : (dictLoadContent s src len full).impl = s.impl := by rw [dictLoadContent_command]
  have happ := winAppend_window haw h hn hend
  have hai : (winAppend s src len).1.impl = s.impl := by rw [winAppend_frame]
  by_cases h0 : len = 0
  · unfold dictLoadContent at hci ⊢
    rw [if_pos h0] at hci ⊢
    exact (WindowStep.refl h).same hci rfl rfl
  · unfold dictLoadContent at hci ⊢
    rw [if_neg h0] at hci ⊢
    obtain ⟨hw, ha, _⟩ := dictContent_after s src len full
    exact happ.same (hci.trans hai.symm) hw ha

/-- Every command that runs in an open frame and answers with the frame not lost keeps the window in order. DICT_ATTACH, which
takes the reference to the bank, stands apart. -/
theorem exec_window {i : Instr} {s t : State} (h : exec i s = .next t) (hc : i ≠ .ctxInit) (ha : i ≠ .dictAttach)
    (haw : 32 ≤ s.impl.addrW ∧ s.impl.addrW ≤ 64) (hp : s.p.inRange = true) (hs : s.WindowOk)
    (ho : i.operandsOk s = true) (hu : t.status.unspec = false) : WindowStep s t := by
  have hr := WindowStep.refl hs
  obtain ⟨_, _, _, _, _, _, _, hi, _⟩ := commandsKeepHostRegistersAndBank i s t h
  have alone : FrameAlone s t → WindowStep s t := fun hf => hr.same hi hf.1.1 (by rw [hf.1.2.1])
  have worked : (Worked i s t → WindowStep s t) → WindowStep s t := by
    intro hw
    rcases exec_next h with h | ⟨_, _, h⟩
    · obtain ⟨c, rfl⟩ := h.withCode
      exact hr.withCode c
    · exact hw h
  cases i with
  | ctxInit => exact absurd rfl hc
  | dictAttach => exact absurd rfl ha
  | frameContinue =>
    obtain ⟨hend, hn⟩ := frameOperands ho
    exact (execFrameContinue_chunkRun h).elim alone fun hc => hc.window haw hp hs hn hend hi hu
  | frameEnd =>
    obtain ⟨hend, hn⟩ := frameOperands ho
    exact (execFrameEnd_chunkRun h).elim alone fun hc => hc.window haw hp hs hn hend hi hu
  | blockCompress m => exact (execBlockCompress_step h).elim alone fun hb => blockCompress_window ho hb haw hp hs hi
  | dictLoad m =>
    refine worked fun h => ?_
    simp only [Instr.operandsOk, State.dictOperandsOk, Bool.and_eq_true, decide_eq_true_eq] at ho
    rcases h with ⟨_, rfl⟩ | ⟨_, rfl⟩
    · exact hr.withCode 6
    · have hl := dictLoadContent_window (full := modBit0 m) haw hs ho.2 (s.rangeOk_end ho.1.1.1)
      refine WindowStep.withCode (WindowStep.setDictID (t := if s.op2 = 0 then _ else _) ?_ _) 0
      split
      · exact hl
      · exact hl.setPrev _
  | winAppend =>
    refine worked fun h => ?_
    simp only [Instr.operandsOk, Bool.and_eq_true, decide_eq_true_eq] at ho
    subst h
    exact ((winAppend_window haw hs ho.2 (s.rangeOk_end ho.1)).setRes0 _).withCode 0
  | winEnforceMaxdist =>
    refine worked fun h => ?_
    subst h
    have hle := s.posOk_le ho
    obtain ⟨hord, h32⟩ := s.windowOk_iff.mp hs
    obtain ⟨hord', hb⟩ := winEnforceMaxDist_ordered (d := s.op1.toNat) hord hle (by omega)
    refine WindowStep.withCode ⟨(State.windowOk_iff _).mpr ⟨hord', ?_⟩, hb⟩ 0
    rw [winEnforceMaxDist_cur]; exact h32
  | winCorrectOverflow =>
    refine worked fun h => ?_
    subst h
    simp only [Instr.operandsOk, Bool.and_eq_true] at ho
    have hle := s.posOk_le ho.1.2
    obtain ⟨hord, h32⟩ := s.windowOk_iff.mp hs
    obtain ⟨hord', hcur, _, hb⟩ := winCorrectOverflow_ordered (c := s.op0.toNat) (d := s.op1.toNat) haw.2 hord hle
    exact (WindowStep.setRes0 ⟨(State.windowOk_iff _).mpr ⟨hord', by omega⟩, hb⟩ _).withCode 0
  | _ => exact worked fun h => hr.same hi (h.tableWork rfl).1 (h.tableWork rfl).2.1.attached

/-! ### The commands that touch the bank, or take a reference to it -/

/-- The window CTX_INIT and a hardware reset leave (R281, R345). -/
theorem Window.init_cur {aw : Nat} (haw : 32 ≤ aw) : Window.init.cur aw = 1 := by
  have h1 : 1 < 2 ^ aw := Nat.one_lt_two_pow (by omega)
  exact subA_eq h1 rfl

theorem State.windowOk_init {s : State} (haw : 32 ≤ s.impl.addrW) (hw : s.w = Window.init) : s.WindowOk := by
  have hc : s.cur = 1 := by unfold State.cur; rw [hw]; exact Window.init_cur haw
  unfold State.WindowOk
  rw [hc, hw]
  decide

/-- A bank that is valid has its content from index 1 on. -/
def DmsBank.Placed (d : DmsBank) : Prop :=
  d.valid = true → 1 ≤ d.w.lowLimit.toNat ∧ d.w.lowLimit.toNat ≤ d.endIdx.toNat

/-- DICT_ATTACH (R310): the window begins where the bank's content ends. -/
theorem State.attach_window {s : State} (haw : 32 ≤ s.impl.addrW ∧ s.impl.addrW ≤ 64) (hd : s.dms.Placed)
    (hv : s.dms.valid = true) : s.attach.WindowOk ∧ s.attach.BankOk := by
  obtain ⟨hlow, hend⟩ := hd hv
  have h32 := s.dms.endIdx.isLt
  have hlt : s.dms.endIdx.toNat < 2 ^ s.impl.addrW := h32.trans_le (Nat.pow_le_pow_right (by norm_num) haw.1)
  have hw : s.attach.w = { s.w with
      nextSrc := BitVec.ofNat 64 (addA s.impl.addrW s.w.base.toNat s.dms.endIdx.toNat)
      dictLimit := s.dms.endIdx, lowLimit := s.dms.endIdx } := by unfold State.attach; simp
  have hi : s.attach.impl = s.impl := by unfold State.attach; simp
  have hdms : s.attach.dms = s.dms := by unfold State.attach; simp
  have hcur : s.attach.cur = s.dms.endIdx.toNat := by
    unfold State.cur
    rw [hw, hi]
    refine subA_eq hlt ?_
    dsimp only
    rw [toNat_ofNat_lt (addA_lt _ _ _) haw.2, Nat.add_comm]
    exact (Nat.mod_modEq _ _).symm
  unfold State.WindowOk State.BankOk
  rw [hcur, hw, hdms]
  exact ⟨⟨hlow.trans hend, le_refl _, le_refl _, h32⟩, fun _ => ⟨hv, hend, le_refl _⟩⟩

theorem buildBank_placed {s : State} (h : s.op1.toNat + 1 < 2 ^ 32) : (buildBank s).Placed := by
  intro _
  have he : (buildBank s).endIdx.toNat = 1 + s.op1.toNat := word32_toNat (by omega)
  rw [he]
  exact ⟨le_refl 1, Nat.le_add_right 1 _⟩

theorem exec_dictAttach_window {s t : State} (h : exec .dictAttach s = .next t)
    (haw : 32 ≤ s.impl.addrW ∧ s.impl.addrW ≤ 64) (hd : s.dms.Placed) (hs : s.WindowOk ∧ s.BankOk) : t.WindowOk ∧ t.BankOk := by
  rcases exec_next h with h | ⟨_, ho, h⟩
  · obtain ⟨c, rfl⟩ := h.withCode
    exact hs
  · subst h
    simp only [Instr.operandsOk, Bool.and_eq_true] at ho
    split
    · exact hs
    · exact State.attach_window haw hd ho.1

/-! ### The invariant of a run -/

theorem exec_runOk {i : Instr} {s t : State} (h : exec i s = .next t) (hs : s.RunOk) : t.RunOk := by
  obtain ⟨_, _, _, _, _, _, _, himpl, _, _, _, hdms, hpar⟩ := commandsKeepHostRegistersAndBank i s t h
  obtain ⟨hleg, hrange, hwin, hbank⟩ := hs
  have haw := Impl.legal_addrW hleg
  by_cases hc : i = .ctxInit
  · subst hc
    rcases ctxInit_next h with ⟨c, rfl⟩ | ⟨hv, rfl⟩
    · exact ⟨hleg, hrange, hwin, hbank⟩
    · exact ⟨hleg, fun _ => CfgRegs.latch_inRange hv,
        fun _ => ⟨State.windowOk_init haw.1 rfl, fun ha => by cases ha⟩, hbank⟩
  by_cases hd : i = .dmsBuild
  · subst hd
    rcases dmsBuild_next h with ⟨c, rfl⟩ | ⟨hl, ho, rfl⟩
    · exact ⟨hleg, hrange, hwin, hbank⟩
    · have hfree : s.ms.dmsAttached = false := by simpa [Instr.letThrough] using (Bool.and_eq_true_iff.mp hl).2
      simp only [Instr.operandsOk, Bool.and_eq_true, decide_eq_true_eq] at ho
      exact ⟨hleg, hrange, fun hu => ⟨(hwin hu).1, fun ha => absurd ha (by simpa using hfree)⟩, buildBank_placed ho.2⟩
  have hd' := hdms hd
  have hp' := hpar hc
  rcases exec_open_or_alone h hc with ⟨hio, hu, ho⟩ | ⟨⟨hw, hm, _⟩, hst, hun⟩
  · obtain ⟨hok, hb⟩ := hwin hu
    refine ⟨himpl ▸ hleg, fun _ => hp' ▸ hrange hio, fun htu => ?_, hd' ▸ hbank⟩
    by_cases ha : i = .dictAttach
    · subst ha
      exact exec_dictAttach_window h haw hbank ⟨hok, hb⟩
    · obtain ⟨hok', hheld⟩ := exec_window h hc ha haw (hrange hio) hok ho htu
      exact ⟨hok', hheld.bankOk hd' hb⟩
  · refine ⟨himpl ▸ hleg, fun ht => hp' ▸ hrange (hst ▸ ht), fun htu => ?_, hd' ▸ hbank⟩
    obtain ⟨hok, hb⟩ := hwin (hun ▸ htu)
    obtain ⟨hok', hheld⟩ := (WindowStep.refl hok).same himpl hw (congrArg _ hm)
    exact ⟨hok', hheld.bankOk hd' hb⟩

theorem hardReset_runOk {s : State} (hs : s.RunOk) : (hardReset s).RunOk := by
  obtain ⟨hleg, _⟩ := hs
  exact ⟨hleg, nofun, fun _ => ⟨State.windowOk_init (s := hardReset s) (Impl.legal_addrW hleg).1 rfl, nofun⟩, nofun⟩

theorem HostFrame.runOk {s t : State} (h : HostFrame s t) (hs : s.RunOk) : t.RunOk := by
  unfold HostFrame at h
  rw [h]
  exact hs

/-- Settles O59: the order of the window is an invariant of a step. A command that moves the window does so through an append
(`Window.append_ordered`), a correction (`Window.shift_ordered`) or a drop (`Window.enforce_ordered`); inside a frame command
`cur` may pass `2^32`, but the bytes not yet worked on lie at the window's end (`frameBlocks_window`). -/
theorem stepKeepsWindowOrder : Obligations.StepKeepsWindowOrder := fun _ _ =>
  step_keeps (I := State.RunOk) (fun _ _ => HostFrame.runOk) (fun _ _ _ hs => hs) (fun _ => hardReset_runOk)
    (fun _ _ _ => exec_runOk)

end Sys2Proof.Machine
end

/-! ## The host's registers and the command word -/

section
namespace Sys2Proof.Machine

open Sys2Proof

/-! ### What a register write leaves, field by field (10_state.md R15) -/

section
variable (s : State) (n : Nat) (v : DWord)

/-- Only the operand and configuration registers are written. -/
theorem State.writeReg_frame : s.writeReg n v = { s with
    op0 := (s.writeReg n v).op0, op1 := (s.writeReg n v).op1, op2 := (s.writeReg n v).op2, op3 := (s.writeReg n v).op3
    cfg := (s.writeReg n v).cfg } := by
  unfold State.writeReg; split <;> rfl

@[simp] theorem State.writeReg_op0 : (s.writeReg n v).op0 = if n = 2 then v else s.op0 := by
  unfold State.writeReg; split <;> simp_all
@[simp] theorem State.writeReg_op1 : (s.writeReg n v).op1 = if n = 3 then v else s.op1 := by
  unfold State.writeReg; split <;> simp_all
@[simp] theorem State.writeReg_op2 : (s.writeReg n v).op2 = if n = 4 then v else s.op2 := by
  unfold State.writeReg; split <;> simp_all
@[simp] theorem State.writeReg_op3 : (s.writeReg n v).op3 = if n = 5 then v else s.op3 := by
  unfold State.writeReg; split <;> simp_all
@[simp] theorem State.writeReg_windowLog : (s.writeReg n v).cfg.windowLog =
    if n = 16 then v.setWidth 8 else s.cfg.windowLog := by
  unfold State.writeReg; split <;> simp_all
@[simp] theorem State.writeReg_hashLog : (s.writeReg n v).cfg.hashLog = if n = 17 then v.setWidth 8 else s.cfg.hashLog := by
  unfold State.writeReg; split <;> simp_all
@[simp] theorem State.writeReg_chainLog : (s.writeReg n v).cfg.chainLog =
    if n = 18 then v.setWidth 8 else s.cfg.chainLog := by
  unfold State.writeReg; split <;> simp_all
@[simp] theorem State.writeReg_searchLog : (s.writeReg n v).cfg.searchLog =
    if n = 19 then v.setWidth 8 else s.cfg.searchLog := by
  unfold State.writeReg; split <;> simp_all
@[simp] theorem State.writeReg_minMatch : (s.writeReg n v).cfg.minMatch =
    if n = 20 then v.setWidth 8 else s.cfg.minMatch := by
  unfold State.writeReg; split <;> simp_all
@[simp] theorem State.writeReg_targetLength : (s.writeReg n v).cfg.targetLength =
    if n = 21 then v.setWidth 32 else s.cfg.targetLength := by
  unfold State.writeReg; split <;> simp_all
@[simp] theorem State.writeReg_strategy : (s.writeReg n v).cfg.strategy =
    if n = 22 then v.setWidth 8 else s.cfg.strategy := by
  unfold State.writeReg; split <;> simp_all
@[simp] theorem State.writeReg_flags : (s.writeReg n v).cfg.flags = if n = 23 then v.setWidth 8 else s.cfg.flags := by
  unfold State.writeReg; split <;> simp_all
@[simp] theorem State.writeReg_pledged : (s.writeReg n v).cfg.pledged = if n = 24 then v else s.cfg.pledged := by
  unfold State.writeReg; split <;> simp_all
@[simp] theorem State.writeReg_ldmHashLog : (s.writeReg n v).cfg.ldmHashLog =
    if n = 25 then v.setWidth 8 else s.cfg.ldmHashLog := by
  unfold State.writeReg; split <;> simp_all
@[simp] theorem State.writeReg_ldmBucketLog : (s.writeReg n v).cfg.ldmBucketLog =
    if n = 26 then v.setWidth 8 else s.cfg.ldmBucketLog := by
  unfold State.writeReg; split <;> simp_all
@[simp] theorem State.writeReg_ldmMinMatch : (s.writeReg n v).cfg.ldmMinMatch =
    if n = 27 then v.setWidth 16 else s.cfg.ldmMinMatch := by
  unfold State.writeReg; split <;> simp_all
@[simp] theorem State.writeReg_ldmRateLog : (s.writeReg n v).cfg.ldmRateLog =
    if n = 28 then v.setWidth 8 else s.cfg.ldmRateLog := by
  unfold State.writeReg; split <;> simp_all

/-! ### Reading a register back -/

variable {n}

/-- The part of a value that a register of `w` bits keeps, read zero-extended. -/
theorem setWidth_roundtrip (w : Nat) : (v.setWidth w).setWidth 64 = BitVec.ofNat 64 (v.toNat % 2 ^ w) := by
  apply BitVec.eq_of_toNat_eq
  simp only [BitVec.toNat_setWidth, BitVec.toNat_ofNat]

theorem State.readReg_writeReg_same {w : Nat} (h : writableWidth n = some w) :
    (s.writeReg n v).readReg n = BitVec.ofNat 64 (v.toNat % 2 ^ w) := by
  rw [← setWidth_roundtrip]
  unfold writableWidth at h
  split at h <;> cases h <;> simp [State.readReg]

theorem State.readReg_writeReg_other {m : Nat} (hm : m ≠ n) : (s.writeReg n v).readReg m = s.readReg m := by
  rw [State.writeReg_frame]
  unfold State.readReg
  split <;> simp [hm.symm]

theorem State.writeReg_ignored (h : writableWidth n = none) : s.writeReg n v = s := by
  unfold writableWidth at h
  unfold State.writeReg
  split <;> simp_all

theorem State.readReg_undefined (h : isRegister n = false) : s.readReg n = 0 := by
  unfold State.readReg
  split <;> simp_all [isRegister]

end

/-- Settles O5: the register rules above, and the arms of `hostAct` for a write and a read. -/
theorem hostRegistersReadBack : Obligations.HostRegistersReadBack := by
  refine ⟨fun s n w v h => ⟨s.readReg_writeReg_same v h, fun m hm => s.readReg_writeReg_other v hm⟩,
    fun s n v h => s.writeReg_ignored v h, fun s n h => s.readReg_undefined h, fun s n v rest h => ?_, fun s n rest h => ?_,
    fun s h => ?_⟩
  · rw [step, h]; rfl
  · rw [step, h]; rfl
  · rw [step, h]

/-! ### The command word -/

/-- A write to `CMD` of a legal word launches the decoded command (10_state.md R13). -/
theorem step_launch {s : State} {v : DWord} {rest : List HostAction} {i : Instr} (hh : s.host = .write 0 v :: rest)
    (hd : decode (v.setWidth 32) = .ok i) :
    step s = State.launch i { s with host := rest, freeCtr := s.freeCtr + 1, cmd := v.setWidth 32 }
      (exec i { s with host := rest, freeCtr := s.freeCtr + 1, cmd := v.setWidth 32 }) := by
  rw [step, hh]
  show runCommand v _ = _
  unfold runCommand
  dsimp only
  rw [hd]

theorem exec_changed {i : Instr} {s t : State} (h : exec i s = .next t) : t.changed = s.changed := by
  obtain ⟨_, _, hf, _, _⟩ := exec_command h
  rw [hf]

/-- While the host has changed no live byte a launch is its command (log 13). -/
theorem State.launch_exec {i : Instr} {s : State} (h : s.changed = .none) : s.launch i (exec i s) = exec i s := by
  cases he : exec i s with
  | next t => exact State.launch_none h (exec_changed he)
  | fault f => rfl
  | refused r => rfl

theorem decodeTableWord_some {nbits w : Nat} {i : Instr} (h : decodeTableWord nbits w = some i) :
    decode (BitVec.ofNat 32 (w % 2 ^ nbits)) = .ok i := by
  unfold decodeTableWord at h
  cases hd : decode (BitVec.ofNat 32 (w % 2 ^ nbits)) with
  | ok j => rw [hd] at h; cases h; rfl
  | illegal e => rw [hd] at h; cases h

/-- Settles O4: `step_launch`, and what a launch adds to its command (`State.launch_exec`, `State.launch_next`). -/
theorem stepRunsTheDecodedCommand : Obligations.StepRunsTheDecodedCommand := by
  refine ⟨fun s v rest i hh hd => ?_, fun s nbits w i hw => ?_⟩
  · have hl := step_launch hh hd
    refine ⟨hl, fun hc => hl.trans (State.launch_exec hc), fun t ht => ?_⟩
    obtain ⟨u, hu, rfl, _⟩ := State.launch_next (hl.symm.trans ht)
    rw [hu, ← exec_changed hu]
  · have hv : (BitVec.ofNat 64 (w % 2 ^ nbits)).setWidth 32 = BitVec.ofNat 32 (w % 2 ^ nbits) :=
      BitVec.setWidth_ofNat_of_le (by norm_num) _
    have hl := step_launch (s := s.withFetchWord nbits w) rfl (hv ▸ decodeTableWord_some hw)
    rw [hv] at hl
    exact ⟨hl, fun hc => hl.trans (State.launch_exec hc)⟩

end Sys2Proof.Machine
end

/-! # Proofs of the memory family (20_memory.md)

## Where a command writes host memory -/

section
namespace Sys2Proof.Machine

open Sys2Proof

/-- From `s` to `t` a command with `cap` bytes of room at `dst` wrote the bytes RES0 counts (20_memory.md R45). -/
def WroteResult (s t : State) (dst cap : Nat) : Prop :=
  ∃ w, w ≤ cap ∧ WroteTo s.mem t.mem dst 0 w ∧ t.res0 = BitVec.ofNat 64 w

theorem WroteResult.within {s t : State} {dst : Nat} {n : DWord} (h : WroteResult s t dst n.toNat) (hm : s.mem.wf = true) :
    t.res0.toNat ≤ n.toNat ∧ ∀ a, a < dst ∨ dst + t.res0.toNat ≤ a → t.mem.read a = s.mem.read a := by
  obtain ⟨w, hw, hwrote, hr⟩ := h
  rw [hr, toNat_ofNat_lt (hw.trans_lt n.isLt) (le_refl 64)]
  exact ⟨hw, fun a ha => hwrote.read hm (by rwa [Nat.add_zero])⟩

theorem finishMatch_mem {s t : State} {iend : Nat} {r : MatchRun} (h : (finishMatch s iend r).outcome = .next t) :
    t.mem = s.mem := by
  rcases finishMatch_next h with ⟨_, rfl⟩ | ⟨_, rfl⟩
  · rfl
  · exact State.setNextBs_mem _ _

theorem winAppend_mem (s : State) (src n : Nat) : (winAppend s src n).1.mem = s.mem := by rw [winAppend_frame]

theorem dictLoadContent_mem (s : State) (src len : Nat) (full : Bool) : (dictLoadContent s src len full).mem = s.mem := by
  unfold dictLoadContent dictContent
  split
  · rfl
  · dsimp only
    split <;> exact winAppend_mem s src len

/-- The work of a command without a destination writes no byte of host memory. -/
theorem Worked.mem {i : Instr} {s t : State} (h : Worked i s t) (hd : i.destination s = none) : t.mem = s.mem := by
  cases i with
  | frameContinue | frameEnd | blockCompress _ | litCompress | seqEncode => cases hd
  | ctxInit | seqStore => rcases h with ⟨_, rfl⟩ | ⟨_, rfl⟩ <;> rfl
  | dmsBuild => rcases h with ⟨_, rfl⟩ | ⟨_, _, rfl⟩ | ⟨_, _, rfl⟩ <;> rfl
  | dictLoad m =>
    rcases h with ⟨_, rfl⟩ | ⟨_, rfl⟩
    · rfl
    · have hl := dictLoadContent_mem s s.op0.toNat s.op1.toNat (modBit0 m)
      show (if s.op2 = 0 then _ else _ : State).mem = s.mem
      split
      · exact hl
      · rw [State.setPrev_mem, hl]
  | dictAttach =>
    subst h
    show (if s.dms.endIdx = 1 then s else s.attach).mem = s.mem
    split
    · rfl
    · exact State.setPrev_mem _ _
  | winAppend => subst h; exact winAppend_mem s _ _
  | winEnforceMaxdist => subst h; show (winEnforceMaxDist _ _ _).mem = _; rw [winEnforceMaxDist_frame]
  | dbgRead => obtain ⟨v, _, rfl⟩ := h; rfl
  | blkMatch => exact finishMatch_mem h
  | ldmBlkMatch =>
    obtain ⟨_, _, h⟩ := h
    exact (finishMatch_mem h).trans rfl
  | paramsDerive => subst h; rw [State.withCode_mem, State.setRes1_mem, State.setRes0_mem]
  | winNeedsCorrection | winCorrectOverflow | tabFill _ | h1Insfind | dhInsfind | hcInsfind | hcSearch
  | btUpdate | btSearch | h3Insfind | ldmGenerate | seqReset | seqLastlit | seqToCodes => subst h; rfl

/-- A frame command that lost the frame wrote what RES0 counts, or nothing when the header did not fit (R328, R331). -/
theorem FrameRun.wrote {s t : State} (h : FrameRun s t) :
    t.mem = s.mem ∨ (WroteResult s t s.op2.toNat s.op3.toNat ∧ t.status.code = 5) := by
  rcases h with ⟨_, _, rfl⟩ | ⟨u, w, _, _, hm, hw, rfl⟩
  · exact .inl rfl
  · exact .inr ⟨⟨w, hw, hm, rfl⟩, rfl⟩

/-- The work of a command with a destination writes nothing, or what RES0 counts; the latter only when it succeeds, or as a
frame command that ends with `DstTooSmall`. -/
theorem Worked.wrote {i : Instr} {s t : State} (h : Worked i s t) {dst cap : Nat} (hd : i.destination s = some (dst, cap)) :
    t.mem = s.mem ∨ (WroteResult s t dst cap ∧
      (t.status.code = 0 ∨ (i = .frameContinue ∨ i = .frameEnd) ∧ t.status.code = 5)) := by
  have wrote (m : Memory) (a : Nat) (bytes : List Byte) : WroteTo m (m.writeBytes a bytes) a 0 bytes.length :=
    ⟨Nat.zero_le _, bytes, rfl, rfl⟩
  cases i <;> cases hd
  case frameContinue =>
    rcases h with ⟨_, rfl⟩ | ⟨_, h | ⟨u, w, _, _, hm, hw, rfl⟩⟩
    · exact .inl rfl
    · exact h.wrote.imp_right fun ⟨hw, hc⟩ => ⟨hw, .inr ⟨.inl rfl, hc⟩⟩
    · exact .inr ⟨⟨w, hw, hm, rfl⟩, .inl rfl⟩
  case frameEnd =>
    rcases h with ⟨_, rfl⟩ | ⟨_, h | ⟨u, w, _, hm, hw, rfl⟩⟩
    · exact .inl rfl
    · exact h.wrote.imp_right fun ⟨hw, hc⟩ => ⟨hw, .inr ⟨.inr rfl, hc⟩⟩
    · exact .inr ⟨⟨w, hw, hm, rfl⟩, .inl rfl⟩
  case blockCompress m =>
    rcases h with ⟨u, _, hm, _, rfl⟩ | ⟨u, k, typ, _, hk, hm, rfl⟩
    · exact .inl hm
    · refine .inr ⟨⟨k, hk, ?_⟩, .inl rfl⟩
      cases modBit0 m <;> exact ⟨hm, rfl⟩
  case litCompress =>
    rcases h with ⟨_, rfl⟩ | ⟨hw, rfl⟩
    · exact .inl rfl
    · refine .inr ⟨⟨_, hw, ?_, rfl⟩, .inl rfl⟩
      exact (State.setNextBs_mem _ _).symm ▸ wrote _ _ _
  case seqEncode =>
    rcases h with ⟨_, rfl⟩ | ⟨_, _, _, rfl⟩ | ⟨o, _, hw, rfl⟩
    · exact .inl rfl
    · exact .inl rfl
    · refine .inr ⟨⟨_, hw, ?_, rfl⟩, .inl rfl⟩
      exact (State.setNextBs_mem _ _).symm ▸ wrote _ _ _

theorem Instr.destination_toNat {i : Instr} {s : State} {dst cap : Nat} (h : i.destination s = some (dst, cap)) :
    ∃ n : DWord, cap = n.toNat := by
  cases i <;> cases h <;> exact ⟨_, rfl⟩

/-- Settles O18: a command turned away writes nothing; the others split by whether they have a destination (`Worked.mem`,
`Worked.wrote`). -/
theorem memoryChangesOnlyInTheDestination : Obligations.MemoryChangesOnlyInTheDestination := by
  intro i s t h hwf
  rcases exec_next h with h | ⟨_, _, h⟩
  · obtain ⟨c, rfl⟩ := h.withCode
    exact ⟨fun _ => rfl, fun _ _ _ => .inl rfl, fun _ _ => rfl⟩
  refine ⟨h.mem, fun dst cap hd => ?_, fun hc hf => ?_⟩
  · obtain ⟨n, rfl⟩ := Instr.destination_toNat hd
    exact (h.wrote hd).imp_right fun ⟨hw, _⟩ => hw.within hwf
  · rcases hd : i.destination s with _ | ⟨dst, cap⟩
    · exact h.mem hd
    · rcases h.wrote hd with hm | ⟨_, h0 | ⟨hi, h5⟩⟩
      · exact hm
      · exact absurd h0 hc
      · rcases hf with ⟨h1, h2⟩ | h5'
        · exact (hi.elim h1 h2).elim
        · exact absurd h5 h5'

end Sys2Proof.Machine
end


/-! ## Which launches are refused -/

section
namespace Sys2Proof.Machine

open Sys2Proof

/-! ### Work that always answers -/

/-- The work ends in a next state. -/
def Done.Answers (k : Done) : Prop := ∃ t, k.outcome = .next t

theorem Done.Answers.ok (s : State) : (Done.ok s).Answers := ⟨_, rfl⟩
theorem Done.Answers.err (e : Err) (s : State) : (Done.err e s).Answers := ⟨_, rfl⟩

theorem Done.Answers.ite {c : Prop} [Decidable c] {k l : Done} (hk : k.Answers) (hl : l.Answers) :
    (if c then k else l).Answers := by split <;> assumption

theorem Done.Answers.not_refused {k : Done} (h : k.Answers) (r : Refusal) : k.outcome ≠ .refused r := by
  obtain ⟨t, ht⟩ := h
  rw [ht]
  nofun

section
variable {s : State} {k : Done} (h : k.Answers)
include h

theorem require_answers (c : Bool) (e : Err) : (require c e s k).Answers := .ite h (.err _ _)
theorem gateFatal_answers : (gateFatal s k).Answers := .ite (.err _ _) h
theorem gateUnspec_answers : (gateUnspec s k).Answers := .ite (.err _ _) h
theorem gateStage_answers (legal : Bool) : (gateStage legal s k).Answers := .ite h (.err _ _)

theorem gated_answers (legal : Bool) : (gated legal s k).Answers :=
  gateFatal_answers (gateUnspec_answers (gateStage_answers h legal))

theorem gatedIO_answers : (gatedIO s k).Answers := gated_answers h _

theorem tabEntry_answers (legal : Bool) (p e : Nat) (ok : Bool) : (tabEntry legal s p e ok k).Answers :=
  require_answers (require_answers (require_answers h _ _) _ _) _ _

end

theorem finishMatch_answers (s : State) (iend : Nat) (r : MatchRun) : (finishMatch s iend r).Answers := .ite (.err _ _) (.ok _)

theorem frameEpilogue_answers (s : State) (n dst cap w : Nat) : (frameEpilogue s n dst cap w).Answers := by
  unfold frameEpilogue
  split
  · exact .err _ _
  · split
    · exact .err _ _
    · exact .ok _

theorem frameWork_answers (s : State) (last : Bool) {finish : State → Nat → Done} (h : ∀ u w, (finish u w).Answers) :
    (frameWork s last finish).Answers := by
  unfold frameWork
  split
  · exact .err _ _
  · exact .ite (h _ _) (.err _ _)

/-! ### The launch conditions -/

/-- The commands whose launch exec judges: those with a destination (20_memory.md R47), and LDM_BLK_MATCH (43_ldm.md R177). -/
def launchJudged (i : Instr) : Bool :=
  match i with
  | .frameContinue | .frameEnd | .blockCompress _ | .ldmBlkMatch | .litCompress | .seqEncode => true
  | .ctxInit | .paramsDerive | .dictLoad _ | .dictAttach | .dmsBuild | .winAppend | .winEnforceMaxdist
  | .winNeedsCorrection | .winCorrectOverflow | .tabFill _ | .h1Insfind | .dhInsfind | .hcInsfind | .hcSearch | .btUpdate
  | .btSearch | .h3Insfind | .blkMatch | .ldmGenerate | .seqReset | .seqStore | .seqLastlit | .seqToCodes | .dbgRead => false

/-- A command without a launch condition always answers. -/
theorem exec_answers {i : Instr} (h : launchJudged i = false) (s : State) : ∃ t, exec i s = .next t := by
  have ok := Done.Answers.ok
  cases i with
  | frameContinue | frameEnd | blockCompress _ | ldmBlkMatch | litCompress | seqEncode => cases h
  | paramsDerive => exact gateFatal_answers (ok _)
  | ctxInit => exact gateFatal_answers (require_answers (require_answers (ok _) _ _) _ _)
  | dmsBuild =>
    exact gateFatal_answers (gateStage_answers (require_answers (require_answers (require_answers (require_answers
      (ok _) _ _) _ _) _ _) _ _) _)
  | dictLoad _ => exact gated_answers (require_answers (require_answers (ok _) _ _) _ _) _
  | dictAttach => exact gated_answers (require_answers (ok _) _ _) _
  | seqReset | seqToCodes => exact gatedIO_answers (ok _)
  | winEnforceMaxdist | winNeedsCorrection | tabFill _ => exact gatedIO_answers (require_answers (ok _) _ _)
  | winAppend | seqLastlit => exact gatedIO_answers (require_answers (require_answers (ok _) _ _) _ _)
  | winCorrectOverflow | ldmGenerate =>
    exact gatedIO_answers (require_answers (require_answers (require_answers (ok _) _ _) _ _) _ _)
  | h1Insfind | dhInsfind | hcInsfind | hcSearch | btUpdate | btSearch | h3Insfind =>
    exact gatedIO_answers (tabEntry_answers (ok _) _ _ _ _)
  | blkMatch => exact gatedIO_answers (require_answers (finishMatch_answers _ _ _) _ _)
  | seqStore =>
    exact gatedIO_answers (require_answers (require_answers (require_answers (require_answers
      (.ite (.err _ _) (ok _)) _ _) _ _) _ _) _ _)
  | dbgRead =>
    refine gateUnspec_answers ?_
    split
    · exact .err _ _
    · exact ok _

theorem exec_ne_fault (i : Instr) (s : State) (f : Fault) : exec i s ≠ .fault f := by
  cases i <;> exact Done.outcome_ne_fault _ f

/-! ### The gates, both ways -/

theorem letThrough_of {i : Instr} {s : State} (hg : s.GatesOpen) (hl : i.legalIn s.stage = true) (hd : i ≠ .dmsBuild) :
    i.letThrough s = true := by
  simp [Instr.letThrough, hg.1, hg.2, hl, hd]

theorem letThrough_gates {i : Instr} {s : State} (h : i.letThrough s = true) (hf : i.runsWhenFatal = false)
    (hu : i.runsWhenLost = false) : s.GatesOpen ∧ i.legalIn s.stage = true := by
  simp only [Instr.letThrough, hf, hu, Bool.false_or, Bool.and_eq_true, Bool.not_eq_true'] at h
  obtain ⟨⟨hg, hl⟩, _⟩ := h
  exact ⟨hg, hl⟩

/-- A command legal in stages I and O that is let through finds both gates and the stage open. -/
theorem letThrough_ready {i : Instr} {s : State} (h : i.letThrough s = true) (hl : i.legalIn s.stage = s.stage.isIO)
    (hf : i.runsWhenFatal = false) (hu : i.runsWhenLost = false) : s.Ready := by
  obtain ⟨hg, hs⟩ := letThrough_gates h hf hu
  exact ⟨hg, hl.symm.trans hs⟩

/-! ### The destination (R47) -/

theorem requireDisjoint_refused {s : State} {src n dst cap : Nat} {k : Done} {r : Refusal} (hk : k.Answers)
    (h : (requireDisjoint s src n dst cap k).outcome = .refused r) :
    r = .destinationOverlap ∧ s.destClash src n dst cap = true := by
  unfold requireDisjoint at h
  split at h
  · next hc => cases h; exact ⟨rfl, hc⟩
  · exact absurd h (hk.not_refused r)

theorem requireDisjoint_clash {s : State} {src n dst cap : Nat} (h : s.destClash src n dst cap = true) (k : Done) :
    requireDisjoint s src n dst cap k = .refused .destinationOverlap := if_pos h

theorem frameChecked_refused {s : State} {last : Bool} {k : Done} {r : Refusal} (hk : k.Answers)
    (h : (frameChecked s last k).outcome = .refused r) :
    s.Ready ∧ Instr.frameEnd.operandsOk s = true ∧ r = .destinationOverlap ∧
      s.destClash s.op0.toNat s.op1.toNat s.op2.toNat s.op3.toNat = true := by
  obtain ⟨hg, hl, h⟩ := gated_refused h
  obtain ⟨ho, h⟩ := require_refused h
  obtain ⟨_, h⟩ := require_refused h
  exact ⟨⟨hg, hl⟩, ho, requireDisjoint_refused hk h⟩

/-- A frame command that passes its checks and whose destination overlaps is refused. -/
theorem frameChecked_clash {s : State} {last : Bool} (hl : Instr.frameEnd.letThrough s = true)
    (ho : Instr.frameEnd.operandsOk s = true) (hp : s.pledgeOk s.op1.toNat last = true)
    (hc : s.destClash s.op0.toNat s.op1.toNat s.op2.toNat s.op3.toNat = true) (k : Done) :
    (frameChecked s last k).outcome = .refused .destinationOverlap := by
  have hr := letThrough_ready hl (isIO_eq _) rfl rfl
  simp only [Instr.operandsOk] at ho
  rw [frameChecked, gatedIO_of hr, require_of ho, require_of hp, requireDisjoint_clash hc]
  rfl

/-- The destination of the command overlaps what it must not (R47): LIT_COMPRESS and SEQ_ENCODE have no source range. -/
def OverlapLaunch (i : Instr) (s : State) : Prop :=
  ∃ dst cap, i.destination s = some (dst, cap) ∧
    (if i = .litCompress ∨ i = .seqEncode then s.destClash 0 0 dst cap
      else s.destClash s.op0.toNat s.op1.toNat dst cap) = true

/-- What a command with a destination refuses, once its checks have passed. -/
theorem exec_destination_refused {i : Instr} {s : State} {r : Refusal} {d : Nat × Nat} (hd : i.destination s = some d)
    (h : exec i s = .refused r) :
    i.letThrough s = true ∧ i.operandsOk s = true ∧ r = .destinationOverlap ∧ OverlapLaunch i s := by
  cases i <;> cases hd
  case frameContinue =>
    obtain ⟨hr, ho, rfl, hc⟩ := frameChecked_refused (frameWork_answers _ _ fun _ _ => .ok _) h
    exact ⟨letThrough_of hr.1 ((isIO_eq _).trans hr.2) nofun, ho, rfl, _, _, rfl, hc⟩
  case frameEnd =>
    obtain ⟨hr, ho, rfl, hc⟩ := frameChecked_refused (frameWork_answers _ _ fun _ _ => frameEpilogue_answers _ _ _ _ _) h
    exact ⟨letThrough_of hr.1 ((isIO_eq _).trans hr.2) nofun, ho, rfl, _, _, rfl, hc⟩
  case blockCompress m =>
    obtain ⟨hg, hl, h⟩ := gated_refused h
    obtain ⟨ho, h⟩ := require_refused h
    obtain ⟨rfl, hc⟩ := requireDisjoint_refused (by
      dsimp only
      split
      · exact .err _ _
      · exact .ok _) h
    exact ⟨letThrough_of hg (by simpa [Instr.legalIn] using hl) nofun, ho, rfl, _, _, rfl, hc⟩
  case litCompress =>
    obtain ⟨hg, hl, h⟩ := gated_refused h
    obtain ⟨ho, h⟩ := require_refused h
    obtain ⟨rfl, hc⟩ := requireDisjoint_refused (require_answers (.ok _) _ _) h
    exact ⟨letThrough_of hg ((isIO_eq _).trans hl) nofun, ho, rfl, _, _, rfl, hc⟩
  case seqEncode =>
    obtain ⟨hg, hl, h⟩ := gated_refused h
    obtain ⟨ho, h⟩ := require_refused h
    obtain ⟨rfl, hc⟩ := requireDisjoint_refused (by
      dsimp only
      split
      · exact .err _ _
      · exact require_answers (.ok _) _ _) h
    exact ⟨letThrough_of hg ((isIO_eq _).trans hl) nofun, ho, rfl, _, _, rfl, hc⟩

/-! ### The LDM queue (R177) -/

theorem State.queueHere_iff (s : State) (src : DWord) :
    s.queueHere src = true ↔ ∀ a, s.ldm.queueSrc = some a → a = src := by
  unfold State.queueHere
  cases s.ldm.queueSrc <;> simp

theorem State.queueHere_false_iff (s : State) (src : DWord) :
    s.queueHere src = false ↔ ∃ a, s.ldm.queueSrc = some a ∧ a ≠ src := by
  rw [← Bool.not_eq_true, State.queueHere_iff]
  push Not
  rfl

/-- Some queued offset reaches below the history, the queue beginning at the command's `src`. -/
def BelowLaunch (s : State) : Prop :=
  ∃ k q, s.ldm.pending[k]? = some q ∧
    s.idx s.op0.toNat + rawLength (s.ldm.pending.take k) + q.litLength.toNat < q.offset.toNat + s.histLow

theorem State.queueReachesBelow_iff (s : State) : s.queueReachesBelow s.op0 = true ↔ BelowLaunch s := queueBelow_iff _ _ _

theorem ldmBlkMatch_refused {s : State} {r : Refusal} (h : exec .ldmBlkMatch s = .refused r) :
    Instr.ldmBlkMatch.letThrough s = true ∧ Instr.ldmBlkMatch.operandsOk s = true ∧
      ((r = .ldmSourceMismatch ∧ ∃ a, s.ldm.queueSrc = some a ∧ a ≠ s.op0) ∨ (r = .ldmBelowHistory ∧ BelowLaunch s)) := by
  obtain ⟨hg, hl, h⟩ := gated_refused h
  obtain ⟨he, h⟩ := require_refused h
  obtain ⟨hb, h⟩ := require_refused h
  refine ⟨letThrough_of hg ((isIO_eq _).trans hl) nofun, and_both he hb, ?_⟩
  split at h
  · next hq =>
    cases h
    exact .inl ⟨rfl, (s.queueHere_false_iff _).mp (by simpa using hq)⟩
  · split at h
    · next hq =>
      cases h
      exact .inr ⟨rfl, s.queueReachesBelow_iff.mp hq⟩
    · exact absurd h ((finishMatch_answers _ _ _).not_refused r)

/-- LDM_BLK_MATCH once its checks have passed is its two launch conditions, then the match finding. -/
theorem exec_ldmBlkMatch_of {s : State} (hl : Instr.ldmBlkMatch.letThrough s = true)
    (ho : Instr.ldmBlkMatch.operandsOk s = true) :
    (s.queueHere s.op0 = false → exec .ldmBlkMatch s = .refused .ldmSourceMismatch) ∧
    (s.queueHere s.op0 = true → s.queueReachesBelow s.op0 = true → exec .ldmBlkMatch s = .refused .ldmBelowHistory) := by
  have hr := letThrough_ready hl (isIO_eq _) rfl rfl
  obtain ⟨he, hb⟩ := Bool.and_eq_true_iff.mp ho
  change (_ → execLdmBlkMatch s = _) ∧ (_ → _ → execLdmBlkMatch s = _)
  rw [execLdmBlkMatch, gatedIO_of hr, require_of he, require_of hb]
  constructor
  · intro hq
    rw [hq]
    rfl
  · intro hq hbelow
    rw [hq, hbelow]
    rfl

theorem launchJudged_no_destination {i : Instr} {s : State} (hj : launchJudged i = true) (hd : i.destination s = none) :
    i = .ldmBlkMatch := by
  cases i with
  | ldmBlkMatch => rfl
  | frameContinue | frameEnd | blockCompress _ | litCompress | seqEncode => cases hd
  | _ => cases hj

/-- Settles O16: a command either has no launch condition and always answers (`exec_answers`), or has a destination
(`exec_destination_refused`), or is LDM_BLK_MATCH (`ldmBlkMatch_refused`); the converses run the checks through. -/
theorem refusalsAreTheLaunchConditions : Obligations.RefusalsAreTheLaunchConditions := by
  refine ⟨exec_ne_fault, fun i s r h => ?_, fun s hl ho => ?_, fun m s hl ho hc => ?_, fun s hl ho hc => ?_,
    fun s hr ho hc => ?_⟩
  · cases hj : launchJudged i
    · obtain ⟨t, ht⟩ := exec_answers hj s
      rw [ht] at h
      cases h
    by_cases hd : i.destination s = none
    · obtain rfl := launchJudged_no_destination hj hd
      obtain ⟨hl, ho, ⟨hr, ha⟩ | ⟨hr, hb⟩⟩ := ldmBlkMatch_refused h
      · exact ⟨hl, ho, .inr (.inl ⟨hr, rfl, ha⟩)⟩
      · exact ⟨hl, ho, .inr (.inr ⟨hr, rfl, hb⟩)⟩
    · obtain ⟨d, hd⟩ := Option.ne_none_iff_exists'.mp hd
      obtain ⟨hl, ho, hr⟩ := exec_destination_refused hd h
      exact ⟨hl, ho, .inl hr⟩
  · obtain ⟨hsrc, hbelow⟩ := exec_ldmBlkMatch_of hl ho
    exact ⟨fun a ha hne => hsrc ((s.queueHere_false_iff _).mpr ⟨a, ha, hne⟩),
      fun ha hb => hbelow ((s.queueHere_iff _).mpr ha) (s.queueReachesBelow_iff.mpr hb)⟩
  · obtain ⟨hg, hst⟩ := letThrough_gates hl rfl rfl
    simp only [Instr.operandsOk] at ho
    change execBlockCompress m s = _
    rw [execBlockCompress, gated_of hg (by simpa [Instr.legalIn] using hst), require_of ho, requireDisjoint_clash hc]
    rfl
  · exact ⟨fun hp => frameChecked_clash hl ho hp hc _, fun hp => frameChecked_clash hl ho hp hc _⟩
  · constructor
    · change execLitCompress s = _
      rw [execLitCompress, gatedIO_of hr, require_of ho, requireDisjoint_clash hc]
      rfl
    · change execSeqEncode s = _
      rw [execSeqEncode, gatedIO_of hr, require_of ho, requireDisjoint_clash hc]
      rfl

end Sys2Proof.Machine
end


/-! ## DBG_READ -/

section
namespace Sys2Proof.Machine

open Sys2Proof

/-! ### The debug address (20_memory.md R49) -/

theorem debugAddr_toNat {sel k : Nat} (hs : sel < 16) (hk : k < 2 ^ 32) :
    (BitVec.ofNat 64 (sel * 2 ^ 32 + k)).toNat = sel * 2 ^ 32 + k := by
  rw [BitVec.toNat_ofNat]
  exact Nat.mod_eq_of_lt (by omega)

theorem debugSel_ofNat {sel k : Nat} (hs : sel < 16) (hk : k < 2 ^ 32) :
    debugSel (BitVec.ofNat 64 (sel * 2 ^ 32 + k)) = sel := by
  rw [debugSel, BitVec.extractLsb'_toNat, debugAddr_toNat hs hk, Nat.shiftRight_eq_div_pow]
  omega

theorem debugIndex_ofNat {sel k : Nat} (hs : sel < 16) (hk : k < 2 ^ 32) :
    debugIndex (BitVec.ofNat 64 (sel * 2 ^ 32 + k)) = k := by
  rw [debugIndex, BitVec.extractLsb'_toNat, debugAddr_toNat hs hk, Nat.shiftRight_zero]
  omega
theorem State.debugRead_outside (s : State) {space addr : DWord} (h : 1 < space.toNat ∨ 2 ^ 36 ≤ addr.toNat) :
    s.debugRead space addr = none := if_pos h

section
variable (s : State) {sel k : Nat} (hs : sel < 16) (hk : k < 2 ^ 32)
include hs hk

theorem State.debugRead_tab : s.debugRead 0 (BitVec.ofNat 64 (sel * 2 ^ 32 + k)) = s.debugTab sel k := by
  unfold State.debugRead
  have hspace : (0 : DWord).toNat = 0 := rfl
  rw [debugSel_ofNat hs hk, debugIndex_ofNat hs hk, debugAddr_toNat hs hk, if_neg (by omega)]
  rfl

theorem State.debugRead_seq : s.debugRead 1 (BitVec.ofNat 64 (sel * 2 ^ 32 + k)) = s.seq.debug sel k := by
  unfold State.debugRead
  have hspace : (1 : DWord).toNat = 1 := rfl
  rw [debugSel_ofNat hs hk, debugIndex_ofNat hs hk, debugAddr_toNat hs hk, if_neg (by omega)]
  rfl

end

/-- No space has a unit with `sel` 7 or more. -/
theorem State.debugRead_no_sel (s : State) (space : DWord) {sel k : Nat} (h7 : 7 ≤ sel) (hs : sel < 16) (hk : k < 2 ^ 32) :
    s.debugRead space (BitVec.ofNat 64 (sel * 2 ^ 32 + k)) = none := by
  obtain ⟨n, rfl⟩ := Nat.exists_eq_add_of_le' h7
  rcases Nat.lt_or_ge 1 space.toNat with h1 | h1
  · exact s.debugRead_outside (.inl h1)
  · rcases Nat.le_one_iff_eq_zero_or_eq_one.mp h1 with h0 | h0
    · obtain rfl : space = 0 := BitVec.eq_of_toNat_eq h0
      exact s.debugRead_tab hs hk
    · obtain rfl : space = 1 := BitVec.eq_of_toNat_eq h0
      exact s.debugRead_seq hs hk

/-! ### The units -/

theorem Table.debug_of_lt {t : Table} {i : Nat} (h : i < t.size) : t.debug i = some (t.get i) := if_pos h
theorem Table.debug_none {t : Table} {i : Nat} (h : ¬ i < t.size) : t.debug i = none := if_neg h

/-- An entry of a table of the bank. -/
theorem bankDebug_some {valid : Bool} {t : Table} {i : Nat} (h : valid = true ∧ i < t.size) :
    (if valid then t.debug i else none) = some (t.get i) := (if_pos h.1).trans (t.debug_of_lt h.2)

theorem bankDebug_none {valid : Bool} {t : Table} {i : Nat} (h : ¬ (valid = true ∧ i < t.size)) :
    (if valid then t.debug i else none) = none := by
  split
  · next hv => exact t.debug_none fun hi => h ⟨hv, hi⟩
  · rfl

theorem State.ldmDebug_some {s : State} {i : Nat} (h : s.p.ldmEnable = true ∧ i < 2 ^ s.p.ldmHashLog.toNat)
    (f : LdmEntry → Word) : s.ldmDebug i f = some (f (s.ldm.entry i)).toNat := if_pos h

theorem State.ldmDebug_none {s : State} {i : Nat} (h : ¬ (s.p.ldmEnable = true ∧ i < 2 ^ s.p.ldmHashLog.toNat))
    (f : LdmEntry → Word) : s.ldmDebug i f = none := if_neg h

theorem SeqStore.codeDebug_some {q : SeqStore} {i : Nat} {c : Codes} (hv : q.codesValid = true) (hi : i < q.seqs.length)
    (hc : q.codes[i]? = some c) (f : Codes → Byte) : q.codeDebug i f = some (f c).toNat := by
  rw [SeqStore.codeDebug, if_pos ⟨hv, hi⟩, hc]
  rfl

theorem SeqStore.codeDebug_none {q : SeqStore} {i : Nat} (h : q.codesValid = false ∨ q.seqs.length ≤ i) (f : Codes → Byte) :
    q.codeDebug i f = none :=
  if_neg fun ⟨hv, hi⟩ => h.elim (fun h => by rw [h] at hv; cases hv) (fun h => absurd hi (Nat.not_lt.mpr h))

/-! ### The command -/

theorem exec_dbgRead_some {s : State} {v : Nat} (hu : s.status.unspec = false) (h : s.debugRead s.op0 s.op1 = some v) :
    exec .dbgRead s = .next { s.withCode 0 with res0 := BitVec.ofNat 64 v } := by
  change execDbgRead s = _
  rw [execDbgRead, gateUnspec_of hu, h]
  rfl

theorem exec_dbgRead_none {s : State} (hu : s.status.unspec = false) (h : s.debugRead s.op0 s.op1 = none) :
    exec .dbgRead s = .next (s.withCode 2) := by
  change execDbgRead s = _
  rw [execDbgRead, gateUnspec_of hu, h]
  rfl

section
variable {s : State} (hu : s.status.unspec = false) {space : DWord} {sel k : Nat} (h0 : s.op0 = space)
  (h1 : s.op1 = BitVec.ofNat 64 (sel * 2 ^ 32 + k))
include hu h0 h1

theorem exec_dbgRead_gives {v : Nat} (h : s.debugRead space (BitVec.ofNat 64 (sel * 2 ^ 32 + k)) = some v) :
    exec .dbgRead s = .next { s.withCode 0 with res0 := BitVec.ofNat 64 v } := exec_dbgRead_some hu (by rw [h0, h1, h])

theorem exec_dbgRead_barred (h : s.debugRead space (BitVec.ofNat 64 (sel * 2 ^ 32 + k)) = none) :
    exec .dbgRead s = .next (s.withCode 2) := exec_dbgRead_none hu (by rw [h0, h1, h])

end

/-- Settles O56: what the address names (`State.debugRead_tab`, `State.debugRead_seq`), then the unit's own lemma. -/
theorem debugReadReturnsTheUnit : Obligations.DebugReadReturnsTheUnit := by
  intro s hu gives barred
  have tabGives {sel k v : Nat} (hs : sel < 16) (hk : k < 2 ^ 32) (h : s.debugTab sel k = some v) : gives 0 sel k v :=
    fun h0 h1 => exec_dbgRead_gives hu h0 h1 ((s.debugRead_tab hs hk).trans h)
  have tabBarred {sel k : Nat} (hs : sel < 16) (hk : k < 2 ^ 32) (h : s.debugTab sel k = none) : barred 0 sel k :=
    fun h0 h1 => exec_dbgRead_barred hu h0 h1 ((s.debugRead_tab hs hk).trans h)
  have seqGives {sel k v : Nat} (hs : sel < 16) (hk : k < 2 ^ 32) (h : s.seq.debug sel k = some v) : gives 1 sel k v :=
    fun h0 h1 => exec_dbgRead_gives hu h0 h1 ((s.debugRead_seq hs hk).trans h)
  have seqBarred {sel k : Nat} (hs : sel < 16) (hk : k < 2 ^ 32) (h : s.seq.debug sel k = none) : barred 1 sel k :=
    fun h0 h1 => exec_dbgRead_barred hu h0 h1 ((s.debugRead_seq hs hk).trans h)
  refine ⟨fun k hk => ?_, fun h => exec_dbgRead_none hu (s.debugRead_outside h)⟩
  have table {sel : Nat} {t : Table} (hs : sel < 16) (h : s.debugTab sel k = t.debug k) :
      if k < t.size then gives 0 sel k (t.get k) else barred 0 sel k := by
    split
    · next hi => exact tabGives hs hk (h.trans (Table.debug_of_lt hi))
    · next hi => exact tabBarred hs hk (h.trans (Table.debug_none hi))
  have bank {sel : Nat} {t : Table} (hs : sel < 16) (h : s.debugTab sel k = if s.dms.valid then t.debug k else none) :
      if s.dms.valid = true ∧ k < t.size then gives 0 sel k (t.get k) else barred 0 sel k := by
    split
    · next hi => exact tabGives hs hk (h.trans (bankDebug_some hi))
    · next hi => exact tabBarred hs hk (h.trans (bankDebug_none hi))
  refine ⟨table (by decide) rfl, table (by decide) rfl, table (by decide) rfl, bank (by decide) rfl, bank (by decide) rfl,
    ?_, ?_, ?_, ?_, ?_, ?_⟩
  · split
    · next h => exact ⟨tabGives (by decide) hk (s.ldmDebug_some h _), tabGives (by decide) hk (s.ldmDebug_some h _)⟩
    · next h => exact ⟨tabBarred (by decide) hk (s.ldmDebug_none h _), tabBarred (by decide) hk (s.ldmDebug_none h _)⟩
  · split
    · next q h =>
      have unit (f : Seq → Nat) : (s.seq.seqs[k]?).map f = some (f q) := by rw [h]; rfl
      exact ⟨seqGives (by decide) hk (unit _), seqGives (by decide) hk (unit _), seqGives (by decide) hk (unit _)⟩
    · next h =>
      have unit (f : Seq → Nat) : (s.seq.seqs[k]?).map f = none := by rw [h]; rfl
      have code := s.seq.codeDebug_none (i := k) (.inr (List.getElem?_eq_none_iff.mp h))
      exact ⟨seqBarred (by decide) hk (unit _), seqBarred (by decide) hk (unit _), seqBarred (by decide) hk (unit _),
        seqBarred (by decide) hk (code _), seqBarred (by decide) hk (code _), seqBarred (by decide) hk (code _)⟩
  · split
    · next b h => exact seqGives (by decide) hk (congrArg (Option.map _) h)
    · next h => exact seqBarred (by decide) hk (congrArg (Option.map _) h)
  · intro hv
    have code := s.seq.codeDebug_none (i := k) (.inl hv)
    exact ⟨seqBarred (by decide) hk (code _), seqBarred (by decide) hk (code _), seqBarred (by decide) hk (code _)⟩
  · intro hv hi c hc
    have code := s.seq.codeDebug_some hv hi hc
    exact ⟨seqGives (by decide) hk (code _), seqGives (by decide) hk (code _), seqGives (by decide) hk (code _)⟩
  · exact fun sel space h7 hs h0 h1 => exec_dbgRead_barred hu h0 h1 (s.debugRead_no_sel space h7 hs hk)

end Sys2Proof.Machine
end


/-! ## The host's store and the history -/

section
namespace Sys2Proof.Machine

open Sys2Proof

/-! ### Addresses of indices -/

theorem subA_addA {aw b x : Nat} (hx : x < 2 ^ aw) : subA aw (addA aw b x) b = x := by
  refine subA_eq hx ?_
  rw [Nat.add_comm]
  exact (Nat.mod_modEq _ _).symm

theorem addA_subA {aw a b : Nat} (ha : a < 2 ^ aw) : addA aw b (subA aw a b) = a := by
  have h := subA_add aw a b
  rw [Nat.add_comm] at h
  exact Eq.trans h (Nat.mod_eq_of_lt ha)

theorem addA_modEq_add {aw b lo x : Nat} (h : lo ≤ x) : addA aw b lo + (x - lo) ≡ b + x [MOD 2 ^ aw] := by
  have := (Nat.mod_modEq (b + lo) (2 ^ aw)).add_right (x - lo)
  rwa [Nat.add_assoc, Nat.add_sub_cancel' h] at this

/-- A region that does not wrap around the address space lies in one piece. -/
theorem addA_of_no_wrap {aw b lo x : Nat} (h : lo ≤ x) (hw : addA aw b lo + (x - lo) < 2 ^ aw) :
    addA aw b x = addA aw b lo + (x - lo) :=
  Eq.trans (addA_modEq_add h).symm (Nat.mod_eq_of_lt hw)

/-- An address in a region meets it, wrapping or not. -/
theorem rangesMeet_of_mem {aw b lo hi x : Nat} (hl : lo ≤ x) (hh : x < hi) :
    rangesMeet aw (addA aw b x) 1 (addA aw b lo) (hi - lo) = true := by
  have hs : subA aw (addA aw b x) (addA aw b lo) = (x - lo) % 2 ^ aw := by
    refine subA_eq (Nat.mod_lt _ (by positivity)) ?_
    calc (x - lo) % 2 ^ aw + addA aw b lo ≡ x - lo + addA aw b lo [MOD 2 ^ aw] := (Nat.mod_modEq _ _).add_right _
      _ = addA aw b lo + (x - lo) := Nat.add_comm _ _
      _ ≡ b + x [MOD 2 ^ aw] := addA_modEq_add hl
      _ ≡ addA aw b x [MOD 2 ^ aw] := (Nat.mod_modEq _ _).symm
  have := Nat.mod_le (x - lo) (2 ^ aw)
  exact decide_eq_true ⟨Nat.one_pos, by omega, .inr (by omega)⟩

/-- Address `a` holds the byte of index `x` of the window, from `dictLimit` up or in the external dictionary below it
(20_memory.md R44 (a)). -/
def Window.HoldsAt (aw : Nat) (w : Window) (a x : Nat) : Prop :=
  (w.dictLimit.toNat ≤ x ∧ x < w.cur aw ∧ a = addA aw w.base.toNat x) ∨
  (w.lowLimit.toNat ≤ x ∧ x < w.dictLimit.toNat ∧ a = addA aw w.dictBase.toNat x)

theorem Window.HoldsAt.covers {aw : Nat} {w : Window} {a x : Nat} (h : w.HoldsAt aw a x) : w.covers aw a 1 = true := by
  rcases h with ⟨hl, hh, rfl⟩ | ⟨hl, hh, rfl⟩
  · exact Bool.or_eq_true_iff.mpr (.inl (rangesMeet_of_mem hl hh))
  · exact Bool.or_eq_true_iff.mpr (.inr (rangesMeet_of_mem hl hh))

/-! ### The record of changed history (log 13) -/

/-- `liveTop` is one more than an index whose byte the address holds, while the window is live. -/
theorem State.liveTop_cases (s : State) {a : Nat} (ha : a < 2 ^ s.impl.addrW) :
    s.liveTop a = 0 ∨ s.windowLive = true ∧ ∃ x, s.w.HoldsAt s.impl.addrW a x ∧ s.liveTop a = x + 1 := by
  unfold State.liveTop
  extract_lets i j
  have hi : a = addA s.impl.addrW s.w.base.toNat i := (addA_subA ha).symm
  have hj : a = addA s.impl.addrW s.w.dictBase.toNat j := (addA_subA ha).symm
  split
  · exact .inl rfl
  · next hlive =>
    have hlive : s.windowLive = true := by simpa using hlive
    split
    · next h => exact .inr ⟨hlive, i, .inl ⟨h.1, h.2, hi⟩, rfl⟩
    · split
      · next h => exact .inr ⟨hlive, j, .inr ⟨h.1, h.2, hj⟩, rfl⟩
      · exact .inl rfl

/-- Every index of a live window that the address holds is below `liveTop`. -/
theorem State.lt_liveTop {s : State} {a x : Nat} (hlive : s.windowLive = true) (haw : 32 ≤ s.impl.addrW)
    (h : s.w.HoldsAt s.impl.addrW a x) : x < s.liveTop a := by
  have h32 : 2 ^ 32 ≤ 2 ^ s.impl.addrW := Nat.pow_le_pow_right (by norm_num) haw
  unfold State.liveTop
  extract_lets i j
  simp only [hlive, Bool.not_true, Bool.false_eq_true, if_false]
  rcases h with ⟨hl, hh, rfl⟩ | ⟨hl, hh, rfl⟩
  · have hi : i = x := subA_addA (hh.trans (Window.idx_lt _ _ _))
    rw [if_pos (by rw [hi]; exact ⟨hl, hh⟩)]
    omega
  · have hj : j = x := subA_addA (by omega)
    split
    · omega
    · rw [if_pos (by rw [hj]; exact ⟨hl, hh⟩)]
      omega

theorem State.changedBy_of_change {s : State} {a : Nat} {v : Byte} (hv : s.mem.read a ≠ v) (ha : a < 2 ^ s.impl.addrW) :
    s.changedBy a v = { window := max s.changed.window (s.liveTop a), bank := s.changed.bank || s.liveBank a } :=
  if_neg fun h => h.elim hv fun h => absurd ha (Nat.not_lt.mpr h)

theorem State.changedBy_window_le {s : State} {a m : Nat} {v : Byte} (h : s.changed.window ≤ m)
    (ht : a < 2 ^ s.impl.addrW → s.liveTop a ≤ m) : (s.changedBy a v).window ≤ m := by
  unfold State.changedBy
  split
  · exact h
  · next hc => exact max_le h (ht (by omega))

/-- A store outside the live window and the bank's content leaves the record. -/
theorem State.changedBy_outside {s : State} {a : Nat} {v : Byte}
    (hw : (s.windowLive && s.w.covers s.impl.addrW a 1) = false) (hb : s.dms.covers s.impl.addrW a 1 = false) :
    s.changedBy a v = s.changed := by
  rcases Nat.lt_or_ge a (2 ^ s.impl.addrW) with ha | ha
  · refine State.changedBy_dead ?_ hb
    rcases s.liveTop_cases ha with h | ⟨hl, x, hx, _⟩
    · exact h
    · rw [hl, hx.covers] at hw
      cases hw
  · exact State.changedBy_beyond ha v

/-! ### The step of a store, and the launch after it -/

theorem step_store {s : State} {a : DWord} {v : Byte} {rest : List HostAction} (h : s.host = .store a v :: rest) :
    step s = .next { s with
      host := rest, freeCtr := s.freeCtr + 1, mem := s.mem.write a.toNat v, changed := s.changedBy a.toNat v } := by
  rw [step, h]
  rfl

theorem launch_broken {i : Instr} {s t : State} (h : s.historyBroken i = true) (hc : t.status.code = 0) :
    s.launch i (.next t) = .refused .historyChanged := by
  simp [State.launch, h, worked, hc]

/-- A command that reads the window at an index the record marks as changed, or an attached bank whose content has changed, has
a broken history. -/
theorem State.historyBroken_of {i : Instr} {s : State} (hr : readsHistory i = true) (hlive : s.windowLive = true)
    (h : (s.atReading i).w.lowLimit.toNat < s.changed.window ∨
      s.changed.bank = true ∧ (s.atReading i).ms.dmsAttached = true) : s.historyBroken i = true := by
  unfold State.historyBroken
  dsimp only
  rw [hr, hlive]
  rcases h with h | ⟨hb, ha⟩
  · rw [decide_eq_true h]; rfl
  · rw [hb, ha, Bool.and_self, Bool.or_true]; rfl

/-- The store of another byte at an address of the live window marks every index the address holds. -/
theorem State.changedBy_window {s : State} {a x : Nat} {v : Byte} (hv : s.mem.read a ≠ v) (hlive : s.windowLive = true)
    (haw : 32 ≤ s.impl.addrW) (h : s.w.HoldsAt s.impl.addrW a x) : x < (s.changedBy a v).window := by
  have ha : a < 2 ^ s.impl.addrW := by
    rcases h with ⟨_, _, rfl⟩ | ⟨_, _, rfl⟩ <;> exact addA_lt _ _ _
  rw [State.changedBy_of_change hv ha]
  exact lt_max_of_lt_right (State.lt_liveTop hlive haw h)

/-- The store of another byte of a valid bank's content marks the bank. -/
theorem State.changedBy_bank {s : State} {x : Nat} {v : Byte} (hd : s.dms.valid = true)
    (hl : s.dms.w.lowLimit.toNat ≤ x) (hh : x < s.dms.endIdx.toNat)
    (hv : s.mem.read (addA s.impl.addrW s.dms.w.base.toNat x) ≠ v) :
    (s.changedBy (addA s.impl.addrW s.dms.w.base.toNat x) v).bank = true := by
  rw [State.changedBy_of_change hv (addA_lt _ _ _)]
  have hc : s.liveBank (addA s.impl.addrW s.dms.w.base.toNat x) = true := and_both hd (rangesMeet_of_mem hl hh)
  exact Bool.or_eq_true_iff.mpr (.inr hc)

/-! ### What an append drops (40_window.md R91, R92) -/

/-- The bytes taken in drop what they overlap of the external dictionary: no index that one of them held there is left. -/
theorem Window.extend_drops {aw ctr : Nat} {w : Window} {src n : Nat} (hd : w.lowLimit.toNat ≤ w.dictLimit.toNat)
    (hn : w.dictLimit.toNat + n ≤ 2 ^ aw)
    (hwrap : addA aw w.dictBase.toNat w.lowLimit.toNat + (w.dictLimit.toNat - w.lowLimit.toNat) < 2 ^ aw) :
    w.lowLimit.toNat ≤ (w.extend aw ctr src n).lowLimit.toNat ∧
    ∀ x, w.lowLimit.toNat ≤ x → x < w.dictLimit.toNat → src ≤ addA aw w.dictBase.toNat x →
      addA aw w.dictBase.toNat x < src + n → x < (w.extend aw ctr src n).lowLimit.toNat := by
  have hat (x : Nat) (hl : w.lowLimit.toNat ≤ x) (hh : x ≤ w.dictLimit.toNat) :
      addA aw w.dictBase.toNat x = addA aw w.dictBase.toNat w.lowLimit.toNat + (x - w.lowLimit.toNat) :=
    addA_of_no_wrap hl (by omega)
  have htop := hat _ hd (le_refl _)
  unfold Window.extend
  dsimp only
  rw [htop]
  generalize hL : addA aw w.dictBase.toNat w.lowLimit.toNat = L at *
  split
  · next hover =>
    have hhigh : subA aw (src + n) w.dictBase.toNat = w.lowLimit.toNat + (src + n - L) := by
      refine subA_eq (by omega) ?_
      have := (Nat.mod_modEq (w.dictBase.toNat + w.lowLimit.toNat) (2 ^ aw)).add_right (src + n - L)
      change addA aw w.dictBase.toNat w.lowLimit.toNat + _ ≡ _ [MOD 2 ^ aw] at this
      rw [hL, Nat.add_sub_cancel' hover.1.le] at this
      rw [Nat.add_right_comm, Nat.add_comm w.lowLimit.toNat]
      exact this.symm
    rw [hhigh]
    split
    · exact ⟨hd, fun x _ hx _ _ => hx⟩
    · have h32 := w.dictLimit.isLt
      rw [fit_toNat (by omega)]
      refine ⟨Nat.le_add_right _ _, fun x hl hx _ hlt => ?_⟩
      rw [hat x hl hx.le] at hlt
      omega
  · next hover =>
    refine ⟨le_refl _, fun x hl hx hle hlt => absurd ?_ hover⟩
    rw [hat x hl hx.le] at hle hlt
    omega

theorem Window.openFresh_dictLimit {aw ctr : Nat} {w : Window} (src : Nat) (h32 : w.cur aw < 2 ^ 32) :
    (w.openFresh aw ctr src).dictLimit.toNat = w.cur aw := fit_toNat h32

/-- When a non-contiguous append begins, the external dictionary is what stood from `dictLimit` up, or empty when that was too
short to read. -/
theorem Window.openFresh_lowLimit {aw ctr : Nat} {w : Window} (src : Nat) (h32 : w.cur aw < 2 ^ 32) :
    (w.openFresh aw ctr src).lowLimit.toNat = w.dictLimit.toNat ∨ (w.openFresh aw ctr src).lowLimit.toNat = w.cur aw := by
  unfold Window.openFresh
  dsimp only
  split
  · exact .inr (fit_toNat h32)
  · exact .inl (fit_toNat w.dictLimit.isLt)

/-- An append of `n` bytes keeps no index that held one of them before: a contiguous append has none of them from `dictLimit`
up, and what lies below is external dictionary, which the append drops. -/
theorem Window.append_drops {aw ctr : Nat} {w : Window} {src n : Nat} (h : w.Ordered aw) (h32 : w.cur aw < 2 ^ 32)
    (hn : w.cur aw + n < 2 ^ aw)
    (hpre : addA aw w.base.toNat w.dictLimit.toNat + (w.cur aw - w.dictLimit.toNat) < 2 ^ aw)
    (hext : addA aw w.dictBase.toNat w.lowLimit.toNat + (w.dictLimit.toNat - w.lowLimit.toNat) < 2 ^ aw) :
    w.lowLimit.toNat ≤ (w.append aw ctr src n).1.lowLimit.toNat ∧
    ∀ a x, src ≤ a → a < src + n → w.HoldsAt aw a x → x < (w.append aw ctr src n).1.lowLimit.toNat := by
  obtain ⟨_, hdict, hcur⟩ := h
  unfold Window.append
  by_cases h0 : n = 0
  · subst h0
    exact ⟨le_refl _, fun a x hle hlt => absurd hlt (by omega)⟩
  simp only [h0, if_false]
  split
  · next hsrc =>
    obtain ⟨hlow, hdrop⟩ := w.extend_drops (ctr := ctr) (src := src) (n := n) hdict (by omega) hext
    refine ⟨hlow, fun a x hle hlt hx => ?_⟩
    rcases hx with ⟨_, hxc, rfl⟩ | ⟨hl, hh, rfl⟩
    · have hidx : w.idx aw (addA aw w.base.toNat x) = x := subA_addA (by omega)
      have hfrom : w.idx aw src = w.cur aw := by rw [hsrc]; rfl
      obtain ⟨k, hk⟩ := Nat.exists_eq_add_of_le hle
      rw [hk, Window.idx_add (by omega), hfrom] at hidx
      omega
    · exact hdrop x hl hh hle hlt
  · have hdl := w.openFresh_dictLimit (ctr := ctr) src h32
    have hll := w.openFresh_lowLimit (ctr := ctr) src h32
    have hwrap : addA aw (w.openFresh aw ctr src).dictBase.toNat (w.openFresh aw ctr src).lowLimit.toNat +
        ((w.openFresh aw ctr src).dictLimit.toNat - (w.openFresh aw ctr src).lowLimit.toNat) < 2 ^ aw := by
      rw [hdl]
      rcases hll with hll | hll
      · rw [hll]; exact hpre
      · rw [hll, Nat.sub_self]; exact addA_lt _ _ _
    obtain ⟨hlow, hdrop⟩ := (w.openFresh aw ctr src).extend_drops (ctr := ctr) (src := src) (n := n)
      (by omega) (by omega) hwrap
    dsimp only
    refine ⟨by omega, fun a x hle hlt hx => ?_⟩
    rcases hx with ⟨hl, hxc, rfl⟩ | ⟨_, hh, _⟩
    · rcases hll with hll | hll
      · exact hdrop x (by omega) (by omega) hle hlt
      · omega
    · omega

/-- WIN_APPEND with both gates open and legal operands (R91). -/
theorem exec_winAppend_of {s : State} (hr : s.Ready) (ho : s.rangeOk s.op0 s.op1 = true)
    (hn : s.cur + s.op1.toNat < 2 ^ 32) :
    exec .winAppend s = .next (((winAppend s s.op0.toNat s.op1.toNat).1.setRes0
      (winAppend s s.op0.toNat s.op1.toNat).2.toNat).withCode 0) := by
  change execWinAppend s = _
  rw [execWinAppend, gatedIO_of hr, require_of ho, require_of (decide_eq_true hn)]
  rfl

/-- Settles O6: the step of a store (`step_store`), the launch after it (`launch_broken`), the record a store into live history
makes (`State.changedBy_window`, `State.changedBy_bank`), and what an append drops of it (`Window.append_drops`). -/
theorem hostStoreChangesOneByte : Obligations.HostStoreChangesOneByte := by
  refine ⟨fun s a v rest hh hwf => ?_, fun s v rest i hh hd => ?_, fun s t u a v b rest i x hh hd hr hlive hleg hb ht => ?_,
    fun s a v hr hleg hw hch ho hn hle hlt hpre hext => ?_⟩
  · refine ⟨_, step_store hh, rfl, fun x => Memory.read_write hwf _ _ _, fun h => ?_⟩
    rcases h with h | h | ⟨hw, hdms⟩
    · exact State.changedBy_same h
    · exact State.changedBy_beyond h v
    · exact State.changedBy_outside hw hdms
  · have hl := step_launch hh hd
    refine ⟨fun hbr t ht => ?_, fun hbr t ht hc => ?_⟩
    · rw [hl, ht, State.launch_whole hbr]
      exact ⟨_, rfl⟩
    · rw [hl, ht, launch_broken hbr hc]
  · intro t1 r hx hu hc
    have haw := (Impl.legal_addrW hleg).1
    rw [step_store hh] at ht
    cases ht
    rw [step_launch rfl hd]
    change State.launch i t1 (exec i t1) = _
    rw [hu]
    refine launch_broken (State.historyBroken_of hr hlive ?_) hc
    have window (h : s.w.HoldsAt s.impl.addrW a.toNat x) (hrl : r.w.lowLimit.toNat ≤ x) :
        r.w.lowLimit.toNat < t1.changed.window := hrl.trans_lt (State.changedBy_window hb hlive haw h)
    rcases hx with ⟨hl, hlt, ha, hrl⟩ | ⟨hl, hlt, ha, hrl⟩ | ⟨hv, hatt, hl, hlt, ha⟩
    · exact .inl (window (.inl ⟨hl, hlt, ha⟩) hrl)
    · exact .inl (window (.inr ⟨hl, hlt, ha⟩) hrl)
    · refine .inr ⟨?_, hatt⟩
      rw [ha] at hb
      show (s.changedBy a.toNat b).bank = true
      rw [ha]
      exact State.changedBy_bank hv hl hlt hb
  · obtain ⟨hord, h32⟩ := s.windowOk_iff.mp hw
    have h32aw : 2 ^ 32 ≤ 2 ^ s.impl.addrW := Nat.pow_le_pow_right (by norm_num) (Impl.legal_addrW hleg).1
    obtain ⟨hlow, hdrop⟩ := Window.append_drops (ctr := s.freeCtr) (src := s.op0.toNat) (n := s.op1.toNat) hord h32
      (hn.trans_le h32aw) hpre hext
    refine ⟨_, exec_winAppend_of (s := s.hostStore a v) hr ho hn, ?_⟩
    have hc : (winAppend (s.hostStore a v) s.op0.toNat s.op1.toNat).1.changed = s.changedBy a v := by
      rw [winAppend_frame]; rfl
    have hwin : (winAppend (s.hostStore a v) s.op0.toNat s.op1.toNat).1.w =
        (s.w.append s.impl.addrW s.freeCtr s.op0.toNat s.op1.toNat).1 := winAppend_w _ _ _
    show (winAppend (s.hostStore a v) s.op0.toNat s.op1.toNat).1.changed.window ≤
      (winAppend (s.hostStore a v) s.op0.toNat s.op1.toNat).1.w.lowLimit.toNat
    rw [hc, hwin]
    refine State.changedBy_window_le (hch.trans hlow) fun ha => ?_
    rcases s.liveTop_cases ha with ht | ⟨_, x, hx, ht⟩
    · omega
    · rw [ht]
      exact hdrop a x hle hlt hx

end Sys2Proof.Machine
end

/-! # Proofs of the encoding family (30_encoding.md)

The decoder is inverted once (`decode_ok_iff`), the opcode map once (`opcodeRow_eq_some_iff`, `opcodeRow_eq_none_iff`), the
encoder once (`encode_eq_iff`); the stage check rests on the inversion of exec. -/

section
namespace Sys2Proof

/-! ### The modifier byte (R60, R62) -/

theorem Instr.wellFormed_iff {i : Instr} : i.WellFormed ↔ i.modByte &&& ~~~ i.modMask = 0 := beq_iff_eq

/-- A command that defines no modifier bit carries none. -/
theorem Instr.modByte_of_modMask {i : Instr} (h : i.modMask = 0) : i.modByte = 0 := by
  cases i with
  | dictLoad _ | blockCompress _ | tabFill _ => simp [Instr.modMask] at h
  | _ => rfl

theorem Instr.modMask_eq (i : Instr) : i.modMask = if i.opcode.toNat ∈ [0x03, 0x07, 0x20] then 1 else 0 := by
  cases i <;> rfl

theorem and_not_zero (m : Byte) : m &&& ~~~ 0 = m := BitVec.and_allOnes

theorem and_not_one_ne_zero_iff (m : Byte) : m &&& ~~~ 1 ≠ 0 ↔ 2 ≤ m.toNat := by
  revert m
  decide

/-! ### The opcode map, both ways (R62) -/

/-- The opcodes of the map. -/
def mapOpcodes : List Nat :=
  [0x01, 0x02, 0x03, 0x04, 0x05, 0x06, 0x07, 0x08, 0x10, 0x11, 0x12, 0x13, 0x20, 0x21, 0x22, 0x23, 0x24, 0x25, 0x26, 0x27,
    0x30, 0x40, 0x41, 0x50, 0x51, 0x52, 0x53, 0x60, 0x61, 0x70]

/-- A row gives a command of its opcode, with the word's `mod` byte where the command has modifier bits. -/
theorem opcodeRow_eq_some_iff {o m : Byte} {i : Instr} :
    opcodeRow o m = some i ↔ i.opcode = o ∧ (i.modMask = 0 ∨ i.modByte = m) := by
  constructor
  · intro h
    unfold opcodeRow at h
    split at h <;> cases h <;> exact ⟨(BitVec.eq_of_toNat_eq ‹_›).symm, by simp [Instr.modMask, Instr.modByte]⟩
  · rintro ⟨rfl, h⟩
    cases i with
    | dictLoad _ | blockCompress _ | tabFill _ =>
      obtain rfl := h.resolve_left (by simp [Instr.modMask])
      rfl
    | _ => rfl

theorem opcodeRow_eq_none_iff {o m : Byte} : opcodeRow o m = none ↔ o.toNat ∉ mapOpcodes := by
  unfold opcodeRow
  split <;> simp_all [mapOpcodes]

/-! ### The fields of a word (R60) -/

theorem wordOpcode_toNat (w : Word) : (wordOpcode w).toNat = w.toNat % 256 := by simp [wordOpcode]

theorem wordMod_toNat (w : Word) : (wordMod w).toNat = w.toNat / 256 % 256 := by
  simp [wordMod, Nat.shiftRight_eq_div_pow]

theorem wordReserved_ne_zero_iff (w : Word) : wordReserved w ≠ 0 ↔ 2 ^ 16 ≤ w.toNat := by
  have h : (wordReserved w).toNat = w.toNat / 2 ^ 16 := by
    rw [wordReserved, BitVec.extractLsb'_toNat, Nat.shiftRight_eq_div_pow]
    exact Nat.mod_eq_of_lt (Nat.div_lt_of_lt_mul w.isLt)
  rw [ne_eq, ← BitVec.toNat_inj, h]
  show ¬ w.toNat / 2 ^ 16 = 0 ↔ _
  omega

theorem wordFields_concat (w : Word) : wordReserved w ++ wordMod w ++ wordOpcode w = w := by
  have high : wordReserved w ++ wordMod w = w.extractLsb' 8 24 := BitVec.extractLsb'_append_extractLsb'_eq_extractLsb' rfl
  rw [high]
  exact (BitVec.extractLsb'_append_extractLsb'_eq_extractLsb' rfl).trans BitVec.extractLsb'_eq_self

/-- A command's word is the word with its three fields. -/
theorem encode_eq_iff {i : Instr} {w : Word} :
    encode i = w ↔ i.opcode = wordOpcode w ∧ i.modByte = wordMod w ∧ wordReserved w = 0 := by
  constructor
  · rintro rfl
    obtain ⟨ho, hm, hr⟩ := Laws.EncodedFields.fields_of_concat i.modByte i.opcode
    exact ⟨ho.symm, hm.symm, hr⟩
  · rintro ⟨ho, hm, hr⟩
    rw [encode, ho, hm, ← hr, wordFields_concat]

/-! ### The decoder (R63) -/

theorem decode_ok_iff {w : Word} {i : Instr} : decode w = .ok i ↔
    opcodeRow (wordOpcode w) (wordMod w) = some i ∧ wordMod w &&& ~~~ i.modMask = 0 ∧ wordReserved w = 0 := by
  unfold decode
  cases opcodeRow (wordOpcode w) (wordMod w) with
  | none => simp
  | some j =>
    constructor
    · intro h
      dsimp only at h
      split at h
      · cases h
      · split at h <;> cases h
        exact ⟨rfl, not_not.mp ‹_›, not_not.mp ‹_›⟩
    · rintro ⟨hj, hm, hr⟩
      cases hj
      exact (if_neg (not_not.mpr hm)).trans (if_neg (not_not.mpr hr))

/-- Settles O1: both sides are inverted to the word's three fields. A command without modifier bits carries 0, which is then
the word's `mod` byte too. -/
theorem decodeAgreesWithEncode : Obligations.DecodeAgreesWithEncode := by
  intro w i
  rw [decode_ok_iff, opcodeRow_eq_some_iff, encode_eq_iff, Instr.wellFormed_iff]
  constructor
  · rintro ⟨⟨ho, hmod⟩, hw, hr⟩
    have hm : i.modByte = wordMod w := by
      rcases hmod with h0 | hm
      · rw [h0, and_not_zero] at hw
        rw [Instr.modByte_of_modMask h0, hw]
      · exact hm
    exact ⟨hm ▸ hw, ho, hm, hr⟩
  · rintro ⟨hw, ho, hm, hr⟩
    exact ⟨⟨ho, .inr hm⟩, hm ▸ hw, hr⟩

/-- Settles O3: the legal words are encodings of well-formed commands (`decodeAgreesWithEncode`), the illegal ones evaluate. -/
theorem wordsOfTheMapDecode : Obligations.WordsOfTheMapDecode := by
  have legal {w : Word} {i : Instr} (hi : i.WellFormed) (he : encode i = w) : decode w = .ok i :=
    (decodeAgreesWithEncode w i).mpr ⟨hi, he⟩
  exact ⟨legal rfl rfl, legal rfl rfl, legal rfl rfl, legal rfl rfl, legal rfl rfl, legal rfl rfl, legal rfl rfl,
    legal rfl rfl, legal rfl rfl, legal rfl rfl, legal rfl rfl, legal rfl rfl, rfl, rfl, rfl⟩

/-! ### Illegal words (R63) -/

/-- A word is illegal when no row passes the checks of its other two fields; with no row at all that is every word. -/
theorem decode_illegal_iff {w : Word} : (∃ e, decode w = .illegal e) ↔
    ∀ i, opcodeRow (wordOpcode w) (wordMod w) = some i → wordMod w &&& ~~~ i.modMask ≠ 0 ∨ wordReserved w ≠ 0 := by
  have not_ok : (∃ e, decode w = .illegal e) ↔ ∀ i, decode w ≠ .ok i := by cases decode w <;> simp
  simp only [not_ok, ne_eq, decode_ok_iff, not_and_or, imp_iff_not_or]

theorem undefinedMod_iff_of_row {w : Word} {i : Instr} (h : opcodeRow (wordOpcode w) (wordMod w) = some i) :
    wordMod w &&& ~~~ i.modMask ≠ 0 ↔
      if w.toNat % 256 ∈ [0x03, 0x07, 0x20] then 2 ≤ w.toNat / 256 % 256 else w.toNat / 256 % 256 ≠ 0 := by
  obtain ⟨ho, _⟩ := opcodeRow_eq_some_iff.mp h
  rw [Instr.modMask_eq, ho, wordOpcode_toNat, ← wordMod_toNat]
  split
  · exact and_not_one_ne_zero_iff _
  · rw [and_not_zero, ne_eq, ← BitVec.toNat_inj]
    rfl

/-- The words R63 lists, read on their number. -/
theorem decode_illegal_iff_toNat (w : Word) : (∃ e, decode w = .illegal e) ↔
    (w.toNat % 256 ∉ mapOpcodes ∨ 2 ^ 16 ≤ w.toNat ∨
      (if w.toNat % 256 ∈ [0x03, 0x07, 0x20] then 2 ≤ w.toNat / 256 % 256 else w.toNat / 256 % 256 ≠ 0)) := by
  have hnone : w.toNat % 256 ∉ mapOpcodes ↔ opcodeRow (wordOpcode w) (wordMod w) = none := by
    rw [opcodeRow_eq_none_iff, wordOpcode_toNat]
  rw [decode_illegal_iff, hnone, ← wordReserved_ne_zero_iff]
  cases hrow : opcodeRow (wordOpcode w) (wordMod w) with
  | none => simp
  | some i =>
    rw [← undefinedMod_iff_of_row hrow]
    simp [or_comm]

end Sys2Proof
end

section
namespace Sys2Proof.Machine

open Sys2Proof

theorem step_illegal {s : State} {v : DWord} {rest : List HostAction} {e : DecodeError}
    (hh : s.host = .write 0 v :: rest) (hd : decode (v.setWidth 32) = .illegal e) :
    step s = .next { s.withCode 2 with host := rest, freeCtr := s.freeCtr + 1, cmd := v.setWidth 32 } := by
  rw [step, hh]
  show runCommand v _ = _
  unfold runCommand
  dsimp only
  rw [hd]
  rfl

/-- Settles O2, by `decode_illegal_iff_toNat` and `step_illegal`. -/
theorem illegalWordsOnlyReport : Obligations.IllegalWordsOnlyReport :=
  ⟨decode_illegal_iff_toNat, fun _ _ _ _ => step_illegal⟩

/-! ## The stage check -/

/-- A command that checks 2 to 4 of 60_exceptions.md R327 do not let through, for another reason than the fault gate, ends with
`StageWrong`: by O16 it is no refused launch, so it answers, and `exec_next` says how. -/
theorem exec_of_not_letThrough {i : Instr} {s : State} (hf : s.status.fatal = false ∨ i.runsWhenFatal = true)
    (hl : i.letThrough s = false) : exec i s = .next (s.withCode 3) := by
  obtain ⟨noFault, onlyLetThrough, _⟩ := refusalsAreTheLaunchConditions
  cases he : exec i s with
  | fault f => exact absurd he (noFault i s f)
  | refused r =>
    obtain ⟨h, _⟩ := onlyLetThrough i s r he
    simp [hl] at h
  | next t =>
    rcases exec_next he with (⟨h, hr, _⟩ | ⟨_, rfl⟩ | ⟨h, _⟩) | ⟨h, _⟩
    · simp [h, hr] at hf
    · rfl
    · simp [hl] at h
    · simp [hl] at h

theorem letThrough_false_of_stage {i : Instr} {s : State} (h : i.legalIn s.stage = false) : i.letThrough s = false := by
  simp [Instr.letThrough, h]

theorem letThrough_false_of_attached {s : State} (h : s.ms.dmsAttached = true) : Instr.dmsBuild.letThrough s = false := by
  simp [Instr.letThrough, h]

/-- Settles O10: in either case the command is not let through (`exec_of_not_letThrough`). -/
theorem stageCheckRefuses : Obligations.StageCheckRefuses := by
  rintro i s ⟨hf, _⟩ (h | ⟨rfl, h⟩)
  · exact exec_of_not_letThrough (.inl hf) (letThrough_false_of_stage h)
  · exact exec_of_not_letThrough (.inl hf) (letThrough_false_of_attached h)

end Sys2Proof.Machine
end

/-! # Proofs of the window family (40_window.md)

Each command's answer once its checks have passed, then what its window operation does to each field. -/

section
namespace Sys2Proof.Machine

open Sys2Proof

/-! ### The answers of the window commands -/

theorem exec_winEnforceMaxdist_of {s : State} (hr : s.Ready) (ho : s.posOk s.op0 = true) :
    exec .winEnforceMaxdist s = .next ((winEnforceMaxDist s (s.idx s.op0.toNat) s.op1.toNat).withCode 0) := by
  change execWinEnforceMaxdist s = _
  rw [execWinEnforceMaxdist, gatedIO_of hr, require_of ho]
  rfl

theorem exec_winNeedsCorrection_of {s : State} (hr : s.Ready) (ho : s.posOk s.op0 = true) :
    exec .winNeedsCorrection s =
      .next ((s.setRes0 (s.p.needsCorrection (s.idx s.op0.toNat)).toNat).withCode 0) := by
  change execWinNeedsCorrection s = _
  rw [execWinNeedsCorrection, gatedIO_of hr, require_of ho]
  rfl

theorem exec_winNeedsCorrection_of_not_posOk {s : State} (hr : s.Ready) (ho : s.posOk s.op0 = false) :
    exec .winNeedsCorrection s = .next (s.withCode 2) := by
  change execWinNeedsCorrection s = _
  rw [execWinNeedsCorrection, gatedIO_of hr, ho, require_false]
  rfl

theorem exec_winCorrectOverflow_of {s : State} (hr : s.Ready) (hc : s.op0.toNat ≤ 30) (ho : s.posOk s.op2 = true)
    (hn : newCurOf s.op0.toNat s.op1.toNat (s.idx s.op2.toNat) < s.idx s.op2.toNat) :
    exec .winCorrectOverflow s =
      .next (((winCorrectOverflow s s.op0.toNat s.op1.toNat (s.idx s.op2.toNat)).setRes0
        (corrOf s.op0.toNat s.op1.toNat (s.idx s.op2.toNat))).withCode 0) := by
  change execWinCorrectOverflow s = _
  rw [execWinCorrectOverflow, gatedIO_of hr, require_of (decide_eq_true hc), require_of ho,
    require_of (decide_eq_true hn)]
  rfl

/-! ### needsOverflowCorrection (R95) -/

theorem Latched.needsCorrection_iff (p : Latched) (e : Nat) :
    p.needsCorrection e = true ↔ 1610612736 + 2 ^ p.windowLog.toNat < e := decide_eq_true_iff

/-- Settles O27: the answers above; another stage does not let the command through (`exec_of_not_letThrough`). -/
theorem winNeedsCorrectionCompletes : Obligations.WinNeedsCorrectionCompletes := by
  refine ⟨fun s hr ho => ?_, fun _ => exec_winNeedsCorrection_of_not_posOk, fun s hg hio => ?_⟩
  · have hres : (BitVec.ofNat 64 (s.p.needsCorrection (s.idx s.op0.toNat)).toNat : DWord) =
        if 1610612736 + 2 ^ s.p.windowLog.toNat < s.idx s.op0.toNat then 1 else 0 := by
      simp only [← Latched.needsCorrection_iff]
      cases s.p.needsCorrection (s.idx s.op0.toNat) <;> rfl
    rw [exec_winNeedsCorrection_of hr ho, ← hres]
    rfl
  · exact exec_of_not_letThrough (.inl hg.1) (letThrough_false_of_stage ((isIO_eq s.stage).trans hio))

/-! ### enforceMaxDistance (R94) -/

theorem Window.dropBelow_lowLimit {ctr : Nat} {w : Window} {newLow : Nat} (h32 : newLow < 2 ^ 32) :
    (w.dropBelow ctr newLow).lowLimit.toNat = max w.lowLimit.toNat newLow := by
  unfold Window.dropBelow
  dsimp only
  split
  · rw [fit_toNat h32]; omega
  · omega

theorem Window.dropBelow_dictLimit (ctr : Nat) (w : Window) (newLow : Nat) :
    (w.dropBelow ctr newLow).dictLimit.toNat = max w.dictLimit.toNat (w.dropBelow ctr newLow).lowLimit.toNat := by
  unfold Window.dropBelow
  dsimp only
  generalize (if w.lowLimit.toNat < newLow then fit 32 ctr 3 newLow else w.lowLimit) = low
  split <;> omega

theorem winEnforceMaxDist_of_near {s : State} {e d : Nat} (h : e ≤ d + s.ms.loadedDictEnd.toNat) :
    winEnforceMaxDist s e d = s :=
  if_neg (by simpa [maxDistFires] using h)

theorem winEnforceMaxDist_of_far {s : State} {e d : Nat} (h : d + s.ms.loadedDictEnd.toNat < e) :
    winEnforceMaxDist s e d =
      { s with w := s.w.dropBelow s.freeCtr (e - d), ms := { s.ms with loadedDictEnd := 0, dmsAttached := false } } := by
  have hf : maxDistFires e d s.ms.loadedDictEnd.toNat = true := decide_eq_true h
  rw [winEnforceMaxDist, Window.enforceMaxDist, if_pos hf, if_pos hf]

/-- Settles O26: the two branches of the test, and the limits of `Window.dropBelow`; the new low limit fits its register, `e`
being at most `cur`. -/
theorem winEnforceMaxdistCompletes : Obligations.WinEnforceMaxdistCompletes := by
  intro s hr hw ho e d
  have h := exec_winEnforceMaxdist_of hr ho
  refine ⟨fun hnear => ?_, fun hfar => ?_⟩
  · rw [h, winEnforceMaxDist_of_near hnear]
  · rw [winEnforceMaxDist_of_far hfar] at h
    have h32 : e - d < 2 ^ 32 := by
      have : e ≤ s.cur := s.posOk_le ho
      have := (s.windowOk_iff.mp hw).2
      omega
    have hlow := Window.dropBelow_lowLimit (ctr := s.freeCtr) (w := s.w) h32
    refine ⟨_, h, rfl, hlow, Window.dropBelow_dictLimit .., ?_⟩
    show e - (s.w.dropBelow s.freeCtr (e - d)).lowLimit.toNat ≤ d
    omega

/-! ### correctOverflow (R98, R99) -/

/-- The new index is congruent to the old one, `maxDist` being a multiple of the cycle. -/
theorem newCurOf_modEq {cycleLog maxDist : Nat} (h : 2 ^ cycleLog ∣ maxDist) (i : Nat) :
    newCurOf cycleLog maxDist i ≡ i [MOD 2 ^ cycleLog] := by
  have hd : maxDist ≡ 0 [MOD 2 ^ cycleLog] := Nat.modEq_zero_iff_dvd.mpr h
  refine Nat.ModEq.add (b := i) (d := 0) ?_ hd
  split
  · next h0 => exact (Nat.mod_self _).trans h0.symm
  · exact Nat.mod_modEq i _

/-- The correction keeps the low `cycleLog` bits of an index (R97). -/
theorem dvd_corrOf {cycleLog maxDist : Nat} (h : 2 ^ cycleLog ∣ maxDist) (i : Nat) :
    2 ^ cycleLog ∣ corrOf cycleLog maxDist i := by
  rcases Nat.le_total (newCurOf cycleLog maxDist i) i with hle | hle
  · exact (Nat.modEq_iff_dvd' hle).mp (newCurOf_modEq h i)
  · rw [corrOf, Nat.sub_eq_zero_of_le hle]
    exact Nat.dvd_zero _

theorem newCurOf_le (cycleLog maxDist i : Nat) : newCurOf cycleLog maxDist i ≤ 2 ^ cycleLog + maxDist := by
  have hm : i % 2 ^ cycleLog < 2 ^ cycleLog := Nat.mod_lt _ (by positivity)
  unfold newCurOf
  split <;> omega

theorem satsubWord_toNat (v : Word) (n : Nat) : (satsubWord v n).toNat = v.toNat - n := by
  have := v.isLt
  exact toNat_ofNat_lt (n := 32) (by omega) le_rfl

theorem lowered_toNat_eq_max (limit : Word) (corr : Nat) : (lowered limit corr).toNat = max 1 (limit.toNat - corr) := by
  rw [lowered_toNat]
  split <;> omega

theorem Window.shift_base {aw : Nat} (haw : aw ≤ 64) (w : Window) (corr : Nat) :
    (w.shift aw corr).base.toNat = (w.base.toNat + corr) % 2 ^ aw := toNat_ofNat_lt (addA_lt _ _ _) haw

theorem Window.shift_dictBase {aw : Nat} (haw : aw ≤ 64) (w : Window) (corr : Nat) :
    (w.shift aw corr).dictBase.toNat = (w.dictBase.toNat + corr) % 2 ^ aw := toNat_ofNat_lt (addA_lt _ _ _) haw

/-- Settles O28: the correction is `corrOf` of the index of `src`; the indices move by `winCorrectOverflow_ordered`, and its low
bits are `dvd_corrOf`. -/
theorem winCorrectOverflowCompletes : Obligations.WinCorrectOverflowCompletes := by
  intro s hr hleg hw hcyc ho c cyc hc
  have haw := (Impl.legal_addrW hleg).2
  obtain ⟨hord, h32⟩ := s.windowOk_iff.mp hw
  have hle : c ≤ s.cur := s.posOk_le ho
  have hcorr : corrOf s.op0.toNat s.op1.toNat c = c - (cyc + s.op1.toNat) := rfl
  obtain ⟨_, hcur, hidx, _⟩ := winCorrectOverflow_ordered (c := s.op0.toNat) (d := s.op1.toNat) haw hord hle
  have hland := hidx s.op2.toNat (show corrOf s.op0.toNat s.op1.toNat c ≤ c by omega)
  have hdvd (h : s.op1.toNat % 2 ^ s.op0.toNat = 0) : corrOf s.op0.toNat s.op1.toNat c % 2 ^ s.op0.toNat = 0 :=
    Nat.mod_eq_zero_of_dvd (dvd_corrOf (Nat.dvd_of_mod_eq_zero h) c)
  have hres : (BitVec.ofNat 64 (corrOf s.op0.toNat s.op1.toNat c)).toNat = corrOf s.op0.toNat s.op1.toNat c :=
    toNat_ofNat_lt (n := 32) (by omega) (by norm_num)
  refine ⟨_, exec_winCorrectOverflow_of hr hcyc ho hc, rfl, hres, ?_⟩
  simp only [State.withCode_res0, State.setRes0_res0]
  rw [hres]
  refine ⟨?_, ?_, Window.shift_base haw .., Window.shift_dictBase haw .., lowered_toNat_eq_max .., lowered_toNat_eq_max ..,
    satsubWord_toNat .., satsubWord_toNat .., hdvd⟩
  · show (winCorrectOverflow s s.op0.toNat s.op1.toNat c).idx s.op2.toNat = _
    rw [hland]
    show c - corrOf s.op0.toNat s.op1.toNat c = _
    omega
  · show (winCorrectOverflow s s.op0.toNat s.op1.toNat c).cur + _ = _
    omega

/-! ### The correction of a block step (R95, R96, R97) -/

theorem Latched.cycleLog_le_windowLog {p : Latched} (h : p.inRange = true) : p.cycleLog ≤ p.windowLog.toNat := by
  obtain ⟨_, _, _, _, _, _, _, _, _, _, _, _, _, hc⟩ := of_decide_eq_true h
  exact hc

/-- Settles O30: the end's index is above the ceiling, and the new index is at most one cycle above `windowSize`
(`newCurOf_le`), which `2^cycleLog` divides (`dvd_corrOf`). -/
theorem blockStepCorrectionIsLarge : Obligations.BlockStepCorrectionIsLarge := by
  intro p i n hp hn hneeds
  obtain ⟨hcyc, _, hblock⟩ := Latched.inRange_bounds hp
  have hend : 1610612736 + p.windowSize < i + n := (p.needsCorrection_iff _).mp hneeds
  have hpow : 2 ^ p.cycleLog ≤ 2 ^ 30 := Nat.pow_le_pow_right (by norm_num) hcyc
  have hnew := newCurOf_le p.cycleLog p.windowSize i
  have hcorr : corrOf p.cycleLog p.windowSize i = i - newCurOf p.cycleLog p.windowSize i := rfl
  have hdvd : 2 ^ p.cycleLog ∣ corrOf p.cycleLog p.windowSize i :=
    dvd_corrOf (Nat.pow_dvd_pow 2 (Latched.cycleLog_le_windowLog hp)) i
  refine ⟨by omega, by omega, Nat.mod_eq_zero_of_dvd hdvd, fun e he => ?_⟩
  exact (Nat.modEq_iff_dvd' (Nat.sub_le _ _)).mpr (by rwa [Nat.sub_sub_self he])

/-! ### append (R91, R92, R102) -/

/-- The window that takes the bytes of an extent: the one that stands when the extent is contiguous, else a fresh one. -/
def Window.opened (aw ctr : Nat) (w : Window) (src : Nat) : Window :=
  if src = w.nextSrc.toNat then w else w.openFresh aw ctr src

theorem Window.append_empty (aw ctr : Nat) (w : Window) (src : Nat) : w.append aw ctr src 0 = (w, true) := rfl

theorem Window.append_nonempty {n : Nat} (hn : n ≠ 0) (aw ctr : Nat) (w : Window) (src : Nat) :
    w.append aw ctr src n = ((w.opened aw ctr src).extend aw ctr src n, decide (src = w.nextSrc.toNat)) := by
  rw [Window.append, Window.opened, if_neg hn]
  split
  · next h => rw [decide_eq_true h]
  · next h => rw [decide_eq_false h]

theorem Window.opened_lowLimit {aw ctr : Nat} {w : Window} {src : DWord} (h32 : w.cur aw < 2 ^ 32) :
    (w.opened aw ctr src.toNat).lowLimit.toNat =
      if src = w.nextSrc then w.lowLimit.toNat
      else if w.cur aw - w.dictLimit.toNat < 8 then w.cur aw else w.dictLimit.toNat := by
  simp only [Window.opened, BitVec.toNat_inj]
  split
  · rfl
  · have hd := w.dictLimit.isLt
    refine fit_toNat ?_
    split <;> assumption

theorem Window.extend_nextSrc {aw : Nat} (haw : aw ≤ 64) (ctr : Nat) (w : Window) (src n : Nat) :
    (w.extend aw ctr src n).nextSrc.toNat = (src + n) % 2 ^ aw := toNat_ofNat_lt (Nat.mod_lt _ (by positivity)) haw

/-- The low limit rises over what the bytes taken in overlap of the external dictionary, to its end at most. -/
theorem Window.lowLimit_of_extend {aw ctr src n low : Nat} {w v : Window} (hv : v = w.extend aw ctr src n)
    (hlow : w.lowLimit.toNat = low) :
    v.lowLimit.toNat =
      if addA aw v.dictBase.toNat low < src + n ∧ src < addA aw v.dictBase.toNat v.dictLimit.toNat then
        min v.dictLimit.toNat (subA aw (src + n) v.dictBase.toNat)
      else low := by
  have h32 := w.dictLimit.isLt
  subst hv hlow
  unfold Window.extend
  dsimp only [GT.gt]
  split
  · split
    · omega
    · rw [fit_toNat (by omega)]; omega
  · rfl

/-- A non-contiguous append detaches the bank unless it begins where the bank's content ends (R102). -/
theorem MatchState.freshPrefix_eq (m : MatchState) (d : Word) :
    m.freshPrefix d = { m with
      nextToUpdate := d
      dmsAttached := m.dmsAttached && d == m.loadedDictEnd
      loadedDictEnd := if m.dmsAttached && d != m.loadedDictEnd then 0 else m.loadedDictEnd } := by
  unfold MatchState.freshPrefix
  cases m.dmsAttached <;> by_cases hd : d = m.loadedDictEnd <;> simp [hd]

theorem winAppend_empty (s : State) (src : Nat) : winAppend s src 0 = (s, true) := by
  unfold winAppend
  simp only [Window.append_empty]
  split <;> rfl

theorem winAppend_w_nonempty {n : Nat} (hn : n ≠ 0) (s : State) (src : Nat) : (winAppend s src n).1.w =
    (s.w.opened s.impl.addrW s.freeCtr src).extend s.impl.addrW s.freeCtr src n := by
  rw [winAppend_w, Window.append_nonempty hn]

theorem winAppend_contiguous {s : State} {src n : Nat} (hn : n ≠ 0) (hs : src = s.w.nextSrc.toNat) :
    (winAppend s src n).2 = true ∧ (winAppend s src n).1.ms = s.ms ∧
    (winAppend s src n).1.w.base = s.w.base ∧ (winAppend s src n).1.w.dictBase = s.w.dictBase ∧
    (winAppend s src n).1.w.dictLimit = s.w.dictLimit := by
  rw [winAppend_w_nonempty hn, winAppend_ms, winAppend_bit, Window.append_nonempty hn, Window.opened, if_pos hs,
    decide_eq_true hs]
  exact ⟨rfl, rfl, rfl, rfl, rfl⟩

theorem winAppend_fresh {s : State} {src n : Nat} (hn : n ≠ 0) (hs : src ≠ s.w.nextSrc.toNat) (h32 : s.cur < 2 ^ 32) :
    (winAppend s src n).2 = false ∧ (winAppend s src n).1.w.dictBase = s.w.base ∧
    (winAppend s src n).1.w.dictLimit.toNat = s.cur ∧
    (winAppend s src n).1.ms = s.ms.freshPrefix (winAppend s src n).1.w.dictLimit := by
  rw [winAppend_ms, winAppend_w, winAppend_bit, Window.append_nonempty hn, Window.opened, if_neg hs, decide_eq_false hs]
  exact ⟨rfl, rfl, s.w.openFresh_dictLimit src h32, rfl⟩

/-- Settles O25: an extent is empty (`winAppend_empty`), contiguous (`winAppend_contiguous`) or neither
(`winAppend_fresh`); the indices are those of `winAppend_ordered`, the low limit is that of `Window.lowLimit_of_extend`. -/
theorem winAppendCompletes : Obligations.WinAppendCompletes := by
  intro s hr hleg hw ho hn
  obtain ⟨haw32, haw⟩ := Impl.legal_addrW hleg
  have h32 := (s.windowOk_iff.mp hw).2
  obtain ⟨_, hcur, hidx, _⟩ := winAppend_ordered (src := s.op0.toNat) haw hw
    (hn.trans_le (Nat.pow_le_pow_right (by norm_num) haw32)) (s.rangeOk_end ho)
  have hldm := winAppend_ldm s s.op0.toNat s.op1.toNat
  have answer (r : State × Bool) (h : winAppend s s.op0.toNat s.op1.toNat = r) :
      ((winAppend s s.op0.toNat s.op1.toNat).1.setRes0 (winAppend s s.op0.toNat s.op1.toNat).2.toNat).withCode 0 =
        (r.1.setRes0 r.2.toNat).withCode 0 := by rw [h]
  refine ⟨_, exec_winAppend_of hr ho hn, answer (_, _) (Prod.ext (winAppend_frame ..) rfl), hcur, fun h0 => ?_, fun h0 => ?_,
    fun hl => hldm.trans (if_neg (by simp [hl])), fun hl => congrArg LdmState.w (hldm.trans (if_pos hl))⟩
  · exact answer (s, true) (by rw [h0]; exact winAppend_empty ..)
  · have hne : s.op1.toNat ≠ 0 := fun h => h0 (BitVec.eq_of_toNat_eq h)
    have hwin := winAppend_w_nonempty hne s s.op0.toNat
    refine ⟨(congrArg (·.nextSrc.toNat) hwin).trans (Window.extend_nextSrc haw ..), hidx hne, fun hs => ?_, fun hs => ?_,
      Window.lowLimit_of_extend hwin (Window.opened_lowLimit h32)⟩
    · obtain ⟨hbit, h⟩ := winAppend_contiguous (s := s) hne (congrArg BitVec.toNat hs)
      exact ⟨congrArg (BitVec.ofNat 64 ∘ Bool.toNat) hbit, h⟩
    · obtain ⟨hbit, hbase, hdict, hms⟩ := winAppend_fresh hne (mt BitVec.eq_of_toNat_eq hs) h32
      exact ⟨congrArg (BitVec.ofNat 64 ∘ Bool.toNat) hbit, hbase, hdict, hms.trans (MatchState.freshPrefix_eq ..)⟩

end Sys2Proof.Machine
end

/-! # Proofs of the tables family (41_tables.md)

What a run of insertions leaves in a table (`insertRun_get`), what a walk can report (`hcWalk_found`, `btWalk_found`), and from
these the answer of each table command. -/

/-! ## Passing the checks, and index reduction -/

section
namespace Sys2Proof.Machine

open Sys2Proof

/-! ### A command that passes its checks -/

theorem TurnedAway.code_ne_zero {i : Instr} {s t : State} (h : TurnedAway i s t) : t.status.code ≠ 0 := by
  rcases h with ⟨_, _, rfl⟩ | ⟨_, rfl⟩ | ⟨_, _, rfl⟩ <;> simp [State.withCode]

/-- A unit command whose gates are open and whose operands are right does its work. -/
theorem exec_worked {i : Instr} {s : State} (hr : s.Ready) (hio : i.legalIn s.stage = s.stage.isIO)
    (hj : launchJudged i = false) (hd : i ≠ .dmsBuild) (ho : i.operandsOk s = true) :
    ∃ t, exec i s = .next t ∧ Worked i s t := by
  obtain ⟨t, ht⟩ := exec_answers hj s
  have hl : i.letThrough s = true := letThrough_of hr.1 (hio.trans hr.2) hd
  refine ⟨t, ht, ?_⟩
  rcases exec_next ht with (⟨hf, _⟩ | ⟨hl', _⟩ | ⟨_, ho', _⟩) | ⟨_, _, hw⟩
  · exact absurd hf (by simp [hr.1.1])
  · exact absurd hl (by simp [hl'])
  · exact absurd ho (by simp [ho'])
  · exact hw

/-- The same for a table command with a position in `OP0` (R117). -/
theorem exec_worked_pos (i : Instr) {s : State} {layout : Bool} (hr : s.Ready)
    (hi : i.operandsOk s = s.tabOk layout s.op0 s.cur ∧ i.legalIn s.stage = s.stage.isIO ∧ launchJudged i = false ∧
      i ≠ .dmsBuild)
    (hl : layout = true) (ho : s.posOk s.op0 = true) (hp : s.idx s.op0.toNat + 8 ≤ s.cur) :
    ∃ t, exec i s = .next t ∧ Worked i s t := by
  obtain ⟨hops, hio, hj, hd⟩ := hi
  exact exec_worked hr hio hj hd (hops.trans (and_both (and_both hl ho) (decide_eq_true hp)))

/-- The same for a table command with a position in `OP0` and an end in `OP1` (R117). -/
theorem exec_worked_span (i : Instr) {s : State} {layout : Bool} (hr : s.Ready)
    (hi : i.operandsOk s = s.tabOk2 layout ∧ i.legalIn s.stage = s.stage.isIO ∧ launchJudged i = false ∧ i ≠ .dmsBuild)
    (hl : layout = true) (ho : s.posOk s.op0 = true) (he : s.posOk s.op1 = true)
    (hp : s.idx s.op0.toNat + 8 ≤ s.idx s.op1.toNat) : ∃ t, exec i s = .next t ∧ Worked i s t := by
  obtain ⟨hops, hio, hj, hd⟩ := hi
  exact exec_worked hr hio hj hd (hops.trans (and_both (and_both hl (and_both ho he)) (decide_eq_true hp)))

/-! ### Index reduction (R131) -/

/-- What an entry becomes when the indices are reduced. -/
def reduced (corr e : Nat) : Nat := if e < corr then 0 else e - corr

theorem reduceEntry_toNat {corr e : Nat} (h : e < 2 ^ 32) :
    (reduceEntry corr (BitVec.ofNat 32 e)).toNat = reduced corr e := by
  rw [reduceEntry, reduced, toNat_ofNat_lt h le_rfl]
  split
  · rfl
  · exact toNat_ofNat_lt (n := 32) (by omega) le_rfl

theorem reduceTreeEntry_toNat {corr e : Nat} (h : e < 2 ^ 32) :
    (reduceTreeEntry corr (BitVec.ofNat 32 e)).toNat = if e = 1 then 1 else reduced corr e := by
  rw [reduceTreeEntry, toNat_ofNat_lt h le_rfl, Config.unsortedMark]
  split
  · next h1 => rw [h1]; rfl
  · exact reduceEntry_toNat h

theorem Table.get_reduceEntry {t : Table} (h : t.wf = true) (corr k : Nat) :
    (t.reduce (reduceEntry corr)).get k = reduced corr (t.get k) := by
  rw [Table.get_reduce (reduceEntry_zero corr) h, reduceEntry_toNat (t.get_lt k)]

/-- The tree table keeps its mark; a table of another layout has none. -/
theorem MatchState.get_reduce_chain {m : MatchState} (h : m.chainTable.wf = true) (layout : Layout) (corr k : Nat) :
    (m.reduce layout corr).chainTable.get k =
      if layout = .binaryTree ∧ m.chainTable.get k = 1 then 1 else reduced corr (m.chainTable.get k) := by
  rw [MatchState.reduce]
  dsimp only
  split
  · next ht =>
    rw [Table.get_reduce (reduceTreeEntry_zero corr) h, reduceTreeEntry_toNat (m.chainTable.get_lt k)]
    simp only [ht, true_and]
  · next ht => rw [Table.get_reduceEntry h, if_neg (c := _ ∧ _) (ht ·.1)]

/-- Settles O29: a command that ends with code 0 has worked, its correction is in `RES0`, and each table is reduced by it
(`Table.get_reduceEntry`, `MatchState.get_reduce_chain`). -/
theorem correctionReducesEveryTableEntry : Obligations.CorrectionReducesEveryTableEntry := by
  intro s t hleg hcan h hc r
  obtain ⟨_, hhash, hchain, hhash3, _⟩ := s.canonical_iff.mp hcan
  rcases exec_next h with ha | ⟨_, _, rfl⟩
  · exact absurd hc ha.code_ne_zero
  have hr : r = reduced (corrOf s.op0.toNat s.op1.toNat (s.idx s.op2.toNat)) :=
    congrArg reduced (toNat_ofNat_lt ((Nat.sub_le _ _).trans_lt (Window.idx_lt ..)) (Impl.legal_addrW hleg).2)
  rw [hr]
  exact ⟨fun k => ⟨Table.get_reduceEntry hhash _ k, Table.get_reduceEntry hhash3 _ k, MatchState.get_reduce_chain hchain _ _ k⟩,
    rfl, rfl, rfl, rfl, rfl⟩

end Sys2Proof.Machine
end

/-! ## Insertions -/

section
namespace Sys2Proof.Machine

open Sys2Proof

/-! ### Slots and sizes (R111, R112, R113) -/

theorem shiftRight_sub_lt {x a b : Nat} (hx : x < 2 ^ a) (hb : b ≤ a) : x >>> (a - b) < 2 ^ b := by
  rw [Nat.shiftRight_eq_div_pow]
  exact Nat.div_lt_of_lt_mul (by rwa [← pow_add, Nat.sub_add_cancel hb])

/-- HASH goes into `[0, 2^hBits)`. -/
theorem hashOf_lt (f : Config.HashFn) (key n : Nat) {hBits : Nat} (h : hBits ≤ 32) : hashOf f key n hBits < 2 ^ hBits := by
  cases f with
  | other k => exact Nat.mod_lt _ (by positivity)
  | preset =>
    unfold hashOf hashPreset
    dsimp only
    split <;> exact shiftRight_sub_lt (Nat.mod_lt _ (by positivity)) (by omega)

theorem View.slot_lt (V : View) (v n : Nat) {hBits : Nat} (h : hBits ≤ 32) : V.slot v n hBits < 2 ^ hBits := hashOf_lt _ _ _ h

theorem Latched.inRange_logs {p : Latched} (h : p.inRange = true) :
    10 ≤ p.windowLog.toNat ∧ p.hashLog.toNat ≤ 30 ∧ p.chainLog.toNat ≤ 30 := by
  obtain ⟨_, _, hw, _, _, hh, _, hc, _⟩ := of_decide_eq_true h
  exact ⟨hw, hh, hc⟩

theorem View.shortSlot_lt {V : View} (h : V.p.inRange = true) (q : Nat) : V.shortSlot q < 2 ^ V.p.hashLog.toNat :=
  V.slot_lt _ _ (by have := Latched.inRange_logs h; omega)

/-- The sizes of 10_state.md R21, table by table. -/
theorem MatchState.sized_iff {m : MatchState} {p : Latched} : m.sized p = true ↔
    m.hashTable.size = 2 ^ p.hashLog.toNat ∧
    m.chainTable.size = (if p.strategy.toNat = 1 then 0 else 2 ^ p.chainLog.toNat) ∧
    m.hashTable3.size = (if p.minMatch.toNat = 3 then 2 ^ min 17 p.windowLog.toNat else 0) := decide_eq_true_iff

/-- Every layout but the single-hash one has a chain table. -/
theorem MatchState.chain_size {m : MatchState} {p : Latched} (h : m.sized p = true) (hl : p.layout ≠ .singleHash) :
    m.chainTable.size = 2 ^ p.chainLog.toNat := by
  rw [(MatchState.sized_iff.mp h).2.1, if_neg (fun h1 => hl ((layoutOf_eq_single _).mpr h1))]

/-! ### Single writes and cursors -/

/-- What a write of a 32-bit number to a slot the table has changes. -/
theorem Table.get_set_fits {t : Table} (h : t.wf = true) {i v : Nat} (hi : i < t.size) (hv : v < 2 ^ 32) (k : Nat) :
    (t.set i v).get k = if k = i then v else t.get k := by
  simp only [Table.get_set h, hi, and_true, word32_toNat hv]

theorem MatchState.raiseNext_toNat (m : MatchState) {low : Nat} (h : low < 2 ^ 32) :
    (m.raiseNext low).nextToUpdate.toNat = max m.nextToUpdate.toNat low := word32_toNat (max_lt m.nextToUpdate.isLt h)

theorem MatchState.raiseNext3_toNat (m : MatchState) {low : Nat} (h : low < 2 ^ 32) :
    (m.raiseNext3 low).nextToUpdate3.toNat = max m.nextToUpdate3.toNat low := word32_toNat (max_lt m.nextToUpdate3.isLt h)

theorem State.entryMs_next (s : State) : s.entryMs.nextToUpdate.toNat = max s.ms.nextToUpdate.toNat s.w.lowLimit.toNat :=
  s.ms.raiseNext_toNat s.w.lowLimit.isLt

/-- A table entry stands in a result register as it is. -/
theorem Table.get_res (t : Table) (k : Nat) : (BitVec.ofNat 64 (t.get k) : DWord).toNat = t.get k :=
  toNat_ofNat_lt (t.get_lt k) (by norm_num)

/-- An index of the window is below `2^32` between commands. -/
theorem State.pos_lt {s : State} (hw : s.WindowOk) {p : Nat} (h : p ≤ s.cur) : p < 2 ^ 32 := by
  have := (s.windowOk_iff.mp hw).2
  omega

/-- `n` is `m` with other entries in `hashTable` and `chainTable` and another `nextToUpdate`: what the operations of the four
layouts change. -/
def MainTables (m n : MatchState) : Prop :=
  n = { m with hashTable := n.hashTable, chainTable := n.chainTable, nextToUpdate := n.nextToUpdate }

theorem MainTables.refl (m : MatchState) : MainTables m m := rfl
theorem MainTables.trans {m n o : MatchState} (h : MainTables m n) (k : MainTables n o) : MainTables m o := by
  unfold MainTables at h k ⊢
  rw [k, h]

theorem State.entryMs_main (s : State) : MainTables s.ms s.entryMs := rfl

/-! ### Single-hash (R116) -/

/-- Settles O32: the write of `h1InsFind` is one write of `hashTable` (`Table.get_set_fits`). -/
theorem singleHashInsertReturnsPrevious : Obligations.SingleHashInsertReturnsPrevious := by
  intro s hr hcan hsz hw hl ho hp p h
  obtain ⟨_, hhash, _⟩ := s.canonical_iff.mp hcan
  obtain ⟨hrange, hsized⟩ := hsz hr.2
  obtain ⟨t, ht, rfl⟩ := exec_worked_pos .h1Insfind hr ⟨rfl, isIO_eq _, rfl, nofun⟩ (decide_eq_true hl) ho hp
  have hh : h < 2 ^ s.p.hashLog.toNat := s.view.shortSlot_lt hrange p
  have hsize : h < s.ms.hashTable.size := hh.trans_eq (MatchState.sized_iff.mp hsized).1.symm
  have hp32 : p < 2 ^ 32 := s.pos_lt hw (by omega)
  exact ⟨_, ht, rfl, hh, Table.get_res .., Table.get_set_fits hhash hsize hp32, s.entryMs_next⟩

/-! ### Dual-hash (R118) -/

/-- Settles O33: one write of each of the two tables. -/
theorem dualHashInsertReturnsBoth : Obligations.DualHashInsertReturnsBoth := by
  intro s hr hcan hsz hw hl ho hp p hL hS
  obtain ⟨_, hhash, hchain, _⟩ := s.canonical_iff.mp hcan
  obtain ⟨hrange, hsized⟩ := hsz hr.2
  obtain ⟨_, hhl, hcl⟩ := Latched.inRange_logs hrange
  obtain ⟨t, ht, rfl⟩ := exec_worked_pos .dhInsfind hr ⟨rfl, isIO_eq _, rfl, nofun⟩ (decide_eq_true hl) ho hp
  have hlong : hL < s.ms.hashTable.size :=
    (s.view.slot_lt p 8 (by omega)).trans_eq (MatchState.sized_iff.mp hsized).1.symm
  have hshort : hS < s.ms.chainTable.size :=
    (s.view.slot_lt p s.p.mls (by omega)).trans_eq (MatchState.chain_size hsized (by simp [hl])).symm
  have hp32 : p < 2 ^ 32 := s.pos_lt hw (by omega)
  exact ⟨_, ht, rfl, Table.get_res .., Table.get_res ..,
    fun k => ⟨Table.get_set_fits hhash hlong hp32 k, Table.get_set_fits hchain hshort hp32 k⟩, s.entryMs_next⟩

/-! ### The latest position of a slot -/

theorem lastWith_congr {f g : Nat → Bool} {lo n : Nat} (h : ∀ q, lo ≤ q → q < lo + n → f q = g q) :
    lastWith f lo n = lastWith g lo n := by
  induction n with
  | zero => rfl
  | succ n ih => rw [lastWith, lastWith, h (lo + n) (by omega) (by omega), ih fun q h1 h2 => h q h1 (by omega)]

theorem lastWith_none {f : Nat → Bool} {lo n : Nat} (h : ∀ q, lo ≤ q → f q = false) : lastWith f lo n = none := by
  induction n with
  | zero => rfl
  | succ n ih => rw [lastWith, h _ (by omega), ih]; rfl

/-- The latest position of two runs is that of the second, or else that of the first. -/
theorem lastWith_add (f : Nat → Bool) (lo a b : Nat) :
    lastWith f lo (a + b) = (lastWith f (lo + a) b).or (lastWith f lo a) := by
  induction b with
  | zero => rfl
  | succ b ih =>
    rw [← Nat.add_assoc, lastWith, lastWith, Nat.add_assoc]
    split
    · rfl
    · exact ih

/-! ### Runs of insertions -/

/-- The last insertion of a run. -/
theorem insertRun_succ (ins : MatchState → Nat → MatchState) : ∀ (n lo : Nat) (m : MatchState),
    insertRun ins (n + 1) lo m = ins (insertRun ins n lo m) (lo + n)
  | 0, _, _ => rfl
  | n + 1, lo, m => by
    rw [insertRun, insertRun_succ ins n (lo + 1) (ins m lo), Nat.add_assoc, Nat.add_comm 1 n]
    rfl

/-- What every insertion keeps, a run keeps. -/
theorem insertRun_induct {ins : MatchState → Nat → MatchState} {R : MatchState → Prop} (h : ∀ m i, R m → R (ins m i)) :
    ∀ (n lo : Nat) (m : MatchState), R m → R (insertRun ins n lo m)
  | 0, _, _, hm => hm
  | n + 1, lo, m, hm => insertRun_induct h n (lo + 1) (ins m lo) (h m lo hm)

/-- Insertions at their slots leave in each slot the latest position inserted there. -/
theorem insertRun_get {ins : MatchState → Nat → MatchState} {T : MatchState → Table} {slot : Nat → Nat}
    (hins : ∀ m i, T (ins m i) = (T m).set (slot i) i) {m : MatchState} (hwf : (T m).wf = true)
    (hslot : ∀ q, slot q < (T m).size) {n lo : Nat} (h32 : lo + n ≤ 2 ^ 32) (k : Nat) :
    (T (insertRun ins n lo m)).get k = (lastWith (fun q => slot q == k) lo n).getD ((T m).get k) := by
  induction n with
  | zero => rfl
  | succ n ih =>
    obtain ⟨hsize, hwf'⟩ : TableKept (T m) (T (insertRun ins n lo m)) :=
      insertRun_induct (R := fun u => TableKept (T m) (T u)) (fun u i hu => hins u i ▸ hu.trans (.set _ _ _)) n lo m (.refl _)
    rw [insertRun_succ, hins, Table.get_set_fits (hwf' hwf) (hsize ▸ hslot _) (by omega), ih (by omega), lastWith]
    by_cases hk : k = slot (lo + n)
    · rw [if_pos hk, if_pos (beq_iff_eq.mpr hk.symm)]; rfl
    · rw [if_neg hk, if_neg (fun hb => hk (beq_iff_eq.mp hb).symm)]

/-! ### Catching up (R120, R124) -/

/-- An insertion of the hash-chain or of the tree layout: it writes the head or the root of the position's slot, and otherwise
`chainTable` only. -/
structure MainInsert (V : View) (ins : MatchState → Nat → MatchState) : Prop where
  hash : ∀ m i, (ins m i).hashTable = m.hashTable.set (V.shortSlot i) i
  main : ∀ m i, MainTables m (ins m i)
  next : ∀ m i, (ins m i).nextToUpdate = m.nextToUpdate

theorem hcInsert_mainInsert (V : View) : MainInsert V (hcInsert V) := ⟨fun _ _ => rfl, fun _ _ => rfl, fun _ _ => rfl⟩
theorem btInsert_mainInsert (V : View) (e : Nat) : MainInsert V (fun m i => (btInsert V m i e).1) :=
  ⟨fun _ _ => rfl, fun _ _ => rfl, fun _ _ => rfl⟩

section
variable {V : View} {ins : MatchState → Nat → MatchState} (h : MainInsert V ins)
include h

theorem MainInsert.catchUpTo_main (m : MatchState) (p : Nat) : MainTables m (catchUpTo ins m p) :=
  (insertRun_induct (R := MainTables m) (fun u i hu => hu.trans (h.main u i)) _ _ m (.refl m)).trans rfl

theorem MainInsert.catchUpTo_next (m : MatchState) {p : Nat} (hp : p < 2 ^ 32) :
    (catchUpTo ins m p).nextToUpdate.toNat = max m.nextToUpdate.toNat p := by
  rw [catchUpTo, MatchState.raiseNext_toNat _ hp,
    insertRun_induct (R := fun u => u.nextToUpdate = m.nextToUpdate) (fun u i hu => (h.next u i).trans hu) _ _ m rfl]

end

/-- A table command that catches up leaves in every slot the latest position of `[nextToUpdate, p)`, `nextToUpdate` raised. -/
theorem MainInsert.catchUpTo_hash {s : State} {ins : MatchState → Nat → MatchState} (h : MainInsert s.view ins)
    (hwf : s.ms.hashTable.wf = true) (hrange : s.p.inRange = true) (hsized : s.ms.sized s.p = true) {p : Nat}
    (hp : p < 2 ^ 32) (k : Nat) :
    (catchUpTo ins s.entryMs p).hashTable.get k =
      (lastWith (fun q => s.view.shortSlot q == k) (max s.ms.nextToUpdate.toNat s.w.lowLimit.toNat)
        (p - max s.ms.nextToUpdate.toNat s.w.lowLimit.toNat)).getD (s.ms.hashTable.get k) := by
  have hslot (q : Nat) : s.view.shortSlot q < s.entryMs.hashTable.size :=
    (s.view.shortSlot_lt hrange q).trans_eq (MatchState.sized_iff.mp hsized).1.symm
  have hlow := s.w.lowLimit.isLt
  have hnext := s.ms.nextToUpdate.isLt
  rw [← s.entryMs_next]
  exact insertRun_get (T := MatchState.hashTable) (m := s.entryMs) h.hash hwf hslot (by rw [s.entryMs_next]; omega) k

/-! ### Hash-chain (R119, R120) -/

/-- Two indices less than a table's size apart have different links. -/
theorem mod_ne_of_near {q r c : Nat} (hlt : q < r) (hnear : r < q + c) : q % c ≠ r % c := by
  intro h
  have := Nat.le_of_dvd (by omega) ((Nat.modEq_iff_dvd' hlt.le).mp h)
  omega

section
variable {V : View} {m : MatchState} (hp : V.p.inRange = true) (hhash : m.hashTable.wf = true)
  (hchain : m.chainTable.wf = true) (hhs : m.hashTable.size = 2 ^ V.p.hashLog.toNat)
  (hcs : m.chainTable.size = 2 ^ V.p.chainLog.toNat)
include hp hhash hchain hhs hcs

/-- After a run, the link of a position holds the position its owner found in its slot, unless it has been overwritten. -/
theorem hcRun_link {n lo q : Nat} (h32 : lo + n ≤ 2 ^ 32) (hlo : lo ≤ q) (hhi : q < lo + n)
    (hnear : lo + n ≤ q + 2 ^ V.p.chainLog.toNat) :
    (insertRun (hcInsert V) n lo m).chainTable.get (q % 2 ^ V.p.chainLog.toNat) =
      (lastWith (fun x => V.shortSlot x == V.shortSlot q) lo (q - lo)).getD (m.hashTable.get (V.shortSlot q)) := by
  induction n with
  | zero => omega
  | succ n ih =>
    obtain ⟨-, ⟨hsize, hwf⟩, -⟩ := insertRun_kept (hcInsert_kept V) n lo m
    have hread := insertRun_get (T := MatchState.hashTable) (ins := hcInsert V) (fun _ _ => rfl) hhash
      (fun x => (V.shortSlot_lt hp x).trans_eq hhs.symm) (n := n) (lo := lo) (by omega)
    rw [insertRun_succ]
    generalize insertRun (hcInsert V) n lo m = u at ih hsize hwf hread ⊢
    show (u.chainTable.set ((lo + n) % _) (u.hashTable.get (V.shortSlot (lo + n)))).get _ = _
    rw [Table.get_set_fits (hwf hchain) (by rw [hsize, hcs]; exact Nat.mod_lt _ (by positivity)) (u.hashTable.get_lt _)]
    obtain hlt | rfl : q < lo + n ∨ q = lo + n := by omega
    · rw [if_neg (mod_ne_of_near hlt (by omega)), ih (by omega) hlt (by omega)]
    · rw [if_pos rfl, hread, Nat.add_sub_cancel_left]

theorem hcInsFind_link {p q : Nat} (h32 : p < 2 ^ 32) (hlo : m.nextToUpdate.toNat ≤ q) (hhi : q < p)
    (hnear : p ≤ q + 2 ^ V.p.chainLog.toNat) :
    (hcInsFind V m p).1.chainTable.get (q % 2 ^ V.p.chainLog.toNat) =
      (lastWith (fun x => V.shortSlot x == V.shortSlot q) m.nextToUpdate.toNat (q - m.nextToUpdate.toNat)).getD
        (m.hashTable.get (V.shortSlot q)) := by
  have hend : m.nextToUpdate.toNat + (p - m.nextToUpdate.toNat) = p := by omega
  exact hcRun_link hp hhash hchain hhs hcs (by omega) hlo (by omega) (by rwa [hend])

end

/-- Settles O34: the heads are those of `MainInsert.catchUpTo_hash`, the links those of `hcInsFind_link`. -/
theorem hashChainInsertKeepsTheLatest : Obligations.HashChainInsertKeepsTheLatest := by
  intro s hr hcan hsz hw hl ho hp p n0 slot head
  obtain ⟨_, hhash, hchain, _⟩ := s.canonical_iff.mp hcan
  obtain ⟨hrange, hsized⟩ := hsz hr.2
  have hins := hcInsert_mainInsert s.view
  have hp32 : p < 2 ^ 32 := s.pos_lt hw (by omega)
  have hn0 : s.entryMs.nextToUpdate.toNat = n0 := s.entryMs_next
  obtain ⟨t, ht, rfl⟩ := exec_worked_pos .hcInsfind hr ⟨rfl, isIO_eq _, rfl, nofun⟩ (decide_eq_true hl) ho hp
  have hheads (h : Nat) : (catchUpTo (hcInsert s.view) s.entryMs p).hashTable.get h = head h p :=
    hins.catchUpTo_hash hhash hrange hsized hp32 h
  refine ⟨_, ht, ?_, ?_, (Table.get_res ..).trans (hheads _), fun h _ => hheads h, fun q hlo hhi hnear => ?_⟩
  · exact congrArg (fun m => (State.setRes0 { s with ms := m } _).withCode 0) (s.entryMs_main.trans (hins.catchUpTo_main _ p))
  · exact (hins.catchUpTo_next _ hp32).trans (by rw [hn0])
  · have hlayout : s.p.layout ≠ .singleHash := by simp [hl]
    refine (hcInsFind_link (V := s.view) (m := s.entryMs) hrange hhash hchain (MatchState.sized_iff.mp hsized).1
      (MatchState.chain_size hsized hlayout) hp32 (hn0.trans_le hlo) hhi hnear).trans ?_
    rw [hn0]
    rfl

/-! ### Binary tree: the roots (R123, R124) -/

/-- Settles O36: an insertion writes the root of its slot and re-hangs the old tree in `chainTable`. -/
theorem treeUpdateInsertsEveryPosition : Obligations.TreeUpdateInsertsEveryPosition := by
  intro s hr hcan hsz hw hl ho he hp p n0
  obtain ⟨_, hhash, _⟩ := s.canonical_iff.mp hcan
  obtain ⟨hrange, hsized⟩ := hsz hr.2
  have hins := btInsert_mainInsert s.view (s.idx s.op1.toNat)
  have hle := s.posOk_le he
  have hp32 : p < 2 ^ 32 := s.pos_lt hw (by omega)
  obtain ⟨t, ht, rfl⟩ := exec_worked_span .btUpdate hr ⟨rfl, isIO_eq _, rfl, nofun⟩ (decide_eq_true hl) ho he hp
  refine ⟨_, ht, ?_, ?_, fun h _ => hins.catchUpTo_hash hhash hrange hsized hp32 h⟩
  · exact congrArg (fun m => State.withCode { s with ms := m } 0) (s.entryMs_main.trans (hins.catchUpTo_main _ p))
  · exact (hins.catchUpTo_next _ hp32).trans (by rw [s.entryMs_next])

/-! ### The 3-byte table (R126) -/

/-- `n` is `m` with other entries in `hashTable3` and other cursors: what the 3-byte table's command changes. -/
def ShortTable (m n : MatchState) : Prop :=
  n = { m with hashTable3 := n.hashTable3, nextToUpdate := n.nextToUpdate, nextToUpdate3 := n.nextToUpdate3 }

theorem h3InsFind_next3 (V : View) (m : MatchState) {p : Nat} (hp : p < 2 ^ 32) :
    (h3InsFind V m p).1.nextToUpdate3.toNat = max m.nextToUpdate3.toNat p := by
  rw [h3InsFind, MatchState.raiseNext3_toNat _ hp, insertRun_induct (ins := h3Insert V)
    (R := fun u => u.nextToUpdate3 = m.nextToUpdate3) (fun _ _ hu => hu) _ _ m rfl]

theorem h3InsFind_next (V : View) (m : MatchState) (p : Nat) : (h3InsFind V m p).1.nextToUpdate = m.nextToUpdate :=
  insertRun_induct (ins := h3Insert V) (R := fun u => u.nextToUpdate = m.nextToUpdate) (fun _ _ hu => hu) _ _ m rfl

theorem h3InsFind_short {m n : MatchState} (V : View) (h : ShortTable m n) (p : Nat) :
    ShortTable m (h3InsFind V n p).1 := by
  have hrun := insertRun_induct (ins := h3Insert V) (R := ShortTable m) (fun u i hu => by unfold ShortTable; rw [hu]; rfl)
    (p - n.nextToUpdate3.toNat) n.nextToUpdate3.toNat n h
  unfold ShortTable
  rw [h3InsFind, hrun]
  rfl

/-- What the 3-byte table holds after it: the latest position of `[nextToUpdate3, p)` in every slot. -/
theorem h3InsFind_get {V : View} {m : MatchState} (hwf : m.hashTable3.wf = true)
    (hslot : ∀ q, V.slot3 q < m.hashTable3.size) {p : Nat} (hp : p < 2 ^ 32) (k : Nat) :
    (h3InsFind V m p).1.hashTable3.get k =
      (lastWith (fun q => V.slot3 q == k) m.nextToUpdate3.toNat (p - m.nextToUpdate3.toNat)).getD (m.hashTable3.get k) :=
  insertRun_get (T := MatchState.hashTable3) (ins := h3Insert V) (fun _ _ => rfl) hwf hslot
    (by have := m.nextToUpdate3.isLt; omega) k

/-- Settles O38: a run of insertions in `hashTable3`, from `nextToUpdate3` on. -/
theorem shortHashInsertKeepsTheLatest : Obligations.ShortHashInsertKeepsTheLatest := by
  intro s hr hcan hsz hw h3 ho hp p n0 log3 head
  obtain ⟨_, _, _, hhash3, _⟩ := s.canonical_iff.mp hcan
  obtain ⟨hrange, hsized⟩ := hsz hr.2
  obtain ⟨hwin, _⟩ := Latched.inRange_logs hrange
  have hlog : s.p.hashLog3 = log3 := if_pos h3
  have hpos : 0 < s.p.hashLog3 := by omega
  have hslot (q : Nat) : s.view.slot3 q = s.view.slot q 3 log3 := congrArg (s.view.slot q 3) hlog
  have hsize : s.ms.hashTable3.size = 2 ^ log3 := (MatchState.sized_iff.mp hsized).2.2.trans (if_pos h3)
  have hp32 : p < 2 ^ 32 := s.pos_lt hw (by omega)
  have hn0 : (s.entryMs.raiseNext3 s.w.lowLimit.toNat).nextToUpdate3.toNat = n0 :=
    MatchState.raiseNext3_toNat _ s.w.lowLimit.isLt
  have hentry : ShortTable s.ms (s.entryMs.raiseNext3 s.w.lowLimit.toNat) := rfl
  obtain ⟨t, ht, rfl⟩ := exec_worked_pos .h3Insfind hr ⟨rfl, isIO_eq _, rfl, nofun⟩ (decide_eq_true hpos) ho hp
  have hheads (h : Nat) : (h3InsFind s.view (s.entryMs.raiseNext3 s.w.lowLimit.toNat) p).1.hashTable3.get h = head h := by
    rw [h3InsFind_get (m := s.entryMs.raiseNext3 s.w.lowLimit.toNat) hhash3
      (fun q => by rw [hslot]; exact (s.view.slot_lt q 3 (by omega)).trans_eq hsize.symm) hp32, hn0]
    simp only [hslot]
    rfl
  refine ⟨_, ht, ?_, ?_, ?_, ?_, fun h _ => hheads h⟩
  · exact congrArg (fun m => (State.setRes0 { s with ms := m } _).withCode 0) (h3InsFind_short s.view hentry p)
  · exact (h3InsFind_next3 _ _ hp32).trans (by rw [hn0])
  · exact (congrArg BitVec.toNat (h3InsFind_next ..)).trans s.entryMs_next
  · refine (Table.get_res ..).trans ((hheads _).trans ?_)
    rw [hslot]

end Sys2Proof.Machine
end

/-! ## Bulk fill (R130) -/

section
namespace Sys2Proof.Machine

open Sys2Proof

/-- What every stride keeps, a run of strides keeps. -/
theorem strideRun_induct {lim : Nat} {stride : MatchState → Nat → MatchState} {R : MatchState → Prop}
    (h : ∀ m i, R m → R (stride m i)) : ∀ (k p : Nat) (m : MatchState), R m → R (strideRun lim stride k p m)
  | 0, _, _, hm => hm
  | k + 1, p, m, hm => by
    unfold strideRun
    split
    · exact strideRun_induct h k _ _ (h m p hm)
    · exact hm

theorem MatchState.setHash_main (m : MatchState) (i v : Nat) : MainTables m (m.setHash i v) := rfl
theorem MatchState.setChain_main (m : MatchState) (i v : Nat) : MainTables m (m.setChain i v) := rfl
theorem MatchState.fillHole_main (m : MatchState) (i v : Nat) : MainTables m (m.fillHole i v) := by
  unfold MatchState.fillHole
  split
  · exact m.setHash_main i v
  · exact .refl m

/-- The full mode of a stride: two holes filled, or none. -/
theorem fillHoles_main (m : MatchState) (full : Bool) (i v j w : Nat) :
    MainTables m (if full then (m.fillHole i v).fillHole j w else m) := by
  split
  · exact (m.fillHole_main i v).trans (MatchState.fillHole_main _ j w)
  · exact .refl m

theorem fillSingle_main (V : View) (full : Bool) (m : MatchState) (p : Nat) : MainTables m (fillSingle V full m p) :=
  (m.setHash_main _ _).trans (fillHoles_main _ full _ _ _ _)
theorem fillDual_main (V : View) (full : Bool) (m : MatchState) (p : Nat) : MainTables m (fillDual V full m p) :=
  ((m.setChain_main _ _).trans (MatchState.setHash_main _ _ _)).trans (fillHoles_main _ full _ _ _ _)

/-- With fewer than 8 bytes left, nothing is filled. -/
theorem tabFill_of_short {V : View} {m : MatchState} {e : Nat} (h : e < 8 ∨ e - 8 < m.nextToUpdate.toNat) (full : Bool) :
    tabFill V m e full = m := if_pos h

theorem tabFill_main (V : View) (m : MatchState) (e : Nat) (full : Bool) : MainTables m (tabFill V m e full) := by
  unfold tabFill
  dsimp only
  split
  · exact .refl m
  · refine MainTables.trans ?_ rfl
    split
    · exact strideRun_induct (fun u i hu => hu.trans (fillSingle_main V full u i)) _ _ m (.refl m)
    · exact strideRun_induct (fun u i hu => hu.trans (fillDual_main V full u i)) _ _ m (.refl m)
    · exact (hcInsert_mainInsert V).catchUpTo_main m _
    · exact (btInsert_mainInsert V e).catchUpTo_main m _

theorem not_short_of_room {e n : Nat} (h8 : 8 ≤ e) (hn : n ≤ e - 8) : ¬ (e < Config.hashRead ∨ n > e - Config.hashRead) :=
  not_or.mpr ⟨h8.not_gt, hn.not_gt⟩

theorem tabFill_next {V : View} {m : MatchState} {e : Nat} (h8 : 8 ≤ e) (hn : m.nextToUpdate.toNat ≤ e - 8)
    (he : e < 2 ^ 32) (full : Bool) : (tabFill V m e full).nextToUpdate.toNat = e := by
  simp only [tabFill, if_neg (not_short_of_room h8 hn)]
  exact word32_toNat he

theorem tabFill_fast {V : View} {m : MatchState} {e : Nat} (h8 : 8 ≤ e) (hn : m.nextToUpdate.toNat ≤ e - 8)
    (hl : V.p.layout = .singleHash) : (tabFill V m e false).hashTable =
      (strideRun (e - 8) (fillSingle V false) (e - 8 + 2 - m.nextToUpdate.toNat) m.nextToUpdate.toNat m).hashTable := by
  simp only [tabFill, if_neg (not_short_of_room h8 hn), hl]
  rfl

/-- The positions the fast single-hash fill stores in slot `h`, from stride position `p` on. -/
def strideAt (V : View) (lim p h q : Nat) : Bool :=
  (q - p) % 3 == 0 && decide (q + 2 ≤ lim) && V.shortSlot q == h

theorem strideAt_step {V : View} {lim p h q : Nat} (hq : p + 3 ≤ q) : strideAt V lim p h q = strideAt V lim (p + 3) h q := by
  rw [strideAt, strideAt, show q - p = q - (p + 3) + 3 by omega, Nat.add_mod_right]

/-- Of three positions in a row only the first is stored. -/
theorem lastWith_strideAt {V : View} {lim p h : Nat} (hp : p + 2 ≤ lim) :
    lastWith (strideAt V lim p h) p 3 = if h = V.shortSlot p then some p else none := by
  have h1 : strideAt V lim p h (p + 1) = false := by simp [strideAt]
  have h2 : strideAt V lim p h (p + 2) = false := by simp [strideAt]
  have h0 : strideAt V lim p h p = decide (h = V.shortSlot p) := by
    simp only [strideAt, Nat.sub_self, decide_eq_true hp, eq_comm (a := h)]
    rfl
  simp only [lastWith, h1, h2, Nat.add_zero, h0, decide_eq_true_eq, Bool.false_eq_true, if_false]

/-- The fast fill leaves in a slot the latest stride position that hashes to it: what the first stride stores, then the rest of
the run. -/
theorem strideRun_fast {V : View} {lim e h : Nat} (hp : V.p.inRange = true) (hlim : lim < e) (he : e < 2 ^ 32) :
    ∀ (k p : Nat) (m : MatchState), m.hashTable.wf = true → m.hashTable.size = 2 ^ V.p.hashLog.toNat → lim + 2 ≤ p + k →
      (strideRun lim (fillSingle V false) k p m).hashTable.get h =
        (lastWith (strideAt V lim p h) p (e - p)).getD (m.hashTable.get h) := by
  have hstop (p : Nat) (hge : lim < p + 2) (m : MatchState) :
      m.hashTable.get h = (lastWith (strideAt V lim p h) p (e - p)).getD (m.hashTable.get h) := by
    rw [lastWith_none fun q hq => by simp [strideAt, show lim < q + 2 by omega]]
    rfl
  intro k
  induction k with
  | zero => exact fun p m _ _ hk => hstop p (by omega) m
  | succ k ih =>
    intro p m hwf hsize hk
    rw [strideRun]
    split
    · next hlt =>
      have hlt : p + 3 < lim + 2 := hlt
      have hset := Table.get_set_fits hwf ((V.shortSlot_lt hp p).trans_eq hsize.symm) (show p < 2 ^ 32 by omega) h
      show (strideRun lim _ k (p + 3) _).hashTable.get h = _
      rw [ih _ (fillSingle V false m p) (Table.set_wf hwf _ _) ((Table.set_size ..).trans hsize) (by omega),
        show e - p = 3 + (e - (p + 3)) by omega, lastWith_add, Option.getD_or, lastWith_strideAt (by omega),
        lastWith_congr fun q hq _ => strideAt_step hq]
      refine congrArg (Option.getD _) (hset.trans ?_)
      split <;> rfl
    · next hge => exact hstop p (by have : ¬ p + 3 < lim + 2 := hge; omega) m

/-- Settles O39: the frame and the cursor in every layout, and the strides of the fast single-hash fill (`strideRun_fast`). -/
theorem tabFillCompletes : Obligations.TabFillCompletes := by
  intro mode s hr hcan hsz hw ho e n0
  obtain ⟨_, hhash, _⟩ := s.canonical_iff.mp hcan
  obtain ⟨hrange, hsized⟩ := hsz hr.2
  have hn0 : s.entryMs.nextToUpdate.toNat = n0 := s.entryMs_next
  have he : e < 2 ^ 32 := s.pos_lt hw (s.posOk_le ho)
  obtain ⟨t, ht, rfl⟩ := exec_worked (i := .tabFill mode) hr (isIO_eq _) rfl nofun ho
  refine ⟨_, ht, ?_, fun hshort => ?_, fun h8 hroom => ⟨tabFill_next h8 (hn0.trans_le hroom) he _, fun hl hm h _ => ?_⟩⟩
  · exact congrArg (fun m => State.withCode { s with ms := m } 0) (s.entryMs_main.trans (tabFill_main ..))
  · have hsame := tabFill_of_short (V := s.view) (m := s.entryMs) (e := e) (by rwa [hn0]) (modBit0 mode)
    exact ⟨(congrArg (·.nextToUpdate.toNat) hsame).trans hn0, congrArg (·.hashTable) hsame, congrArg (·.chainTable) hsame⟩
  · have hfast : modBit0 mode = false := hm
    have hfill := strideRun_fast (V := s.view) (lim := e - 8) (h := h) hrange (by omega) he (e - 8 + 2 - n0) n0 s.entryMs hhash
      (MatchState.sized_iff.mp hsized).1 (by omega)
    refine (congrArg (·.get h) ((congrArg (fun f => (tabFill s.view s.entryMs e f).hashTable) hfast).trans
      (tabFill_fast h8 (hn0.trans_le hroom) hl))).trans ?_
    rw [hn0]
    exact hfill

end Sys2Proof.Machine
end

/-! ## Searches -/

section
namespace Sys2Proof.Machine

open Sys2Proof

/-! ### MatchLen (42_block_matcher.md R142) -/

theorem matchCount_le (byte : Nat → Byte) : ∀ fuel a b, matchCount byte fuel a b ≤ fuel
  | 0, _, _ => Nat.le_refl 0
  | fuel + 1, a, b => by
    have ih := matchCount_le byte fuel (a + 1) (b + 1)
    rw [matchCount]
    split <;> omega

theorem byte_eq_of_lt_matchCount {byte : Nat → Byte} : ∀ {fuel a b k : Nat}, k < matchCount byte fuel a b →
    byte (a + k) = byte (b + k)
  | fuel + 1, a, b, k, h => by
    rw [matchCount] at h
    split at h
    · next heq =>
      cases k with
      | zero => exact heq
      | succ k =>
        have := byte_eq_of_lt_matchCount (byte := byte) (fuel := fuel) (a := a + 1) (b := b + 1) (k := k) (by omega)
        rwa [Nat.add_right_comm, Nat.add_right_comm b] at this
    · omega

/-! ### Real matches -/

/-- The bytes at `p` and at the match's index are equal over its length, it ends at or before `e`, and it starts in the history
before `p`. -/
structure View.RealMatch (V : View) (p e : Nat) (b : Best) : Prop where
  stop : p + b.len ≤ e
  low : V.histLow ≤ b.idx
  below : b.idx < p
  equal : ∀ k, k < b.len → V.byte (p + k) = V.byte (b.idx + k)

/-- The best match of a search that started at length `n`: if it is longer, it is a real one. -/
def View.Found (V : View) (p e n : Nat) (b : Best) : Prop := n < b.len → V.RealMatch p e b

theorem View.realMatch_matchLen {V : View} {p e c : Nat} (hp : p ≤ e) (hlow : V.histLow ≤ c) (hc : c < p) :
    V.RealMatch p e { len := V.matchLen p c e, idx := c } where
  stop := by
    have : V.matchLen p c e ≤ e - p := matchCount_le _ _ _ _
    show p + V.matchLen p c e ≤ e
    omega
  low := hlow
  below := hc
  equal := fun _ hk => byte_eq_of_lt_matchCount hk

/-- Comparing a candidate in the history before `p` keeps what is found real. -/
theorem View.Found.improve {V : View} {p e n c : Nat} {b : Best} (h : V.Found p e n b) (hp : p ≤ e) (hlow : V.histLow ≤ c)
    (hc : c < p) : V.Found p e n (b.improve (V.matchLen p c e) c) := by
  unfold Best.improve
  split
  · exact fun _ => View.realMatch_matchLen hp hlow hc
  · exact h

/-- Every candidate `lo ≤ c < hi`, read at `c + delta`, lies in the history before `p`. -/
def View.Candidates (V : View) (p lo hi delta : Nat) : Prop := V.histLow ≤ lo + delta ∧ hi + delta ≤ p

theorem View.Found.improve_candidate {V : View} {p e n lo hi delta c : Nat} {b : Best} (h : V.Found p e n b) (hp : p ≤ e)
    (hw : V.Candidates p lo hi delta) (hc : lo ≤ c ∧ c < hi) :
    V.Found p e n (b.improve (V.matchLen p (c + delta) e) (c + delta)) := by
  obtain ⟨hlow, hhigh⟩ := hw
  exact h.improve hp (by omega) (by omega)

/-- The local candidates, and those of a referenced dictionary, lie in the history before `p`. -/
structure View.Placed (V : View) (p : Nat) : Prop where
  near : V.Candidates p V.low p 0
  dict : V.mode = .dms → V.Candidates p V.dms.w.lowLimit.toNat V.dms.endIdx.toNat V.dmsDelta

/-- Candidates of a state whose window and bank are in order (R115, R145, R146). -/
theorem State.view_placed {s : State} (hw : s.WindowOk) (hb : s.BankOk) {a : DWord} (ho : s.posOk a = true) :
    s.view.Placed (s.idx a.toNat) := by
  obtain ⟨_, hlow, _⟩ := hw
  simp only [State.posOk, Bool.and_eq_true] at ho
  have hpre : s.w.dictLimit.toNat ≤ s.idx a.toNat := (of_decide_eq_true ho.2).1
  have hdms (hm : s.histMode = .dms) : s.dms.w.lowLimit.toNat ≤ s.dms.endIdx.toNat ∧
      s.dms.endIdx.toNat ≤ s.w.dictLimit.toNat ∧ s.w.dictLimit.toNat ≤ s.w.lowLimit.toNat := by
    unfold State.histMode at hm
    split at hm
    · cases hm
    · next hext =>
      split at hm
      · next ha =>
        obtain ⟨_, h1, h2⟩ := hb ha
        exact ⟨h1, h2, Nat.le_of_not_lt hext⟩
      · cases hm
  have hdelta : s.dmsDelta = s.w.dictLimit.toNat - s.dms.endIdx.toNat := rfl
  constructor
  · refine ⟨?_, le_rfl⟩
    show s.histLow ≤ s.w.lowLimit.toNat
    unfold State.histLow
    split
    · next hm =>
      obtain ⟨h1, h2, h3⟩ := hdms hm
      omega
    · exact le_rfl
  · intro hm
    obtain ⟨h1, h2, _⟩ := hdms hm
    have hhist : s.histLow = s.dms.w.lowLimit.toNat + s.dmsDelta := by
      rw [State.histLow, show s.histMode = .dms from hm]
    exact ⟨hhist.le, show s.dms.endIdx.toNat + s.dmsDelta ≤ _ by omega⟩

/-! ### The hash-chain search (R121) -/

theorem hcWalk_found {V : View} {p e n lo hi delta last : Nat} {next : Nat → Nat} (hp : p ≤ e)
    (hw : V.Candidates p lo hi delta) : ∀ (k c : Nat) (b : Best), V.Found p e n b →
      V.Found p e n (hcWalk V p e lo hi delta last next k c b).2
  | 0, _, _, h => h
  | k + 1, c, b, h => by
    unfold hcWalk
    split
    · next hc =>
      have hb : V.Found p e n (if V.key (c + delta) 4 = V.key p 4
          then b.improve (V.matchLen p (c + delta) e) (c + delta) else b) := by
        split
        · exact h.improve_candidate hp hw hc
        · exact h
      dsimp only
      generalize (if V.key (c + delta) 4 = V.key p 4 then _ else b) = b' at hb ⊢
      split
      · exact hb
      · exact hcWalk_found hp hw k _ _ hb
    · exact h

theorem hcDmsWalk_found {V : View} {p e n : Nat} (hp : p ≤ e) (hV : V.Placed p) {r : Nat × Best} (h : V.Found p e n r.2) :
    V.Found p e n (hcDmsWalk V p e r) := by
  unfold hcDmsWalk
  split
  · next hc => exact hcWalk_found hp (hV.dict hc.1) _ _ _ h
  · exact h

/-- What a search answers, with at least `n` bytes: a real match, or none. -/
def View.Reports (V : View) (p e n : Nat) (b : Best) : Prop := b = .none ∨ (n ≤ b.len ∧ V.RealMatch p e b)

theorem hcSearch_reports {V : View} {m : MatchState} {p e : Nat} (hp : p ≤ e) (hV : V.Placed p) :
    V.Reports p e 4 (hcSearch V m p e).2 := by
  have hstart : V.Found p e 3 { len := 3, idx := 0 } := fun h => absurd h (lt_irrefl 3)
  have hfound := hcDmsWalk_found hp hV (hcWalk_found hp hV.near (last := walkFloor p (2 ^ V.p.chainLog.toNat))
    (next := fun c => (hcInsFind V m p).1.chainTable.get (c % 2 ^ V.p.chainLog.toNat)) (2 ^ V.p.searchLog.toNat)
    (hcInsFind V m p).2 _ hstart)
  rw [hcSearch]
  dsimp only
  split
  · exact .inl rfl
  · next hlen => exact .inr ⟨Nat.lt_of_not_le hlen, hfound (Nat.lt_of_not_le hlen)⟩

/-- What a search leaves in the two result registers. -/
theorem View.Reports.registers {s : State} {p e n : Nat} {b : Best} (h : s.view.Reports p e n b) (hp : p < 2 ^ 32)
    (he : e < 2 ^ 32) (t : State) (h0 : t.res0 = BitVec.ofNat 64 b.len) (h1 : t.res1 = BitVec.ofNat 64 b.idx) :
    (t.res0 = 0 ∧ t.res1 = 0) ∨
      (n ≤ t.res0.toNat ∧ p + t.res0.toNat ≤ e ∧ s.histLow ≤ t.res1.toNat ∧ t.res1.toNat < p ∧
        ∀ k, k < t.res0.toNat → s.histByte (p + k) = s.histByte (t.res1.toNat + k)) := by
  rcases h with rfl | ⟨hlen, hstop, hlow, hbelow, heq⟩
  · exact .inl ⟨h0, h1⟩
  · have hl : t.res0.toNat = b.len := h0 ▸ toNat_ofNat_lt (n := 32) (by omega) (by norm_num)
    have hi : t.res1.toNat = b.idx := h1 ▸ toNat_ofNat_lt (n := 32) (by omega) (by norm_num)
    rw [hl, hi]
    exact .inr ⟨hlen, hstop, hlow, hbelow, heq⟩

/-- Settles O35: the tables are those of HC_INSFIND by the definition of the search, and what it reports is
`hcSearch_reports`. -/
theorem hashChainSearchReportsRealMatches : Obligations.HashChainSearchReportsRealMatches := by
  intro s hr _ _ hw hb hl ho he hp p
  have hins := hcInsert_mainInsert s.view
  have hle := s.posOk_le he
  have hp32 : p < 2 ^ 32 := s.pos_lt hw (by omega)
  obtain ⟨t, ht, rfl⟩ := exec_worked_span .hcSearch hr ⟨rfl, isIO_eq _, rfl, nofun⟩ (decide_eq_true hl) ho he hp
  obtain ⟨u, hu, rfl⟩ := exec_worked_pos .hcInsfind hr ⟨rfl, isIO_eq _, rfl, nofun⟩ (decide_eq_true hl) ho (hp.trans hle)
  have hreal := hcSearch_reports (m := s.entryMs) (e := s.idx s.op1.toNat) (by omega) (s.view_placed hw hb ho)
  refine ⟨_, ht, ?_, ?_, ⟨_, hu, rfl, rfl⟩, hreal.registers hp32 (s.pos_lt hw hle) _ rfl rfl⟩
  · exact congrArg (fun m => (State.setRes1 (State.setRes0 { s with ms := m } _) _).withCode 0)
      (s.entryMs_main.trans (hins.catchUpTo_main _ p))
  · exact (hins.catchUpTo_next _ hp32).trans (by rw [s.entryMs_next])

/-! ### The tree search (R123, R125) -/

theorem btWalk_found {V : View} {p e n low : Nat} (hp : p ≤ e) (hw : V.Candidates p V.low p 0) :
    ∀ (k : Nat) (t : Table) (c smaller larger : Nat) (b : Best), V.Found p e n b →
      V.Found p e n (btWalk V p e low k t c smaller larger b).2.1
  | 0, _, _, _, _, _, h => h
  | k + 1, t, c, smaller, larger, b, h => by
    unfold btWalk
    dsimp only
    split
    · next hc =>
      have hb : V.Found p e n (b.improve (V.matchLen p c e) c) := h.improve_candidate hp hw hc
      split
      · exact hb
      · split <;> split
        · exact hb
        · exact btWalk_found hp hw k _ _ _ _ _ hb
        · exact hb
        · exact btWalk_found hp hw k _ _ _ _ _ hb
    · exact h

theorem btDmsWalk_found {V : View} {p e n low stop : Nat} (hp : p ≤ e)
    (hw : V.Candidates p V.dms.w.lowLimit.toNat stop V.dmsDelta) : ∀ (k c : Nat) (b : Best), V.Found p e n b →
      V.Found p e n (btDmsWalk V p e low stop k c b)
  | 0, _, _, h => h
  | k + 1, c, b, h => by
    unfold btDmsWalk
    dsimp only
    split
    · next hc =>
      have hb := h.improve_candidate hp hw hc
      split
      · exact hb
      · split
        · exact btDmsWalk_found hp hw k _ _ hb
        · exact btDmsWalk_found hp hw k _ _ hb
    · exact h

theorem btDmsPart_found {V : View} {p e n minLen : Nat} (hp : p ≤ e) (hV : V.Placed p) {r : Best × Nat}
    (h : V.Found p e n r.1) : V.Found p e n (btDmsPart V p e minLen r) := by
  unfold btDmsPart
  split
  · next hc => exact btDmsWalk_found hp (hV.dict hc.1) _ _ _ h
  · exact h

theorem btShortPart_found {V : View} {m : MatchState} {p e n : Nat} (hp : p ≤ e) (hV : V.Placed p) {b : Best}
    (h : V.Found p e n b) : V.Found p e n (btShortPart V m p e b).2 := by
  unfold btShortPart
  dsimp only
  split
  · split
    · next hc =>
      obtain ⟨hlow, hbelow, _⟩ := hc
      exact fun _ => View.realMatch_matchLen hp (hV.near.1.trans hlow) hbelow
    · exact h
  · exact h

theorem btInsert_found {V : View} {m : MatchState} {p e : Nat} (hp : p ≤ e) (hV : V.Placed p) :
    V.Found p e 0 (btInsert V m p e).2.1 :=
  btWalk_found hp hV.near _ _ _ _ _ _ (fun h => absurd h (lt_irrefl 0))

theorem btSearch_of_passed {V : View} {m : MatchState} {p e : Nat} (h : p < m.nextToUpdate.toNat) :
    btSearch V m p e = (m, .none) := if_pos h

theorem btSearch_reports {V : View} {m : MatchState} {p e : Nat} (hp : p ≤ e) (hV : V.Placed p) :
    V.Reports p e (if V.p.minMatch.toNat = 3 then 3 else 4) (btSearch V m p e).2 := by
  have hmin : 0 < (if V.p.minMatch.toNat = 3 then 3 else 4) := by split <;> decide
  by_cases h : p < m.nextToUpdate.toNat
  · exact .inl (congrArg Prod.snd (btSearch_of_passed h))
  · rw [btSearch, if_neg h]
    generalize (if V.p.minMatch.toNat = 3 then 3 else 4) = minLen at hmin ⊢
    dsimp only
    split
    · exact .inl rfl
    · next hlen =>
      have hle := Nat.le_of_not_lt hlen
      exact .inr ⟨hle, btShortPart_found hp hV (btDmsPart_found hp hV (btInsert_found hp hV)) (hmin.trans_le hle)⟩

theorem btShortPart_next (V : View) (m : MatchState) (p e : Nat) (b : Best) :
    (btShortPart V m p e b).1.nextToUpdate = m.nextToUpdate := by
  unfold btShortPart
  dsimp only
  split
  · split <;> exact h3InsFind_next V m p
  · rfl

theorem btSearch_next {V : View} {m : MatchState} {p e : Nat} (hp : p + 1 < 2 ^ 32) :
    (btSearch V m p e).1.nextToUpdate.toNat = max m.nextToUpdate.toNat (p + 1) := by
  by_cases h : p < m.nextToUpdate.toNat
  · rw [btSearch_of_passed h]
    show m.nextToUpdate.toNat = _
    omega
  · rw [btSearch, if_neg h]
    refine (congrArg BitVec.toNat (btShortPart_next ..)).trans ((word32_toNat hp).trans ?_)
    omega

/-- A kept Match State differs in its tables and its two cursors. -/
theorem TablesKept.eq_withTables {m n : MatchState} (h : TablesKept m n) : n = { m with
    hashTable := n.hashTable, chainTable := n.chainTable, hashTable3 := n.hashTable3
    nextToUpdate := n.nextToUpdate, nextToUpdate3 := n.nextToUpdate3 } := by
  rw [← h.dictEnd, ← h.attached]

/-- Settles O37: what the search reports is `btSearch_reports`; a position below `nextToUpdate` answers none. -/
theorem treeSearchReportsRealMatches : Obligations.TreeSearchReportsRealMatches := by
  intro s hr _ _ hw hb hl ho he hp p
  have hle := s.posOk_le he
  have hp32 : p + 1 < 2 ^ 32 := s.pos_lt hw (by omega)
  obtain ⟨t, ht, rfl⟩ := exec_worked_span .btSearch hr ⟨rfl, isIO_eq _, rfl, nofun⟩ (decide_eq_true hl) ho he hp
  have hkept := (s.entryMs_kept).trans (btSearch_kept s.view s.entryMs p (s.idx s.op1.toNat))
  have hreal := btSearch_reports (m := s.entryMs) (e := s.idx s.op1.toNat) (by omega) (s.view_placed hw hb ho)
  refine ⟨_, ht, ?_, ?_, fun hpassed => ?_, hreal.registers (by omega) (s.pos_lt hw hle) _ rfl rfl⟩
  · exact congrArg (fun m => (State.setRes1 (State.setRes0 { s with ms := m } _) _).withCode 0) hkept.eq_withTables
  · exact (btSearch_next hp32).trans (by rw [s.entryMs_next])
  · rw [← s.entryMs_next] at hpassed
    have hnone := congrArg Prod.snd (btSearch_of_passed (V := s.view) (e := s.idx s.op1.toNat) hpassed)
    exact ⟨congrArg (fun b : Best => BitVec.ofNat 64 b.len) hnone, congrArg (fun b : Best => BitVec.ofNat 64 b.idx) hnone⟩

end Sys2Proof.Machine
end

/-! # Proofs of the block matcher family (42_block_matcher.md)

A matcher run is a chain of stored sequences, each a literal run and a copy whose bytes were compared (`blkCore_runs`, R143);
that a run never meets a second long length (`Log.Fits`) and that its store replays to the block (`Log.Replays`) are inductions
over this chain. -/

/-! ## Compared bytes -/

section
namespace Sys2Proof.Machine

open Sys2Proof

/-! ### MatchLen (R142) -/

theorem byte_ne_at_matchCount {byte : Nat → Byte} : ∀ {fuel a b : Nat}, matchCount byte fuel a b < fuel →
    byte (a + matchCount byte fuel a b) ≠ byte (b + matchCount byte fuel a b)
  | fuel + 1, a, b, h => by
    rw [matchCount] at h ⊢
    split at h
    · next heq =>
      have := byte_ne_at_matchCount (byte := byte) (fuel := fuel) (a := a + 1) (b := b + 1) (by omega)
      rwa [if_pos heq, ← Nat.add_assoc, ← Nat.add_assoc, Nat.add_right_comm, Nat.add_right_comm b]
    · next hne => rwa [if_neg hne]

theorem View.matchLen_stop (V : View) {ip e : Nat} (m : Nat) (h : ip ≤ e) : ip + V.matchLen ip m e ≤ e := by
  have : V.matchLen ip m e ≤ e - ip := matchCount_le _ _ _ _
  omega

/-- Settles O31: the count's fuel is the room up to the limit, so it ends there or at the first difference. -/
theorem matchLenIsMaximal : Obligations.MatchLenIsMaximal := by
  intro V ip m e h
  refine ⟨V.matchLen_stop m h, fun k hk => byte_eq_of_lt_matchCount hk, fun hlt => byte_ne_at_matchCount ?_⟩
  show V.matchLen ip m e < e - ip
  omega

/-! ### Stretches of equal bytes (R143) -/

/-- The `len` bytes at `p` are those at `v`. -/
def View.Agree (V : View) (p v len : Nat) : Prop := ∀ k, k < len → V.byte (p + k) = V.byte (v + k)

theorem View.Agree.append {V : View} {p v a b : Nat} (h : V.Agree p v a) (k : V.Agree (p + a) (v + a) b) :
    V.Agree p v (a + b) := by
  intro i hi
  by_cases ha : i < a
  · exact h i ha
  · have := k (i - a) (by omega)
    rwa [show p + a + (i - a) = p + i by omega, show v + a + (i - a) = v + i by omega] at this

theorem View.agree_matchLen (V : View) (p v e : Nat) : V.Agree p v (V.matchLen p v e) :=
  fun _ hk => byte_eq_of_lt_matchCount hk

theorem byte_eq_of_keyOf_eq {byte : Nat → Byte} : ∀ {n a b k : Nat}, keyOf byte a n = keyOf byte b n → k < n →
    byte (a + k) = byte (b + k)
  | n + 1, a, b, k, h, hk => by
    have ha := (byte a).isLt
    have hb := (byte b).isLt
    simp only [keyOf] at h
    cases k with
    | zero => exact BitVec.eq_of_toNat_eq (show (byte a).toNat = (byte b).toNat by omega)
    | succ k =>
      have := byte_eq_of_keyOf_eq (byte := byte) (n := n) (a := a + 1) (b := b + 1) (k := k) (by omega) (by omega)
      rwa [Nat.add_right_comm, Nat.add_right_comm b] at this

/-- Equal keys and what MatchLen counts behind them. -/
theorem View.agree_of_key {V : View} {p v n : Nat} (e : Nat) (h : V.key v n = V.key p n) :
    V.Agree p v (V.matchLen (p + n) (v + n) e + n) := by
  rw [Nat.add_comm]
  exact View.Agree.append (fun k hk => byte_eq_of_keyOf_eq h.symm hk) (V.agree_matchLen _ _ e)

/-- What `CatchUp` adds (R149): no more than the literals there are, and equal bytes. -/
theorem View.catchUp_agree (V : View) {anchor : Nat} : ∀ (fuel : Nat) {ip v : Nat}, anchor ≤ ip →
    V.catchUp anchor fuel ip v ≤ ip - anchor ∧ V.catchUp anchor fuel ip v ≤ v ∧
      V.Agree (ip - V.catchUp anchor fuel ip v) (v - V.catchUp anchor fuel ip v) (V.catchUp anchor fuel ip v)
  | 0, ip, v, _ => ⟨Nat.zero_le _, Nat.zero_le _, nofun⟩
  | fuel + 1, ip, v, h => by
    rw [View.catchUp]
    split
    · next hc =>
      obtain ⟨hip, hv, heq⟩ := hc
      obtain ⟨h1, h2, h3⟩ := V.catchUp_agree (anchor := anchor) fuel (ip := ip - 1) (v := v - 1) (by omega)
      generalize V.catchUp anchor fuel (ip - 1) (v - 1) = b at h1 h2 h3
      refine ⟨by omega, by omega, View.Agree.append (b := 1) ?_ fun k hk => ?_⟩
      · rwa [Nat.add_comm b, ← Nat.sub_sub, ← Nat.sub_sub]
      · rwa [show ip - (b + 1) + b + k = ip - 1 by omega, show v - (b + 1) + b + k = v - 1 by omega]
    · exact ⟨Nat.zero_le _, Nat.zero_le _, nofun⟩

/-- The `len` bytes at `p` can be copied from `off` back. -/
structure View.Copies (V : View) (p off len : Nat) : Prop where
  pos : 0 < off
  reach : off ≤ p
  equal : V.Agree p (p - off) len

theorem View.Copies.byte_eq {V : View} {p off len k : Nat} (h : V.Copies p off len) (hk : k < len) :
    V.byte (p + k) = V.byte (p + k - off) := by rw [h.equal k hk, Nat.sub_add_comm h.reach]

theorem View.Copies.tail {V : View} {p off len : Nat} (h : V.Copies p off (len + 1)) : V.Copies (p + 1) off len where
  pos := h.pos
  reach := h.reach.trans (Nat.le_succ p)
  equal := fun k hk => by
    have := h.byte_eq (Nat.succ_lt_succ hk)
    rwa [show p + (k + 1) - off = p + 1 - off + k by have := h.reach; omega, show p + (k + 1) = p + 1 + k by omega] at this

/-- A repeat match (R148): its offset passed `RepOk`, its bytes were compared. -/
theorem View.copies_of_repHit {V : View} {off p : Nat} (e : Nat) (h : V.repHit off p = true) :
    V.Copies p off (V.repLen off p e) := by
  simp only [View.repHit, View.repOk, Bool.and_eq_true, decide_eq_true_eq] at h
  obtain ⟨⟨hpos, hreach⟩, hkey⟩ := h
  refine ⟨hpos, by omega, ?_⟩
  have := V.agree_of_key e hkey
  rwa [show p - off + 4 = p + 4 - off by omega] at this

theorem View.repLen_stop (V : View) {p e : Nat} (off : Nat) (h : p + 4 ≤ e) : p + V.repLen off p e ≤ e := by
  have := V.matchLen_stop (p + 4 - off) h
  rw [View.repLen]
  omega

end Sys2Proof.Machine
end

/-! ## What a layout finds -/

section
namespace Sys2Proof.Machine

open Sys2Proof

/-- A match a layout may report at `ip` (R143): at least 3 compared bytes inside the block, from a lower index when the
window and the bank are in order. -/
structure View.Finds (V : View) (ip iend : Nat) (f : Machine.Found) : Prop where
  near : ip ≤ f.start
  long : 3 ≤ f.len
  stop : f.start + f.len ≤ iend
  equal : V.Agree f.start f.from_ f.len
  below : V.Placed f.start → f.from_ < f.start

theorem View.Placed.mono {V : View} {p q : Nat} (h : V.Placed p) (hpq : p ≤ q) : V.Placed q where
  near := ⟨h.near.1, le_rfl⟩
  dict := fun hm => ⟨(h.dict hm).1, (h.dict hm).2.trans hpq⟩

/-! ### Single-hash and dual-hash (R148, R150) -/

theorem View.lt_of_dmsCand {V : View} {t : Table} {slot p v : Nat} (h : V.dmsCand t slot = some v) (hV : V.Placed p) :
    v < p := by
  unfold View.dmsCand at h
  split at h
  · next hc =>
    obtain ⟨hm, _, hlt⟩ := hc
    have := (hV.dict hm).2
    have := Option.some.inj h
    omega
  · cases h

/-- A local candidate, else one of the dictionary. -/
theorem View.lt_of_cand {V : View} {t : Table} {slot p c v : Nat}
    (h : (if V.localOk c p then some c else V.dmsCand t slot) = some v) (hV : V.Placed p) : v < p := by
  split at h
  · next hc =>
    cases h
    exact (of_decide_eq_true hc).2
  · exact V.lt_of_dmsCand h hV

/-- A verified candidate of `p` is a match there. -/
theorem View.finds_verified {V : View} {ip iend n p v : Nat} {c : Option Nat} (h : V.verify n p c = some v)
    (hn : 3 ≤ n) (hip : ip ≤ p) (hp : p + n ≤ iend) (hc : c = some v → V.Placed p → v < p) :
    V.Finds ip iend (V.found iend n p v) := by
  obtain ⟨hsome, hkey⟩ := Option.filter_eq_some_iff.mp h
  have hstop := V.matchLen_stop (v + n) hp
  have hlen : (V.found iend n p v).len = V.matchLen (p + n) (v + n) iend + n := rfl
  exact ⟨hip, by omega, show p + (V.found iend n p v).len ≤ iend by omega,
    V.agree_of_key iend (of_decide_eq_true hkey), hc hsome⟩

theorem dualFind_finds {V : View} {iend ip : Nat} {m : MatchState} {c : Nat × Nat} {f : Found} (hip : ip + 9 ≤ iend)
    (h : (dualFind V iend m ip c).2 = some f) : V.Finds ip iend f := by
  unfold dualFind at h
  split at h
  · next hlong =>
    cases h
    exact View.finds_verified hlong (by norm_num) le_rfl (by omega) View.lt_of_cand
  · split at h
    · cases h
    · next hshort =>
      dsimp only at h
      split at h
      · next hahead =>
        cases h
        exact View.finds_verified hahead (by norm_num) (Nat.le_succ ip) (by omega) View.lt_of_cand
      · cases h
        exact View.finds_verified hshort (by norm_num) le_rfl (by omega) View.lt_of_cand

/-! ### Searches, with the window and the bank in any order -/

/-- The best match of a search that started at length `n`: if it is longer, its length is what MatchLen counts. -/
def View.Measured (V : View) (p e n : Nat) (b : Best) : Prop := n < b.len → b.len = V.matchLen p b.idx e

theorem View.Measured.improve {V : View} {p e n : Nat} {b : Best} (h : V.Measured p e n b) (c : Nat) :
    V.Measured p e n (b.improve (V.matchLen p c e) c) := by
  unfold Best.improve
  split
  · exact fun _ => rfl
  · exact h

theorem hcWalk_measured {V : View} {p e n lo hi delta last : Nat} {next : Nat → Nat} : ∀ (k c : Nat) (b : Best),
    V.Measured p e n b → V.Measured p e n (hcWalk V p e lo hi delta last next k c b).2
  | 0, _, _, h => h
  | k + 1, c, b, h => by
    unfold hcWalk
    split
    · have hb : V.Measured p e n (if V.key (c + delta) 4 = V.key p 4
          then b.improve (V.matchLen p (c + delta) e) (c + delta) else b) := by
        split
        · exact h.improve _
        · exact h
      dsimp only
      generalize (if V.key (c + delta) 4 = V.key p 4 then _ else b) = b' at hb ⊢
      split
      · exact hb
      · exact hcWalk_measured k _ _ hb
    · exact h

theorem hcDmsWalk_measured {V : View} {p e n : Nat} {r : Nat × Best} (h : V.Measured p e n r.2) :
    V.Measured p e n (hcDmsWalk V p e r) := by
  unfold hcDmsWalk
  split
  · exact hcWalk_measured _ _ _ h
  · exact h

/-- What a search answers: none, or a match of at least 3 bytes as long as MatchLen counts. -/
def View.Counted (V : View) (p e : Nat) (b : Best) : Prop := b = .none ∨ (3 ≤ b.len ∧ b.len = V.matchLen p b.idx e)

theorem hcSearch_counted (V : View) (m : MatchState) (p e : Nat) : V.Counted p e (hcSearch V m p e).2 := by
  have hwalk := hcWalk_measured (V := V) (p := p) (e := e) (lo := V.low) (hi := p) (delta := 0)
    (last := walkFloor p (2 ^ V.p.chainLog.toNat))
    (next := fun c => (hcInsFind V m p).1.chainTable.get (c % 2 ^ V.p.chainLog.toNat)) (2 ^ V.p.searchLog.toNat)
    (hcInsFind V m p).2 { len := 3, idx := 0 } (fun h => absurd h (lt_irrefl 3))
  rw [hcSearch]
  dsimp only
  split
  · exact .inl rfl
  · next hlen =>
    have h3 := Nat.lt_of_not_le hlen
    exact .inr ⟨h3.le, hcDmsWalk_measured hwalk h3⟩

theorem btWalk_measured {V : View} {p e n low : Nat} : ∀ (k : Nat) (t : Table) (c smaller larger : Nat) (b : Best),
    V.Measured p e n b → V.Measured p e n (btWalk V p e low k t c smaller larger b).2.1
  | 0, _, _, _, _, _, h => h
  | k + 1, t, c, smaller, larger, b, h => by
    unfold btWalk
    dsimp only
    split
    · have hb := h.improve c
      split
      · exact hb
      · split <;> split
        · exact hb
        · exact btWalk_measured k _ _ _ _ _ hb
        · exact hb
        · exact btWalk_measured k _ _ _ _ _ hb
    · exact h

theorem btDmsWalk_measured {V : View} {p e n low stop : Nat} : ∀ (k c : Nat) (b : Best), V.Measured p e n b →
    V.Measured p e n (btDmsWalk V p e low stop k c b)
  | 0, _, _, h => h
  | k + 1, c, b, h => by
    unfold btDmsWalk
    dsimp only
    split
    · have hb := h.improve (c + V.dmsDelta)
      split
      · exact hb
      · split <;> exact btDmsWalk_measured k _ _ hb
    · exact h

theorem btDmsPart_measured {V : View} {p e n minLen : Nat} {r : Best × Nat} (h : V.Measured p e n r.1) :
    V.Measured p e n (btDmsPart V p e minLen r) := by
  unfold btDmsPart
  split
  · exact btDmsWalk_measured _ _ _ h
  · exact h

theorem btShortPart_measured {V : View} {p e n : Nat} (m : MatchState) {b : Best} (h : V.Measured p e n b) :
    V.Measured p e n (btShortPart V m p e b).2 := by
  unfold btShortPart
  dsimp only
  split
  · split
    · exact fun _ => rfl
    · exact h
  · exact h

theorem btSearch_counted (V : View) (m : MatchState) (p e : Nat) : V.Counted p e (btSearch V m p e).2 := by
  by_cases h : p < m.nextToUpdate.toNat
  · exact .inl (congrArg Prod.snd (btSearch_of_passed h))
  · have hmin : 3 ≤ (if V.p.minMatch.toNat = 3 then 3 else 4) := by split <;> decide
    have htree : V.Measured p e 0 (btInsert V (btUpdate V m p e) p e).2.1 :=
      btWalk_measured _ _ _ _ _ _ (fun h => absurd h (lt_irrefl 0))
    rw [btSearch, if_neg h]
    generalize (if V.p.minMatch.toNat = 3 then 3 else 4) = minLen at hmin ⊢
    dsimp only
    split
    · exact .inl rfl
    · next hlen =>
      have h3 := hmin.trans (Nat.le_of_not_lt hlen)
      exact .inr ⟨h3, btShortPart_measured _ (btDmsPart_measured htree) (by omega)⟩

/-- A match a search reports is one at the searched position (R152). -/
theorem greedyFinder_finds {V : View} {search : MatchState → Nat → MatchState × Best} {m : MatchState} {ip iend n : Nat}
    {c : Nat × Nat} {f : Found} (hip : ip ≤ iend) (hcount : V.Counted ip iend (search m ip).2)
    (hreal : V.Placed ip → V.Reports ip iend n (search m ip).2)
    (h : ((greedyFinder search).find m ip c).2 = some f) : V.Finds ip iend f := by
  simp only [greedyFinder] at h
  generalize (search m ip).2 = b at *
  split at h
  · cases h
  · next hlen =>
    cases h
    rcases hcount with rfl | ⟨h3, heq⟩
    · exact absurd rfl hlen
    have hstop := V.matchLen_stop b.idx hip
    refine ⟨le_rfl, h3, show ip + b.len ≤ iend by omega, heq ▸ V.agree_matchLen ip b.idx iend, fun hV => ?_⟩
    rcases hreal hV with rfl | ⟨_, hmatch⟩
    · exact absurd rfl hlen
    · exact hmatch.below

/-- Whatever a finder reports at a position from which one step leaves room for a hash read is a match (R143). -/
def Finder.Sound (V : View) (iend : Nat) (F : Finder) : Prop := ∀ (m : MatchState) (ip : Nat) (c : Nat × Nat) (f : Found),
  ip + 9 ≤ iend → (F.find m ip c).2 = some f → V.Finds ip iend f

theorem finderOf_sound (V : View) (iend : Nat) : (finderOf V iend).Sound V iend := by
  intro m ip c f hip h
  have hle : ip ≤ iend := by omega
  unfold finderOf at h
  split at h
  · obtain ⟨v, hv, rfl⟩ := Option.map_eq_some_iff.mp h
    exact View.finds_verified hv (by norm_num) le_rfl (by omega) View.lt_of_cand
  · exact dualFind_finds hip h
  · exact greedyFinder_finds hle (hcSearch_counted V m ip iend) (hcSearch_reports hle) h
  · exact greedyFinder_finds hle (btSearch_counted V m ip iend) (btSearch_reports hle) h

end Sys2Proof.Machine
end

/-! ## A matcher run as a chain of stored sequences -/

section
namespace Sys2Proof.Machine

open Sys2Proof

/-! ### StoreSeq (44_sequence_store.md R188) -/

/-- The record of a long length after a triple of number `n` is stored. -/
def longAfter (long : Option Nat) (n len : Nat) : Option Nat := if isLong len then some n else long

theorem isLong_iff {n : Nat} : isLong n = true ↔ 65535 < n := decide_eq_true_iff

theorem longAfter_isSome {long : Option Nat} {n len : Nat} (h : (longAfter long n len).isSome = true) :
    65535 < len ∨ long.isSome = true := by
  unfold longAfter at h
  split at h
  · next hlong => exact .inl (isLong_iff.mp hlong)
  · exact .inr h

/-- The store after a sequence that meets no second long length. -/
def SeqStore.push (byte : Nat → Byte) (q : SeqStore) (ll i oc ml : Nat) : SeqStore :=
  { q with
    lit := q.lit ++ bytesFrom byte i ll
    longLit := longAfter q.longLit q.seqs.length ll
    longMatch := longAfter q.longMatch q.seqs.length ml
    seqs := q.seqs ++ [mkSeq ll oc ml]
    codesValid := false }

/-- The sequence would be the second with a long length in one of its fields. -/
def SeqStore.Clash (q : SeqStore) (ll ml : Nat) : Prop :=
  (isLong ll = true ∧ q.longLit.isSome = true) ∨ (isLong ml = true ∧ q.longMatch.isSome = true)

theorem SeqStore.store_cases (byte : Nat → Byte) (q : SeqStore) (ll i oc ml : Nat) :
    (q.Clash ll ml ∧ (q.store byte ll i oc ml).2 = true) ∨
      (¬ q.Clash ll ml ∧ q.store byte ll i oc ml = (q.push byte ll i oc ml, false)) := by
  by_cases h : q.Clash ll ml
  · refine .inl ⟨h, ?_⟩
    unfold SeqStore.store
    dsimp only
    split
    · rfl
    · next hlit =>
      have hmatch := h.resolve_left (by simpa using hlit)
      cases isLong ll <;> simp [hmatch]
  · obtain ⟨hlit, hmatch⟩ := not_or.mp h
    have hlit' : ¬ (isLong ll && q.longLit.isSome) = true := by simpa using hlit
    have hmatch' : (isLong ml && q.longMatch.isSome) = false := by simpa using hmatch
    refine .inr ⟨h, ?_⟩
    unfold SeqStore.store SeqStore.push longAfter
    simp only [hlit', apply_ite SeqStore.longMatch, ite_self, hmatch', Bool.false_eq_true, if_false]
    split <;> split <;> rfl

/-! ### The chain -/

/-- What a matcher run builds up: the store, the start of the pending literals, the two cached offsets. -/
structure Log where
  seq : SeqStore
  failed : Bool
  anchor : Nat
  o1 : Nat
  o2 : Nat

def Log.of (w : Work) (c : Cursor) : Log :=
  { seq := w.seq, failed := w.failed, anchor := c.anchor, o1 := c.o1, o2 := c.o2 }

/-- The log after a sequence of `ll` literals and a copy of `len` bytes is stored. -/
def Log.store (byte : Nat → Byte) (l : Log) (ll oc len o1 o2 : Nat) : Log :=
  { seq := (l.seq.store byte ll l.anchor oc (len - 3)).1, failed := (l.seq.store byte ll l.anchor oc (len - 3)).2,
    anchor := l.anchor + ll + len, o1 := o1, o2 := o2 }

/-- The three kinds of sequences (R147, R148) with the offset pair `(o1, o2)` before: the number of literals, the stored offset
code, the offset copied from, which comes to the front of the pair, and the second of the pair after. -/
inductive OffsetUse (o1 o2 : Nat) : Nat → Nat → Nat → Nat → Prop where
  | repeated {ll : Nat} (h : 0 < ll) : OffsetUse o1 o2 ll 1 o1 o2
  | adjacent : OffsetUse o1 o2 0 1 o2 o1
  | fresh {ll off : Nat} : OffsetUse o1 o2 ll (off + 3) off o1

/-- One sequence of a run over `[istart, iend)` (R143). -/
inductive View.Appends (V : View) (istart iend : Nat) (l : Log) : Log → Prop where
  | intro {ll oc off len o2 : Nat} (running : l.failed = false) (use : OffsetUse l.o1 l.o2 ll oc off o2) (long : 3 ≤ len)
    (stop : l.anchor + ll + len ≤ iend) (copies : V.Placed istart → V.Copies (l.anchor + ll) off len) :
    V.Appends istart iend l (l.store V.byte ll oc len off o2)

/-- Any number of sequences. -/
abbrev View.Runs (V : View) (istart iend : Nat) : Log → Log → Prop := Relation.ReflTransGen (V.Appends istart iend)

theorem View.Appends.running {V : View} {istart iend : Nat} {l l' : Log} : V.Appends istart iend l l' → l.failed = false
  | .intro h .. => h

theorem View.Runs.anchor_le {V : View} {istart iend : Nat} {l l' : Log} (h : V.Runs istart iend l l')
    (hl : l.anchor ≤ iend) : l'.anchor ≤ iend := by
  cases h with
  | refl => exact hl
  | tail _ hstep =>
    cases hstep with
    | intro _ _ _ stop _ => exact stop

/-- The cursors between two sequences. -/
structure Cursor.Within (istart : Nat) (c : Cursor) : Prop where
  start : istart ≤ c.anchor
  order : c.anchor ≤ c.ip

/-- From `(w, c)` the scan has come to `r`. -/
structure View.Scans (V : View) (istart iend : Nat) (w : Work) (c : Cursor) (r : Work × Cursor) : Prop where
  within : r.2.Within istart
  runs : V.Runs istart iend (.of w c) (.of r.1 r.2)

section
variable {V : View} {istart iend : Nat} {w : Work} {c : Cursor}

theorem View.Scans.refl (h : c.Within istart) : V.Scans istart iend w c (w, c) := ⟨h, .refl⟩

theorem View.Scans.trans {r r' : Work × Cursor} (h : V.Scans istart iend w c r) (k : V.Scans istart iend r.1 r.2 r') :
    V.Scans istart iend w c r' := ⟨k.within, h.runs.trans k.runs⟩

/-- A stored sequence that ends at `p`; the tables do not matter. -/
theorem View.Scans.store {ll oc off len o2 p : Nat} (hc : istart ≤ c.anchor) (hw : w.failed = false)
    (use : OffsetUse c.o1 c.o2 ll oc off o2) (long : 3 ≤ len) (hp : c.anchor + ll + len = p) (stop : p ≤ iend)
    (copies : V.Placed istart → V.Copies (c.anchor + ll) off len) (m : MatchState) :
    V.Scans istart iend w c
      (Work.store V { w with ms := m } ll c.anchor oc (len - 3), { ip := p, anchor := p, o1 := off, o2 := o2 }) := by
  subst hp
  exact ⟨⟨by show _ ≤ _ + _ + _; omega, le_rfl⟩, .single (.intro (l := .of w c) hw use long stop copies)⟩

theorem View.three_le_repLen (V : View) (off p e : Nat) : 3 ≤ V.repLen off p e := by
  rw [View.repLen]
  omega

/-! ### The scan (R148, R150, R152) -/

variable {F : Finder}

theorem adjacentRepeats_scans (h8 : 8 ≤ iend) : ∀ (k : Nat) (w : Work) (c : Cursor), c.Within istart → c.ip = c.anchor →
    V.Scans istart iend w c (adjacentRepeats V F iend k w c)
  | 0, _, _, hc, _ => .refl hc
  | k + 1, w, c, hc, hip => by
    rw [adjacentRepeats]
    split
    · next h =>
      obtain ⟨hw, hle, hhit⟩ := h
      have h4 : c.ip + 4 ≤ iend := by
        have : Config.hashRead = 8 := rfl
        omega
      have hstep := View.Scans.store (V := V) (w := w) (p := c.ip + V.repLen c.o2 c.ip iend) hc.start (by simpa using hw)
        .adjacent (V.three_le_repLen c.o2 c.ip iend) (by rw [hip, Nat.add_zero]) (V.repLen_stop c.o2 h4)
        (fun _ => by rw [Nat.add_zero, ← hip]; exact V.copies_of_repHit iend hhit) (F.insertRep w.ms c.ip)
      exact hstep.trans (adjacentRepeats_scans h8 k _ _ hstep.within rfl)
    · exact .refl hc

theorem afterMatch_scans (h8 : 8 ≤ iend) (cur0 : Nat) (hc : c.Within istart) (hip : c.ip = c.anchor) :
    V.Scans istart iend w c (afterMatch V F iend cur0 w c) := by
  unfold afterMatch
  split
  · have h := adjacentRepeats_scans (V := V) (F := F) h8 (iend - c.ip) { w with ms := F.reseed w.ms cur0 c.ip } c hc hip
    exact ⟨h.within, h.runs⟩
  · exact .refl hc

/-- A match a layout found, grown backward, can be copied (R149). -/
theorem View.Finds.copies {ip anchor : Nat} {f : Machine.Found} (h : V.Finds ip iend f) (hi : istart ≤ anchor)
    (ha : anchor ≤ ip) (hV : V.Placed istart) :
    V.Copies (f.start - V.catchUp anchor f.start f.start f.from_) (f.start - f.from_)
      (f.len + V.catchUp anchor f.start f.start f.from_) := by
  have hnear := h.near
  have hbelow := h.below (hV.mono (by omega))
  obtain ⟨h1, h2, h3⟩ := V.catchUp_agree (v := f.from_) f.start (show anchor ≤ f.start by omega)
  generalize V.catchUp anchor f.start f.start f.from_ = b at h1 h2 h3 ⊢
  refine ⟨by omega, by omega, ?_⟩
  rw [show f.start - b - (f.start - f.from_) = f.from_ - b by omega, Nat.add_comm]
  refine h3.append ?_
  rw [Nat.sub_add_cancel (by omega), Nat.sub_add_cancel h2]
  exact h.equal

theorem scanAt_scans (hF : F.Sound V iend)
    (hw : w.failed = false) (hip : c.ip + 9 ≤ iend) (hc : c.Within istart) :
    V.Scans istart iend w c (scanAt V F iend w c) := by
  obtain ⟨hstart, horder⟩ := hc
  have h8 : 8 ≤ iend := by omega
  unfold scanAt
  dsimp only
  split
  · next hhit =>
    have hll : c.anchor + (c.ip + 1 - c.anchor) = c.ip + 1 := by omega
    have hstep := View.Scans.store (V := V) (w := w) (p := c.ip + 1 + V.repLen c.o1 (c.ip + 1) iend) hstart hw
      (.repeated (show 0 < c.ip + 1 - c.anchor by omega)) (V.three_le_repLen c.o1 (c.ip + 1) iend) (by rw [hll])
      (V.repLen_stop c.o1 (by omega)) (fun _ => by rw [hll]; exact V.copies_of_repHit iend hhit) (F.probe w.ms c.ip).1
    exact hstep.trans (afterMatch_scans h8 c.ip hstep.within rfl)
  · split
    · exact ⟨⟨hstart, horder.trans ((Nat.le_add_right _ _).trans (Nat.le_add_right _ _))⟩, .refl⟩
    · next f hf =>
      have hfind := hF _ _ _ _ hip hf
      have hcopies := hfind.copies hstart horder
      obtain ⟨hnear, hlong, hstop, _, _⟩ := hfind
      have hback := (V.catchUp_agree (v := f.from_) f.start (show c.anchor ≤ f.start by omega)).1
      generalize V.catchUp c.anchor f.start f.start f.from_ = b at hcopies hback ⊢
      have hll : c.anchor + (f.start - b - c.anchor) = f.start - b := by omega
      have hstep := View.Scans.store (V := V) (iend := iend) (w := w) (p := f.start - b + (f.len + b)) hstart hw .fresh
        (show 3 ≤ f.len + b by omega) (by rw [hll]) (by omega) (fun hV => by rw [hll]; exact hcopies hV)
        (F.find (F.probe w.ms c.ip).1 c.ip (F.probe w.ms c.ip).2).1
      exact hstep.trans (afterMatch_scans h8 c.ip hstep.within rfl)

theorem scan_scans (hF : F.Sound V iend) :
    ∀ (k : Nat) (w : Work) (c : Cursor), c.Within istart → V.Scans istart iend w c (scan V F iend k w c)
  | 0, _, _, hc => .refl hc
  | k + 1, w, c, hc => by
    rw [scan]
    split
    · next h =>
      obtain ⟨hw, hlt⟩ := h
      have : Config.hashRead = 8 := rfl
      have hstep := scanAt_scans (V := V) hF (by simpa using hw) (show c.ip + 9 ≤ iend by omega) hc
      exact hstep.trans (scan_scans hF k _ _ hstep.within)
    · exact .refl hc

end

/-! ### A whole run (R141) -/

/-- Where the scan begins: "the first byte ever has nothing before it". -/
def View.scanStart (V : View) (istart : Nat) : Nat := if istart = V.histLow then istart + 1 else istart

/-- The log a run begins with. -/
def View.startLog (V : View) (q : SeqStore) (istart : Nat) (rep : Reps) : Log :=
  { seq := q, failed := false, anchor := istart, o1 := (V.park (V.scanStart istart) rep).1
    o2 := (V.park (V.scanStart istart) rep).2.1 }

/-- What a run leaves: any tables, and the end of a chain of sequences. -/
theorem blkCore_runs (V : View) {w : Work} (hw : w.failed = false) (istart iend : Nat) (rep : Reps) :
    ∃ m l, V.Runs istart iend (V.startLog w.seq istart rep) l ∧
      blkCore V w istart iend rep =
        { work := { ms := m, seq := l.seq, failed := l.failed }
          rep := unpark l.o1 l.o2 (V.park (V.scanStart istart) rep).2.2 rep
          anchor := l.anchor } := by
  have hstart : istart ≤ V.scanStart istart := by
    unfold View.scanStart
    split <;> omega
  have hrun := (scan_scans (V := V) (finderOf_sound V iend) (iend - istart) w
    { ip := V.scanStart istart, anchor := istart, o1 := (V.park (V.scanStart istart) rep).1
      o2 := (V.park (V.scanStart istart) rep).2.1 } ⟨le_rfl, hstart⟩).runs
  rw [Log.of, hw] at hrun
  exact ⟨_, _, hrun, rfl⟩

end Sys2Proof.Machine
end

/-! ## BLK_MATCH completes (R141) -/

section
namespace Sys2Proof.Machine

open Sys2Proof

/-- A run in a block of at most `2^17` bytes, begun with the store `q` and no long length in it: each long length stored since
takes more than `2^16` bytes of the block, so there is no room for a second (44_sequence_store.md R188). -/
structure Log.Fits (q : SeqStore) (istart : Nat) (l : Log) : Prop where
  running : l.failed = false
  start : istart ≤ l.anchor
  longLit : l.seq.longLit.isSome = true → istart + 65539 ≤ l.anchor
  longMatch : l.seq.longMatch.isSome = true → istart + 65539 ≤ l.anchor
  seqs : q.seqs <+: l.seq.seqs
  lit : q.lit <+: l.seq.lit

theorem View.Appends.fits {V : View} {q : SeqStore} {istart iend : Nat} {l l' : Log} (h : V.Appends istart iend l l')
    (hn : iend ≤ istart + 2 ^ 17) (hl : l.Fits q istart) : l'.Fits q istart := by
  obtain @⟨ll, oc, off, len, o2, _, _, long, stop, _⟩ := h
  obtain ⟨_, hstart, hlit, hmatch, hseqs, hlits⟩ := hl
  rcases l.seq.store_cases V.byte ll l.anchor oc (len - 3) with ⟨⟨hll, hsome⟩ | ⟨hml, hsome⟩, _⟩ | ⟨_, hstore⟩
  · have := isLong_iff.mp hll
    have := hlit hsome
    omega
  · have := isLong_iff.mp hml
    have := hmatch hsome
    omega
  · unfold Log.store
    rw [hstore]
    refine ⟨rfl, by dsimp only; omega, fun h => ?_, fun h => ?_, hseqs.trans (List.prefix_append _ _),
      hlits.trans (List.prefix_append _ _)⟩
    · have := (longAfter_isSome h).imp_right hlit
      dsimp only
      omega
    · have := (longAfter_isSome h).imp_right hmatch
      dsimp only
      omega

theorem View.Runs.fits {V : View} {q : SeqStore} {istart iend : Nat} {l l' : Log} (h : V.Runs istart iend l l')
    (hn : iend ≤ istart + 2 ^ 17) (hl : l.Fits q istart) : l'.Fits q istart := by
  induction h with
  | refl => exact hl
  | tail _ hstep ih => exact hstep.fits hn ih

theorem State.blockOk_iff {s : State} {src n : DWord} : s.blockOk src n = true ↔ s.spanOk s.w src n = true ∧
    n.toNat ≤ s.p.blockSizeMax ∧ s.seq.lit.length + n.toNat ≤ Config.litCap ∧
      s.seq.seqs.length + n.toNat / 3 ≤ Config.seqCap := by
  simp only [State.blockOk, Bool.and_eq_true, decide_eq_true_eq]

theorem State.blockOk_le {s : State} {src n : DWord} (h : s.blockOk src n = true) : n.toNat ≤ 2 ^ 17 :=
  (State.blockOk_iff.mp h).2.1.trans (min_le_left _ _)

@[simp] theorem State.finished_prev (s : State) (x y : Nat) (c : Byte) :
    (((s.setRes0 x).setRes1 y).withCode c).prev = s.prev := rfl
@[simp] theorem State.finished_nextBs (s : State) (x y : Nat) (c : Byte) :
    (((s.setRes0 x).setRes1 y).withCode c).nextBs = s.nextBs := rfl

/-- The state a matcher command ends with differs in the tables and cursors, the store, the block states and the results. -/
theorem State.matched_frame {s : State} {w : Work} (hk : TablesKept s.ms w.ms) (rep : Reps) (x y : Nat) {t : State}
    (ht : t = ((((s.withWork w).setNextRep rep).setRes0 x).setRes1 y).withCode 0) :
    t = { s.withCode 0 with
      ms := { s.ms with
        hashTable := t.ms.hashTable, chainTable := t.ms.chainTable, hashTable3 := t.ms.hashTable3
        nextToUpdate := t.ms.nextToUpdate, nextToUpdate3 := t.ms.nextToUpdate3 },
      seq := t.seq, bs0 := t.bs0, bs1 := t.bs1, res0 := t.res0, res1 := t.res1 } ∧
    t.prev = s.prev ∧ t.nextBs = { s.nextBs with rep := rep } ∧ t.seq = w.seq ∧ t.res0 = BitVec.ofNat 64 x ∧
      t.res1 = BitVec.ofNat 64 y := by
  subst ht
  obtain ⟨⟨_, _, _, _, _, dictEnd, attached⟩, _, _⟩ := w
  obtain ⟨_, _, _, hdict, hatt⟩ := hk
  obtain rfl : dictEnd = s.ms.loadedDictEnd := hdict
  obtain rfl : attached = s.ms.dmsAttached := hatt
  refine ⟨?_, ?_, ?_, by simp [State.setNextRep], rfl, rfl⟩
  · unfold State.setNextRep State.setNextBs
    split <;> rfl
  · exact (State.finished_prev ..).trans (State.setNextBs_prev _ _)
  · exact (State.finished_nextBs ..).trans (State.setNextBs_nextBs _ _)

/-- Settles O40: the run fits (`View.Runs.fits`), so no `StoreSeq` fails. -/
theorem blkMatchCompletes : Obligations.BlkMatchCompletes := by
  intro s hr himpl ho hlit hmatch
  have haw := (Impl.legal_addrW himpl).2
  have hn := s.blockOk_le ho
  obtain ⟨t, ht, hfinish⟩ := exec_worked hr (isIO_eq _) rfl nofun (i := .blkMatch) ho
  have hkept := blkMatch_kept s (s.idx s.op0.toNat) s.op1.toNat s.prev.rep
  obtain ⟨m, l, hrun, hcore⟩ := blkCore_runs s.view (w := s.blockWork) rfl (s.idx s.op0.toNat)
    (s.idx s.op0.toNat + s.op1.toNat) s.prev.rep
  obtain ⟨hok, hstart, _, _, hseqs, hlits⟩ := View.Runs.fits (q := s.seq) hrun (by omega)
    ⟨rfl, le_rfl, fun h => absurd h (by simp [View.startLog, State.blockWork, hlit]),
      fun h => absurd h (by simp [View.startLog, State.blockWork, hmatch]), List.prefix_rfl, List.prefix_rfl⟩
  have hstop := View.Runs.anchor_le hrun (Nat.le_add_right _ _)
  have hblk : blkMatch s (s.idx s.op0.toNat) s.op1.toNat s.prev.rep = _ := hcore
  rw [hblk] at hkept
  rw [Worked, hblk] at hfinish
  rcases finishMatch_next hfinish with ⟨hfail, _⟩ | ⟨_, htm⟩
  · exact absurd (hok.symm.trans hfail) (by simp)
  obtain ⟨hframe, hprev, hnext, hseq, hres0, hres1⟩ := s.matched_frame hkept _ _ _ htm
  have h0 : t.res0.toNat = s.idx s.op0.toNat + s.op1.toNat - l.anchor :=
    hres0 ▸ toNat_ofNat_lt (n := 32) (show s.idx s.op0.toNat + s.op1.toNat - l.anchor < _ by omega) (by norm_num)
  refine ⟨t, ht, hframe, hprev, by rw [hnext], by omega, ?_, by rwa [hseq], by rwa [hseq]⟩
  rw [hres1, toNat_ofNat_lt (addA_lt _ _ _) haw, h0, Nat.sub_sub_self hstop]
  rfl

end Sys2Proof.Machine
end

/-! ## Replay (44_sequence_store.md R197) -/

section
namespace Sys2Proof.Machine

open Sys2Proof

/-! ### Bytes of a reader -/

theorem bytesFrom_eq_map (byte : Nat → Byte) : ∀ v n, bytesFrom byte v n = (List.range' v n).map byte
  | _, 0 => rfl
  | v, n + 1 => by rw [bytesFrom, bytesFrom_eq_map byte (v + 1) n, List.range'_succ, List.map_cons]

@[simp] theorem length_bytesFrom (byte : Nat → Byte) (v n : Nat) : (bytesFrom byte v n).length = n := by
  rw [bytesFrom_eq_map, List.length_map, List.length_range']

theorem bytesFrom_add (byte : Nat → Byte) (v m n : Nat) :
    bytesFrom byte v (m + n) = bytesFrom byte v m ++ bytesFrom byte (v + m) n := by
  rw [bytesFrom_eq_map, bytesFrom_eq_map, bytesFrom_eq_map, ← List.map_append, List.range'_append_1]

theorem getD_bytesFrom {byte : Nat → Byte} {v n k : Nat} (h : k < n) (d : Byte) :
    (bytesFrom byte v n).getD k d = byte (v + k) := by
  rw [bytesFrom_eq_map, List.getD_eq_getElem _ _ (by simpa using h)]
  simp

/-- A copy whose bytes were compared produces the bytes that stand there: "byte by byte: may overlap itself". -/
theorem replayCopy_bytesFrom {V : View} {istart off : Nat} : ∀ (n m : Nat), V.Copies (istart + m) off n →
    replayCopy V.byte istart off n (bytesFrom V.byte istart m) = bytesFrom V.byte istart (m + n)
  | 0, _, _ => rfl
  | n + 1, m, h => by
    have hpos := h.pos
    have hreach := h.reach
    have hbyte : replayByte V.byte istart (bytesFrom V.byte istart m) (istart + m - off) = V.byte (istart + m) := by
      have h0 : V.byte (istart + m) = V.byte (istart + m - off) := h.byte_eq (Nat.succ_pos n)
      unfold replayByte
      split
      · exact h0.symm
      · next hi =>
        rw [getD_bytesFrom (show istart + m - off - istart < m by omega),
          Nat.add_sub_cancel' (show istart ≤ istart + m - off by omega), h0]
    have hone : bytesFrom V.byte (istart + m) 1 = [V.byte (istart + m)] := rfl
    rw [replayCopy, length_bytesFrom, hbyte, ← hone, ← bytesFrom_add, replayCopy_bytesFrom n (m + 1) h.tail, Nat.add_assoc,
      Nat.add_comm 1 n]

/-! ### The loop of Replay -/

theorem SeqStore.replayFrom_append (byte : Nat → Byte) (istart : Nat) (q : SeqStore) (us : List Seq) :
    ∀ (ts : List Seq) (k : Nat) (lits out : List Byte) (rep : Nat × Nat × Nat),
      q.replayFrom byte istart k (ts ++ us) lits out rep =
        q.replayFrom byte istart (k + ts.length) us (q.replayFrom byte istart k ts lits out rep).2.1
          (q.replayFrom byte istart k ts lits out rep).1 (q.replayFrom byte istart k ts lits out rep).2.2
  | [], _, _, _, _ => rfl
  | t :: ts, k, lits, out, rep => by
    rw [List.cons_append, replayFrom, replayFrom_append byte istart q us ts, List.length_cons, Nat.add_assoc, Nat.add_comm 1]
    rfl

/-- Replay reads the long positions of a store at the numbers of its triples only. -/
theorem SeqStore.replayFrom_congr (byte : Nat → Byte) (istart : Nat) {q q' : SeqStore} :
    ∀ (ts : List Seq) (k : Nat) (lits out : List Byte) (rep : Nat × Nat × Nat),
      (∀ j, j < k + ts.length → isAt q'.longLit j = isAt q.longLit j ∧ isAt q'.longMatch j = isAt q.longMatch j) →
      q'.replayFrom byte istart k ts lits out rep = q.replayFrom byte istart k ts lits out rep
  | [], _, _, _, _, _ => rfl
  | t :: ts, k, lits, out, rep, h => by
    obtain ⟨hl, hm⟩ := h k (by rw [List.length_cons]; omega)
    have ih := fun lits out rep => replayFrom_congr byte istart ts (k + 1) lits out rep
      fun j hj => h j (by rw [List.length_cons]; omega)
    rw [replayFrom, replayFrom, ih]
    simp only [SeqStore.litLen, SeqStore.matchLen, hl, hm]

/-- The long positions are those of stored triples. -/
structure SeqStore.Marked (q : SeqStore) : Prop where
  lit : ∀ k, q.longLit = some k → k < q.seqs.length
  mat : ∀ k, q.longMatch = some k → k < q.seqs.length

section
variable {long : Option Nat} {n : Nat} (h : ∀ k, long = some k → k < n)
include h

theorem isAt_eq_false {k : Nat} (hk : n ≤ k) : isAt long k = false :=
  beq_eq_false_iff_ne.mpr fun he => Nat.not_lt.mpr hk (h k he)

theorem longAfter_lt {len : Nat} : ∀ k, longAfter long n len = some k → k < n + 1 := by
  intro k hk
  unfold longAfter at hk
  split at hk
  · exact Option.some.inj hk ▸ Nat.lt_succ_self n
  · exact (h k hk).trans (Nat.lt_succ_self n)

/-- The record names the new triple exactly when its length is long, and the triples before as it did. -/
theorem isAt_longAfter {len : Nat} (hclash : ¬ (isLong len = true ∧ long.isSome = true)) :
    isAt (longAfter long n len) n = isLong len ∧ ∀ k, k < n → isAt (longAfter long n len) k = isAt long k := by
  unfold longAfter
  cases hlen : isLong len with
  | false => exact ⟨isAt_eq_false h le_rfl, fun _ _ => rfl⟩
  | true =>
    have hnone : long = none := by simpa [hlen] using hclash
    refine ⟨beq_self_eq_true _, fun k hk => ?_⟩
    rw [hnone]
    exact beq_eq_false_iff_ne.mpr fun he => hk.ne' (Option.some.inj he)

end

/-- A length below `2^17` is the 16 bits stored and the long flag (R185). -/
theorem stored_length {len : Nat} (h : len < 2 ^ 17) :
    (BitVec.ofNat 16 len).toNat + (if isLong len then 65536 else 0) = len := by
  rw [BitVec.toNat_ofNat]
  split
  · next hlong =>
    have := isLong_iff.mp hlong
    omega
  · next hshort =>
    have : ¬ 65535 < len := fun h => hshort (isLong_iff.mpr h)
    omega

section
variable {q : SeqStore} (hq : q.Marked) {byte : Nat → Byte} {ll i oc ml : Nat}
include hq

theorem SeqStore.Marked.push : (q.push byte ll i oc ml).Marked := by
  have hlength : (q.push byte ll i oc ml).seqs.length = q.seqs.length + 1 := List.length_append
  exact ⟨hlength ▸ longAfter_lt hq.lit, hlength ▸ longAfter_lt hq.mat⟩

/-- The stored triple has the lengths it was stored with, those before keep theirs. -/
theorem SeqStore.Marked.lengths_push (hclash : ¬ q.Clash ll ml) (hll : ll < 2 ^ 17) (hml : ml < 2 ^ 17) :
    (q.push byte ll i oc ml).litLen q.seqs.length (mkSeq ll oc ml) = ll ∧
      (q.push byte ll i oc ml).matchLen q.seqs.length (mkSeq ll oc ml) = ml + 3 ∧
      ∀ k, k < q.seqs.length → isAt (q.push byte ll i oc ml).longLit k = isAt q.longLit k ∧
        isAt (q.push byte ll i oc ml).longMatch k = isAt q.longMatch k := by
  obtain ⟨hlitNew, hlitOld⟩ := isAt_longAfter hq.lit fun hc => hclash (.inl hc)
  obtain ⟨hmatNew, hmatOld⟩ := isAt_longAfter hq.mat fun hc => hclash (.inr hc)
  refine ⟨?_, congrArg (· + 3) ?_, fun k hk => ⟨hlitOld k hk, hmatOld k hk⟩⟩
  · show _ + (if isAt (longAfter _ _ _) _ then _ else _) = ll
    rw [hlitNew]
    exact stored_length hll
  · show _ + (if isAt (longAfter _ _ _) _ then _ else _) = ml
    rw [hmatNew]
    exact stored_length hml

end

/-- The triples of `q` use up its literals, produce the reader's `n` bytes from `istart` up, and end with the repeat offsets
`R`. -/
def SeqStore.Produces (byte : Nat → Byte) (istart : Nat) (rep : Nat × Nat × Nat) (q : SeqStore) (n : Nat)
    (R : Nat × Nat × Nat) : Prop :=
  ∀ rest, q.replayFrom byte istart 0 q.seqs (q.lit ++ rest) [] rep = (bytesFrom byte istart n, rest, R)

/-- A sequence whose copy was compared, and whose code Replay reads as the offset copied from, produces its bytes. -/
theorem SeqStore.Produces.push {V : View} {istart n ll oc off ml : Nat} {rep R R' : Nat × Nat × Nat} {q : SeqStore}
    (h : q.Produces V.byte istart rep n R) (hq : q.Marked) (hclash : ¬ q.Clash ll ml) (hll : ll < 2 ^ 17)
    (hml : ml < 2 ^ 17) (hoc : oc < 2 ^ 32) (hstep : repeatStep R ll oc = (off, R'))
    (hcopy : V.Copies (istart + n + ll) off (ml + 3)) :
    (q.push V.byte ll (istart + n) oc ml).Produces V.byte istart rep (n + ll + (ml + 3)) R' := by
  intro rest
  obtain ⟨hlit, hmatch, hold⟩ := hq.lengths_push (byte := V.byte) (i := istart + n) (oc := oc) hclash hll hml
  have hcode : (mkSeq ll oc ml).offset.toNat = oc := word32_toNat hoc
  show SeqStore.replayFrom V.byte istart _ 0 (q.seqs ++ [mkSeq ll oc ml])
    (q.lit ++ bytesFrom V.byte (istart + n) ll ++ rest) [] rep = _
  rw [replayFrom_append, replayFrom_congr (q := q) V.byte istart q.seqs 0 _ _ _ fun j hj => hold j (by omega),
    List.append_assoc, h, Nat.zero_add]
  simp only [SeqStore.replayFrom, hlit, hmatch, hcode, hstep]
  rw [List.take_left' (length_bytesFrom ..), List.drop_left' (length_bytesFrom ..), ← bytesFrom_add,
    replayCopy_bytesFrom _ _ (by rwa [← Nat.add_assoc])]

end Sys2Proof.Machine
end

/-! ## What BLK_MATCH stores replays to the block (R154) -/

section
namespace Sys2Proof.Machine

open Sys2Proof

/-! ### The offsets of the matcher and those of Replay (44_sequence_store.md R198) -/

/-- The matcher's offset pair beside Replay's offsets `R`. A 0 in the pair is a parked offset: `saved`, once `known` says that
the block began with a first repeat offset. -/
structure Cached (known : Prop) (saved o1 o2 : Nat) (R : Nat × Nat × Nat) : Prop where
  first : o1 = 0 ∨ o1 = R.1
  second : o2 = 0 ∨ o2 = R.2.1
  parkedFirst : known → o1 = 0 → R.1 = saved
  parkedSecond : known → o1 ≠ 0 → o2 = 0 → R.2.1 = saved
  smallFirst : R.1 < 2 ^ 32
  smallSecond : R.2.1 < 2 ^ 32

theorem Cached.park (V : View) (ip : Nat) (rep : Reps) : Cached (rep.r0 ≠ 0) (V.park ip rep).2.2 (V.park ip rep).1
    (V.park ip rep).2.1 (rep.r0.toNat, rep.r1.toNat, rep.r2.toNat) := by
  have h0 (h : rep.r0 ≠ 0) : rep.r0.toNat ≠ 0 := fun hz => h (BitVec.eq_of_toNat_eq hz)
  have hb0 := rep.r0.isLt
  have hb1 := rep.r1.isLt
  unfold View.park
  dsimp only
  split
  · generalize ip - V.histLow = maxRep
    refine ⟨ite_eq_or_eq _ _ _, ite_eq_or_eq _ _ _, fun hk => ?_, fun hk => ?_, hb0, hb1⟩
    · have := h0 hk
      split <;> simp [this]
    · split
      · simp
      · split <;> simp
  · exact ⟨.inr rfl, .inr rfl, fun hk h => absurd h (h0 hk), fun _ _ h => h, hb0, hb1⟩

/-- Replay reads the stored code as the offset the matcher copied from, and the pairs still agree. -/
theorem OffsetUse.replays {o1 o2 ll oc off o2' saved : Nat} {known : Prop} {R : Nat × Nat × Nat}
    (h : OffsetUse o1 o2 ll oc off o2') (hR : Cached known saved o1 o2 R) (hoff : 0 < off) (h32 : off < 2 ^ 32) :
    ∃ R', repeatStep R ll oc = (off, R') ∧ Cached known saved off o2' R' := by
  obtain ⟨hfirst, hsecond, hp1, hp2, hs1, hs2⟩ := hR
  cases h with
  | repeated hll =>
    have : o1 = R.1 := hfirst.resolve_left hoff.ne'
    refine ⟨R, ?_, hfirst, hsecond, hp1, hp2, hs1, hs2⟩
    simp [repeatStep, Nat.ne_of_gt hll, this]
  | adjacent =>
    have : o2 = R.2.1 := hsecond.resolve_left hoff.ne'
    refine ⟨(o2, R.1, R.2.2), ?_, .inr rfl, hfirst, fun _ h0 => absurd h0 hoff.ne', fun hk _ => hp1 hk, h32, hs1⟩
    simp [repeatStep, this]
  | fresh =>
    refine ⟨(off, R.1, R.2.1), ?_, .inr rfl, hfirst, fun _ h0 => absurd h0 hoff.ne', fun hk _ => hp1 hk, h32, hs1⟩
    rw [repeatStep, if_pos (by omega), Nat.add_sub_cancel]

theorem OffsetUse.code_lt {o1 o2 ll oc off o2' : Nat} (h : OffsetUse o1 o2 ll oc off o2') (h32 : off + 3 < 2 ^ 32) :
    oc < 2 ^ 32 := by
  cases h with
  | repeated _ => norm_num
  | adjacent => norm_num
  | fresh => exact h32

/-- The offsets a run leaves are Replay's once the first of the pair is one (R147). -/
theorem Cached.unpark {known : Prop} {saved o1 o2 : Nat} {R : Nat × Nat × Nat} (h : Cached known saved o1 o2 R)
    (hk : known) (h1 : o1 ≠ 0) (rep : Reps) :
    R.1 = (unpark o1 o2 saved rep).r0.toNat ∧ R.2.1 = (unpark o1 o2 saved rep).r1.toNat := by
  have hR1 : (if o1 ≠ 0 then o1 else saved) = R.1 := (if_pos h1).trans (h.first.resolve_left h1)
  have hR2 : (if o2 ≠ 0 then o2 else saved) = R.2.1 := by
    split
    · next h2 => exact h.second.resolve_left h2
    · next h2 => exact (h.parkedSecond hk h1 (not_not.mp h2)).symm
  unfold Machine.unpark
  rw [hR1, hR2]
  exact ⟨(word32_toNat h.smallFirst).symm, (word32_toNat h.smallSecond).symm⟩

/-! ### The run -/

/-- The sequences of a log, begun with an empty store, replay to the `n` bytes before the pending literals. -/
structure Log.Replays (byte : Nat → Byte) (istart : Nat) (rep : Nat × Nat × Nat) (known : Prop) (saved : Nat) (l : Log)
    (n : Nat) (R : Nat × Nat × Nat) : Prop where
  anchor : l.anchor = istart + n
  produces : l.seq.Produces byte istart rep n R
  marked : l.seq.Marked
  cached : Cached known saved l.o1 l.o2 R
  used : l.seq.seqs ≠ [] → l.o1 ≠ 0

section
variable {V : View} {istart iend saved : Nat} {known : Prop} {rep : Nat × Nat × Nat} {l l' : Log}
  (hV : V.Placed istart) (hn : iend ≤ istart + 2 ^ 17) (h32 : iend + 3 < 2 ^ 32)
include hV hn h32

theorem View.Appends.replays {n : Nat} {R : Nat × Nat × Nat} (h : V.Appends istart iend l l') (hok : l'.failed = false)
    (hl : l.Replays V.byte istart rep known saved n R) : ∃ n' R', l'.Replays V.byte istart rep known saved n' R' := by
  obtain @⟨ll, oc, off, len, o2, _, use, long, stop, copies⟩ := h
  obtain ⟨hanchor, hprod, hmark, hcache, _⟩ := hl
  have hcopy := copies hV
  have hreach := hcopy.reach
  obtain ⟨R', hstep, hcache'⟩ := use.replays hcache hcopy.pos (by omega)
  rcases l.seq.store_cases V.byte ll l.anchor oc (len - 3) with ⟨_, hfail⟩ | ⟨hclash, hstore⟩
  · exact absurd (hfail.symm.trans hok) (by simp)
  · obtain ⟨ml, rfl⟩ := Nat.exists_eq_add_of_le' long
    rw [Nat.add_sub_cancel] at hclash hstore
    rw [hanchor] at hcopy stop hstore
    have hprod' := hprod.push hmark hclash (by omega) (by omega) (use.code_lt (by omega)) hstep hcopy
    refine ⟨n + ll + (ml + 3), R', ?_⟩
    rw [Log.store, hanchor, Nat.add_sub_cancel, hstore]
    exact ⟨by dsimp only; omega, hprod', hmark.push, hcache', fun _ => hcopy.pos.ne'⟩

theorem View.Runs.replays {R : Nat × Nat × Nat} (h : V.Runs istart iend l l') (hok : l'.failed = false)
    (hl : l.Replays V.byte istart rep known saved 0 R) : ∃ n' R', l'.Replays V.byte istart rep known saved n' R' := by
  induction h with
  | refl => exact ⟨0, R, hl⟩
  | tail _ hstep ih =>
    obtain ⟨n, R, h⟩ := ih hstep.running
    exact hstep.replays hV hn h32 hok h

end

/-- An empty store replays to nothing, and the parked offsets are those of the block before. -/
theorem View.startLog_replays (V : View) (byte : Nat → Byte) (istart : Nat) (rep : Reps) :
    (V.startLog .empty istart rep).Replays byte istart (rep.r0.toNat, rep.r1.toNat, rep.r2.toNat) (rep.r0 ≠ 0)
      (V.park (V.scanStart istart) rep).2.2 0 (rep.r0.toNat, rep.r1.toNat, rep.r2.toNat) where
  anchor := rfl
  produces := fun _ => rfl
  marked := ⟨nofun, nofun⟩
  cached := .park V _ rep
  used := fun h => absurd rfl h

/-- Replay of a log's store and of the bytes up to `iend` as last literals. -/
theorem Log.Replays.lastLit {byte : Nat → Byte} {istart n m saved : Nat} {rep R : Nat × Nat × Nat} {known : Prop} {l : Log}
    (h : l.Replays byte istart rep known saved n R) :
    (l.seq.lastLit byte (istart + n) m).replay byte istart rep = (bytesFrom byte istart (n + m), R) := by
  have hrun := SeqStore.replayFrom_congr (q := l.seq) (q' := l.seq.lastLit byte (istart + n) m) byte istart l.seq.seqs 0
    (l.seq.lit ++ bytesFrom byte (istart + n) m) [] rep fun _ _ => ⟨rfl, rfl⟩
  rw [h.produces] at hrun
  rw [SeqStore.replay]
  simp only [SeqStore.lastLit] at hrun ⊢
  rw [hrun, bytesFrom_add]

/-! ### The block -/

theorem bytesFrom_congr {f g : Nat → Byte} {v w : Nat} : ∀ {n : Nat}, (∀ k, k < n → f (v + k) = g (w + k)) →
    bytesFrom f v n = bytesFrom g w n := by
  intro n h
  rw [bytesFrom_eq_map, bytesFrom_eq_map, List.range'_eq_map_range, List.range'_eq_map_range, List.map_map, List.map_map]
  exact List.map_congr_left fun k hk => h k (List.mem_range.mp hk)

theorem Memory.readBytes_eq_bytesFrom (m : Memory) : ∀ a n, m.readBytes a n = bytesFrom m.read a n
  | _, 0 => rfl
  | a, n + 1 => congrArg (m.read a :: ·) (m.readBytes_eq_bytesFrom (a + 1) n)

/-- A span whose indices do not wrap is read where it stands (R140). -/
theorem State.bytesFrom_span {s : State} {a n : DWord} (h : s.spanOk s.w a n = true)
    (hwrap : s.idx a.toNat + n.toNat < 2 ^ s.impl.addrW) :
    s.idx a.toNat + n.toNat ≤ s.cur ∧
      bytesFrom s.histByte (s.idx a.toNat) n.toNat = s.mem.readBytes a.toNat n.toNat := by
  have hadd {k : Nat} (hk : k ≤ n.toNat) : s.idx (a.toNat + k) = s.idx a.toNat + k :=
    Window.idx_add (show s.idx a.toNat + k < _ by omega)
  have hcur := hadd le_rfl ▸ (s.spanOk_le h).2
  simp only [State.spanOk, Bool.and_eq_true] at h
  have hend := s.rangeOk_end h.1.1
  have hlow : s.w.dictLimit.toNat ≤ s.idx a.toNat := (of_decide_eq_true h.1.2).1
  refine ⟨hcur, ?_⟩
  rw [Memory.readBytes_eq_bytesFrom]
  refine bytesFrom_congr fun k hk => ?_
  rw [State.histByte, if_pos ⟨by omega, by omega⟩, ← hadd hk.le]
  exact congrArg s.mem.read (addA_subA (by omega))

/-- Settles O41: the run's log replays (`View.Runs.replays`), and what is left of the block are the last literals. -/
theorem blkMatchReplaysToTheBlock : Obligations.BlkMatchReplaysToTheBlock := by
  intro s t ⟨himpl, _, hwin, _⟩ hr hcur hempty hexec hcode i r out
  obtain ⟨hw, hb⟩ := hwin hr.1.2
  have haw : 2 ^ 32 ≤ 2 ^ s.impl.addrW := Nat.pow_le_pow_right (by norm_num) (Impl.legal_addrW himpl).1
  rcases execBlkMatch_next hexec with haway | ⟨_, ho, hfinish⟩
  · exact absurd hcode haway.code_ne_zero
  have hspan := (State.blockOk_iff.mp ho).1
  have hn := s.blockOk_le ho
  have hi : i ≤ s.cur := (s.spanOk_le hspan).1
  obtain ⟨hstop, hbytes⟩ := s.bytesFrom_span hspan (show i + s.op1.toNat < _ by omega)
  have hpos : s.posOk s.op0 = true := by
    simp only [State.spanOk, State.rangeOk, Bool.and_eq_true] at hspan
    exact and_both hspan.1.1.1 hspan.1.2
  have hkept := blkMatch_kept s i s.op1.toNat r
  obtain ⟨m, l, hrun, hcore⟩ := blkCore_runs s.view (w := s.blockWork) rfl i (i + s.op1.toNat) r
  have hblk : blkMatch s i s.op1.toNat r = _ := hcore
  rw [hblk] at hkept
  rw [Worked, hblk] at hfinish
  rcases finishMatch_next hfinish with ⟨_, rfl⟩ | ⟨hok, htm⟩
  · exact absurd hcode (by simp [State.withCode])
  obtain ⟨_, _, hnext, hseq, hres0, _⟩ := s.matched_frame hkept _ _ _ htm
  have hanchor := View.Runs.anchor_le hrun (Nat.le_add_right i s.op1.toNat)
  have hstart : s.blockWork.seq = .empty := hempty
  rw [hstart] at hrun
  obtain ⟨n, R, hl⟩ := View.Runs.replays (s.view_placed hw hb hpos) (by omega) (by omega) hrun hok
    (s.view.startLog_replays s.view.byte i r)
  have h0 : t.res0.toNat = i + s.op1.toNat - l.anchor :=
    hres0 ▸ toNat_ofNat_lt (n := 32) (show i + s.op1.toNat - l.anchor < _ by omega) (by norm_num)
  have hn' := hl.anchor
  have hout : out = (bytesFrom s.histByte i s.op1.toNat, R) := by
    show (t.seq.lastLit s.histByte (i + s.op1.toNat - t.res0.toNat) t.res0.toNat).replay s.histByte i _ = _
    rw [hseq, show i + s.op1.toNat - t.res0.toNat = i + n by omega, show s.op1.toNat = n + t.res0.toNat by omega]
    exact hl.lastLit
  rw [hout, hnext]
  exact ⟨hbytes, fun hne hr0 => hl.cached.unpark hr0 (hl.used (by rwa [hseq] at hne)) r⟩

end Sys2Proof.Machine
end

/-! # Proofs of the LDM family (43_ldm.md)

LDM_GENERATE queues a chain of raw sequences (`RawChain`): each chunk's chain is of compared matches in the chunk's own indices
(`LdmState.scan_chain`), and the windows of two chunks name the same bytes (`Window.Moved`). LDM_BLK_MATCH walks the queue by an
induction over the calls of `LdmNext` (`ldmSplit_splits`). -/

/-! ## Chains of raw sequences -/

section
namespace Sys2Proof.Machine

open Sys2Proof

/-- A field of a raw sequence to which the value `v` was given (log 14). -/
def Holds (x : Word) (v : Nat) : Prop := x.toNat ≤ v ∧ (v < 2 ^ 32 → x.toNat = v)

theorem holds_fit (ctr tag v : Nat) : Holds (fit 32 ctr tag v) v := by
  by_cases h : v < 2 ^ 32
  · exact ⟨(fit_toNat h).le, fun _ => fit_toNat h⟩
  · have := (fit 32 ctr tag v).isLt
    exact ⟨by omega, fun hlt => absurd hlt h⟩

/-- From position `a` up the queue describes `n` bytes, and each of its matches has the property `P` at its position, with its
length and its offset. -/
inductive RawChain (P : Nat → Nat → Nat → Prop) : Nat → List RawSeq → Nat → Prop where
  | nil {a : Nat} : RawChain P a [] 0
  | cons {a lit len off n : Nat} {q : RawSeq} {qs : List RawSeq} (holdsLit : Holds q.litLength lit)
      (holdsLen : Holds q.matchLength len) (holdsOff : Holds q.offset off) (matched : P (a + lit) len off)
      (rest : RawChain P (a + lit + len) qs n) : RawChain P a (q :: qs) (lit + len + n)

section
variable {P Q : Nat → Nat → Nat → Prop} {a b n m : Nat} {xs ys : List RawSeq}

theorem RawChain.rawLength_le (h : RawChain P a xs n) : rawLength xs ≤ n := by
  induction h with
  | nil => exact le_rfl
  | cons hlit hlen _ _ _ ih => exact Nat.add_le_add (Nat.add_le_add hlit.1 hlen.1) ih

theorem RawChain.append (h : RawChain P a xs n) (k : RawChain P (a + n) ys m) : RawChain P a (xs ++ ys) (n + m) := by
  induction h with
  | nil => rwa [Nat.zero_add]
  | cons hlit hlen hoff hp _ ih =>
    rw [Nat.add_assoc _ _ m]
    exact .cons hlit hlen hoff hp (ih (by simpa only [Nat.add_assoc] using k))

/-- A chain may be moved when its property follows it. -/
theorem RawChain.move (h : RawChain P a xs n) : ∀ {b : Nat},
    (∀ k len off, k + len ≤ n → P (a + k) len off → Q (b + k) len off) → RawChain Q b xs n := by
  induction h with
  | nil => exact fun _ => .nil
  | @cons a lit len off n q qs hlit hlen hoff hp _ ih =>
    intro b hPQ
    refine .cons hlit hlen hoff (hPQ lit len off (by omega) hp) (ih fun k len' off' hk hp' => ?_)
    have := hPQ (lit + len + k) len' off' (by omega)
    simp only [← Nat.add_assoc] at this
    exact this hp'

/-- Literals left over by earlier chunks go before the first sequence (R174). -/
theorem RawChain.addLeftover (h : RawChain P (a + m) xs n) (hne : xs ≠ []) (ctr : Nat) :
    RawChain P a (Machine.addLeftover ctr m xs) (m + n) := by
  cases h with
  | nil => exact absurd rfl hne
  | @cons _ lit len off n q qs hlit hlen hoff hp rest =>
    have hfit := holds_fit ctr 4 (q.litLength.toNat + m)
    have hlit' : Holds (fit 32 ctr 4 (q.litLength.toNat + m)) (m + lit) := by
      have := hlit.1
      refine ⟨by have := hfit.1; omega, fun h32 => ?_⟩
      rw [hfit.2 (by omega), hlit.2 (by omega), Nat.add_comm]
    rw [← Nat.add_assoc, ← Nat.add_assoc]
    rw [Nat.add_assoc a] at hp rest
    exact .cons hlit' hlen hoff hp rest

/-- The place of a queued sequence is the one the lengths before it lead to, when no length needed more than its field. -/
theorem RawChain.get (h : RawChain P a xs n) (h32 : n < 2 ^ 32) : ∀ {k : Nat} {q : RawSeq}, xs[k]? = some q →
    rawLength (xs.take k) + q.litLength.toNat + q.matchLength.toNat ≤ n ∧
      ∃ off, Holds q.offset off ∧ P (a + rawLength (xs.take k) + q.litLength.toNat) q.matchLength.toNat off := by
  induction h with
  | nil => exact fun h => by simp at h
  | @cons a lit len off n q qs hlit hlen hoff hp _ ih =>
    have h1 := hlit.2 (by omega)
    have h2 := hlen.2 (by omega)
    intro k r hk
    cases k with
    | zero =>
      obtain rfl : q = r := by simpa using hk
      simp only [List.take_zero, rawLength, h1, h2]
      exact ⟨by omega, off, hoff, hp⟩
    | succ k =>
      obtain ⟨hle, off', hoff', hp'⟩ := ih (by omega) (by simpa using hk)
      simp only [List.take_succ_cons, rawLength, h1, h2]
      refine ⟨by omega, off', hoff', ?_⟩
      simpa only [Nat.add_assoc] using hp'

end

end Sys2Proof.Machine
end

/-! ## The scan of a chunk (R179) -/

section
namespace Sys2Proof.Machine

open Sys2Proof

/-- A match at `p` of `len` bytes, `off` back: every byte it names is at or above `low` and was compared (R179). -/
structure RawMatch (byte : Nat → Byte) (low p len off : Nat) : Prop where
  pos : 1 ≤ off
  reach : off + low ≤ p
  equal : ∀ x, p ≤ x → x < p + len → byte x = byte (x - off)

/-- A match the scan may queue. -/
def LdmView.Queues (V : LdmView) (p len off : Nat) : Prop :=
  V.p.ldmMinMatch.toNat ≤ len ∧ RawMatch V.byte V.low p len off

/-! ### One bucket -/

/-- The backward extension stays above `anchor` and `low`, and its bytes are equal. -/
theorem LdmView.back_spec (V : LdmView) {anchor : Nat} : ∀ (fuel : Nat) {ip c : Nat}, anchor ≤ ip → V.low ≤ c → c ≤ ip →
    anchor + V.back anchor fuel ip c ≤ ip ∧ V.low + V.back anchor fuel ip c ≤ c ∧
      ∀ x, ip - V.back anchor fuel ip c ≤ x → x < ip → V.byte x = V.byte (x - (ip - c))
  | 0, _, _, hip, hc, _ => ⟨hip, hc, fun x h1 h2 => absurd h2 (Nat.not_lt.mpr h1)⟩
  | fuel + 1, ip, c, hip, hc, hle => by
    rw [LdmView.back]
    split
    · next h =>
      obtain ⟨ha, hlow, heq⟩ := h
      obtain ⟨h1, h2, h3⟩ := V.back_spec (anchor := anchor) fuel (ip := ip - 1) (c := c - 1) (by omega) (by omega) (by omega)
      generalize V.back anchor fuel (ip - 1) (c - 1) = b at h1 h2 h3
      refine ⟨by omega, by omega, fun x hx hlt => ?_⟩
      rw [show ip - 1 - (c - 1) = ip - c by omega] at h3
      rcases Nat.lt_or_ge x (ip - 1) with hx' | hx'
      · exact h3 x (by omega) hx'
      · rw [show x = ip - 1 by omega, heq]
        congr 1
        omega
    · exact ⟨hip, hc, fun x h1 h2 => absurd h2 (Nat.not_lt.mpr h1)⟩

/-- What the search of a bucket keeps as its best entry. -/
structure LdmView.Keeps (V : LdmView) (ip anchor iend : Nat) (b : LdmBest) : Prop where
  stop : ip + b.fwd ≤ iend
  back : anchor + b.bwd ≤ ip
  queues : V.Queues (ip - b.bwd) (b.fwd + b.bwd) (ip - b.idx)

theorem LdmView.keeps_entry {V : LdmView} {ip anchor iend c : Nat} (ha : anchor ≤ ip) (hi : ip ≤ iend) (hlow : V.low < c)
    (hc : c < ip) (hlong : V.p.ldmMinMatch.toNat ≤ matchCount V.byte (iend - ip) ip c) :
    V.Keeps ip anchor iend { fwd := matchCount V.byte (iend - ip) ip c, bwd := V.back anchor ip ip c, idx := c } := by
  obtain ⟨h1, h2, h3⟩ := V.back_spec ip ha hlow.le hc.le
  have hfwd := matchCount_le V.byte (iend - ip) ip c
  refine ⟨by dsimp only; omega, h1, by dsimp only; omega, by dsimp only; omega, by dsimp only; omega, fun x hx hlt => ?_⟩
  dsimp only at *
  rcases Nat.lt_or_ge x ip with hxi | hxi
  · exact h3 x hx hxi
  · have := byte_eq_of_lt_matchCount (show x - ip < matchCount V.byte (iend - ip) ip c by omega)
    rwa [show ip + (x - ip) = x by omega, show c + (x - ip) = x - (ip - c) by omega] at this

theorem LdmState.search_keeps {l : LdmState} {V : LdmView} {ip anchor iend chk : Nat} (ha : anchor ≤ ip) (hi : ip ≤ iend) :
    ∀ (k i : Nat) (best : Option LdmBest), (∀ b, best = some b → V.Keeps ip anchor iend b) →
      ∀ b, l.search V ip anchor iend chk k i best = some b → V.Keeps ip anchor iend b
  | 0, _, _, hbest => hbest
  | k + 1, i, best, hbest => by
    unfold LdmState.search
    refine LdmState.search_keeps ha hi k _ _ fun b hb => ?_
    rcases ite_eq_iff.mp hb with ⟨⟨_, hlow, hc, hlong, _⟩, hnew⟩ | ⟨_, hold⟩
    · exact Option.some.inj hnew ▸ V.keeps_entry ha hi hlow hc hlong
    · exact hbest b hold

/-! ### What the scan leaves of the LDM State -/

/-- The raw sequences `qs` were queued; besides the queue, the table and the bucket positions nothing changed. -/
structure LdmState.Queued (l l' : LdmState) (qs : List RawSeq) : Prop where
  seq : l'.seq = l.seq ++ qs
  w : l'.w = l.w
  pos : l'.pos = l.pos
  remainder : l'.remainder = l.remainder

theorem LdmState.Queued.refl (l : LdmState) : l.Queued l [] := ⟨(List.append_nil _).symm, rfl, rfl, rfl⟩

theorem LdmState.Queued.trans {l l' l'' : LdmState} {xs ys : List RawSeq} (h : l.Queued l' xs) (k : l'.Queued l'' ys) :
    l.Queued l'' (xs ++ ys) :=
  ⟨by rw [k.seq, h.seq, List.append_assoc], k.w.trans h.w, k.pos.trans h.pos, k.remainder.trans h.remainder⟩

theorem LdmState.insert_queued (l : LdmState) (V : LdmView) (slot checksum idx : Nat) :
    l.Queued (l.insert V slot checksum idx) [] := ⟨(List.append_nil _).symm, rfl, rfl, rfl⟩

theorem LdmState.insertCandidates_queued (V : LdmView) : ∀ (n q : Nat) (l : LdmState),
    l.Queued (LdmState.insertCandidates V n q l) []
  | 0, _, l => .refl l
  | n + 1, q, l => by
    have hone : l.Queued (l.insertCandidate V q) [] := by
      unfold LdmState.insertCandidate
      dsimp only
      split
      · exact l.insert_queued V _ _ _
      · exact .refl l
    exact hone.trans (LdmState.insertCandidates_queued V n (q + 1) _)

/-- The look-ahead fill after a match. -/
theorem LdmState.lookAhead_queued (V : LdmView) (c : Prop) [Decidable c] (n q : Nat) (l : LdmState) :
    l.Queued (if c then LdmState.insertCandidates V n q l else l) [] := by
  split
  · exact LdmState.insertCandidates_queued V n q l
  · exact .refl l

theorem LdmState.push_queued (l : LdmState) (ctr lit len off : Nat) : ∃ q, l.Queued (l.push ctr lit len off) [q] ∧
    Holds q.litLength lit ∧ Holds q.matchLength len ∧ Holds q.offset off :=
  ⟨_, ⟨rfl, rfl, rfl, rfl⟩, holds_fit .., holds_fit .., holds_fit ..⟩

/-- The chain a scan queues, from `anchor` up to the new anchor. -/
theorem LdmState.scan_chain (V : LdmView) {iend ilimit : Nat} (hl : ilimit ≤ iend) :
    ∀ (fuel : Nat) (l : LdmState) (ip anchor : Nat), anchor ≤ ip → anchor ≤ iend →
      ∃ qs n, l.Queued (LdmState.scan V iend ilimit fuel l ip anchor).1 qs ∧ RawChain V.Queues anchor qs n ∧
        (LdmState.scan V iend ilimit fuel l ip anchor).2 = anchor + n ∧ anchor + n ≤ iend
  | 0, l, _, _, _, he => ⟨[], 0, .refl l, .nil, rfl, he⟩
  | fuel + 1, l, ip, anchor, ha, he => by
    rw [LdmState.scan]
    split
    swap
    · exact ⟨[], 0, .refl l, .nil, rfl, he⟩
    next hip =>
    dsimp only
    split
    swap
    · exact LdmState.scan_chain V hl fuel l (ip + 1) anchor (by omega) he
    split
    · have hins := l.insert_queued V (V.parts ip).1 (V.parts ip).2.1 ip
      obtain ⟨qs, n, hq, hchain, hend, hle⟩ := LdmState.scan_chain V hl fuel _ (ip + 1) anchor (by omega) he
      exact ⟨qs, n, hins.trans hq, hchain, hend, hle⟩
    · next b hb =>
      obtain ⟨hstop, hback, hqueues⟩ := LdmState.search_keeps ha (hip.trans hl) _ _ none (fun _ => nofun) b hb
      obtain ⟨q, hpush, hlit, hlen, hoff⟩ := l.push_queued V.ctr (ip - b.bwd - anchor) (b.fwd + b.bwd) (ip - b.idx)
      have hmatch := (hpush.trans (LdmState.insert_queued _ V (V.parts ip).1 (V.parts ip).2.1 ip)).trans
        (LdmState.lookAhead_queued V (ip + b.fwd ≤ ilimit) (b.fwd - 1) (ip + 1) _)
      obtain ⟨qs, n, hq, hchain, hend, hle⟩ := LdmState.scan_chain V hl fuel _ (ip + b.fwd) (ip + b.fwd) le_rfl hstop
      have hplace : anchor + (ip - b.bwd - anchor) = ip - b.bwd := by omega
      refine ⟨q :: qs, ip - b.bwd - anchor + (b.fwd + b.bwd) + n, hmatch.trans hq, ?_, hend.trans (by omega), by omega⟩
      refine .cons hlit hlen hoff (hplace.symm ▸ hqueues) ?_
      rwa [hplace, show ip - b.bwd + (b.fwd + b.bwd) = ip + b.fwd by omega]

/-- The chain of a chunk, and the bytes after it (R179). -/
theorem LdmState.genChunk_chain (l : LdmState) (V : LdmView) (istart iend : Nat) :
    ∃ qs n, l.Queued (l.genChunk V istart iend).1 qs ∧ RawChain V.Queues istart qs n ∧
      n + (l.genChunk V istart iend).2 = iend - istart := by
  unfold LdmState.genChunk
  dsimp only
  split
  · exact ⟨[], 0, .refl l, .nil, Nat.zero_add _⟩
  · next h =>
    obtain ⟨qs, n, hq, hchain, hend, hle⟩ := LdmState.scan_chain V (Nat.sub_le iend (max V.p.ldmMinMatch.toNat Config.hashRead))
      (iend - istart) l istart istart le_rfl (by have : Config.hashRead = 8 := rfl; omega)
    exact ⟨qs, n, hq, hchain, by dsimp only; omega⟩

end Sys2Proof.Machine
end

/-! ## The window of a chunk (R174, R175) -/

section
namespace Sys2Proof.Machine

open Sys2Proof

/-- The indices of a stretch of `k` bytes are at most `k` apart, wherever the window wraps. -/
theorem Window.idx_sub_le (aw : Nat) (w : Window) (a k : Nat) : w.idx aw (a + k) - w.idx aw a ≤ k := by
  have hlt := w.idx_lt aw (a + k)
  rcases Nat.lt_or_ge (w.idx aw a + k) (2 ^ aw) with h | h
  · rw [Window.idx_add h]
    omega
  · rcases Nat.lt_or_ge k (2 ^ aw) with hk | hk
    · have := Window.idx_add_wrapped hk h
      omega
    · omega

section
variable {mem : Memory} {aw ctr : Nat} {w : Window} {v : Nat}

theorem ldmByte_recent (hlow : w.dictLimit.toNat ≤ v) (hcur : v < w.cur aw) :
    ldmByte mem aw ctr w v = mem.read (addA aw w.base.toNat v) := if_pos ⟨hlow, hcur⟩

theorem ldmByte_dict (hlow : w.lowLimit.toNat ≤ v) (hdict : v < w.dictLimit.toNat) :
    ldmByte mem aw ctr w v = mem.read (addA aw w.dictBase.toNat v) := by
  rw [ldmByte, if_neg (by omega), if_pos ⟨hlow, hdict⟩]

end

/-- The window `w'` names the bytes of `w` by indices that are `c` lower; it may have dropped the lowest. -/
structure Window.Moved (mem : Memory) (aw ctr : Nat) (w w' : Window) (c : Nat) : Prop where
  nextSrc : w'.nextSrc = w.nextSrc
  idx : ∀ a, c ≤ w.idx aw a → w'.idx aw a = w.idx aw a - c
  low : w.lowLimit.toNat ≤ w'.lowLimit.toNat + c
  byte : ∀ v, w'.lowLimit.toNat ≤ v → v + c < w.cur aw → ldmByte mem aw ctr w' v = ldmByte mem aw ctr w (v + c)

section
variable {mem : Memory} {aw ctr c : Nat} {w w' : Window}

theorem Window.Moved.refl (mem : Memory) (aw ctr : Nat) (w : Window) : w.Moved mem aw ctr w 0 :=
  ⟨rfl, fun _ _ => rfl, le_rfl, fun _ _ _ => rfl⟩

theorem Window.Moved.cur (h : w.Moved mem aw ctr w' c) (hc : c ≤ w.cur aw) : w'.cur aw = w.cur aw - c := by
  rw [Window.cur_eq_idx, h.nextSrc]
  exact h.idx _ hc

theorem Window.Moved.trans {w'' : Window} {d : Nat} (h : w.Moved mem aw ctr w' c) (k : w'.Moved mem aw ctr w'' d) :
    w.Moved mem aw ctr w'' (c + d) where
  nextSrc := k.nextSrc.trans h.nextSrc
  idx := fun a ha => by
    have hc := h.idx a (by omega)
    rw [k.idx a (by omega), hc, Nat.sub_sub]
  low := by
    have := h.low
    have := k.low
    omega
  byte := fun v hlow hv => by
    have := k.low
    have hcur := h.cur (by omega)
    rw [k.byte v hlow (by omega), h.byte (v + d) (by omega) (by omega), Nat.add_assoc, Nat.add_comm d]

theorem addA_shifted {aw b c v : Nat} : addA aw ((b + c) % 2 ^ aw) v = addA aw b (v + c) := by
  rw [addA, addA, Nat.mod_add_mod, Nat.add_assoc, Nat.add_comm c]

/-- A correction moves every index down by the same amount (40_window.md R99). -/
theorem Window.moved_shift (haw : aw ≤ 64) (hc : c ≤ w.cur aw) : w.Moved mem aw ctr (w.shift aw c) c := by
  have hcur : (w.shift aw c).cur aw = w.cur aw - c := Window.idx_shift haw hc
  have hlow : (w.shift aw c).lowLimit.toNat = max 1 (w.lowLimit.toNat - c) := lowered_toNat_eq_max _ _
  have hdict : (w.shift aw c).dictLimit.toNat = max 1 (w.dictLimit.toNat - c) := lowered_toNat_eq_max _ _
  refine ⟨rfl, fun _ => Window.idx_shift haw, by omega, fun v hv hvc => ?_⟩
  rcases Nat.lt_or_ge v (w.shift aw c).dictLimit.toNat with h | h
  · rw [ldmByte_dict hv h, ldmByte_dict (by omega) (by omega), Window.shift_dictBase haw, addA_shifted]
  · rw [ldmByte_recent h (by omega), ldmByte_recent (by omega) hvc, Window.shift_base haw, addA_shifted]

/-- The distance limit drops bytes and moves none (40_window.md R94). -/
theorem Window.moved_enforce {e d : Nat} (h32 : e < 2 ^ 32) : w.Moved mem aw ctr (w.enforceMaxDist ctr e d 0) 0 := by
  unfold Window.enforceMaxDist
  split
  swap
  · exact .refl mem aw ctr w
  have hlow := Window.dropBelow_lowLimit (ctr := ctr) (w := w) (show e - d < 2 ^ 32 by omega)
  have hdict := Window.dropBelow_dictLimit ctr w (e - d)
  have hcur : (w.dropBelow ctr (e - d)).cur aw = w.cur aw := rfl
  refine ⟨rfl, fun _ _ => rfl, by omega, fun v hv hvc => ?_⟩
  rcases Nat.lt_or_ge v (w.dropBelow ctr (e - d)).dictLimit.toNat with h | h
  · rw [ldmByte_dict hv h, ldmByte_dict (by omega) (by omega)]
    rfl
  · rw [ldmByte_recent h (by omega), ldmByte_recent (by omega) hvc]
    rfl

end

/-! ### One chunk -/

/-- The LDM State a chunk at addresses `p` to `ce` is scanned with: corrected, and limited to the window (R174). -/
def ldmChunkStart (s : State) (l : LdmState) (p ce : Nat) : LdmState :=
  let l1 := if s.p.needsCorrection (l.w.idx s.impl.addrW ce) then
      l.correct s.impl.addrW (corrOf 0 s.p.windowSize (l.w.idx s.impl.addrW p))
    else l
  { l1 with w := l1.w.enforceMaxDist s.freeCtr (l1.w.idx s.impl.addrW ce) s.p.windowSize 0 }

/-- What the scan of a chunk reads. -/
def ldmChunkView (s : State) (w : Window) : LdmView :=
  { byte := ldmByte s.mem s.impl.addrW s.freeCtr w, low := w.lowLimit.toNat, p := s.p, hash := s.impl.ldmHash,
    ctr := s.freeCtr }

theorem ldmChunkStart_queued (s : State) (l : LdmState) (p ce : Nat) :
    (ldmChunkStart s l p ce).seq = l.seq ∧ (ldmChunkStart s l p ce).pos = l.pos ∧
      (ldmChunkStart s l p ce).remainder = l.remainder := by
  unfold ldmChunkStart
  dsimp only
  split <;> exact ⟨rfl, rfl, rfl⟩

/-- A chunk's window names the bytes the window before it named: a correction is below the index of `p`. -/
theorem ldmChunkStart_moved {s : State} {l : LdmState} {p ce : Nat} (mem : Memory) (haw : s.impl.addrW ≤ 64)
    (hp : l.w.idx s.impl.addrW p ≤ l.w.cur s.impl.addrW) (hce : l.w.idx s.impl.addrW ce < 2 ^ 32)
    (hle : l.w.idx s.impl.addrW p ≤ l.w.idx s.impl.addrW ce) :
    ∃ c, c ≤ l.w.idx s.impl.addrW p ∧ l.w.Moved mem s.impl.addrW s.freeCtr (ldmChunkStart s l p ce).w c := by
  have hcorr := corrOf_le 0 s.p.windowSize (l.w.idx s.impl.addrW p)
  unfold ldmChunkStart
  dsimp only
  split
  · have hshift := Window.moved_shift (mem := mem) (ctr := s.freeCtr) (w := l.w) haw
      (show corrOf 0 s.p.windowSize (l.w.idx s.impl.addrW p) ≤ _ by omega)
    refine ⟨_, by omega, hshift.trans (Window.moved_enforce ?_)⟩
    show (l.w.shift _ _).idx _ ce < _
    rw [hshift.idx ce (by omega)]
    omega
  · exact ⟨0, Nat.zero_le _, Window.moved_enforce hce⟩

/-- What a chunk adds to the queue: the chain of its scan, the literals left over before it going to the first sequence. -/
theorem ldmChunk_chain (s : State) (l : LdmState) (p ce leftover : Nat) :
    ∃ qs n tail, (ldmChunkStart s l p ce).Queued (ldmChunk s l p ce leftover).1 (addLeftover s.freeCtr leftover qs) ∧
      RawChain (ldmChunkView s (ldmChunkStart s l p ce).w).Queues ((ldmChunkStart s l p ce).w.idx s.impl.addrW p) qs n ∧
      n + tail = (ldmChunkStart s l p ce).w.idx s.impl.addrW ce - (ldmChunkStart s l p ce).w.idx s.impl.addrW p ∧
      (ldmChunk s l p ce leftover).2 = if qs = [] then leftover + (ce - p) else tail := by
  have hdef : ldmChunk s l p ce leftover =
      let l2 := ldmChunkStart s l p ce
      let r := l2.genChunk (ldmChunkView s l2.w) (l2.w.idx s.impl.addrW p) (l2.w.idx s.impl.addrW ce)
      if l2.seq.length < r.1.seq.length then
        ({ r.1 with seq := r.1.seq.take l2.seq.length ++ addLeftover s.freeCtr leftover (r.1.seq.drop l2.seq.length) }, r.2)
      else (r.1, leftover + (ce - p)) := rfl
  rw [hdef]
  dsimp only
  generalize ldmChunkStart s l p ce = l2
  obtain ⟨qs, n, hq, hchain, hend⟩ := l2.genChunk_chain (ldmChunkView s l2.w) (l2.w.idx s.impl.addrW p)
    (l2.w.idx s.impl.addrW ce)
  generalize l2.genChunk (ldmChunkView s l2.w) (l2.w.idx s.impl.addrW p) (l2.w.idx s.impl.addrW ce) = r at hq hend ⊢
  refine ⟨qs, n, r.2, ?_⟩
  cases qs with
  | nil =>
    rw [if_neg (by rw [hq.seq, List.append_nil]; exact lt_irrefl _), if_pos rfl]
    exact ⟨hq, hchain, hend, rfl⟩
  | cons q qs =>
    rw [if_pos (by rw [hq.seq, List.length_append, List.length_cons]; omega), if_neg (List.cons_ne_nil q qs)]
    refine ⟨⟨?_, hq.w, hq.pos, hq.remainder⟩, hchain, hend, rfl⟩
    rw [hq.seq, List.take_left, List.drop_left]

end Sys2Proof.Machine
end

/-! ## LDM_GENERATE completes (R174) -/

section
namespace Sys2Proof.Machine

open Sys2Proof

/-- The bytes LDM_GENERATE is given have their indices in the LDM window. -/
def State.LdmInside (s : State) : Prop :=
  s.ldm.w.cur s.impl.addrW < 2 ^ 32 ∧
    s.ldm.w.idx s.impl.addrW s.op0.toNat + s.op1.toNat ≤ s.ldm.w.cur s.impl.addrW

/-- A match LDM_GENERATE may queue, in the indices of the LDM window it starts with. -/
def State.LdmQueues (s : State) (p len off : Nat) : Prop :=
  s.p.ldmMinMatch.toNat ≤ len ∧
    (s.LdmInside → RawMatch (ldmByte s.mem s.impl.addrW s.freeCtr s.ldm.w) s.ldm.w.lowLimit.toNat p len off)

/-- Between two chunks of LDM_GENERATE, at address `p`: the queue and the leftover literals describe no more than the bytes up to
`p`, and exactly these when they lie inside the window, which names them as the window at the start does. -/
structure State.LdmGenerated (s : State) (p leftover : Nat) (l : LdmState) : Prop where
  pos : l.pos = 0
  remainder : l.remainder = s.ldm.remainder
  chain : ∃ n, RawChain s.LdmQueues (s.ldm.w.idx s.impl.addrW s.op0.toNat) l.seq n ∧ s.op0.toNat + n + leftover ≤ p ∧
    (s.LdmInside → s.op0.toNat + n + leftover = p)
  moved : s.LdmInside → ∃ c, c ≤ s.ldm.w.idx s.impl.addrW p ∧ s.ldm.w.Moved s.mem s.impl.addrW s.freeCtr l.w c

/-- A match in a moved window is one in the window it came from. -/
theorem RawMatch.of_moved {mem : Memory} {aw ctr c p len off : Nat} {w w' : Window} (hm : w.Moved mem aw ctr w' c)
    (hend : p + len + c ≤ w.cur aw) (h : RawMatch (ldmByte mem aw ctr w') w'.lowLimit.toNat p len off) :
    RawMatch (ldmByte mem aw ctr w) w.lowLimit.toNat (p + c) len off := by
  obtain ⟨hpos, hreach, heq⟩ := h
  have hlow := hm.low
  refine ⟨hpos, by omega, fun x hx hlt => ?_⟩
  obtain ⟨y, rfl⟩ := Nat.exists_eq_add_of_le' (show c ≤ x by omega)
  rw [← hm.byte y (by omega) (by omega), heq y (by omega) (by omega), hm.byte (y - off) (by omega) (by omega)]
  congr 1
  omega

section
variable {s : State} (haw : 32 ≤ s.impl.addrW ∧ s.impl.addrW ≤ 64)
include haw

theorem State.LdmInside.idx (hi : s.LdmInside) {a : Nat} (h1 : s.op0.toNat ≤ a) (h2 : a ≤ s.op0.toNat + s.op1.toNat) :
    s.ldm.w.idx s.impl.addrW a = s.ldm.w.idx s.impl.addrW s.op0.toNat + (a - s.op0.toNat) := by
  obtain ⟨h32, hend⟩ := hi
  have hpow : 2 ^ 32 ≤ 2 ^ s.impl.addrW := Nat.pow_le_pow_right (by norm_num) haw.1
  rw [← Window.idx_add (by omega), Nat.add_sub_cancel' h1]

variable {l : LdmState} {p ce leftover : Nat} (h : s.LdmGenerated p leftover l) (hp : s.op0.toNat ≤ p) (hce : p ≤ ce)
  (hstop : ce ≤ s.op0.toNat + s.op1.toNat)
include h hp hce hstop

/-- The window a chunk is scanned with names the bytes of the window at the start, and the chunk in it. -/
theorem State.LdmGenerated.chunkStart (hi : s.LdmInside) :
    ∃ c, s.ldm.w.Moved s.mem s.impl.addrW s.freeCtr (ldmChunkStart s l p ce).w c ∧
      (ldmChunkStart s l p ce).w.idx s.impl.addrW p + c = s.ldm.w.idx s.impl.addrW p ∧
      (ldmChunkStart s l p ce).w.idx s.impl.addrW ce + c = s.ldm.w.idx s.impl.addrW ce := by
  obtain ⟨c, hc, hm⟩ := h.moved hi
  have hidxP := hi.idx haw hp (hce.trans hstop)
  have hidxCe := hi.idx haw (hp.trans hce) hstop
  obtain ⟨h32, hend⟩ := hi
  have hP := hm.idx p hc
  have hCe := hm.idx ce (by omega)
  have hcur := hm.cur (by omega)
  obtain ⟨d, hd, hm'⟩ := ldmChunkStart_moved (l := l) (p := p) (ce := ce) s.mem haw.2 (by omega) (by omega) (by omega)
  have hP' := hm'.idx p hd
  have hCe' := hm'.idx ce (by omega)
  exact ⟨c + d, hm.trans hm', by omega, by omega⟩

theorem State.LdmGenerated.chunk :
    s.LdmGenerated ce (ldmChunk s l p ce leftover).2 (ldmChunk s l p ce leftover).1 := by
  have hstart := h.chunkStart haw hp hce hstop
  obtain ⟨hpos, hrem, ⟨n, hchain, hle, hexact⟩, _⟩ := h
  obtain ⟨qs, k, tail, hq, hnew, htail, hleft⟩ := ldmChunk_chain s l p ce leftover
  obtain ⟨hseq0, hpos0, hrem0⟩ := ldmChunkStart_queued s l p ce
  have hspan : k + tail ≤ ce - p := by
    have := (ldmChunkStart s l p ce).w.idx_sub_le s.impl.addrW p (ce - p)
    rwa [Nat.add_sub_cancel' hce, ← htail] at this
  have hmove : RawChain s.LdmQueues (s.ldm.w.idx s.impl.addrW s.op0.toNat + n + leftover) qs k := by
    refine hnew.move fun j len off hj hm' => ⟨hm'.1, fun hi => ?_⟩
    obtain ⟨c, hm, hP, hCe⟩ := hstart hi
    have hidxP := hi.idx haw hp (hce.trans hstop)
    have hidxCe := hi.idx haw (hp.trans hce) hstop
    have hx := hexact hi
    have hend := hi.2
    rw [show s.ldm.w.idx s.impl.addrW s.op0.toNat + n + leftover + j =
      (ldmChunkStart s l p ce).w.idx s.impl.addrW p + j + c by omega]
    exact hm'.2.of_moved hm (by omega)
  refine ⟨(hq.pos.trans hpos0).trans hpos, (hq.remainder.trans hrem0).trans hrem, ?_, fun hi => ?_⟩
  · rw [hq.seq, hseq0, hleft]
    split
    · next hnil =>
      rw [hnil]
      exact ⟨n, (List.append_nil l.seq).symm ▸ hchain, by omega, fun hi => by have := hexact hi; omega⟩
    · next hne =>
      refine ⟨n + (leftover + k), hchain.append (hmove.addLeftover hne _), by omega, fun hi => ?_⟩
      obtain ⟨c, _, hP, hCe⟩ := hstart hi
      have hidxP := hi.idx haw hp (hce.trans hstop)
      have hidxCe := hi.idx haw (hp.trans hce) hstop
      have hx := hexact hi
      omega
  · obtain ⟨c, hm, _, hCe⟩ := hstart hi
    exact ⟨c, hCe ▸ Nat.le_add_left c _, hq.w ▸ hm⟩

end

theorem ldmChunks_generated {s : State} (haw : 32 ≤ s.impl.addrW ∧ s.impl.addrW ≤ 64) :
    ∀ (fuel : Nat) (l : LdmState) (p leftover : Nat), s.op0.toNat ≤ p → p ≤ s.op0.toNat + s.op1.toNat →
      s.LdmGenerated p leftover l → ∃ p' leftover', p' ≤ s.op0.toNat + s.op1.toNat ∧
        s.LdmGenerated p' leftover' (ldmChunks s (s.op0.toNat + s.op1.toNat) fuel l p leftover)
  | 0, _, p, leftover, _, hend, h => ⟨p, leftover, hend, h⟩
  | fuel + 1, l, p, leftover, hp, hend, h => by
    rw [ldmChunks]
    split
    · exact ldmChunks_generated haw fuel _ _ _ (by omega) (by omega)
        (h.chunk haw hp (by omega) (min_le_left _ _))
    · exact ⟨p, leftover, hend, h⟩

/-- What LDM_GENERATE leaves: a chain of at most the bytes it was given. -/
theorem ldmGenerate_chain {s : State} (haw : 32 ≤ s.impl.addrW ∧ s.impl.addrW ≤ 64) :
    (ldmGenerate s s.op0.toNat s.op1.toNat).pos = 0 ∧
    (ldmGenerate s s.op0.toNat s.op1.toNat).remainder = s.ldm.remainder ∧
    ∃ n, n ≤ s.op1.toNat ∧ RawChain s.LdmQueues (s.ldm.w.idx s.impl.addrW s.op0.toNat)
      (ldmGenerate s s.op0.toNat s.op1.toNat).seq n := by
  obtain ⟨p, leftover, hp, hpos, hrem, ⟨n, hchain, hle, _⟩, _⟩ :=
    ldmChunks_generated haw (s.op1.toNat / s.impl.ldmChunk + 1)
      { s.ldm with seq := [], pos := 0, queueSrc := some (BitVec.ofNat 64 s.op0.toNat) } s.op0.toNat 0 le_rfl
      (Nat.le_add_right _ _)
      ⟨rfl, rfl, ⟨0, .nil, le_rfl, fun _ => rfl⟩, fun _ => ⟨0, Nat.zero_le _, .refl ..⟩⟩
  exact ⟨hpos, hrem, n, by omega, hchain⟩

/-- Settles O42: the queue is a chain of compared matches (`ldmGenerate_chain`), whose places are the sums of the lengths before
them (`RawChain.get`). -/
theorem ldmGenerateCompletes : Obligations.LdmGenerateCompletes := by
  intro s hr henable hspan hcap hleg
  obtain ⟨t, ht, rfl⟩ := exec_worked (i := .ldmGenerate) hr (isIO_eq _) rfl nofun
    (and_both (and_both henable hspan) (decide_eq_true hcap))
  obtain ⟨hpos, hrem, n, hn, hchain⟩ := ldmGenerate_chain (s := s) (Impl.legal_addrW hleg)
  refine ⟨_, ht, rfl, rfl, hpos, hrem, hchain.rawLength_le.trans hn, fun h32 q hq => ?_, ?_⟩
  · obtain ⟨k, hk⟩ := List.mem_iff_getElem?.mp hq
    obtain ⟨_, _, _, hlong, _⟩ := hchain.get (by omega) hk
    exact hlong
  · intro aw i hcur hend k q hk p byte
    obtain ⟨hle, off, hoff, _, hreal⟩ := hchain.get (by omega) hk
    obtain ⟨hpos, hreach, heq⟩ := hreal ⟨hcur, hend⟩
    change off + _ ≤ p at hreach
    have hp : p = i + rawLength ((ldmGenerate s s.op0.toNat s.op1.toNat).seq.take k) + q.litLength.toNat := rfl
    rw [hoff.2 (by omega)]
    exact ⟨hpos, hreach, fun j hj => heq (p + j) (Nat.le_add_right p j) (Nat.add_lt_add_left hj p)⟩

end Sys2Proof.Machine
end

/-! ## A block matched in pieces (R177) -/

section
namespace Sys2Proof.Machine

open Sys2Proof

/-- The work stands at `anchor` of a block that began at `istart` with the store `q`, and there is no room for a second long
length. -/
abbrev Work.Fits (q : SeqStore) (istart anchor : Nat) (w : Work) : Prop :=
  Log.Fits q istart (.of w { ip := anchor, anchor := anchor, o1 := 0, o2 := 0 })

/-- Candidates of a block's start are candidates further on, so a run over a part of the block is one of the block. -/
theorem View.Appends.widen {V : View} {istart ip iend : Nat} {l l' : Log} (hip : istart ≤ ip) (h : V.Appends ip iend l l') :
    V.Appends istart iend l l' := by
  cases h with
  | intro running use long stop copies => exact .intro running use long stop fun hV => copies (hV.mono hip)

theorem View.Runs.widen {V : View} {istart ip iend : Nat} {l l' : Log} (h : V.Runs ip iend l l') (hip : istart ≤ ip) :
    V.Runs istart iend l l' := Relation.ReflTransGen.mono (fun _ _ => View.Appends.widen hip) _ _ h

theorem View.Runs.le_anchor {V : View} {istart iend : Nat} {l l' : Log} (h : V.Runs istart iend l l') :
    l.anchor ≤ l'.anchor := by
  induction h with
  | refl => exact le_rfl
  | tail _ hstep ih =>
    cases hstep with
    | intro _ _ _ _ _ => exact ih.trans ((Nat.le_add_right _ _).trans (Nat.le_add_right _ _))

section
variable {q : SeqStore} {istart ip : Nat} {w : Work}

/-- The same with what stands in the store now as what the block began with. -/
theorem Work.Fits.own (h : w.Fits q istart ip) : w.Fits w.seq istart ip :=
  ⟨h.running, h.start, h.longLit, h.longMatch, List.prefix_rfl, List.prefix_rfl⟩

/-- The layout's matcher on a part of a block. -/
theorem blkCore_fits (V : View) {stop : Nat} (h : w.Fits q istart ip) (hip : ip ≤ stop) (hn : stop ≤ istart + 2 ^ 17)
    (rep : Reps) : (blkCore V w ip stop rep).work.Fits q istart (blkCore V w ip stop rep).anchor ∧
      ip ≤ (blkCore V w ip stop rep).anchor ∧ (blkCore V w ip stop rep).anchor ≤ stop := by
  obtain ⟨hok, hstart, hlit, hmatch, hseqs, hlits⟩ := h
  obtain ⟨m, l, hrun, hcore⟩ := blkCore_runs V hok ip stop rep
  have hfits := (hrun.widen hstart).fits hn ⟨rfl, hstart, hlit, hmatch, hseqs, hlits⟩
  rw [hcore]
  exact ⟨⟨hfits.running, hfits.start, hfits.longLit, hfits.longMatch, hfits.seqs, hfits.lit⟩, hrun.le_anchor,
    hrun.anchor_le hip⟩

/-- `StoreSeq` of a sequence inside the block. -/
theorem Work.Fits.store (V : View) {ll oc len : Nat} (h : w.Fits q istart ip) (hlen : 3 ≤ len)
    (hn : ip + ll + len ≤ istart + 2 ^ 17) :
    (w.store V ll ip oc (len - 3)).Fits q istart (ip + ll + len) ∧
      (w.store V ll ip oc (len - 3)).seq = w.seq.push V.byte ll ip oc (len - 3) := by
  obtain ⟨_, hstart, hlit, hmatch, hseqs, hlits⟩ := h
  dsimp only [Log.of] at hstart hlit hmatch hseqs hlits
  rcases w.seq.store_cases V.byte ll ip oc (len - 3) with ⟨⟨hll, hsome⟩ | ⟨hml, hsome⟩, _⟩ | ⟨_, hstore⟩
  · have := isLong_iff.mp hll
    have := hlit hsome
    omega
  · have := isLong_iff.mp hml
    have := hmatch hsome
    omega
  · unfold Work.store
    rw [hstore]
    refine ⟨⟨rfl, hstart.trans ?_, fun h => ?_, fun h => ?_, hseqs.trans (List.prefix_append _ _),
      hlits.trans (List.prefix_append _ _)⟩, rfl⟩
    · exact (Nat.le_add_right _ _).trans (Nat.le_add_right _ _)
    · have := (longAfter_isSome h).imp_right hlit
      dsimp only [Log.of]
      omega
    · have := (longAfter_isSome h).imp_right hmatch
      dsimp only [Log.of]
      omega

end

/-! ### LdmNext (R180, R181) -/

/-- A sequence that ends inside the bytes left is taken whole. -/
theorem ldmNext_whole {q : RawSeq} {R : Nat} (h : q.litLength.toNat + q.matchLength.toNat ≤ R) (minMatch ctr : Nat)
    (qs : List RawSeq) : ldmNext minMatch ctr R (q :: qs) =
      ((q.litLength.toNat, q.matchLength.toNat, q.offset.toNat), { passed := [q], rest := qs }) := if_pos h

/-- A longer one is cut at the end of the bytes left, or not used. -/
theorem ldmNext_cut {q : RawSeq} {R : Nat} (h : R < q.litLength.toNat + q.matchLength.toNat) (minMatch ctr : Nat)
    (qs : List RawSeq) : ∃ ml off, ldmNext minMatch ctr R (q :: qs) =
      ((q.litLength.toNat, ml, off), ldmSkip minMatch ctr R (q :: qs)) ∧ R ≤ q.litLength.toNat + ml ∧
        (off ≠ 0 → q.litLength.toNat + ml = R ∧ minMatch ≤ ml) := by
  rw [ldmNext, if_neg (Nat.not_le.mpr h)]
  split
  · next hlit => exact ⟨_, _, rfl, hlit.trans (Nat.le_add_right _ _), fun h0 => absurd rfl h0⟩
  · next hlit =>
    refine ⟨_, _, rfl, by omega, fun h0 => ⟨by omega, ?_⟩⟩
    split at h0
    · exact absurd rfl h0
    · next hmin => exact Nat.le_of_not_lt hmin

/-! ### The loop of LdmBlkMatch -/

/-- The run once a raw sequence is taken: the layout's matcher on its literals, then the sequence stored (R177). -/
def LdmRun.take (V : View) (r : LdmRun) (lit ml off taken : Nat) (c : QueueCut) : LdmRun :=
  let b := blkCore V r.work r.ip (r.ip + lit) r.rep
  { work := b.work.store V (r.ip + lit - b.anchor) b.anchor (off + 3) (ml - 3)
    rep := { r0 := BitVec.ofNat 32 off, r1 := b.rep.r0, r2 := b.rep.r1 }
    ip := r.ip + lit + ml, taken := r.taken + taken, queue := r.queue.step c }

section
variable {V : View} {ctr iend lit ml off : Nat} {r : LdmRun} {c : QueueCut}

theorem ldmSplit_end (h : r.queue.rest = [] ∨ iend ≤ r.ip) (V : View) (ctr k : Nat) : ldmSplit V ctr iend k r = r := by
  cases k with
  | zero => rfl
  | succ k =>
    rw [ldmSplit, if_neg]
    rintro ⟨_, hne, hlt⟩
    exact h.elim hne fun h => absurd hlt (Nat.not_lt.mpr h)

variable (hok : r.work.failed = false) (hne : r.queue.rest ≠ []) (hlt : r.ip < iend)
include hok hne hlt

/-- No usable match in what remains: the loop ends, the queue is consumed up to there. -/
theorem ldmSplit_break (hnext : ldmNext V.p.minMatch.toNat ctr (iend - r.ip) r.queue.rest = ((lit, ml, 0), c)) (k : Nat) :
    ldmSplit V ctr iend (k + 1) r =
      { r with taken := r.taken + min (iend - r.ip) (lit + ml), queue := r.queue.step c } := by
  rw [ldmSplit, if_pos ⟨by simp [hok], hne, hlt⟩, hnext]
  rfl

theorem ldmSplit_take (hnext : ldmNext V.p.minMatch.toNat ctr (iend - r.ip) r.queue.rest = ((lit, ml, off), c))
    (hoff : off ≠ 0) (hcore : (blkCore V r.work r.ip (r.ip + lit) r.rep).work.failed = false) (k : Nat) :
    ldmSplit V ctr iend (k + 1) r = ldmSplit V ctr iend k (r.take V lit ml off (min (iend - r.ip) (lit + ml)) c) := by
  rw [ldmSplit, if_pos ⟨by simp [hok], hne, hlt⟩, hnext]
  dsimp only
  rw [if_neg hoff, if_neg (by simp [hcore])]
  rfl

end

/-- The matcher's run on the literals of a sequence inside the block, and the sequence stored. -/
theorem LdmRun.take_fits {V : View} {q : SeqStore} {istart lit ml : Nat} {r : LdmRun} (h : r.work.Fits q istart r.ip)
    (hml : 3 ≤ ml) (hn : r.ip + lit + ml ≤ istart + 2 ^ 17) (off taken : Nat) (c : QueueCut) :
    let b := blkCore V r.work r.ip (r.ip + lit) r.rep
    b.work.failed = false ∧ (r.take V lit ml off taken c).work.Fits q istart (r.take V lit ml off taken c).ip ∧
      (r.take V lit ml off taken c).work.seq =
        b.work.seq.push V.byte (r.ip + lit - b.anchor) b.anchor (off + 3) (ml - 3) := by
  intro b
  obtain ⟨hfits, _, hstop⟩ := blkCore_fits V h (Nat.le_add_right r.ip lit) (by omega) r.rep
  have hend : b.anchor + (r.ip + lit - b.anchor) = r.ip + lit := Nat.add_sub_cancel' hstop
  have hstore := hfits.store V (ll := r.ip + lit - b.anchor) (oc := off + 3) hml (by rwa [hend])
  rw [hend] at hstore
  exact ⟨hfits.running, hstore⟩

/-- What the loop makes of a run `r`: the queue's entries are passed or left, and the bytes consumed from it lie in the block;
they are all it describes of the block, unless an entry with no offset ended the loop. -/
structure LdmRun.Splits (q : SeqStore) (istart iend : Nat) (r r' : LdmRun) : Prop where
  fits : r'.work.Fits q istart r'.ip
  stop : r'.ip ≤ iend
  passed : ∃ ps, r'.queue.passed = r.queue.passed ++ ps ∧ ps.length + r'.queue.rest.length = r.queue.rest.length
  taken : ∃ m, r'.taken = r.taken + m ∧ m ≤ iend - r.ip ∧ ((∀ x ∈ r.queue.rest, x.offset ≠ 0) →
    m = min (iend - r.ip) (rawLength r.queue.rest) ∧ (rawLength r.queue.rest ≤ iend - r.ip → r'.queue.rest = []))

theorem LdmRun.Splits.refl {q : SeqStore} {istart iend : Nat} {r : LdmRun} (h : r.work.Fits q istart r.ip)
    (hip : r.ip ≤ iend) (hend : r.queue.rest = [] ∨ (iend = r.ip ∧ 0 < rawLength r.queue.rest)) :
    r.Splits q istart iend r := by
  refine ⟨h, hip, ⟨[], by simp⟩, 0, rfl, Nat.zero_le _, fun _ => ?_⟩
  rcases hend with hnil | ⟨hip, hpos⟩
  · simp [hnil, rawLength]
  · exact ⟨by omega, fun h => absurd h (by omega)⟩

/-- A whole sequence taken, and what the loop makes of the run after it. -/
theorem LdmRun.Splits.of_take {V : View} {q : SeqStore} {istart iend : Nat} {r r' : LdmRun} {x : RawSeq} {xs : List RawSeq}
    (hrest : r.queue.rest = x :: xs) (hwhole : x.litLength.toNat + x.matchLength.toNat ≤ iend - r.ip)
    (h : (r.take V x.litLength.toNat x.matchLength.toNat x.offset.toNat
      (min (iend - r.ip) (x.litLength.toNat + x.matchLength.toNat)) { passed := [x], rest := xs }).Splits q istart iend r') :
    r.Splits q istart iend r' := by
  obtain ⟨hfits, hstop, ⟨ps, hps, hlen⟩, m, hm, hmle, hall⟩ := h
  dsimp only [LdmRun.take, QueueCut.step] at hps hlen hm hmle hall
  refine ⟨hfits, hstop, ⟨x :: ps, ?_, ?_⟩, x.litLength.toNat + x.matchLength.toNat + m, by omega, by omega, fun hnz => ?_⟩
  · rw [hps, List.append_assoc, List.singleton_append]
  · rw [hrest, List.length_cons, List.length_cons, ← hlen]
    omega
  · rw [hrest] at hnz ⊢
    obtain ⟨hm', hnil⟩ := hall fun y hy => hnz y (List.mem_cons_of_mem x hy)
    rw [rawLength]
    exact ⟨by omega, fun h => hnil (by omega)⟩

/-- Every turn of the loop takes a whole sequence, or cuts one at the block's end, or finds one without an offset. -/
theorem ldmSplit_splits {V : View} {ctr istart iend : Nat} {q : SeqStore} (hmin : 3 ≤ V.p.minMatch.toNat)
    (hn : iend ≤ istart + 2 ^ 17) : ∀ (k : Nat) (r : LdmRun), r.work.Fits q istart r.ip → r.ip ≤ iend →
      (∀ x ∈ r.queue.rest, 3 ≤ x.matchLength.toNat) → r.queue.rest.length < k →
      r.Splits q istart iend (ldmSplit V ctr iend k r)
  | k + 1, r, hfits, hip, hlong, hk => by
    rcases hrest : r.queue.rest with _ | ⟨x, xs⟩
    · rw [ldmSplit_end (.inl hrest)]
      exact .refl hfits hip (.inl hrest)
    have hx := hlong x (hrest ▸ List.mem_cons_self)
    have hraw : rawLength r.queue.rest = x.litLength.toNat + x.matchLength.toNat + rawLength xs := by rw [hrest, rawLength]
    rcases Nat.lt_or_ge r.ip iend with hlt | hge
    swap
    · rw [ldmSplit_end (.inr hge)]
      exact .refl hfits hip (.inr ⟨by omega, by omega⟩)
    have hne : r.queue.rest ≠ [] := hrest ▸ List.cons_ne_nil x xs
    rcases Nat.lt_or_ge (iend - r.ip) (x.litLength.toNat + x.matchLength.toNat) with hcut | hwhole
    · obtain ⟨ml, off, hnext, hle, huse⟩ := ldmNext_cut hcut V.p.minMatch.toNat ctr xs
      have hlen := ldmSkip_length V.p.minMatch.toNat ctr (iend - r.ip) (x :: xs)
      rw [← hrest] at hnext hlen
      have hall (_ : ∀ y ∈ r.queue.rest, y.offset ≠ 0) : min (iend - r.ip) (x.litLength.toNat + ml) =
          min (iend - r.ip) (rawLength r.queue.rest) ∧ (rawLength r.queue.rest ≤ iend - r.ip →
            (ldmSkip V.p.minMatch.toNat ctr (iend - r.ip) r.queue.rest).rest = []) :=
        ⟨by omega, fun h => absurd h (by omega)⟩
      by_cases hoff : off = 0
      · subst hoff
        rw [ldmSplit_break hfits.running hne hlt hnext]
        exact ⟨hfits, hip, ⟨_, rfl, hlen⟩, _, rfl, min_le_left _ _, hall⟩
      · obtain ⟨hend, hml⟩ := huse hoff
        obtain ⟨hcore, htake, _⟩ := LdmRun.take_fits (V := V) (lit := x.litLength.toNat) hfits (hmin.trans hml) (by omega) off
          (min (iend - r.ip) (x.litLength.toNat + ml)) (ldmSkip V.p.minMatch.toNat ctr (iend - r.ip) r.queue.rest)
        have hip' : r.ip + x.litLength.toNat + ml = iend := by omega
        rw [ldmSplit_take hfits.running hne hlt hnext hoff hcore, ldmSplit_end (.inr hip'.ge)]
        exact ⟨htake, hip'.le, ⟨_, rfl, hlen⟩, _, rfl, min_le_left _ _, hall⟩
    · have hnext := ldmNext_whole hwhole V.p.minMatch.toNat ctr xs
      rw [← hrest] at hnext
      by_cases hoff : x.offset.toNat = 0
      · rw [hoff] at hnext
        rw [ldmSplit_break hfits.running hne hlt hnext]
        refine ⟨hfits, hip, ⟨[x], rfl, ?_⟩, _, rfl, min_le_left _ _, fun hnz => ?_⟩
        · rw [hrest]
          exact Nat.add_comm _ _
        · exact absurd (BitVec.eq_of_toNat_eq hoff) (hnz x (hrest ▸ List.mem_cons_self))
      · obtain ⟨hcore, htake, _⟩ := LdmRun.take_fits (V := V) (lit := x.litLength.toNat) hfits hx (by omega) x.offset.toNat
          (min (iend - r.ip) (x.litLength.toNat + x.matchLength.toNat)) { passed := [x], rest := xs }
        rw [hrest, List.length_cons] at hk
        rw [ldmSplit_take hfits.running hne hlt hnext hoff hcore]
        exact .of_take hrest hwhole (ldmSplit_splits hmin hn k _ htake
          (show r.ip + x.litLength.toNat + x.matchLength.toNat ≤ iend by omega)
          (fun y hy => hlong y (hrest ▸ List.mem_cons_of_mem x hy)) (Nat.lt_of_succ_lt_succ hk))

end Sys2Proof.Machine
end

/-! ## LDM_BLK_MATCH completes (R177) -/

section
namespace Sys2Proof.Machine

open Sys2Proof

/-! ### The end of a matcher command -/

/-- The state a matcher command ends with when no `StoreSeq` failed. -/
def State.matched (s : State) (iend : Nat) (m : MatchRun) : State :=
  ((((s.withWork m.work).setNextRep m.rep).setRes0 (iend - m.anchor)).setRes1
    (addA s.impl.addrW s.w.base.toNat m.anchor)).withCode 0

theorem finishMatch_of {m : MatchRun} (h : m.work.failed = false) (s : State) (iend : Nat) :
    (finishMatch s iend m).outcome = .next (s.matched iend m) := by
  rw [finishMatch, if_neg (by simp [h])]
  rfl

@[simp] theorem State.matched_ms (s : State) (iend : Nat) (m : MatchRun) : (s.matched iend m).ms = m.work.ms := by
  simp [State.matched, State.setNextRep]

@[simp] theorem State.matched_ldm (s : State) (iend : Nat) (m : MatchRun) : (s.matched iend m).ldm = s.ldm := by
  simp [State.matched, State.setNextRep]

/-- The end of a matcher command does not look at the LDM State. -/
theorem State.matched_setLdm (s : State) (l : LdmState) (iend : Nat) (m : MatchRun) :
    { ({ s with ldm := l } : State).matched iend m with ldm := s.ldm } = s.matched iend m := by
  unfold State.matched State.setNextRep State.setNextBs State.withWork
  dsimp only
  split <;> rfl

/-! ### The queue after the command -/

/-- The entries before `pos` stay, and so does the number of entries, the walk having passed or left every one. -/
theorem LdmState.consume_lengths {l : LdmState} {c : QueueCut} (hpos : l.pos ≤ l.seq.length)
    (h : c.passed.length + c.rest.length = l.pending.length) (n : Nat) :
    l.pos ≤ (l.consume c n).pos ∧ (l.consume c n).pos ≤ (l.consume c n).seq.length ∧
      (l.consume c n).seq.length = l.seq.length ∧ (l.consume c n).seq.take l.pos = l.seq.take l.pos := by
  have htake : (l.seq.take l.pos).length = l.pos := List.length_take_of_le hpos
  rw [LdmState.pending, List.length_drop] at h
  simp only [LdmState.consume, List.append_assoc]
  refine ⟨Nat.le_add_right _ _, ?_, ?_, List.take_left' htake⟩ <;> simp only [List.length_append, htake] <;> omega

/-- With nothing pending the walk leaves the queue. -/
theorem LdmState.consume_nothing {l : LdmState} (h : l.pending = []) (n : Nat) :
    (l.consume { passed := [], rest := l.pending } n).seq = l.seq := by
  rw [h]
  simp only [LdmState.consume, List.append_nil]
  exact List.take_of_length_le (List.drop_eq_nil_iff.mp h)

/-! ### The launch -/

/-- The loop of LDM_BLK_MATCH at its start. -/
def State.ldmStart (s : State) : LdmRun :=
  { work := s.blockWork, rep := s.prev.rep, ip := s.idx s.op0.toNat, taken := 0,
    queue := { passed := [], rest := s.ldm.pending } }

/-- The loop at its end. -/
def State.ldmEnd (s : State) : LdmRun :=
  ldmSplit s.view s.freeCtr (s.idx s.op0.toNat + s.op1.toNat) (s.ldm.pending.length + 1) s.ldmStart

/-- The rest of the block, matched by the layout's matcher. -/
def State.ldmRest (s : State) : MatchRun :=
  blkCore s.view s.ldmEnd.work s.ldmEnd.ip (s.idx s.op0.toNat + s.op1.toNat) s.ldmEnd.rep

section
variable {s : State} (hr : s.Ready)
include hr

theorem exec_blkMatch_of (ho : s.blockOk s.op0 s.op1 = true)
    (hok : (blkMatch s (s.idx s.op0.toNat) s.op1.toNat s.prev.rep).work.failed = false) :
    exec .blkMatch s = .next (s.matched (s.idx s.op0.toNat + s.op1.toNat)
      (blkMatch s (s.idx s.op0.toNat) s.op1.toNat s.prev.rep)) := by
  change execBlkMatch s = _
  rw [execBlkMatch, gatedIO_of hr, require_of ho]
  exact finishMatch_of hok _ _

/-- LDM_BLK_MATCH when its checks and its launch conditions hold and no `StoreSeq` fails. -/
theorem exec_ldmBlkMatch_completes (he : s.p.ldmEnable = true) (ho : s.blockOk s.op0 s.op1 = true)
    (hq : s.queueHere s.op0 = true) (hbelow : s.queueReachesBelow s.op0 = false) (hend : s.ldmEnd.work.failed = false)
    (hrest : s.ldmRest.work.failed = false) :
    exec .ldmBlkMatch s = .next (({ s with ldm := s.ldm.consume s.ldmEnd.queue s.ldmEnd.taken } : State).matched
      (s.idx s.op0.toNat + s.op1.toNat) s.ldmRest) := by
  have hrun : ldmBlkMatch s (s.idx s.op0.toNat) s.op1.toNat s.prev.rep =
      (s.ldmRest, s.ldm.consume s.ldmEnd.queue s.ldmEnd.taken) := by
    change (if s.ldmEnd.work.failed then _ else s.ldmRest, _) = _
    rw [if_neg (by simp [hend])]
    rfl
  change execLdmBlkMatch s = _
  rw [execLdmBlkMatch, gatedIO_of hr, require_of he, require_of ho, hq, hbelow, hrun]
  exact finishMatch_of hrest _ _

end

/-! ### The block -/

theorem State.ldmEnd_kept (s : State) : TablesKept s.ms s.ldmEnd.work.ms := ldmSplit_kept _ _ _ _ s.ldmStart s.blockWork_kept

/-- With nothing pending the loop ends where it starts, and the rest of the block is the block. -/
theorem State.ldmRest_of_nothing {s : State} (h : s.ldm.pending = []) : s.ldmEnd = s.ldmStart ∧
    s.ldmRest = blkMatch s (s.idx s.op0.toNat) s.op1.toNat s.prev.rep := by
  have hstart : s.ldmEnd = s.ldmStart := ldmSplit_end (.inl h) ..
  refine ⟨hstart, ?_⟩
  rw [State.ldmRest, hstart]
  rfl

/-- The work of a block with no long length in the store. -/
theorem State.blockWork_fits {s : State} (hlit : s.seq.longLit = none) (hmatch : s.seq.longMatch = none) (i : Nat) :
    s.blockWork.Fits s.seq i i :=
  ⟨rfl, le_rfl, fun h => absurd h (by simp [Log.of, State.blockWork, hlit]),
    fun h => absurd h (by simp [Log.of, State.blockWork, hmatch]), List.prefix_rfl, List.prefix_rfl⟩

theorem Latched.three_le_minMatch {p : Latched} (h : p.inRange = true) : 3 ≤ p.minMatch.toNat := by
  simp only [Latched.inRange, decide_eq_true_eq] at h
  omega

/-- The run after a first sequence `q` that is taken whole. -/
def State.ldmFirst (s : State) (q : RawSeq) (qs : List RawSeq) : LdmRun :=
  s.ldmStart.take s.view q.litLength.toNat q.matchLength.toNat q.offset.toNat
    (min s.op1.toNat (q.litLength.toNat + q.matchLength.toNat)) { passed := [q], rest := qs }

section
variable {s : State} (hrange : s.p.inRange = true) (ho : s.blockOk s.op0 s.op1 = true) (hlit : s.seq.longLit = none)
  (hmatch : s.seq.longMatch = none) (hlong : ∀ q ∈ s.ldm.pending, 3 ≤ q.matchLength.toNat)
include hrange ho hlit hmatch hlong

theorem State.ldmEnd_splits :
    s.ldmStart.Splits s.seq (s.idx s.op0.toNat) (s.idx s.op0.toNat + s.op1.toNat) s.ldmEnd := by
  have hn := s.blockOk_le ho
  exact ldmSplit_splits (Latched.three_le_minMatch hrange) (by omega) _ _ (s.blockWork_fits hlit hmatch _)
    (Nat.le_add_right _ _) hlong (Nat.lt_succ_self _)

theorem State.ldmRest_fits : s.ldmRest.work.failed = false ∧ s.idx s.op0.toNat ≤ s.ldmRest.anchor ∧
    s.ldmRest.anchor ≤ s.idx s.op0.toNat + s.op1.toNat := by
  obtain ⟨hfits, hstop, _⟩ := s.ldmEnd_splits hrange ho hlit hmatch hlong
  have hn := s.blockOk_le ho
  obtain ⟨hrest, hle, hanchor⟩ := blkCore_fits s.view hfits hstop (by omega) s.ldmEnd.rep
  exact ⟨hrest.running, hfits.start.trans hle, hanchor⟩

variable {q : RawSeq} {qs : List RawSeq} (hpend : s.ldm.pending = q :: qs) (hoff : q.offset ≠ 0)
  (hwhole : q.litLength.toNat + q.matchLength.toNat ≤ s.op1.toNat)
include hpend hoff hwhole

omit hrange in
/-- A first sequence that lies whole in the block is taken, and the loop goes on from there. -/
theorem State.ldmEnd_first :
    let i := s.idx s.op0.toNat
    let b := blkCore s.view s.blockWork i (i + q.litLength.toNat) s.prev.rep
    (s.ldmFirst q qs).work.Fits s.seq i (s.ldmFirst q qs).ip ∧
    (s.ldmFirst q qs).work.seq = b.work.seq.push s.histByte (i + q.litLength.toNat - b.anchor) b.anchor
      (q.offset.toNat + 3) (q.matchLength.toNat - 3) ∧
    s.ldmEnd = ldmSplit s.view s.freeCtr (i + s.op1.toNat) s.ldm.pending.length (s.ldmFirst q qs) := by
  intro i b
  have hn := s.blockOk_le ho
  have hml := hlong q (hpend ▸ List.mem_cons_self)
  have hR : i + s.op1.toNat - i = s.op1.toNat := Nat.add_sub_cancel_left ..
  have hstart := s.blockWork_fits hlit hmatch i
  obtain ⟨hcore, hfits, hpush⟩ := LdmRun.take_fits (V := s.view) (r := s.ldmStart) (lit := q.litLength.toNat) hstart hml
    (show i + _ + _ ≤ i + 2 ^ 17 by omega) q.offset.toNat
    (min s.op1.toNat (q.litLength.toNat + q.matchLength.toNat)) { passed := [q], rest := qs }
  have hnext := ldmNext_whole hwhole s.view.p.minMatch.toNat s.freeCtr qs
  rw [← hpend, ← hR] at hnext
  have hend := ldmSplit_take (r := s.ldmStart) hstart.running (show s.ldm.pending ≠ [] by simp [hpend])
    (show i < i + s.op1.toNat by omega) hnext (fun h => hoff (BitVec.eq_of_toNat_eq h)) hcore s.ldm.pending.length
  rw [show i + s.op1.toNat - s.ldmStart.ip = s.op1.toNat from hR] at hend
  exact ⟨hfits, hpush, hend⟩

/-- What stands in the store once the first sequence is taken stays there. -/
theorem State.ldmFirst_stays : (s.ldmFirst q qs).work.seq.seqs <+: s.ldmRest.work.seq.seqs ∧
    (s.ldmFirst q qs).work.seq.lit <+: s.ldmRest.work.seq.lit := by
  have hn := s.blockOk_le ho
  obtain ⟨hfits, _, hend⟩ := s.ldmEnd_first ho hlit hmatch hlong hpend hoff hwhole
  have hgo := ldmSplit_splits (V := s.view) (ctr := s.freeCtr) (Latched.three_le_minMatch hrange)
    (show s.idx s.op0.toNat + s.op1.toNat ≤ _ + 2 ^ 17 by omega) s.ldm.pending.length (s.ldmFirst q qs) hfits.own
    (show s.idx s.op0.toNat + q.litLength.toNat + q.matchLength.toNat ≤ _ by omega)
    (fun y hy => hlong y (hpend ▸ List.mem_cons_of_mem q hy)) (show qs.length < _ by simp [hpend])
  rw [← hend] at hgo
  obtain ⟨hrest, _⟩ := blkCore_fits s.view hgo.fits hgo.stop (by omega) s.ldmEnd.rep
  exact ⟨hrest.seqs, hrest.lit⟩

omit hrange in
/-- When it is the only one, the rest of the block is matched from its end, with its offset at the front. -/
theorem State.ldmRest_of_only (hnil : qs = []) :
    let m := s.idx s.op0.toNat + q.litLength.toNat
    let b := blkCore s.view s.blockWork (s.idx s.op0.toNat) m s.prev.rep
    s.ldmRest = blkCore s.view (s.ldmFirst q qs).work (m + q.matchLength.toNat) (s.idx s.op0.toNat + s.op1.toNat)
      { r0 := q.offset, r1 := b.rep.r0, r2 := b.rep.r1 } := by
  intro m b
  obtain ⟨_, _, hend⟩ := s.ldmEnd_first ho hlit hmatch hlong hpend hoff hwhole
  rw [ldmSplit_end (.inl hnil)] at hend
  have hrep : (s.ldmFirst q qs).rep = { r0 := q.offset, r1 := b.rep.r0, r2 := b.rep.r1 } :=
    congrArg (fun o => Reps.mk o b.rep.r0 b.rep.r1) (by rw [BitVec.ofNat_toNat, BitVec.setWidth_eq])
  rw [State.ldmRest, hend, hrep]
  rfl

end

/-- Settles O43: the loop keeps room for every length (`State.ldmEnd_splits`), a first whole sequence is taken
(`State.ldmEnd_first`) and stays in the store (`State.ldmFirst_stays`), and with nothing pending the loop ends where it starts. -/
theorem ldmBlkMatchCompletes : Obligations.LdmBlkMatchCompletes := by
  intro s hr he hrange ho hq hbelow hlit hmatch hlong hpos
  have hn := s.blockOk_le ho
  have hkept : TablesKept s.ms s.ldmRest.work.ms := (s.ldmEnd_kept).trans (blkCore_kept ..)
  obtain ⟨hfits, _, ⟨ps, hps, hlen⟩, k, hk, hkle, hall⟩ := s.ldmEnd_splits hrange ho hlit hmatch hlong
  obtain ⟨hok, hanchor, hstop⟩ := s.ldmRest_fits hrange ho hlit hmatch hlong
  have hexec := exec_ldmBlkMatch_completes hr he ho hq hbelow hfits.running hok
  obtain ⟨t, ht⟩ : ∃ t, t = ({ s with ldm := s.ldm.consume s.ldmEnd.queue s.ldmEnd.taken } : State).matched
    (s.idx s.op0.toNat + s.op1.toNat) s.ldmRest := ⟨_, rfl⟩
  obtain ⟨hframe, hprev, hnext, hseq, hres0, _⟩ := State.matched_frame
    (s := { s with ldm := s.ldm.consume s.ldmEnd.queue s.ldmEnd.taken }) hkept _ _ _ ht
  have hldm : t.ldm = s.ldm.consume s.ldmEnd.queue s.ldmEnd.taken := ht ▸ State.matched_ldm ..
  have hms : t.ms = s.ldmRest.work.ms := ht ▸ State.matched_ms ..
  have h0 : t.res0.toNat = s.idx s.op0.toNat + s.op1.toNat - s.ldmRest.anchor :=
    hres0 ▸ toNat_ofNat_lt (n := 32) (by omega) (by norm_num)
  rw [← ht] at hexec
  have hwalk : s.ldmEnd.queue.passed.length + s.ldmEnd.queue.rest.length = s.ldm.pending.length := by
    rwa [show s.ldmEnd.queue.passed = ps from hps]
  obtain ⟨hposLe, hposEnd, hlength, htake⟩ := hldm ▸ LdmState.consume_lengths hpos hwalk s.ldmEnd.taken
  refine ⟨t, hexec, hframe.trans (by rw [hldm]; rfl), hprev, hnext.trans (by rw [hnext]; rfl), by omega, hposLe, hposEnd,
    hlength, htake, ⟨k, hkle.trans_eq (Nat.add_sub_cancel_left ..), ?_, ?_⟩, ?_, fun hnil => ?_⟩
  · rw [hldm, hk]
    exact congrArg (fun n => s.ldm.queueSrc.map (· + BitVec.ofNat 64 n)) (Nat.zero_add k)
  · rw [show t.ldm.pending = s.ldmEnd.queue.rest from hldm ▸ LdmState.pending_consume hpos _ _]
    rwa [show s.idx s.op0.toNat + s.op1.toNat - s.ldmStart.ip = s.op1.toNat from Nat.add_sub_cancel_left ..] at hall
  · intro q qs hq hoff h32 hwhole i m b
    obtain ⟨_, hpush, _⟩ := s.ldmEnd_first ho hlit hmatch hlong hq hoff hwhole
    obtain ⟨hseqs, hlits⟩ := s.ldmFirst_stays hrange ho hlit hmatch hlong hq hoff hwhole
    have hcode : word32 (q.offset.toNat + 3) = q.offset + 3 :=
      (word32_of h32).trans (BitVec.eq_of_toNat_eq (by simp))
    rw [hpush] at hseqs hlits
    rw [hseq]
    refine ⟨hcode ▸ hseqs, hlits, ?_⟩
    intro hnil w e
    have he : e = s.ldmRest := (s.ldmRest_of_only ho hlit hmatch hlong hq hoff hwhole hnil).symm
    rw [he, hnext]
    exact ⟨hms, rfl, rfl, h0⟩
  · obtain ⟨hstart, hblk⟩ := State.ldmRest_of_nothing hnil
    rw [hstart] at hldm
    refine ⟨hldm ▸ LdmState.consume_nothing hnil _, hldm ▸ rfl, ?_⟩
    rw [exec_blkMatch_of hr ho (hblk ▸ hok), ← hblk, ht, State.matched_setLdm]

end Sys2Proof.Machine
end

/-! # Proofs of the sequence-store family (44_sequence_store.md)

What a second long length leaves of the store (`SeqStore.store_of_clash`), the codes triple by triple
(`SeqStore.codesFrom_getElem?`), and where the values of a code start (`extraBits_lossless`). -/

/-! ## The store's commands -/

section
namespace Sys2Proof.Machine

open Sys2Proof

/-- Settles O45: both commands do the work `Worked` states (`exec_worked`). -/
theorem seqResetAndLastlitComplete : Obligations.SeqResetAndLastlitComplete := by
  refine ⟨fun s hr => ?_, fun s hr hspan hcap => ?_⟩
  · obtain ⟨t, ht, rfl⟩ := exec_worked (i := .seqReset) hr (isIO_eq _) rfl nofun rfl
    exact ht
  · obtain ⟨t, ht, rfl⟩ := exec_worked (i := .seqLastlit) hr (isIO_eq _) rfl nofun (and_both hspan (decide_eq_true hcap))
    exact ht

/-- A sequence with a second long length leaves its literals in the store, and a first long literal position (R188). -/
theorem SeqStore.store_of_clash {q : SeqStore} {ll ml : Nat} (h : q.Clash ll ml) (byte : Nat → Byte) (i oc : Nat) :
    q.store byte ll i oc ml = ({ q with
      lit := q.lit ++ bytesFrom byte i ll
      longLit := if 65535 < ll ∧ q.longLit = none then some q.seqs.length else q.longLit }, true) := by
  unfold SeqStore.store
  by_cases hlit : isLong ll = true ∧ q.longLit.isSome = true
  · obtain ⟨hlong, hsome⟩ := hlit
    have hne : q.longLit ≠ none := Option.isSome_iff_ne_none.mp hsome
    simp [hlong, hsome, hne]
  · obtain ⟨hlong, hsome⟩ := h.resolve_left hlit
    cases hll : isLong ll with
    | false => simp [hlong, hsome, ← isLong_iff, hll]
    | true =>
      have hnone : q.longLit = none := by simpa [hll] using hlit
      simp [hlong, hsome, isLong_iff.mp hll, hnone]

theorem SeqStore.clash_iff {q : SeqStore} {ll ml : Nat} :
    q.Clash ll ml ↔ (65535 < ll ∧ q.longLit ≠ none) ∨ (65535 < ml ∧ q.longMatch ≠ none) := by
  simp only [SeqStore.Clash, isLong_iff, Option.isSome_iff_ne_none]

/-- Settles O44: SEQ_STORE ends as `StoreSeq` does, which pushes the triple when there is no clash (`SeqStore.store_cases`) and
stops at the literals when there is one (`SeqStore.store_of_clash`). -/
theorem seqStoreAppendsOrIsFatal : Obligations.SeqStoreAppendsOrIsFatal := by
  intro s hr hspan hpos hoc hll hml hseqs hcap
  obtain ⟨t, ht, hwork⟩ := exec_worked (i := .seqStore) hr (isIO_eq _) rfl nofun
    (and_both (and_both (and_both hspan (decide_eq_true ⟨hpos, hoc⟩)) (decide_eq_true ⟨hll, hml⟩))
      (decide_eq_true ⟨hseqs, hcap⟩))
  rw [ht]
  refine ⟨fun hlit hmatch => ?_, fun h => ?_⟩
  · have hno : ¬ s.seq.Clash s.op0.toNat s.op3.toNat := fun h =>
      (SeqStore.clash_iff.mp h).elim (fun ⟨hlong, hne⟩ => hne (hlit hlong)) fun ⟨hlong, hne⟩ => hne (hmatch hlong)
    obtain ⟨hclash, _⟩ | ⟨_, hpush⟩ := s.seq.store_cases s.histByte s.op0.toNat (s.idx s.op1.toNat) s.op2.toNat s.op3.toNat
    · exact absurd hclash hno
    · obtain ⟨hfatal, _⟩ | ⟨_, rfl⟩ := hwork
      · exact absurd hfatal (by simp [hpush])
      · rw [hpush]
        simp [SeqStore.push, longAfter, isLong_iff, mkSeq, word32_of hoc, State.withCode]
  · have hstore := SeqStore.store_of_clash (SeqStore.clash_iff.mpr h) s.histByte (s.idx s.op1.toNat) s.op2.toNat
    obtain ⟨_, rfl⟩ | ⟨hok, _⟩ := hwork
    · rw [hstore]
      rfl
    · exact absurd hok (by simp [hstore])

end Sys2Proof.Machine
end

/-! ## Codes and extra bits -/

section
namespace Sys2Proof.Machine

open Sys2Proof

/-! ### Where the values of a code start (R193) -/

/-- The least literal length of a code: its first place in the table, or a power of two beyond the table (R191). -/
def llStart (c : Nat) : Nat := if c ≤ 24 then llCodeTable.idxOf c else 2 ^ (c - 19)

/-- The least match length (minus 3) of a code (R192). -/
def mlStart (c : Nat) : Nat := if c ≤ 42 then mlCodeTable.idxOf c else 2 ^ (c - 36)

theorem two_pow_highbit_add_mod {v : Nat} (h : 1 ≤ v) : 2 ^ highbit v + v % 2 ^ highbit v = v := by
  have hne : v ≠ 0 := by omega
  have hle : 2 ^ highbit v ≤ v := Nat.log2_self_le hne
  have hlt : v < 2 ^ highbit v + 2 ^ highbit v := by
    rw [← two_mul, ← pow_succ']
    exact Nat.lt_log2_self
  rw [Nat.mod_eq_sub_mod hle, Nat.mod_eq_of_lt (by omega)]
  omega

theorem highbit_mem_range {v a b : Nat} (hlo : 2 ^ a ≤ v) (hhi : v < 2 ^ b) : a ≤ highbit v ∧ highbit v < b := by
  have hne : v ≠ 0 := by have := Nat.two_pow_pos a; omega
  exact ⟨(Nat.le_log2 hne).mpr hlo, (Nat.log2_lt hne).mpr hhi⟩

section
variable {code bits start : Nat → Nat} {n : Nat}
  (htable : ∀ v < 2 ^ n, start (code v) + v % 2 ^ bits (code v) = v)
  (hbeyond : ∀ v, 2 ^ n ≤ v → v < 2 ^ 16 → start (code v) = 2 ^ highbit v ∧ bits (code v) = highbit v)
include htable hbeyond

/-- A value is the start of its code's range plus its extra bits. -/
theorem start_add_extraBits {v : Nat} (hv : v < 2 ^ 16) : start (code v) + v % 2 ^ bits (code v) = v := by
  rcases Nat.lt_or_ge v (2 ^ n) with hn | hn
  · exact htable v hn
  · obtain ⟨hs, hb⟩ := hbeyond v hn hv
    rw [hs, hb]
    exact two_pow_highbit_add_mod (n.two_pow_pos.trans_le hn)

theorem extraBits_lossless {v w : Nat} (hv : v < 2 ^ 16) (hw : w < 2 ^ 16) (hc : code v = code w)
    (hx : v % 2 ^ bits (code v) = w % 2 ^ bits (code w)) : v = w := by
  rw [← start_add_extraBits htable hbeyond hv, ← start_add_extraBits htable hbeyond hw, hx, hc]

end

theorem llCode_beyond {v : Nat} (hlo : 64 ≤ v) (hhi : v < 2 ^ 16) :
    llCode v = highbit v + 19 ∧ 6 ≤ highbit v ∧ highbit v < 16 :=
  ⟨if_neg (by omega), highbit_mem_range (a := 6) hlo hhi⟩

theorem mlCode_beyond {v : Nat} (hlo : 128 ≤ v) (hhi : v < 2 ^ 16) :
    mlCode v = highbit v + 36 ∧ 7 ≤ highbit v ∧ highbit v < 16 :=
  ⟨if_neg (by omega), highbit_mem_range (a := 7) hlo hhi⟩

theorem llCode_table : ∀ v < 64, llStart (llCode v) + v % 2 ^ llBits (llCode v) = v ∧ llCode v ≤ 24 := by decide

theorem mlCode_table : ∀ v < 128, mlStart (mlCode v) + v % 2 ^ mlBits (mlCode v) = v ∧ mlCode v ≤ 42 := by decide

theorem llStart_beyond : ∀ h < 16, 6 ≤ h → llStart (h + 19) = 2 ^ h ∧ llBits (h + 19) = h := by decide

theorem mlStart_beyond : ∀ h < 16, 7 ≤ h → mlStart (h + 36) = 2 ^ h ∧ mlBits (h + 36) = h := by decide

theorem llCode_le {v : Nat} (hv : v < 2 ^ 16) : llCode v ≤ 35 := by
  rcases Nat.lt_or_ge v 64 with hn | hn
  · exact (llCode_table v hn).2.trans (by norm_num)
  · obtain ⟨hc, _, hlt⟩ := llCode_beyond hn hv
    omega

theorem mlCode_le {v : Nat} (hv : v < 2 ^ 16) : mlCode v ≤ 52 := by
  rcases Nat.lt_or_ge v 128 with hn | hn
  · exact (mlCode_table v hn).2.trans (by norm_num)
  · obtain ⟨hc, _, hlt⟩ := mlCode_beyond hn hv
    omega

/-- Settles O47: a code fixes where its values start, and the extra bits are the distance from there (`extraBits_lossless`). -/
theorem codesAndExtraBitsAreLossless : Obligations.CodesAndExtraBitsAreLossless := by
  refine ⟨fun v w => ?_, fun v w => ?_, fun v w hv hw hc hx => ?_, fun v hv => ⟨llCode_le hv, mlCode_le hv⟩⟩
  · refine extraBits_lossless (n := 6) (start := llStart) (fun v hv => (llCode_table v hv).1) fun v hlo hhi => ?_
    obtain ⟨hc, hge, hlt⟩ := llCode_beyond hlo hhi
    exact hc ▸ llStart_beyond _ hlt hge
  · refine extraBits_lossless (n := 7) (start := mlStart) (fun v hv => (mlCode_table v hv).1) fun v hlo hhi => ?_
    obtain ⟨hc, hge, hlt⟩ := mlCode_beyond hlo hhi
    exact hc ▸ mlStart_beyond _ hlt hge
  · rw [← two_pow_highbit_add_mod hv, ← two_pow_highbit_add_mod hw, hx, hc]

/-! ### The codes of a store (R190) -/

theorem SeqStore.codesFrom_length (q : SeqStore) (ts : List Seq) : ∀ k, (q.codesFrom k ts).length = ts.length := by
  induction ts with
  | nil => exact fun _ => rfl
  | cons t ts ih => exact fun k => congrArg Nat.succ (ih (k + 1))

theorem SeqStore.codesFrom_getElem? (q : SeqStore) (ts : List Seq) :
    ∀ k j, (q.codesFrom k ts)[j]? = ts[j]?.map (q.codesAt (k + j)) := by
  induction ts with
  | nil => exact fun _ _ => rfl
  | cons t ts ih =>
    rintro k (_ | j)
    · rfl
    · simpa [SeqStore.codesFrom, Nat.add_assoc, Nat.add_comm 1 j] using ih (k + 1) j

/-- The code of a length, patched to the top code at its long position, fits a byte. -/
theorem patchedCode_toNat {long : Option Nat} {k top c : Nat} (htop : top < 2 ^ 8) (hc : c < 2 ^ 8) :
    (if isAt long k then BitVec.ofNat 8 top else BitVec.ofNat 8 c).toNat = if long = some k then top else c := by
  simp only [isAt, beq_iff_eq, apply_ite BitVec.toNat, toNat_ofNat_lt htop le_rfl, toNat_ofNat_lt hc le_rfl]

theorem SeqStore.codesAt_toNat (q : SeqStore) (k : Nat) (t : Seq) :
    (q.codesAt k t).ll.toNat = (if q.longLit = some k then 35 else llCode t.litLength.toNat) ∧
      (q.codesAt k t).of.toNat = highbit t.offset.toNat ∧
      (q.codesAt k t).ml.toNat = (if q.longMatch = some k then 52 else mlCode t.matchLength.toNat) := by
  have hll := llCode_le t.litLength.isLt
  have hml := mlCode_le t.matchLength.isLt
  have hof : highbit t.offset.toNat < 2 ^ 8 := by
    rcases Nat.eq_zero_or_pos t.offset.toNat with h0 | hpos
    · rw [h0]; decide
    · exact (highbit_mem_range (a := 0) hpos t.offset.isLt).2.trans (by norm_num)
  exact ⟨patchedCode_toNat (by decide) (by omega), toNat_ofNat_lt hof le_rfl, patchedCode_toNat (by decide) (by omega)⟩

/-- Settles O46: the command stores the codes `SeqStore.codesFrom` lists, triple by triple. -/
theorem seqToCodesGivesEveryCode : Obligations.SeqToCodesGivesEveryCode := by
  intro s hr
  obtain ⟨t, ht, rfl⟩ := exec_worked (i := .seqToCodes) hr (isIO_eq _) rfl nofun rfl
  refine ⟨_, ht, rfl, s.seq.codesFrom_length _ 0, fun k q hq => ⟨s.seq.codesAt k q, ?_, s.seq.codesAt_toNat k q⟩⟩
  refine (s.seq.codesFrom_getElem? s.seq.seqs 0 k).trans ?_
  rw [hq, Nat.zero_add]
  rfl

end Sys2Proof.Machine
end

/-! # Proofs of the block entropy family (47_block_entropy.md)

What LIT_COMPRESS and SEQ_ENCODE leave once their checks have passed (`State.sectionWritten`), the forms of a literals section
(`litCompress_forms`), and the type byte of a sequences section (`seqEncode_typeByte`). -/

/-! ## A section written to memory -/

section
namespace Sys2Proof.Machine

open Sys2Proof

/-- LIT_COMPRESS and SEQ_ENCODE do their work when the gates are open, the range is right and it overlaps nothing (R47). -/
theorem exec_worked_section {i : Instr} {s : State} (hi : i = .litCompress ∨ i = .seqEncode) (hr : s.Ready)
    (ho : s.rangeOk s.op0 s.op1 = true) (hc : s.destClash 0 0 s.op0.toNat s.op1.toNat = false) :
    ∃ t, exec i s = .next t ∧ Worked i s t := by
  obtain ⟨hio, hd, hops, hdest⟩ : i.legalIn s.stage = s.stage.isIO ∧ i ≠ .dmsBuild ∧
      i.operandsOk s = s.rangeOk s.op0 s.op1 ∧ i.destination s = some (s.op0.toNat, s.op1.toNat) := by
    obtain rfl | rfl := hi <;> exact ⟨isIO_eq _, nofun, rfl, rfl⟩
  cases h : exec i s with
  | next t =>
    obtain (⟨hf, _⟩ | ⟨hl, _⟩ | ⟨_, ho', _⟩) | ⟨_, _, hw⟩ := exec_next h
    · exact absurd hf (by simp [hr.1.1])
    · exact absurd (letThrough_of hr.1 (hio.trans hr.2) hd) (by simp [hl])
    · exact absurd (hops.trans ho) (by simp [ho'])
    · exact ⟨t, rfl, hw⟩
  | fault f => exact absurd h (exec_ne_fault i s f)
  | refused r =>
    obtain ⟨_, _, _, dst, cap, hdst, hclash⟩ := exec_destination_refused hdest h
    obtain ⟨rfl, rfl⟩ := Prod.mk.inj (Option.some.inj (hdest.symm.trans hdst))
    rw [if_pos hi, hc] at hclash
    cases hclash

/-- What a command that writes a section leaves (R263): the section at `OP0`, `next`, its length and its type. -/
def State.sectionWritten (s : State) (bytes : List Byte) (next : BlockState) (typ : Nat) : State :=
  ((((s.writeDst s.op0.toNat bytes).setNextBs next).setRes0 bytes.length).setRes1 typ).withCode 0

section
variable (s : State) (bytes : List Byte) (next : BlockState) (typ : Nat)

theorem State.sectionWritten_frame : s.sectionWritten bytes next typ = { s.withCode 0 with
    mem := s.mem.writeBytes s.op0.toNat bytes, bs0 := (s.sectionWritten bytes next typ).bs0
    bs1 := (s.sectionWritten bytes next typ).bs1, res0 := BitVec.ofNat 64 bytes.length, res1 := BitVec.ofNat 64 typ } := by
  unfold State.sectionWritten State.setNextBs
  split <;> rfl

@[simp] theorem State.sectionWritten_prev : (s.sectionWritten bytes next typ).prev = s.prev :=
  (State.finished_prev ..).trans (State.setNextBs_prev _ _)

@[simp] theorem State.sectionWritten_nextBs : (s.sectionWritten bytes next typ).nextBs = next :=
  (State.finished_nextBs ..).trans (State.setNextBs_nextBs _ _)

@[simp] theorem State.sectionWritten_seq : (s.sectionWritten bytes next typ).seq = s.seq :=
  State.setNextBs_seq _ _

@[simp] theorem State.sectionWritten_mem : (s.sectionWritten bytes next typ).mem = s.mem.writeBytes s.op0.toNat bytes :=
  State.setNextBs_mem _ _

@[simp] theorem State.sectionWritten_res0 : (s.sectionWritten bytes next typ).res0 = BitVec.ofNat 64 bytes.length := rfl

@[simp] theorem State.sectionWritten_res1 : (s.sectionWritten bytes next typ).res1 = BitVec.ofNat 64 typ := rfl

end

/-- A section that fits the capacity has a length that fits `RES0`. -/
theorem State.sectionWritten_res0_toNat {s : State} {bytes : List Byte} (h : bytes.length ≤ s.op1.toNat) (next : BlockState)
    (typ : Nat) : (s.sectionWritten bytes next typ).res0.toNat = bytes.length :=
  toNat_ofNat_lt (h.trans_lt s.op1.isLt) le_rfl

theorem Memory.read_writeBytes_outside {m : Memory} (hm : m.wf = true) {a x : Nat} {bytes : List Byte}
    (hx : x < a ∨ a + bytes.length ≤ x) : (m.writeBytes a bytes).read x = m.read x := by
  rw [Memory.read_writeBytes hm, if_neg (by omega)]

end Sys2Proof.Machine
end

/-! ## The literals section (R256 to R259) -/

section
namespace Sys2Proof.Machine

open Sys2Proof

/-! ### Counts and headers -/

theorem maxOf_eq_foldr (xs : List Nat) : maxOf xs = xs.foldr max ⊥ := List.foldl_eq_foldr

/-- The largest count of `n` equal bytes is `n` (R202). -/
theorem maxOf_counts_replicate (n : Nat) (b : Byte) :
    maxOf (counts ((List.replicate n b).map BitVec.toNat) 255) = n := by
  have hcount : ∀ v, countOf v (List.replicate n b.toNat) = if b.toNat = v then n else 0 := fun v => by
    induction n with
    | zero => simp [countOf]
    | succ n ih =>
      rw [List.replicate_succ, countOf, ih]
      split <;> rfl
  rw [List.map_replicate, maxOf_eq_foldr]
  refine le_antisymm (List.max_le_of_forall_le _ _ fun c hc => ?_) (List.le_max_of_le (x := n) ?_ le_rfl)
  · obtain ⟨v, _, rfl⟩ := List.mem_map.mp hc
    rw [hcount]
    split <;> omega
  · exact List.mem_map.mpr ⟨b.toNat, List.mem_range.mpr b.isLt, by rw [hcount, if_pos rfl]⟩

theorem length_rawHeader_le (typ n : Nat) : (rawHeader typ n).length ≤ 3 := by
  unfold rawHeader
  split
  · simp [length_leBytes]
  · split <;> simp [length_leBytes]

theorem length_compressedHeader_le (typ : Nat) (single : Bool) (n c : Nat) :
    (compressedHeader typ single n c).length ≤ 5 := by
  unfold compressedHeader
  split
  · simp [length_leBytes]
  · split <;> simp [length_leBytes]

theorem minLitToCompress_le (m : RepeatMode) : minLitToCompress m ≤ 63 := by
  unfold minLitToCompress
  split <;> decide

/-! ### The forms of the section -/

/-- `LitCompress`'s answer for equal literals (R256). -/
def litRle (prev : HufState) (lit : List Byte) : LitOut :=
  { bytes := rawHeader 1 lit.length ++ lit.take 1, typ := 1, huf := prev }

/-- A section of coded literals (R256, R259): shorter than they are, with `prev`'s table kept or a new one to be checked. -/
def LitOut.Coded (r : LitOut) (prev : HufState) (lit : List Byte) : Prop :=
  r.bytes.length ≤ lit.length + 2 ∧ (r.typ = 3 ∧ r.huf = prev ∨ r.typ = 2 ∧ r.huf.mode = .check)

theorem litHuffman_cases (prev : HufState) (lit : List Byte) (count : List Nat) (maxSV : Nat) :
    litHuffman prev lit count maxSV = litRaw prev lit ∨ (litHuffman prev lit count maxSV).Coded prev lit := by
  unfold litHuffman
  extract_lets n old usable newT hdr useOld headOk head typ
  clear_value hdr useOld headOk
  split
  · exact .inl rfl
  split
  · exact .inl rfl
  next body _ =>
    extract_lets c
    split
    · exact .inl rfl
    · next hgain =>
      have hhead := length_compressedHeader_le typ (decide (n < 256)) n c
      have hc : c + minGain n < n := not_le.mp (not_or.mp hgain).2
      refine .inr ⟨?_, ?_⟩
      · simp only [List.length_append]
        unfold minGain at hc
        omega
      · cases useOld
        · exact .inr ⟨rfl, rfl⟩
        · exact .inl ⟨rfl, rfl⟩

theorem litCompress_short {prev : HufState} {lit : List Byte} (h : lit.length ≤ minLitToCompress prev.mode) :
    litCompress prev lit = litRaw prev lit := if_pos h

theorem litCompress_equal {prev : HufState} {lit : List Byte} {b : Byte} (h : 63 < lit.length)
    (hb : lit = List.replicate lit.length b) : litCompress prev lit = litRle prev lit := by
  have hmin := minLitToCompress_le prev.mode
  have hmax : maxOf (counts (lit.map BitVec.toNat) 255) = lit.length := by
    conv_lhs => rw [hb]
    exact maxOf_counts_replicate _ b
  exact (if_neg (by omega)).trans (if_pos hmax)

/-- A literals section is raw, one byte, or coded (R256). -/
theorem litCompress_cases (prev : HufState) (lit : List Byte) :
    litCompress prev lit = litRaw prev lit ∨ (0 < lit.length ∧ litCompress prev lit = litRle prev lit) ∨
      (litCompress prev lit).Coded prev lit := by
  unfold litCompress
  dsimp only
  split
  · exact .inl rfl
  split
  · exact .inr (.inl ⟨by omega, rfl⟩)
  split
  · exact .inl rfl
  · exact (litHuffman_cases prev lit _ _).imp_right .inr

/-- What every literals section has, form by form. -/
theorem litCompress_forms (prev : HufState) (lit : List Byte) :
    let r := litCompress prev lit
    r.bytes.length ≤ lit.length + 3 ∧ r.typ ≤ 3 ∧ (r.typ = 0 → ∃ head, r.bytes = head ++ lit) ∧
      (r.typ ≠ 2 → r.huf = prev) ∧ (r.typ = 2 → r.huf.mode = .check) := by
  dsimp only
  obtain hraw | ⟨hpos, hrle⟩ | ⟨hlen, hform⟩ := litCompress_cases prev lit
  · have hhead := length_rawHeader_le 0 lit.length
    rw [hraw]
    exact ⟨by simp only [litRaw, List.length_append]; omega, by simp [litRaw], fun _ => ⟨_, rfl⟩, fun _ => rfl, nofun⟩
  · have hhead := length_rawHeader_le 1 lit.length
    rw [hrle]
    exact ⟨by simp only [litRle, List.length_append, List.length_take]; omega, by simp [litRle], nofun, fun _ => rfl, nofun⟩
  · obtain ⟨htyp, hhuf⟩ | ⟨htyp, hmode⟩ := hform
    · exact ⟨by omega, htyp.le, by simp [htyp], fun _ => hhuf, by simp [htyp]⟩
    · exact ⟨by omega, by omega, by simp [htyp], by simp [htyp], fun _ => hmode⟩

/-! ### LIT_COMPRESS -/

section
variable {s : State} (hr : s.Ready) (ho : s.rangeOk s.op0 s.op1 = true)
  (hc : s.destClash 0 0 s.op0.toNat s.op1.toNat = false)
include hr ho hc

theorem exec_litCompress_fits (h : (litCompress s.prev.huf s.seq.lit).bytes.length ≤ s.op1.toNat) :
    exec .litCompress s = .next (s.sectionWritten (litCompress s.prev.huf s.seq.lit).bytes
      { s.nextBs with huf := (litCompress s.prev.huf s.seq.lit).huf } (litCompress s.prev.huf s.seq.lit).typ) := by
  obtain ⟨t, ht, ⟨hlt, _⟩ | ⟨_, rfl⟩⟩ := exec_worked_section (.inl rfl) hr ho hc
  · exact absurd h hlt.not_ge
  · exact ht

theorem exec_litCompress_small (h : s.op1.toNat < (litCompress s.prev.huf s.seq.lit).bytes.length) :
    exec .litCompress s = .next (s.withCode 5) := by
  obtain ⟨t, ht, ⟨_, rfl⟩ | ⟨hle, _⟩⟩ := exec_worked_section (.inl rfl) hr ho hc
  · exact ht
  · exact absurd h hle.not_gt

end

/-- Settles O48: the command writes the section of `litCompress` when it fits (`exec_litCompress_fits`); what the section looks
like depends on its form only (`litCompress_forms`). -/
theorem litCompressCompletes : Obligations.LitCompressCompletes := by
  intro s hr hm ho hc
  obtain ⟨hlen, htyp, hraw, hkept, hnew⟩ := litCompress_forms s.prev.huf s.seq.lit
  refine ⟨hlen, exec_litCompress_small hr ho hc, fun hfits => ⟨_, exec_litCompress_fits hr ho hc hfits, ?_⟩⟩
  have hres1 : (BitVec.ofNat 64 (litCompress s.prev.huf s.seq.lit).typ).toNat = (litCompress s.prev.huf s.seq.lit).typ :=
    toNat_ofNat_lt (htyp.trans_lt (by norm_num : 3 < 2 ^ 64)) le_rfl
  rw [State.sectionWritten_prev, State.sectionWritten_nextBs, State.sectionWritten_res1, hres1]
  refine ⟨State.sectionWritten_frame .., rfl, rfl, State.sectionWritten_res0_toNat hfits _ _, rfl, htyp, fun a ha => ?_,
    hraw, hkept, hnew, fun hshort => ?_, fun b hlong hb => ?_⟩
  · rw [State.sectionWritten_mem, Memory.read_writeBytes_outside hm ha]
  · rw [litCompress_short hshort]
    rfl
  · rw [litCompress_equal hlong hb]
    have htake : s.seq.lit.take 1 = [b] := by
      rw [hb, List.take_replicate, min_eq_left (by omega)]
      rfl
    exact ⟨rfl, _, congrArg (_ ++ ·) htake⟩

end Sys2Proof.Machine
end

/-! ## The sequences section (R263 to R268) -/

section
namespace Sys2Proof.Machine

open Sys2Proof

/-! ### The type byte -/

theorem mem_of_cheapest {cs : List Cand} {c : Cand} (h : cheapest cs = some c) : c ∈ cs := by
  induction cs generalizing c with
  | nil => cases h
  | cons a cs ih =>
    unfold cheapest at h
    split at h
    · cases h
      exact List.mem_cons_self
    · next d hd =>
      split at h
      · cases h
        exact List.mem_cons_self
      · cases h
        exact List.mem_cons_of_mem _ (ih hd)

theorem candBasic_typ {dflt : FseTable} {codes : List Nat} {ok : Bool} {slot : FseState} {c : Cand}
    (h : c ∈ candBasic dflt codes ok slot) : c.typ = 0 := by
  unfold candBasic at h
  split at h
  · split at h
    · rw [List.mem_singleton.mp h]
    · cases h
  · cases h

theorem candRle_typ {codes : List Nat} {slot : FseState} {c : Cand} (h : c ∈ candRle codes slot) : c.typ = 1 := by
  rw [List.mem_singleton.mp h]

theorem candRepeat_typ {prev : FseState} {codes : List Nat} {c : Cand} (h : c ∈ candRepeat prev codes) : c.typ = 3 := by
  unfold candRepeat at h
  split at h
  · split at h
    · cases h
    · rw [List.mem_singleton.mp h]
  · cases h

theorem candCompressed_typ {codes : List Nat} {maxLog : Nat} {c : Cand} (h : candCompressed codes maxLog = some c) :
    c.typ = 2 := by
  unfold candCompressed at h
  dsimp only at h
  split at h
  · cases h
  · split at h
    · cases h
    · cases h
      rfl

/-- A selected type fits its two bits of the type byte (R265, R268). -/
theorem selectType_typ_le {dflt : FseTable} {prev free : FseState} {codes : List Nat} {maxLog : Nat} {ok : Bool} {c : Cand}
    (h : selectType dflt prev codes maxLog ok free = some c) : c.typ ≤ 3 := by
  unfold selectType at h
  dsimp only at h
  split at h
  · have hmem := mem_of_cheapest h
    rw [List.mem_append, List.mem_append] at hmem
    obtain (hb | hr) | hp := hmem
    · simp [candBasic_typ hb]
    · simp [candRle_typ hr]
    · simp [candRepeat_typ hp]
  · split at h
    · cases h
    · next d hd =>
      have hmem := mem_of_cheapest h
      rw [List.mem_append, List.mem_append] at hmem
      obtain (hb | hp) | hc := hmem
      · simp [candBasic_typ hb]
      · simp [candRepeat_typ hp]
      · simp [List.mem_singleton.mp hc, candCompressed_typ hd]

theorem seqSections_typeByte {prev : BlockState} {ctr : Nat} {seqs : List Seq} {codes : List Codes} {o : SeqOut}
    (h : seqSections prev ctr seqs codes = some o) : o.typeByte < 256 ∧ o.typeByte % 4 = 0 := by
  unfold seqSections at h
  dsimp only at h
  split at h
  · cases h
  · next a ha =>
    split at h
    · cases h
    · next b hb =>
      split at h
      · cases h
      · next c hc =>
        have h1 := selectType_typ_le ha
        have h2 := selectType_typ_le hb
        have h3 := selectType_typ_le hc
        cases h
        dsimp only
        omega

/-! ### SeqEncode -/

/-- The section of an empty store is the single byte 0 (R265). -/
def SeqOut.empty (prev : BlockState) : SeqOut :=
  { bytes := [0], typeByte := 0, ll := prev.fseLL, of := prev.fseOF, ml := prev.fseML }

theorem seqEncode_empty {q : SeqStore} (h : q.seqs = []) (prev : BlockState) (ctr : Nat) :
    seqEncode prev ctr q = (q, some (.empty prev)) := if_pos h

theorem seqEncode_nonempty {q : SeqStore} (h : q.seqs ≠ []) (prev : BlockState) (ctr : Nat) :
    seqEncode prev ctr q = (q.toCodes, seqSections prev ctr q.seqs q.toCodes.codes) := if_neg h

/-- The type byte is a byte with bits 1:0 zero (R265). -/
theorem seqEncode_typeByte {prev : BlockState} {ctr : Nat} {q : SeqStore} {o : SeqOut} (h : (seqEncode prev ctr q).2 = some o) :
    o.typeByte < 256 ∧ o.typeByte % 4 = 0 := by
  by_cases hq : q.seqs = []
  · rw [seqEncode_empty hq] at h
    cases h
    exact ⟨Nat.zero_lt_succ _, rfl⟩
  · rw [seqEncode_nonempty hq] at h
    exact seqSections_typeByte h

/-! ### SEQ_ENCODE -/

section
variable {s : State} {o : SeqOut} (hr : s.Ready) (ho : s.rangeOk s.op0 s.op1 = true)
  (hc : s.destClash 0 0 s.op0.toNat s.op1.toNat = false) (hsome : (seqEncode s.prev s.freeCtr s.seq).2 = some o)
include hr ho hc hsome

theorem exec_seqEncode_fits (h : o.bytes.length ≤ s.op1.toNat) :
    exec .seqEncode s = .next (({ s with seq := (seqEncode s.prev s.freeCtr s.seq).1 } : State).sectionWritten o.bytes
      (s.nextBs.withFse o) o.typeByte) := by
  obtain ⟨t, ht, ⟨hnone, _⟩ | ⟨o', ho', hlt, _⟩ | ⟨o', ho', _, rfl⟩⟩ := exec_worked_section (.inr rfl) hr ho hc
  · exact absurd (hsome.symm.trans hnone) nofun
  · obtain rfl := Option.some.inj (hsome.symm.trans ho')
    exact absurd h hlt.not_ge
  · obtain rfl := Option.some.inj (hsome.symm.trans ho')
    exact ht

theorem exec_seqEncode_small (h : s.op1.toNat < o.bytes.length) :
    exec .seqEncode s = .next { s.withCode 5 with seq := s.seq.toCodes } := by
  obtain ⟨t, ht, ⟨hnone, _⟩ | ⟨o', ho', _, rfl⟩ | ⟨o', ho', hle, _⟩⟩ := exec_worked_section (.inr rfl) hr ho hc
  · exact absurd (hsome.symm.trans hnone) nofun
  · exact ht
  · obtain rfl := Option.some.inj (hsome.symm.trans ho')
    exact absurd h hle.not_gt

end

/-- Settles O49: the command writes the section `seqEncode` builds when it fits (`exec_seqEncode_fits`), an empty store's
(`seqEncode_empty`) among them; when it does not fit, only SEQ_TO_CODES has run (`exec_seqEncode_small`). -/
theorem seqEncodeCompletes : Obligations.SeqEncodeCompletes := by
  intro s hr ho hc
  refine ⟨fun hempty hcap => ?_, fun o hsome => ⟨fun hfits => ?_, exec_seqEncode_small hr ho hc hsome⟩⟩
  · have henc := seqEncode_empty hempty s.prev s.freeCtr
    refine ⟨_, exec_seqEncode_fits hr ho hc (congrArg Prod.snd henc) hcap, ?_⟩
    rw [henc]
    exact ⟨State.sectionWritten_frame .., State.sectionWritten_prev .., State.sectionWritten_nextBs ..⟩
  · obtain ⟨hbyte, hlow⟩ := seqEncode_typeByte hsome
    have hres1 : (BitVec.ofNat 64 o.typeByte).toNat = o.typeByte :=
      toNat_ofNat_lt (hbyte.trans (by norm_num : 256 < 2 ^ 64)) le_rfl
    refine ⟨_, exec_seqEncode_fits hr ho hc hsome hfits, ?_,
      State.sectionWritten_res0_toNat (s := { s with seq := (seqEncode s.prev s.freeCtr s.seq).1 }) hfits _ _,
      hres1.trans_lt hbyte, (congrArg (· % 4) hres1).trans hlow, State.sectionWritten_prev .., ?_, fun hne => ?_⟩
    · rw [State.sectionWritten_seq]
      exact State.sectionWritten_frame ..
    · rw [State.sectionWritten_nextBs]
      rfl
    · rw [State.sectionWritten_seq, seqEncode_nonempty hne]
      rfl

end Sys2Proof.Machine
end

/-! # Proofs of the frame assembler family (48_frame_assembler.md)

The stage machine, the context reset, the derived parameters and the dictionaries; then a frame's units: its header, its
blocks, and the frame commands that write them. -/

/-! ## The stage machine (R280) -/

section
namespace Sys2Proof.Machine

open Sys2Proof

/-- The commands that stand on an arrow of the stage machine (R280). -/
def movesStage (i : Instr) : Bool :=
  match i with
  | .ctxInit | .frameContinue | .frameEnd | .blockCompress _ => true
  | _ => false

theorem finishMatch_stage {s t : State} {iend : Nat} {r : MatchRun} (h : (finishMatch s iend r).outcome = .next t) :
    t.stage = s.stage := by
  rcases finishMatch_next h with ⟨_, rfl⟩ | ⟨_, rfl⟩
  · rfl
  · exact State.setNextBs_stage _ _

theorem winAppend_stage (s : State) (src n : Nat) : (winAppend s src n).1.stage = s.stage := by rw [winAppend_frame]

theorem dictLoadContent_stage (s : State) (src len : Nat) (full : Bool) :
    (dictLoadContent s src len full).stage = s.stage := by
  unfold dictLoadContent dictContent
  split
  · rfl
  · dsimp only
    split <;> exact winAppend_stage s src len

/-- The work of a command that stands on no arrow leaves the stage. -/
theorem Worked.stage {i : Instr} {s t : State} (h : Worked i s t) (hi : movesStage i = false) : t.stage = s.stage := by
  cases i with
  | ctxInit | frameContinue | frameEnd | blockCompress _ => cases hi
  | dmsBuild => rcases h with ⟨_, rfl⟩ | ⟨_, _, rfl⟩ | ⟨_, _, rfl⟩ <;> rfl
  | dictLoad m =>
    rcases h with ⟨_, rfl⟩ | ⟨_, rfl⟩
    · rfl
    · have hl := dictLoadContent_stage s s.op0.toNat s.op1.toNat (modBit0 m)
      show (if s.op2 = 0 then _ else _ : State).stage = s.stage
      split
      · exact hl
      · rw [State.setPrev_stage, hl]
  | dictAttach =>
    subst h
    show (if s.dms.endIdx = 1 then s else s.attach).stage = s.stage
    split
    · rfl
    · exact State.setPrev_stage _ _
  | winAppend => subst h; exact winAppend_stage s _ _
  | winEnforceMaxdist => subst h; show (winEnforceMaxDist _ _ _).stage = _; rw [winEnforceMaxDist_frame]
  | dbgRead => obtain ⟨v, _, rfl⟩ := h; rfl
  | blkMatch => exact finishMatch_stage h
  | ldmBlkMatch =>
    obtain ⟨_, _, h⟩ := h
    exact (finishMatch_stage h).trans rfl
  | seqStore => rcases h with ⟨_, rfl⟩ | ⟨_, rfl⟩ <;> rfl
  | litCompress =>
    rcases h with ⟨_, rfl⟩ | ⟨_, rfl⟩
    · rfl
    · exact State.setNextBs_stage _ _
  | seqEncode =>
    rcases h with ⟨_, rfl⟩ | ⟨_, _, _, rfl⟩ | ⟨_, _, _, rfl⟩
    · rfl
    · rfl
    · exact State.setNextBs_stage _ _
  | paramsDerive => subst h; rw [State.withCode_stage, State.setRes1_stage, State.setRes0_stage]
  | winNeedsCorrection | winCorrectOverflow | tabFill _ | h1Insfind | dhInsfind | hcInsfind | hcSearch
  | btUpdate | btSearch | h3Insfind | ldmGenerate | seqReset | seqLastlit | seqToCodes => subst h; rfl

theorem Stage.started_of_ne {g : Stage} (h : g.started ≠ g) : g = .initialized ∧ g.started = .ongoing := by
  cases g with
  | initialized => exact ⟨rfl, rfl⟩
  | created | ongoing | ending => exact absurd rfl h

theorem Stage.started_of_isIO {g : Stage} (h : g.isIO = true) : g.started = .ongoing := by
  cases g with
  | created | ending => cases h
  | initialized | ongoing => rfl

/-- A frame command that ends with `DstTooSmall` has taken the first arrow or none. -/
theorem FrameRun.stage {s t : State} (h : FrameRun s t) (hne : t.stage ≠ s.stage) :
    s.stage = .initialized ∧ t.stage = .ongoing ∧ t.status.code = 5 := by
  rcases h with ⟨_, _, rfl⟩ | ⟨u, w, _, hst, _, _, rfl⟩
  · exact absurd rfl hne
  · have hu : u.stage ≠ s.stage := hne
    rw [hst] at hu
    obtain ⟨hi, ho⟩ := Stage.started_of_ne hu
    exact ⟨hi, hst.trans ho, rfl⟩

/-- Settles O19: only CTX_INIT, the frame commands and BLOCK_COMPRESS can move the stage (`Worked.stage`), each along its own
arrow. -/
theorem stageMovesAlongTheArrows : Obligations.StageMovesAlongTheArrows := by
  intro i s t h hne
  rcases exec_next h with h | ⟨hl, _, h⟩
  · obtain ⟨c, rfl⟩ := h.withCode
    exact absurd rfl hne
  cases i with
  | ctxInit =>
    rcases h with ⟨_, rfl⟩ | ⟨_, rfl⟩
    · exact absurd rfl hne
    · exact .inl ⟨rfl, rfl, rfl⟩
  | frameContinue =>
    rcases h with ⟨_, rfl⟩ | ⟨_, h | ⟨u, w, _, hst, _, _, rfl⟩⟩
    · exact absurd rfl hne
    · obtain ⟨hi, ho, hc⟩ := h.stage hne
      exact .inr (.inl ⟨.inl rfl, hi, ho, .inl hc⟩)
    · have hu : u.stage ≠ s.stage := hne
      rw [hst] at hu
      obtain ⟨hi, ho⟩ := Stage.started_of_ne hu
      exact .inr (.inl ⟨.inl rfl, hi, hst.trans ho, .inr ⟨rfl, rfl⟩⟩)
  | frameEnd =>
    obtain ⟨_, hio⟩ := letThrough_ready hl (isIO_eq _) rfl rfl
    rcases h with ⟨_, rfl⟩ | ⟨_, h | ⟨u, w, _, _, _, rfl⟩⟩
    · exact absurd rfl hne
    · obtain ⟨hi, ho, hc⟩ := h.stage hne
      exact .inr (.inl ⟨.inr rfl, hi, ho, .inl hc⟩)
    · exact .inr (.inr (.inl ⟨rfl, hio, rfl, rfl⟩))
  | blockCompress m =>
    obtain ⟨_, hst⟩ := letThrough_gates hl rfl rfl
    rcases h with ⟨u, hu, _, _, rfl⟩ | ⟨u, k, typ, hu, _, _, rfl⟩
    · exact absurd (congrArg State.stage hu) hne
    · cases hm : modBit0 m
      · rw [hm] at hne
        exact absurd (congrArg State.stage hu) hne
      · exact .inr (.inr (.inr ⟨⟨m, rfl, hm⟩, eq_of_beq hst, rfl, rfl⟩))
  | _ => exact absurd (h.stage rfl) hne

end Sys2Proof.Machine
end

/-! ## Context reset (R281 to R283) -/

section
namespace Sys2Proof.Machine

open Sys2Proof

theorem exec_ctxInit_of {s : State} (hf : s.status.fatal = false) (hv : s.cfg.valid = true)
    (hw : s.cfg.workspace ≤ s.impl.tabCap) : exec .ctxInit s = .next (s.ctxInit.withCode 0) := by
  show (gateFatal s _).outcome = _
  rw [gateFatal_of hf, require_of hv, require_of (decide_eq_true hw)]
  rfl

/-- The four flags, unpacked and packed again, are the byte they came from when its other bits are 0. -/
theorem CfgRegs.latch_flagsByte {c : CfgRegs} (h : c.flags.toNat < 16) : c.latch.flagsByte = c.flags.toNat := by
  have hbits : ∀ f : Fin 16, (f.val.testBit 0).toNat + 2 * (f.val.testBit 1).toNat + 4 * (f.val.testBit 2).toNat +
      8 * (f.val.testBit 3).toNat = f.val := by decide
  exact hbits ⟨_, h⟩

theorem CfgRegs.flags_lt {c : CfgRegs} (h : c.valid = true) : c.flags.toNat < 16 := by
  simp only [CfgRegs.valid, Bool.and_eq_true] at h
  exact of_decide_eq_true h.1.2

/-- CTX_INIT latches the 13 configuration registers (R281). -/
theorem State.ctxInit_readReg {s : State} (h : s.cfg.flags.toNat < 16) {k : Nat} (hk : k < 13) :
    (s.ctxInit.withCode 0).readReg (64 + k) = s.readReg (16 + k) := by
  have hflags : (s.ctxInit.withCode 0).readReg (64 + 7) = s.readReg (16 + 7) := by
    show BitVec.ofNat 64 s.cfg.latch.flagsByte = s.cfg.flags.setWidth 64
    rw [CfgRegs.latch_flagsByte h, BitVec.ofNat_toNat]
  interval_cases k
  on_goal 8 => exact hflags
  all_goals rfl

@[simp] theorem Table.get_absent (i : Nat) : Table.absent.get i = 0 := rfl

/-- The tables of a fresh context are empty (R281). -/
theorem Latched.freshMs_get (p : Latched) (k : Nat) :
    p.freshMs.hashTable.get k = 0 ∧ p.freshMs.chainTable.get k = 0 ∧ p.freshMs.hashTable3.get k = 0 := by
  unfold Latched.freshMs Latched.freshHash Latched.freshChain
  refine ⟨Table.get_zeros _ _, ?_, ?_⟩ <;> dsimp only <;> split
  · exact Table.get_absent _
  · exact Table.get_zeros _ _
  · exact Table.get_absent _
  · exact Table.get_zeros _ _

/-- Settles O20: what CTX_INIT writes stands in `State.ctxInit`; the registers it latches read back (`State.ctxInit_readReg`)
and its tables are fresh (`Latched.freshMs_sized`, `Latched.freshMs_get`). -/
theorem ctxInitCompletes : Obligations.CtxInitCompletes := by
  intro s hf hv hw
  have hblock : ∀ b ∈ [s.ctxInit.bs0, s.ctxInit.bs1], ∃ tag, b = initBlockState s.freeCtr tag := by
    simp only [List.forall_mem_cons]
    exact ⟨⟨0, rfl⟩, ⟨3, rfl⟩, nofun⟩
  refine ⟨_, exec_ctxInit_of hf hv hw, ?_, fun k => State.ctxInit_readReg (CfgRegs.flags_lt hv), fun b hb => ?_,
    Latched.freshMs_sized (CfgRegs.latch_inRange hv), s.cfg.latch.freshMs_get, rfl, rfl, rfl, rfl, fun he => ?_, fun he => ?_⟩
  · have hstatus : ({ code := 0, fatal := s.status.fatal, unspec := false } : Status) =
        { code := 0, fatal := false, unspec := false } := by rw [hf]
    exact congrArg (fun status => ({ s.ctxInit with status := status } : State)) hstatus
  · obtain ⟨tag, rfl⟩ := hblock b hb
    refine ⟨rfl, rfl, rfl, rfl, rfl, rfl, rfl, rfl, rfl, rfl, ?_⟩
    simp only [List.forall_mem_cons]
    exact ⟨⟨rfl, rfl⟩, ⟨rfl, rfl⟩, ⟨rfl, rfl⟩, nofun⟩
  · have hldm : s.ctxInit.ldm = s.ldm.clear := if_pos he
    show s.ctxInit.ldm.table = [] ∧ s.ctxInit.ldm.bucketPos = [] ∧ s.ctxInit.ldm.w = .init ∧ s.ctxInit.ldm.seq = [] ∧
      s.ctxInit.ldm.pos = 0
    rw [hldm]
    exact ⟨rfl, rfl, rfl, rfl, rfl⟩
  · exact if_neg (Bool.eq_false_iff.mp he)

end Sys2Proof.Machine
end

/-! ## Derived parameters (R311 to R315) -/

section
namespace Sys2Proof.Machine

open Sys2Proof

/-! ### The row of a level (R311, R313) -/

theorem levelRows_ok {c : Config.Impl} (h : c.legal = true) : (levelRows c.levels).all Config.LevelRow.ok = true := by
  simp only [Config.Impl.legal, Bool.and_eq_true] at h
  cases hl : c.levels with
  | preset => decide
  | rows rs =>
    rw [hl] at h
    exact (Bool.and_eq_true_iff.mp h.2).2

/-- Whatever its number, a row read from a legal table (beyond whose end the default's row 0 is read) passes its bounds. -/
theorem levelRow_ok {c : Config.Impl} (h : c.legal = true) (i : Nat) :
    ((levelRows c.levels).getD i (lrow 19 12 13 1 6 1 1)).ok = true := by
  rw [List.getD_eq_getElem?_getD]
  cases hr : (levelRows c.levels)[i]? with
  | none => decide
  | some r => exact List.all_eq_true.mp (levelRows_ok h) r (List.mem_of_getElem? hr)

/-- Bounds of `ParamsValid` (R282) on the logs of a window, a chain table and a hash table. -/
structure LogsLegal (wl cl hl st : Nat) : Prop where
  window : 10 ≤ wl ∧ wl ≤ 31
  hash : 6 ≤ hl ∧ hl ≤ 30
  chain : 6 ≤ cl ∧ cl ≤ 30
  cycle : (if 6 ≤ st then cl - 1 else cl) ≤ wl

theorem levelRow_bounds {r : Config.LevelRow} (h : r.ok = true) :
    LogsLegal r.windowLog r.chainLog r.hashLog r.strategy ∧ (1 ≤ r.searchLog ∧ r.searchLog ≤ 30) ∧
      (3 ≤ r.minMatch ∧ r.minMatch ≤ 8) ∧ (1 ≤ r.strategy ∧ r.strategy ≤ 8) ∧ r.targetLength ≤ 131072 := by
  obtain ⟨hst1, hst2, hw1, hw2, hh1, hh2, hc1, hc2, hs1, hs2, hm1, hm2, ht, hcyc⟩ := of_decide_eq_true h
  exact ⟨⟨⟨hw1, hw2⟩, ⟨hh1, hh2⟩, ⟨hc1, hc2⟩, hcyc⟩, ⟨hs1, hs2⟩, ⟨hm1, hm2⟩, ⟨hst1, hst2⟩, ht⟩

/-! ### Adjust and Pack (R312, R314) -/

theorem srcLog_ge (t : Nat) : 6 ≤ srcLog t := by
  unfold srcLog
  split
  · exact le_refl 6
  · have hlo : 2 ^ 5 ≤ t - 1 := by omega
    have := (highbit_mem_range hlo Nat.lt_two_pow_self).1
    omega

/-- `Adjust` keeps legal logs legal: the window shrinks to no less than 6, a hash table to no less than that and one, a chain
table to the window, and the window's floor of 10 comes last (R314). -/
theorem adjust_legal {wl cl hl st : Nat} (h : LogsLegal wl cl hl st) (src dict : Nat) :
    LogsLegal (adjust wl cl hl st src dict).1 (adjust wl cl hl st src dict).2.1 (adjust wl cl hl st src dict).2.2 st := by
  obtain ⟨hw, hh, hc, -⟩ := h
  unfold adjust
  extract_lets src' w hl' cyc cl'
  have hw' : 6 ≤ w ∧ w ≤ 31 := by
    have := srcLog_ge (src' + dict)
    grind
  have hh' : 6 ≤ hl' ∧ hl' ≤ 30 := by omega
  refine ⟨by dsimp only; omega, hh', ?_, ?_⟩
  · dsimp only
    grind
  · dsimp only
    grind

/-- The six fields of the packed word read back (R312). -/
theorem pack_fields {wl hl cl sl mm st : Nat} (hwl : wl < 256) (hhl : hl < 256) (hcl : cl < 256) (hsl : sl < 256)
    (hmm : mm < 256) :
    let v := pack wl hl cl sl mm st
    v % 256 = wl ∧ v / 2 ^ 8 % 256 = hl ∧ v / 2 ^ 16 % 256 = cl ∧ v / 2 ^ 24 % 256 = sl ∧ v / 2 ^ 32 % 256 = mm ∧
      v / 2 ^ 40 = st := by
  unfold pack
  omega

theorem pack_lt {wl hl cl sl mm st : Nat} (hwl : wl < 256) (hhl : hl < 256) (hcl : cl < 256) (hsl : sl < 256)
    (hmm : mm < 256) (hst : st < 256) : pack wl hl cl sl mm st < 2 ^ 48 := by
  unfold pack
  omega

/-! ### PARAMS_DERIVE -/

theorem State.finished_frame (s : State) (x y : Nat) : ((s.setRes0 x).setRes1 y).withCode 0 =
    { s.withCode 0 with
      res0 := (((s.setRes0 x).setRes1 y).withCode 0).res0, res1 := (((s.setRes0 x).setRes1 y).withCode 0).res1 } := rfl

theorem exec_paramsDerive_of {s : State} (hf : s.status.fatal = false) :
    exec .paramsDerive s = .next (((s.setRes0
      (deriveParams s.impl.levels (levelOperand s.op0) s.op1.toNat s.op2.toNat).1).setRes1
      (deriveParams s.impl.levels (levelOperand s.op0) s.op1.toNat s.op2.toNat).2).withCode 0) := by
  show (gateFatal s _).outcome = _
  rw [gateFatal_of hf]
  rfl

/-- The `level` operand of a number that is not negative at 32 bits (R61). -/
theorem levelOperand_of_lt {v : DWord} (h : v.toNat % 2 ^ 32 < 2 ^ 31) : levelOperand v = (v.toNat % 2 ^ 32 : Nat) := by
  have hn : (v.extractLsb' 0 32).toNat = v.toNat % 2 ^ 32 := by simp
  unfold levelOperand
  rw [BitVec.toInt_eq_toNat_of_lt (by omega), hn]

/-- Two levels that are not negative and select one row derive the same parameters (R311). -/
theorem deriveParams_congr {a b : Nat} (h : levelIndex a = levelIndex b) (t : Config.LevelTable) (src dict : Nat) :
    deriveParams t a src dict = deriveParams t b src dict := by
  unfold deriveParams
  dsimp only
  rw [h, if_neg (by omega), if_neg (by omega)]

/-- Every level above 22 selects level 22's row (R311). -/
theorem levelIndex_of_gt {n : Nat} (h : 22 < n) : levelIndex n = levelIndex (22 : Nat) := by
  have hn : min ((n : Int)).toNat 22 = 22 := by omega
  unfold levelIndex
  rw [if_neg (by omega), if_pos (by omega), hn]
  rfl

/-- PARAMS_DERIVE of another level that selects the same row. -/
theorem exec_paramsDerive_congr {s t : State} {v : DWord} (hf : s.status.fatal = false)
    (ht : exec .paramsDerive s = .next t) (hs : s.op0.toNat % 2 ^ 32 < 2 ^ 31) (hv : v.toNat % 2 ^ 32 < 2 ^ 31)
    (hi : levelIndex (v.toNat % 2 ^ 32 : Nat) = levelIndex (s.op0.toNat % 2 ^ 32 : Nat)) :
    exec .paramsDerive { s with op0 := v } = .next { t with op0 := v } := by
  have hd := deriveParams_congr hi s.impl.levels s.op1.toNat s.op2.toNat
  rw [← levelOperand_of_lt hs, ← levelOperand_of_lt hv] at hd
  rw [exec_paramsDerive_of hf] at ht
  cases ht
  rw [exec_paramsDerive_of (s := { s with op0 := v }) hf]
  dsimp only
  rw [hd]
  rfl

/-- What PARAMS_DERIVE packs: parameters within the bounds of `ParamsValid` (R282, R312, R315). -/
theorem deriveParams_packs {c : Config.Impl} (h : c.legal = true) (lvl : Int) (src dict : Nat) :
    ∃ wl hl cl sl mm st tl, deriveParams c.levels lvl src dict = (pack wl hl cl sl mm st, tl) ∧ LogsLegal wl cl hl st ∧
      (1 ≤ sl ∧ sl ≤ 30) ∧ (3 ≤ mm ∧ mm ≤ 8) ∧ (1 ≤ st ∧ st ≤ 8) ∧ tl ≤ 131072 := by
  unfold deriveParams
  have hok := levelRow_ok h (levelIndex lvl)
  generalize (levelRows c.levels).getD (levelIndex lvl) (lrow 19 12 13 1 6 1 1) = r at hok
  obtain ⟨hlogs, hsl, hmm, hst, htl⟩ := levelRow_bounds hok
  refine ⟨_, _, _, _, _, _, _, rfl, adjust_legal hlogs src dict, hsl, hmm, hst, ?_⟩
  split
  · exact Nat.min_le_right _ _
  · exact htl

/-- Settles O21: what is packed is within its bounds (`deriveParams_packs`) and reads back (`pack_fields`); level 0 and the
levels above 22 select the rows of levels 3 and 22. -/
theorem paramsDeriveGivesLegalParameters : Obligations.ParamsDeriveGivesLegalParameters := by
  intro s hf himpl
  have hex := exec_paramsDerive_of hf
  obtain ⟨wl, hl, cl, sl, mm, st, tl, hp, ⟨hw, hh, hc, hcyc⟩, hsl, hmm, hst, htl⟩ :=
    deriveParams_packs himpl (levelOperand s.op0) s.op1.toNat s.op2.toNat
  rw [hp] at hex
  have hres0 : (BitVec.ofNat 64 (pack wl hl cl sl mm st)).toNat = pack wl hl cl sl mm st :=
    toNat_ofNat_lt (pack_lt (by omega) (by omega) (by omega) (by omega) (by omega) (by omega)) (by norm_num)
  have hres1 : (BitVec.ofNat 64 tl).toNat = tl := toNat_ofNat_lt (n := 18) (by omega) (by norm_num)
  obtain ⟨e1, e2, e3, e4, e5, e6⟩ := pack_fields (wl := wl) (hl := hl) (cl := cl) (sl := sl) (mm := mm) (st := st)
    (by omega) (by omega) (by omega) (by omega) (by omega)
  refine ⟨_, hex, State.finished_frame s _ _, ?_⟩
  simp only [State.withCode_res0, State.withCode_res1, State.setRes1_res0, State.setRes0_res0, State.setRes1_res1, hres0,
    hres1, e1, e2, e3, e4, e5, e6]
  exact ⟨hw.1, hw.2, hh.1, hh.2, hc.1, hc.2, hsl.1, hsl.2, hmm.1, hmm.2, hst.1, hst.2, htl, hcyc,
    fun h0 => exec_paramsDerive_congr hf hex (by omega) (by decide) (by rw [h0]; rfl),
    fun h22 h31 => exec_paramsDerive_congr hf hex h31 (by decide) (levelIndex_of_gt h22).symm⟩

end Sys2Proof.Machine
end

/-! ## Dictionaries (R306 to R310) -/

section
namespace Sys2Proof.Machine

open Sys2Proof

/-! ### Little-endian fields -/

theorem leVal_lt (bytes : List Byte) : leVal bytes < 2 ^ (8 * bytes.length) := by
  induction bytes with
  | nil => exact Nat.one_pos
  | cons b bs ih =>
    have hb := b.isLt
    rw [leVal, List.length_cons, Nat.mul_succ, Nat.pow_add]
    omega

/-- `le` undoes `LE_n` on a value of `n` bytes (00_scope.md section 5). -/
theorem leVal_leBytes {n v : Nat} (h : v < 2 ^ (8 * n)) : leVal (leBytes n v) = v := by
  induction n generalizing v with
  | zero => rw [Nat.lt_one_iff.mp h]; rfl
  | succ n ih =>
    rw [Nat.mul_succ, Nat.pow_add] at h
    rw [leBytes, leVal, ih (by omega), BitVec.toNat_ofNat]
    omega

theorem fieldAt_lt (bytes : List Byte) (off n : Nat) : fieldAt bytes off n < 2 ^ (8 * n) :=
  (leVal_lt _).trans_le (Nat.pow_le_pow_right (by norm_num) (Nat.mul_le_mul_left 8 (List.length_take_le _ _)))

/-! ### What DICT_LOAD takes in (R306) -/

theorem dictLoadContent_empty (s : State) (src : Nat) (full : Bool) :
    dictLoadContent s src 0 full = { s with ms := { s.ms with loadedDictEnd := word32 s.cur } } := rfl

theorem dictLoadContent_nonempty {len : Nat} (h : len ≠ 0) (s : State) (src : Nat) (full : Bool) :
    dictLoadContent s src len full = dictContent s src len full := if_neg h

theorem dictContent_frame (s : State) (src len : Nat) (full : Bool) :
    dictContent s src len full = { s with
      w := (dictContent s src len full).w, ms := (dictContent s src len full).ms
      ldm := (dictContent s src len full).ldm } := by
  have hf := winAppend_frame s src len
  unfold dictContent
  dsimp only
  generalize (winAppend s src len).1 = s1 at hf ⊢
  split <;> (dsimp only; rw [hf])

theorem dictLoadContent_frame (s : State) (src len : Nat) (full : Bool) :
    dictLoadContent s src len full = { s with
      w := (dictLoadContent s src len full).w, ms := (dictLoadContent s src len full).ms
      ldm := (dictLoadContent s src len full).ldm } := by
  by_cases h : len = 0
  · subst h; rfl
  · rw [dictLoadContent_nonempty h]
    exact dictContent_frame s src len full

/-- After the fill both cursors of the dictionary stand at the end of its content. -/
theorem dictContent_cursors (s : State) (src len : Nat) (full : Bool) :
    (dictContent s src len full).ms.loadedDictEnd = word32 ((winAppend s src len).1.idx (src + len)) ∧
    (dictContent s src len full).ms.nextToUpdate = word32 ((winAppend s src len).1.idx (src + len)) := by
  unfold dictContent
  dsimp only
  generalize (winAppend s src len).1 = s1
  have hfill (m : MatchState) : (if len > Config.hashRead then tabFill s1.view m (s1.idx (src + len)) full else m).loadedDictEnd =
      m.loadedDictEnd := by
    split
    · exact (tabFill_kept _ _ _ _).dictEnd
    · rfl
  split <;> exact ⟨hfill _, rfl⟩

/-- Without the LDM its state stays. -/
theorem dictLoadContent_ldm {s : State} (h : s.p.ldmEnable = false) (src len : Nat) (full : Bool) :
    (dictLoadContent s src len full).ldm = s.ldm := by
  by_cases h0 : len = 0
  · subst h0; rfl
  · have hl := winAppend_ldm s src len
    rw [dictLoadContent_nonempty h0]
    unfold dictContent
    rw [h, if_neg Bool.false_ne_true] at hl ⊢
    exact hl

/-- The content stands at the end of the window, up to `loadedDictEnd` (R306). -/
theorem dictLoadContent_lands {s : State} {src len : Nat} (full : Bool) (haw : 32 ≤ s.impl.addrW ∧ s.impl.addrW ≤ 64)
    (hw : s.WindowOk) (hn : s.cur + len < 2 ^ 32) (hend : src + len ≤ 2 ^ s.impl.addrW) :
    let t := dictLoadContent s src len full
    t.cur = s.cur + len ∧ t.ms.loadedDictEnd.toNat = s.cur + len ∧
      (len ≠ 0 → t.ms.nextToUpdate.toNat = s.cur + len ∧ t.idx src = s.cur ∧
        t.w = (s.w.append s.impl.addrW s.freeCtr src len).1) := by
  have hn' : s.cur + len < 2 ^ s.impl.addrW := hn.trans_le (Nat.pow_le_pow_right (by norm_num) haw.1)
  by_cases h0 : len = 0
  · subst h0
    exact ⟨rfl, word32_toNat hn, fun h => absurd rfl h⟩
  · obtain ⟨_, hcur, hidx, _⟩ := winAppend_ordered haw.2 hw hn' hend
    obtain ⟨hdict, hnext⟩ := dictContent_cursors s src len full
    have himpl : (winAppend s src len).1.impl = s.impl := by rw [winAppend_frame]
    have hwin : (dictContent s src len full).w = (winAppend s src len).1.w := (dictContent_after s src len full).1
    have he : (winAppend s src len).1.idx (src + len) = s.cur + len := by
      have hsrc := hidx h0
      unfold State.idx at hsrc ⊢
      rw [himpl] at hsrc ⊢
      rw [Window.idx_add (by rwa [hsrc]), hsrc]
    have ht : (dictContent s src len full).impl = s.impl := by rw [dictContent_frame]
    rw [he] at hdict hnext
    rw [dictLoadContent_nonempty h0]
    unfold State.cur at hcur ⊢
    unfold State.idx at hidx ⊢
    rw [himpl] at hcur hidx
    dsimp only
    rw [ht, hwin, hdict, hnext, word32_toNat hn]
    exact ⟨hcur, rfl, fun h => ⟨rfl, hidx h, winAppend_w s src len⟩⟩

/-! ### The descriptor installed (R307, R308) -/

/-- A descriptor in effect: its first repeat offset, and no table of mode *none*. -/
theorem Descriptor.install_modes (bytes : List Byte) :
    (parseDescriptor bytes).install.rep.r0.toNat = (parseDescriptor bytes).rep0 ∧
    (parseDescriptor bytes).install.huf.mode ≠ .none := by
  refine ⟨toNat_ofNat_lt (fieldAt_lt bytes 0 4) (le_refl 32), ?_⟩
  unfold Descriptor.install
  dsimp only
  split <;> nofun

/-- A block state put in effect, or none. -/
theorem State.install_frame (s : State) (P : Prop) [Decidable P] (b : BlockState) :
    (if P then s else s.setPrev b) = { s with
      bs0 := (if P then s else s.setPrev b).bs0, bs1 := (if P then s else s.setPrev b).bs1 } := by
  split
  · rfl
  · unfold State.setPrev
    split <;> rfl

theorem State.install_prev (s : State) (P : Prop) [Decidable P] (b : BlockState) :
    (if P then s else s.setPrev b).prev = (if P then s.prev else b) ∧
    (if P then s else s.setPrev b).nextBs = s.nextBs := by
  split
  · exact ⟨rfl, rfl⟩
  · exact ⟨State.setPrev_prev s b, State.setPrev_nextBs s b⟩

/-! ### DICT_LOAD (R306, R308) -/

/-- The state after DICT_LOAD: the content taken in, a descriptor installed when there is one, the ID kept. -/
def State.dictLoaded (s : State) (m : Byte) : State :=
  ({ (if s.op2 = 0 then dictLoadContent s s.op0.toNat s.op1.toNat (modBit0 m) else
    (dictLoadContent s s.op0.toNat s.op1.toNat (modBit0 m)).setPrev s.descriptor.install) with
      dictID := s.op3.setWidth 32 } : State).withCode 0

theorem exec_dictLoad_of {m : Byte} {s : State} (hg : s.GatesOpen) (hst : s.stage = .initialized)
    (ho : s.dictOperandsOk = true) (hn : s.cur + s.op1.toNat < 2 ^ 32) (hd : s.descriptorOk = true) :
    exec (.dictLoad m) s = .next (s.dictLoaded m) := by
  obtain ⟨t, ht, ⟨hd', _⟩ | ⟨_, rfl⟩⟩ := exec_worked (i := .dictLoad m) ⟨hg, by rw [hst]; rfl⟩ (by rw [hst]; rfl) rfl nofun
    (and_both ho (decide_eq_true hn))
  · exact absurd hd (by simp [hd'])
  · exact ht

/-- The window, the Match State and the LDM State are those of the content step. -/
theorem State.dictLoaded_content (s : State) (m : Byte) :
    let c := dictLoadContent s s.op0.toNat s.op1.toNat (modBit0 m)
    (s.dictLoaded m).w = c.w ∧ (s.dictLoaded m).ms = c.ms ∧ (s.dictLoaded m).ldm = c.ldm ∧ (s.dictLoaded m).cur = c.cur ∧
      (s.dictLoaded m).idx s.op0.toNat = c.idx s.op0.toNat := by
  unfold State.dictLoaded
  dsimp only
  rw [State.install_frame]
  exact ⟨rfl, rfl, rfl, rfl, rfl⟩

theorem State.dictLoaded_frame (s : State) (m : Byte) :
    s.dictLoaded m = { s.withCode 0 with
      w := (s.dictLoaded m).w, ms := (s.dictLoaded m).ms, ldm := (s.dictLoaded m).ldm, bs0 := (s.dictLoaded m).bs0
      bs1 := (s.dictLoaded m).bs1, dictID := s.op3.setWidth 32 } := by
  unfold State.dictLoaded
  rw [State.install_frame, dictLoadContent_frame]
  rfl

theorem State.dictLoaded_blocks (s : State) (m : Byte) :
    (s.dictLoaded m).prev = (if s.op2 = 0 then s.prev else s.descriptor.install) ∧ (s.dictLoaded m).nextBs = s.nextBs := by
  have hc := dictLoadContent_frame s s.op0.toNat s.op1.toNat (modBit0 m)
  have hkept : (dictLoadContent s s.op0.toNat s.op1.toNat (modBit0 m)).prev = s.prev ∧
      (dictLoadContent s s.op0.toNat s.op1.toNat (modBit0 m)).nextBs = s.nextBs := by
    rw [hc]
    exact ⟨rfl, rfl⟩
  obtain ⟨hprev, hnext⟩ :=
    (dictLoadContent s s.op0.toNat s.op1.toNat (modBit0 m)).install_prev (s.op2 = 0) s.descriptor.install
  exact ⟨hprev.trans (by rw [hkept.1]), hnext.trans hkept.2⟩

/-- Settles O22: the content is appended as by WIN_APPEND, so it ends at the new current index. -/
theorem dictLoadCompletes : Obligations.DictLoadCompletes := by
  intro m s hg hst hleg hw ho hn hd
  have hrange : s.rangeOk s.op0 s.op1 = true := by
    simp only [State.dictOperandsOk, Bool.and_eq_true] at ho
    exact ho.1.1
  obtain ⟨hcur, hdict, hland⟩ := dictLoadContent_lands (modBit0 m) (Impl.legal_addrW hleg) hw hn (State.rangeOk_end hrange)
  obtain ⟨htw, htms, htldm, htcur, htidx⟩ := s.dictLoaded_content m
  obtain ⟨hprev, hnext⟩ := s.dictLoaded_blocks m
  refine ⟨s.dictLoaded m, exec_dictLoad_of hg hst ho hn hd, s.dictLoaded_frame m, htcur.trans hcur, ?_, fun hpos => ?_,
    fun h0 => ?_, fun hl => htldm.trans (dictLoadContent_ldm hl _ _ _), hnext, fun h2 => hprev.trans (if_pos h2),
    fun h2 => ?_⟩
  · rw [htms, htcur, hdict, hcur]
  · obtain ⟨hnextTo, hidx, hwin⟩ := hland hpos.ne'
    exact ⟨by rw [htms, htcur, hnextTo, hcur], htidx.trans hidx, htw.trans hwin⟩
  · rw [show s.op1.toNat = 0 by rw [h0]; rfl, dictLoadContent_empty] at htw htms htldm
    exact ⟨htw, by rw [htms], htldm⟩
  · obtain ⟨hrep, hhuf⟩ := Descriptor.install_modes (s.mem.readBytes s.op2.toNat Config.descriptorSize)
    rw [hprev, if_neg h2]
    exact ⟨rfl, hrep, rfl, rfl, rfl, hhuf⟩

/-! ### DMS_BUILD (R309) -/

theorem exec_dmsBuild_of {s : State} (hf : s.status.fatal = false) (ha : s.ms.dmsAttached = false)
    (hv : s.cfg.coreValid = true) (ho : s.dictOperandsOk = true) (hn : s.op1.toNat + 1 < 2 ^ 32)
    (hb : s.cfg.baseEntries ≤ s.impl.tabCap) (hd : s.descriptorOk = true) :
    exec .dmsBuild s = .next (({ s with dms := buildBank s } : State).withCode 0) := by
  show (gateFatal s _).outcome = _
  rw [gateFatal_of hf, ha, Bool.not_false, gateStage_true, require_of hv, require_of (and_both ho (decide_eq_true hn)),
    require_of (decide_eq_true hb), require_of hd]
  rfl

/-- The content of the bank stands at the indices from 1 (R309). -/
theorem bankWindow_lands {aw src len : Nat} (haw : aw ≤ 64) (hn : len + 1 < 2 ^ aw) :
    (bankWindow aw src len).idx aw src = 1 ∧ (bankWindow aw src len).cur aw = len + 1 := by
  have hbase : (bankWindow aw src len).base.toNat = subA aw src 1 := toNat_ofNat_lt (subA_lt _ _ _) haw
  have hidx : (bankWindow aw src len).idx aw src = 1 := by
    refine subA_eq (by omega) ?_
    rw [hbase, Nat.add_comm]
    exact subA_add aw src 1
  refine ⟨hidx, ?_⟩
  have hend : (bankWindow aw src len).nextSrc.toNat = (src + len) % 2 ^ aw :=
    toNat_ofNat_lt (Nat.mod_lt _ (by positivity)) haw
  rw [Window.cur_eq_idx, hend, Window.idx_mod, Window.idx_add (by omega), hidx, Nat.add_comm]

/-- The tables of the bank are those of its parameters, filled (R309). -/
theorem buildBank_sizes (s : State) :
    (buildBank s).hashTable.size = 2 ^ s.cfg.hashLog.toNat ∧
    (buildBank s).chainTable.size = (if s.cfg.strategy.toNat = 1 then 0 else 2 ^ s.cfg.chainLog.toNat) := by
  have hk : TablesKept s.cfg.bankParams.bankMs
      (if s.op1.toNat > Config.hashRead then
        tabFill (bankView s s.cfg.bankParams (bankWindow s.impl.addrW s.op0.toNat s.op1.toNat) s.op1.toNat)
          s.cfg.bankParams.bankMs (1 + s.op1.toNat) true
      else s.cfg.bankParams.bankMs) := by
    split
    · exact tabFill_kept _ _ _ _
    · exact .refl _
  refine ⟨hk.hash.1, hk.chain.1.trans ?_⟩
  show (Latched.freshChain _).size = _
  unfold Latched.freshChain Latched.layout
  rw [apply_ite Table.size]
  simp only [layoutOf_eq_single]
  rfl

/-- Settles O23: the bank's window puts the content at index 1, and the fill keeps the size of its tables. -/
theorem dmsBuildCompletes : Obligations.DmsBuildCompletes := by
  intro s hf ha hleg hv ho hn hb hd
  have haw := Impl.legal_addrW hleg
  have hn' : s.op1.toNat + 1 < 2 ^ s.impl.addrW := hn.trans_le (Nat.pow_le_pow_right (by norm_num) haw.1)
  obtain ⟨hidx, hcur⟩ := bankWindow_lands (src := s.op0.toNat) haw.2 hn'
  obtain ⟨hhash, hchain⟩ := buildBank_sizes s
  have hbs : (buildBank s).bs = if s.op2 = 0 then initBlockState s.freeCtr 0 else s.descriptor.install := rfl
  refine ⟨_, exec_dmsBuild_of hf ha hv ho hn hb hd, rfl, rfl, (word32_toNat (by omega)).trans (Nat.add_comm _ _), rfl, rfl,
    hcur, hidx, rfl, rfl, rfl, hhash, hchain, fun h => hbs.trans (if_neg h), fun h => ?_⟩
  rw [State.withCode_dms, hbs, if_pos h]
  exact ⟨rfl, rfl, rfl, rfl, rfl, rfl, rfl⟩

/-! ### DICT_ATTACH (R310) -/

theorem exec_dictAttach_of {s : State} (hg : s.GatesOpen) (hst : s.stage = .initialized) (hv : s.dms.valid = true)
    (hl : s.dms.p.layout = s.p.layout) (hc : s.cur = 1) :
    exec .dictAttach s = .next ((if s.dms.endIdx = 1 then s else s.attach).withCode 0) := by
  obtain ⟨t, ht, rfl⟩ := exec_worked (i := .dictAttach) ⟨hg, by rw [hst]; rfl⟩ (by rw [hst]; rfl) rfl nofun
    (and_both hv (decide_eq_true ⟨hl, hc⟩))
  exact ht

theorem State.attach_frame (s : State) :
    s.attach = { s with
      w := { s.w with
        nextSrc := s.attach.w.nextSrc, dictLimit := s.dms.endIdx, lowLimit := s.dms.endIdx },
      ms := { s.ms with dmsAttached := true, nextToUpdate := s.dms.endIdx, loadedDictEnd := s.dms.endIdx },
      dictID := s.dms.dictID, bs0 := s.attach.bs0, bs1 := s.attach.bs1 } := by
  unfold State.attach State.setPrev
  dsimp only
  split <;> rfl

theorem State.attach_cur {s : State} (haw : 32 ≤ s.impl.addrW ∧ s.impl.addrW ≤ 64) : s.attach.cur = s.dms.endIdx.toNat := by
  have hlt : s.dms.endIdx.toNat < 2 ^ s.impl.addrW :=
    s.dms.endIdx.isLt.trans_le (Nat.pow_le_pow_right (by norm_num) haw.1)
  unfold State.cur Window.cur State.attach
  simp only [State.setPrev_w, State.setPrev_impl]
  rw [toNat_ofNat_lt (addA_lt _ _ _) haw.2, subA_addA hlt]

/-- Settles O24: the empty window is moved up to stand where the bank's content ends. -/
theorem dictAttachCompletes : Obligations.DictAttachCompletes := by
  intro s hg hst hleg hv hl hc
  have hx := exec_dictAttach_of hg hst hv hl hc
  refine ⟨fun he => hx.trans (by rw [if_pos he]), fun he => ⟨_, hx.trans (by rw [if_neg he]), ?_, ?_, ?_, ?_⟩⟩
  · exact congrArg (State.withCode · 0) s.attach_frame
  · exact State.attach_cur (Impl.legal_addrW hleg)
  · exact State.setPrev_prev _ _
  · exact State.setPrev_nextBs _ _

end Sys2Proof.Machine
end

/-! ## The frame header (R284, R285) -/

section
namespace Sys2Proof.Machine

open Sys2Proof

/-- A size code counts the thresholds a value reaches. -/
theorem thresholds_cases {a b c : Nat} (hab : a ≤ b) (hbc : b ≤ c) (v : Nat) :
    let k := (decide (a ≤ v)).toNat + (decide (b ≤ v)).toNat + (decide (c ≤ v)).toNat
    (k = 0 ∧ v < a) ∨ (k = 1 ∧ a ≤ v ∧ v < b) ∨ (k = 2 ∧ b ≤ v ∧ v < c) ∨ (k = 3 ∧ c ≤ v) := by
  have count (x : Nat) : (decide (x ≤ v)).toNat = if x ≤ v then 1 else 0 := by split <;> simp [*]
  simp only [count]
  split <;> split <;> split <;> omega

/-- The code of a known size, and the sizes it stands for (R284). -/
theorem Latched.fcsCode_cases {p : Latched} (h : p.sizeKnown = true) :
    (p.fcsCode = 0 ∧ p.pledged.toNat < 256) ∨ (p.fcsCode = 1 ∧ 256 ≤ p.pledged.toNat ∧ p.pledged.toNat < 65792) ∨
      (p.fcsCode = 2 ∧ 65792 ≤ p.pledged.toNat ∧ p.pledged.toNat < 0xFFFFFFFF) ∨
      (p.fcsCode = 3 ∧ 0xFFFFFFFF ≤ p.pledged.toNat) := by
  rw [Latched.fcsCode, if_pos h]
  exact thresholds_cases (by norm_num) (by norm_num) p.pledged.toNat

theorem Latched.fcsCode_le (p : Latched) : p.fcsCode ≤ 3 := by
  by_cases h : p.sizeKnown = true
  · rcases p.fcsCode_cases h with h | h | h | h <;> omega
  · rw [Latched.fcsCode, if_neg h]; omega

/-- A known size below 256 fits every legal window, so its frame is a single segment. -/
theorem Latched.single_of_small {p : Latched} (hk : p.sizeKnown = true) (hw : 10 ≤ p.windowLog.toNat)
    (hv : p.pledged.toNat < 256) : p.single = true := by
  have : 2 ^ 10 ≤ p.windowSize := Nat.pow_le_pow_right (by norm_num) hw
  rw [Latched.single, hk, Bool.true_and, decide_eq_true_eq]
  omega

/-- The size field is as long as its code says: 0 or 1, 2, 4, 8 bytes (R66). -/
theorem Latched.length_sizeField (p : Latched) :
    p.sizeField.length = if p.fcsCode = 0 then p.single.toNat else 2 ^ p.fcsCode := by
  have hle := p.fcsCode_le
  unfold Latched.sizeField
  generalize p.fcsCode = k at *
  interval_cases k
  · cases p.single <;> rfl
  all_goals exact length_leBytes _ _

theorem Latched.sizeField_value {p : Latched} (hk : p.sizeKnown = true) (hw : 10 ≤ p.windowLog.toNat) :
    leVal p.sizeField + (if p.fcsCode = 1 then 256 else 0) = p.pledged.toNat := by
  rcases p.fcsCode_cases hk with ⟨hc, hv⟩ | ⟨hc, h1, h2⟩ | ⟨hc, h1, h2⟩ | ⟨hc, _⟩
  · have hf : p.sizeField = leBytes 1 p.pledged.toNat := by
      simp only [Latched.sizeField, hc, Latched.single_of_small hk hw hv, if_true]
    simp only [hc, hf, leVal_leBytes (n := 1) hv]; rfl
  · have hf : p.sizeField = leBytes 2 (p.pledged.toNat - 256) := by simp only [Latched.sizeField, hc]
    rw [hc, hf, leVal_leBytes (by omega), if_pos rfl]
    omega
  · have hf : p.sizeField = leBytes 4 p.pledged.toNat := by simp only [Latched.sizeField, hc]
    rw [hc, hf, leVal_leBytes (by omega)]; rfl
  · have hf : p.sizeField = leBytes 8 p.pledged.toNat := by simp only [Latched.sizeField, hc]
    rw [hc, hf, leVal_leBytes p.pledged.isLt]; rfl

theorem State.idCode_cases {s : State} (h : s.p.noDictIDFlag = false) :
    (s.idCode = 0 ∧ s.dictID.toNat < 1) ∨ (s.idCode = 1 ∧ 1 ≤ s.dictID.toNat ∧ s.dictID.toNat < 256) ∨
      (s.idCode = 2 ∧ 256 ≤ s.dictID.toNat ∧ s.dictID.toNat < 65536) ∨ (s.idCode = 3 ∧ 65536 ≤ s.dictID.toNat) := by
  rw [State.idCode, h, if_neg Bool.false_ne_true]
  exact thresholds_cases (by norm_num) (by norm_num) s.dictID.toNat

theorem State.idCode_le (s : State) : s.idCode ≤ 3 := by
  by_cases h : s.p.noDictIDFlag = false
  · rcases s.idCode_cases h with h | h | h | h <;> omega
  · rw [State.idCode, if_pos (by simpa using h)]; omega

theorem State.length_idField_le (s : State) : s.idField.length ≤ 4 := by
  have hle := s.idCode_le
  unfold State.idField
  generalize s.idCode = k at *
  interval_cases k
  · exact Nat.zero_le 4
  all_goals exact (length_leBytes _ _).trans_le (by norm_num)

theorem State.idField_value {s : State} (h : s.p.noDictIDFlag = false) : leVal s.idField = s.dictID.toNat := by
  have h32 := s.dictID.isLt
  unfold State.idField
  rcases s.idCode_cases h with ⟨hc, hv⟩ | ⟨hc, _, hv⟩ | ⟨hc, _, hv⟩ | ⟨hc, _⟩ <;> rw [hc]
  · exact (Nat.lt_one_iff.mp hv).symm
  · exact leVal_leBytes (n := 1) hv
  · exact leVal_leBytes (n := 2) hv
  · exact leVal_leBytes (n := 4) h32

/-- The top two bits of the descriptor byte are the size code (R66). -/
theorem State.descriptorByte_top (s : State) : s.descriptorByte / 2 ^ 6 = s.p.fcsCode := by
  have hid := s.idCode_le
  have hc := s.p.checksumFlag.toNat_le
  have hs := s.p.single.toNat_le
  unfold State.descriptorByte
  omega

/-- The window byte (R66): absent from a single-segment frame. -/
def Latched.windowByte (p : Latched) : List Byte :=
  if p.single then [] else leBytes 1 ((p.windowLog.toNat - 10) * 2 ^ 3)

theorem Latched.length_windowByte (p : Latched) : p.windowByte.length + p.single.toNat = 1 := by
  unfold Latched.windowByte
  cases p.single <;> rfl

theorem State.frameHeader_fields (s : State) :
    s.frameHeader = [0x28, 0xB5, 0x2F, 0xFD] ++ [BitVec.ofNat 8 s.descriptorByte] ++ s.p.windowByte ++ s.idField ++
      s.p.sizeField := rfl

theorem State.length_frameHeader (s : State) :
    s.frameHeader.length = 5 + s.p.windowByte.length + s.idField.length + s.p.sizeField.length := by
  simp only [s.frameHeader_fields, List.length_append, List.length_cons, List.length_nil]

theorem State.length_frameHeader_bounds (s : State) : 6 ≤ s.frameHeader.length ∧ s.frameHeader.length ≤ 18 := by
  have hid := s.length_idField_le
  have hw := s.p.length_windowByte
  have hle := s.p.fcsCode_le
  have hb := s.p.single.toNat_le
  rw [s.length_frameHeader, s.p.length_sizeField]
  split
  · omega
  · have : 2 ^ s.p.fcsCode ≤ 2 ^ 3 := Nat.pow_le_pow_right (by norm_num) hle
    have : 2 ^ 1 ≤ 2 ^ s.p.fcsCode := Nat.pow_le_pow_right (by norm_num) (by omega)
    omega

/-- Settles O50: each field is as wide as its code says, and the code is chosen by the value. -/
theorem frameHeaderSaysSizeAndDictionary : Obligations.FrameHeaderSaysSizeAndDictionary := by
  intro s hp
  obtain ⟨hlo, hhi⟩ := s.length_frameHeader_bounds
  simp only [Latched.inRange, decide_eq_true_eq] at hp
  obtain ⟨_, _, hwindow, _⟩ := hp
  refine ⟨hlo, hhi, rfl, ⟨s.p.windowByte, s.frameHeader_fields⟩, fun hk => ?_, State.idField_value⟩
  rw [s.descriptorByte_top]
  exact Latched.sizeField_value hk hwindow

end Sys2Proof.Machine
end

/-! ## Blocks (R287 to R292) -/

section
namespace Sys2Proof.Machine

open Sys2Proof

/-! ### The body of a block (R288, R289) -/

theorem allEqual_iff {bytes : List Byte} : allEqual bytes = true ↔ bytes = [] ∨ ∃ v, bytes = List.replicate bytes.length v := by
  cases bytes with
  | nil => simp [allEqual]
  | cons b bs =>
    simp only [allEqual, List.all_eq_true, beq_iff_eq, List.length_cons, List.replicate_succ, List.cons.injEq, reduceCtorEq,
      false_or, List.eq_replicate_iff, true_and, exists_eq_left']

/-- Bytes all equal to the first of them: what an RLE block stands for. -/
theorem replicate_of_allEqual {bytes : List Byte} {n : Nat} (hl : bytes.length = n) (hn : 0 < n) (h : allEqual bytes = true) :
    ∃ v, bytes = List.replicate n v ∧ bytes.take 1 = [v] := by
  obtain rfl | ⟨v, hv⟩ := allEqual_iff.mp h
  · exact absurd hl hn.ne
  · rw [hl] at hv
    refine ⟨v, hv, ?_⟩
    rw [hv, List.take_replicate, min_eq_left hn]
    rfl

/-- The three forms of a block: raw, RLE and compressed (R287 to R289). -/
theorem blockBody_forms (s : State) (src n : Nat) :
    (blockBody s src n).2 = (0, s.mem.readBytes src n) ∨
    (s.isFirstBlock = false ∧ 7 ≤ n ∧ ∃ v, s.mem.readBytes src n = List.replicate n v ∧ (blockBody s src n).2 = (1, [v])) ∨
    (7 ≤ n ∧ ∃ payload, payload ≠ [] ∧ payload.length + (n / 64 + 2) < n ∧ (blockBody s src n).2 = (2, payload)) := by
  rcases (blockBody_cases s src n).2 with ⟨h, _⟩ | ⟨h, _, hn, hf, he⟩ | ⟨q, h, _, hn, hq, he⟩
  · exact .inl h
  · obtain ⟨v, hv, ht⟩ := replicate_of_allEqual (Memory.length_readBytes _ _ _) (by have : 7 ≤ n := hn; omega) he
    exact .inr (.inl ⟨hf, hn, v, hv, by rw [h, ht]⟩)
  · have hg : q.length + minGain n < n := by
      rw [he]
      exact (blockPayload_gain s.seqReset src n).resolve_left (he ▸ hq)
    exact .inr (.inr ⟨hn, q, hq, hg, h⟩)

/-- Settles O51: one conjunct for each of the three forms. -/
theorem blockBodyNeverExpands : Obligations.BlockBodyNeverExpands := by
  intro s src n
  refine ⟨blockBody_length s src n, ?_⟩
  rcases blockBody_forms s src n with h | ⟨hf, hn, v, hv, h⟩ | ⟨hn, q, hq, hg, h⟩ <;> rw [h]
  · exact ⟨by norm_num, fun _ => rfl, nofun, nofun⟩
  · exact ⟨by norm_num, nofun, fun _ => ⟨hf, hn, v, hv, rfl⟩, nofun⟩
  · exact ⟨le_rfl, nofun, nofun, fun _ => ⟨hn, hq, hg⟩⟩

/-! ### A block in the window (R292) -/

theorem blockWindow_prevSel (s : State) (src n : Nat) : (blockWindow s src n).prevSel = s.prevSel := by
  unfold blockWindow
  dsimp only
  rw [winEnforceMaxDist_frame]
  split <;> rfl

/-- What the window work leaves to say about the block's type: a raw block is the input, a compressed one turns `prevSel`. -/
theorem blockBody_windowed (s : State) (src n : Nat) :
    let b := blockBody (blockWindow s src n) src n
    b.2.1 ≤ 2 ∧ (b.2.1 = 0 → b.2.2 = s.mem.readBytes src n) ∧
      b.1.prevSel = (if b.2.1 = 2 then !s.prevSel else s.prevSel) := by
  have hmem : (blockWindow s src n).mem = s.mem := by rw [blockWindow_frame s src n]
  have hsel := blockWindow_prevSel s src n
  dsimp only
  rcases (blockBody_cases (blockWindow s src n) src n).2 with ⟨h, hp⟩ | ⟨h, hp, _⟩ | ⟨q, h, hp, _⟩ <;>
    rw [h, hp, hsel]
  · exact ⟨by norm_num, fun _ => by rw [hmem], rfl⟩
  · exact ⟨by norm_num, nofun, rfl⟩
  · exact ⟨le_rfl, nofun, rfl⟩

/-- The three header bytes of a unit are its last flag, its type and its length (R69). -/
theorem blockUnit_header {typ n : Nat} {payload : List Byte} (last : Bool) (ht : typ ≤ 2) (hn : n ≤ 2 ^ 17)
    (hp : payload.length ≤ n) :
    leVal ((blockUnit last typ n payload).take 3) =
      last.toNat + typ * 2 + (if typ = 2 then payload.length else n) * 8 := by
  have hl := last.toNat_le
  have hsize : (if typ = 2 then payload.length else n) ≤ 2 ^ 17 := by split <;> omega
  rw [blockUnit, List.take_left' (length_leBytes 3 _), leVal_leBytes (by omega)]
  norm_num

theorem blockUnit_payload (last : Bool) (typ n : Nat) (payload : List Byte) :
    (blockUnit last typ n payload).drop 3 = payload := List.drop_left' (length_leBytes 3 _)

/-! ### BLOCK_COMPRESS (R292) -/

theorem blockCompress_checked {m : Byte} {s : State} (hg : s.GatesOpen) (hst : s.stage = .ongoing)
    (ho : (Instr.blockCompress m).operandsOk s = true)
    (hc : s.destClash s.op0.toNat s.op1.toNat s.op2.toNat s.op3.toNat = false) (k : Done) :
    (gated (decide (s.stage = .ongoing)) s <|
      require (decide (s.op1.toNat ≤ s.p.blockSizeMax) && s.spanOk s.w s.op0 s.op1 && s.rangeOk s.op2 s.op3) .paramInvalid s <|
      requireDisjoint s s.op0.toNat s.op1.toNat s.op2.toNat s.op3.toNat k) = k :=
  (gated_of hg (decide_eq_true hst) _).trans ((require_of ho _ _ _).trans (requireDisjoint_of hc k))

theorem exec_blockCompress_written {m : Byte} {s u : State} {k : Nat × Nat} (hg : s.GatesOpen) (hst : s.stage = .ongoing)
    (ho : (Instr.blockCompress m).operandsOk s = true)
    (hc : s.destClash s.op0.toNat s.op1.toNat s.op2.toNat s.op3.toNat = false)
    (hr : blockStep s s.op0.toNat s.op1.toNat (modBit0 m) s.op2.toNat s.op3.toNat = (u, some k)) :
    exec (.blockCompress m) s = .next (({ (u.setRes0 k.1).setRes1 k.2 with
      stage := if modBit0 m then .ending else u.stage } : State).withCode 0) := by
  show (gated _ s _).outcome = _
  rw [blockCompress_checked hg hst ho hc, hr]
  dsimp only
  cases modBit0 m <;> rfl

theorem exec_blockCompress_lost {m : Byte} {s u : State} (hg : s.GatesOpen) (hst : s.stage = .ongoing)
    (ho : (Instr.blockCompress m).operandsOk s = true)
    (hc : s.destClash s.op0.toNat s.op1.toNat s.op2.toNat s.op3.toNat = false)
    (hr : blockStep s s.op0.toNat s.op1.toNat (modBit0 m) s.op2.toNat s.op3.toNat = (u, none)) :
    exec (.blockCompress m) s = .next ((u.setRes0 0).withCode 5) := by
  show (gated _ s _).outcome = _
  rw [blockCompress_checked hg hst ho hc, hr]
  rfl

/-- Settles O52: the body is never longer than the block, so its unit fits. -/
theorem blockCompressCompletes : Obligations.BlockCompressCompletes := by
  intro m s hg hst hwf hn hspan hrange hclash hcap
  have ho : (Instr.blockCompress m).operandsOk s = true := and_both (and_both (decide_eq_true hn) hspan) hrange
  have hf := blockBody_windowed_frame s s.op0.toNat s.op1.toNat
  have hlen := blockBody_length (blockWindow s s.op0.toNat s.op1.toNat) s.op0.toNat s.op1.toNat
  obtain ⟨htyp, hraw, hsel⟩ := blockBody_windowed s s.op0.toNat s.op1.toNat
  have htop : s.op1.toNat ≤ 2 ^ 17 := hn.trans (min_le_left _ _)
  obtain ⟨b, hb, hstep⟩ := blockStep_cases s s.op0.toNat s.op1.toNat (modBit0 m) s.op2.toNat s.op3.toNat
  rw [← hb] at hf hlen htyp hraw hsel
  have hunit := length_blockUnit (modBit0 m) b.2.1 s.op1.toNat b.2.2
  have hheader := blockUnit_header (modBit0 m) htyp htop hlen
  have hdrop := blockUnit_payload (modBit0 m) b.2.1 s.op1.toNat b.2.2
  obtain ⟨hlt, _⟩ | ⟨_, hr⟩ := hstep
  · omega
  generalize blockUnit (modBit0 m) b.2.1 s.op1.toNat b.2.2 = out at *
  obtain ⟨c, typ, payload⟩ := b
  dsimp only at *
  clear hb
  have h64 := s.op3.isLt
  have hres0 : (BitVec.ofNat 64 out.length).toNat = out.length := toNat_ofNat_lt (n := 64) (by omega) le_rfl
  have hres1 : (BitVec.ofNat 64 typ).toNat = typ := toNat_ofNat_lt (n := 64) (by omega) le_rfl
  have hstage : c.stage = .ongoing := by rw [hf]; exact hst
  have hmem : c.mem = s.mem := by rw [hf]
  refine ⟨_, out, exec_blockCompress_written hg hst ho hclash hr, ?_, hres0, by omega, by omega, hres1.trans_le htyp,
    fun a ha => ?_, hheader.trans ?_, fun h0 => hdrop.trans (hraw (hres1.symm.trans h0)),
    fun h2 => hsel.trans (if_pos (hres1.symm.trans h2)), fun h2 => hsel.trans (if_neg (fun h => h2 (hres1.trans h)))⟩
  · show ({ (State.setRes1 _ _) with stage := if modBit0 m then .ending else c.stage } : State).withCode 0 = _
    rw [hstage, hf]
    rfl
  · show (c.mem.writeBytes _ out).read a = _
    rw [hmem, Memory.read_writeBytes_outside hwf ha]
  · rw [show payload.length = out.length - 3 by omega]
    show _ = _ + (BitVec.ofNat 64 typ).toNat * 2 + (if (BitVec.ofNat 64 typ).toNat = 2 then _ else _) * 8
    rw [hres1]
    rfl

end Sys2Proof.Machine
end

/-! ## A unit that does not fit (R290, R292, R293, R296, R328, R331) -/

section
namespace Sys2Proof.Machine

open Sys2Proof

/-! ### The header (R293) -/

theorem State.writeHeader_long {s : State} (dst : Nat) {cap : Nat} (hi : s.stage = .initialized)
    (hl : cap < s.frameHeader.length) : s.writeHeader dst cap = none := by
  rw [State.writeHeader, if_pos hi, if_pos hl]

/-- A header written, or none due: memory below the count and the stage are all that moves. -/
theorem State.writeHeader_some {s u : State} {dst cap w : Nat} (h : s.writeHeader dst cap = some (u, w)) :
    u = { s with mem := u.mem, stage := s.stage.started } ∧ WroteTo s.mem u.mem dst 0 w ∧ w ≤ cap := by
  unfold State.writeHeader at h
  unfold Stage.started
  split at h
  · next hi =>
    split at h <;> cases h
    exact ⟨by rw [if_pos hi]; rfl, ⟨Nat.zero_le _, s.frameHeader, rfl, rfl⟩, by omega⟩
  · next hi =>
    cases h
    exact ⟨by rw [if_neg hi], .refl _ _ _, Nat.zero_le _⟩

/-! ### The checks the frame commands share (R293, R294) -/

/-- A frame command that passes its checks. -/
structure FrameLaunch (s : State) (last : Bool) : Prop where
  ready : s.Ready
  operands : Instr.frameEnd.operandsOk s = true
  pledge : s.pledgeOk s.op1.toNat last = true
  disjoint : s.destClash s.op0.toNat s.op1.toNat s.op2.toNat s.op3.toNat = false

theorem frameChecked_of {s : State} {last : Bool} (h : FrameLaunch s last) (k : Done) : frameChecked s last k = k :=
  (gatedIO_of h.ready _).trans <| (require_of h.operands _ _ _).trans <|
    (require_of h.pledge _ _ _).trans (requireDisjoint_of h.disjoint k)

theorem exec_frameContinue_of {s : State} (h : FrameLaunch s false) :
    exec .frameContinue s = (frameWork s false fun u w => .ok (u.frameResult w s.op1.toNat)).outcome :=
  congrArg Done.outcome (frameChecked_of h _)

theorem exec_frameEnd_of {s : State} (h : FrameLaunch s true) :
    exec .frameEnd s = (frameWork s true fun u w => frameEpilogue u s.op1.toNat s.op2.toNat s.op3.toNat w).outcome :=
  congrArg Done.outcome (frameChecked_of h _)

/-- A frame command that did its work had passed its checks. -/
theorem FrameLaunch.of_exec {s t : State} {last : Bool} {k : Done} (hl : Instr.frameEnd.letThrough s = true)
    (ho : Instr.frameEnd.operandsOk s = true) (hp : s.pledgeOk s.op1.toNat last = true)
    (h : (frameChecked s last k).outcome = .next t) : FrameLaunch s last := by
  refine ⟨letThrough_ready hl (isIO_eq _) rfl rfl, ho, hp, Bool.eq_false_iff.mpr fun hc => ?_⟩
  rw [frameChecked_clash hl ho hp hc] at h
  cases h

/-! ### The three ways through a frame command's work (R293) -/

theorem frameWork_noHeader {s : State} (last : Bool) (finish : State → Nat → Done)
    (h : s.writeHeader s.op2.toNat s.op3.toNat = none) : frameWork s last finish = .err .dstTooSmall (s.setRes0 0) := by
  rw [frameWork, h]

theorem frameWork_lost {s u v : State} {last : Bool} {w x : Nat} (finish : State → Nat → Done)
    (h : s.writeHeader s.op2.toNat s.op3.toNat = some (u, w))
    (hc : frameChunk u s.op0.toNat s.op1.toNat s.op2.toNat s.op3.toNat last w = (v, x, false)) :
    frameWork s last finish = .err .dstTooSmall (v.setRes0 x) := by
  rw [frameWork, h]
  dsimp only
  rw [hc]
  rfl

theorem frameWork_done {s u v : State} {last : Bool} {w x : Nat} (finish : State → Nat → Done)
    (h : s.writeHeader s.op2.toNat s.op3.toNat = some (u, w))
    (hc : frameChunk u s.op0.toNat s.op1.toNat s.op2.toNat s.op3.toNat last w = (v, x, true)) :
    frameWork s last finish = finish v x := by
  rw [frameWork, h]
  dsimp only
  rw [hc]
  rfl

theorem exec_frame_noHeader {s : State} {last : Bool} (h : FrameLaunch s last)
    (hh : s.writeHeader s.op2.toNat s.op3.toNat = none) :
    exec (if last then .frameEnd else .frameContinue) s = .next ((s.setRes0 0).withCode 5) := by
  cases last
  · exact (exec_frameContinue_of h).trans (congrArg Done.outcome (frameWork_noHeader _ _ hh))
  · exact (exec_frameEnd_of h).trans (congrArg Done.outcome (frameWork_noHeader _ _ hh))

theorem exec_frame_lost {s u v : State} {last : Bool} {w x : Nat} (h : FrameLaunch s last)
    (hh : s.writeHeader s.op2.toNat s.op3.toNat = some (u, w))
    (hc : frameChunk u s.op0.toNat s.op1.toNat s.op2.toNat s.op3.toNat last w = (v, x, false)) :
    exec (if last then .frameEnd else .frameContinue) s = .next ((v.setRes0 x).withCode 5) := by
  cases last
  · exact (exec_frameContinue_of h).trans (congrArg Done.outcome (frameWork_lost _ hh hc))
  · exact (exec_frameEnd_of h).trans (congrArg Done.outcome (frameWork_lost _ hh hc))

/-! ### A chunk that is lost -/

/-- An unfinished chunk is not counted in `consumed` (R293). -/
theorem frameChunk_lost_consumed {s : State} {src n dst cap : Nat} {last : Bool} {w : Nat} (hw : w ≤ cap)
    (h : (frameChunk s src n dst cap last w).2.2 = false) : (frameChunk s src n dst cap last w).1.consumed = s.consumed := by
  unfold frameChunk at h ⊢
  by_cases hn : n = 0
  · rw [if_pos hn] at h
    cases h
  rw [if_neg hn] at h ⊢
  obtain ⟨_, _, htake, _⟩ := s.takeChunk_frame src n
  obtain ⟨u, x, hu, _, _, hr | hr⟩ :=
    frameBlocks_cases last dst cap (n / s.p.blockSizeMax + 1) (s.takeChunk src n) src n w hw
  · rw [hr] at h
    cases h
  · rw [hr]
    show u.consumed = s.consumed
    rw [hu, htake]

/-- What a lost chunk leaves of the state before the header: the units written, and the flag. -/
theorem lostChunk_leaves {s u v : State} {src n dst cap w x : Nat} {last : Bool} (hh : s.writeHeader dst cap = some (u, w))
    (hc : frameChunk u src n dst cap last w = (v, x, false)) :
    v.status = { s.status with unspec := true } ∧ v.res1 = s.res1 ∧ v.stage = s.stage.started ∧ v.consumed = s.consumed ∧
      x ≤ cap ∧ WroteTo s.mem v.mem dst 0 x := by
  obtain ⟨hframe, hwrote, hw⟩ := State.writeHeader_some hh
  have hcons : v.consumed = u.consumed := by
    have := frameChunk_lost_consumed (s := u) (src := src) (n := n) (dst := dst) (last := last) hw (by rw [hc])
    rwa [hc] at this
  obtain ⟨v', x', hf, hst, hm, hx, hr | ⟨_, hr⟩⟩ := frameChunk_cases u src n dst cap last w hw
  · rw [hc] at hr
    cases hr
  · rw [hc] at hr
    cases hr
    refine ⟨?_, ?_, ?_, hcons.trans ?_, hx, hwrote.trans hm⟩
    · show { v'.status with unspec := true } = _
      rw [hf, hframe]
    · show v'.res1 = _
      rw [hf, hframe]
    · exact hst.trans (by rw [hframe])
    · rw [hframe]

/-! ### A block unit (R290, R292) -/

theorem blockStep_none_iff (s : State) (src n : Nat) (last : Bool) (dst cap : Nat) :
    (blockStep s src n last dst cap).2 = none ↔ cap < 3 + (blockBody (blockWindow s src n) src n).2.2.length := by
  obtain ⟨b, hb, ⟨hlt, hr⟩ | ⟨hle, hr⟩⟩ := blockStep_cases s src n last dst cap <;> rw [hr, ← hb] <;>
    rw [length_blockUnit] at *
  · exact ⟨fun _ => hlt, fun _ => rfl⟩
  · exact ⟨nofun, fun h => absurd h (by omega)⟩

/-- A block that is not written leaves memory and the first-block flag, and the frame is lost. -/
theorem blockStep_lost_leaves {s : State} {src n dst cap : Nat} {last : Bool}
    (h : (blockStep s src n last dst cap).2 = none) :
    ∃ u, StepFrame s u ∧ u.mem = s.mem ∧ u.isFirstBlock = s.isFirstBlock ∧
      blockStep s src n last dst cap = (u.setUnspec, none) := by
  obtain ⟨u, hu, hm, hfirst, _, ht, _⟩ := blockStep_none (t := (blockStep s src n last dst cap).1) (Prod.ext rfl h)
  exact ⟨u, hu, hm, hfirst, Prod.ext ht h⟩

/-- BLOCK_COMPRESS whose unit does not fit. -/
theorem exec_blockCompress_tooLong {m : Byte} {s : State} (hg : s.GatesOpen) (hst : s.stage = .ongoing)
    (ho : (Instr.blockCompress m).operandsOk s = true)
    (hc : s.destClash s.op0.toNat s.op1.toNat s.op2.toNat s.op3.toNat = false)
    (hl : s.op3.toNat < 3 + (blockBody (blockWindow s s.op0.toNat s.op1.toNat) s.op0.toNat s.op1.toNat).2.2.length) :
    ∃ t, exec (.blockCompress m) s = .next t ∧ t.status = { code := 5, fatal := false, unspec := true } ∧
      t.mem = s.mem ∧ t.res0 = 0 ∧ t.res1 = s.res1 ∧ t.stage = .ongoing ∧ t.consumed = s.consumed := by
  obtain ⟨u, hu, hm, _, hr⟩ := blockStep_lost_leaves
    ((blockStep_none_iff s s.op0.toNat s.op1.toNat (modBit0 m) s.op2.toNat s.op3.toNat).mpr hl)
  refine ⟨_, exec_blockCompress_lost hg hst ho hc hr, ?_, hm, rfl, ?_, ?_, ?_⟩
  · show ({ code := 5, fatal := u.status.fatal, unspec := true } : Status) = _
    rw [hu, hg.1]
  · show u.res1 = _
    rw [hu]
  · show u.stage = _
    rw [hu]
    exact hst
  · show u.consumed = _
    rw [hu]

/-! ### A frame command (R293, R296) -/

/-- A frame command that loses the frame at a block. -/
theorem exec_frame_lost_leaves {s u : State} {w : Nat} {last : Bool} (h : FrameLaunch s last) (hm : s.mem.wf = true)
    (hh : s.writeHeader s.op2.toNat s.op3.toNat = some (u, w)) :
    let c := frameChunk u s.op0.toNat s.op1.toNat s.op2.toNat s.op3.toNat last w
    c.2.2 = false →
    ∃ t, exec (if last then .frameEnd else .frameContinue) s = .next t ∧
      t.status = { code := 5, fatal := false, unspec := true } ∧ t.mem = c.1.mem ∧ t.res0.toNat = c.2.1 ∧
      c.2.1 ≤ s.op3.toNat ∧ t.res1 = s.res1 ∧ t.stage = .ongoing ∧ t.consumed = s.consumed ∧
      ∀ a, a < s.op2.toNat ∨ s.op2.toNat + t.res0.toNat ≤ a → t.mem.read a = s.mem.read a := by
  dsimp only
  rcases hc : frameChunk u s.op0.toNat s.op1.toNat s.op2.toNat s.op3.toNat last w with ⟨v, x, flag⟩
  rintro (rfl : flag = false)
  obtain ⟨hstatus, hres1, hstage, hcons, hx, hwrote⟩ := lostChunk_leaves hh hc
  have hresult : WroteResult s ((v.setRes0 x).withCode 5) s.op2.toNat s.op3.toNat := ⟨x, hx, hwrote, rfl⟩
  refine ⟨_, exec_frame_lost h hh hc, ?_, rfl, toNat_ofNat_lt (hx.trans_lt s.op3.isLt) le_rfl, hx, hres1,
    hstage.trans (Stage.started_of_isIO h.ready.2), hcons, (hresult.within hm).2⟩
  show ({ v.status with code := 5 } : Status) = _
  rw [hstatus]
  dsimp only
  rw [h.ready.1.1]

/-- FRAME_CONTINUE that loses the frame has not counted its chunk. -/
theorem frameContinue_lost_consumed {s t : State} (h : FrameLaunch s false) (hx : exec .frameContinue s = .next t)
    (hs : s.status.unspec = false) (ht : t.status.unspec = true) : t.consumed = s.consumed := by
  rcases hh : s.writeHeader s.op2.toNat s.op3.toNat with _ | ⟨u, w⟩
  · cases (exec_frame_noHeader h hh).symm.trans hx
    exact absurd ht (by simp [State.withCode, State.setRes0, hs])
  rcases hc : frameChunk u s.op0.toNat s.op1.toNat s.op2.toNat s.op3.toNat false w with ⟨v, x, _ | _⟩
  · cases (exec_frame_lost h hh hc).symm.trans hx
    obtain ⟨_, _, _, hcons, _⟩ := lostChunk_leaves hh hc
    exact hcons
  · obtain ⟨hframe, _, hw⟩ := State.writeHeader_some hh
    rw [exec_frameContinue_of h, frameWork_done _ hh hc] at hx
    cases hx
    obtain ⟨v', x', hf, _, _, _, hr | ⟨_, hr⟩⟩ := frameChunk_cases u s.op0.toNat s.op1.toNat s.op2.toNat s.op3.toNat false w hw
    · cases hc.symm.trans hr
      have hstatus : v.status = s.status := by rw [hf, hframe]
      exact absurd (show s.status.unspec = true from hstatus ▸ ht) (by simp [hs])
    · cases hc.symm.trans hr

/-- What a frame command that loses the frame leaves (R328, R331), the empty last block and the checksum included. -/
theorem FrameRun.lost {s t : State} (h : FrameRun s t) (hr : s.Ready) (hm : s.mem.wf = true)
    (ht : t.status.unspec = true) :
    t.status.code = 5 ∧ t.status.fatal = false ∧ t.res1 = s.res1 ∧ t.stage = .ongoing ∧ t.res0.toNat ≤ s.op3.toNat ∧
      ∀ a, a < s.op2.toNat ∨ s.op2.toNat + t.res0.toNat ≤ a → t.mem.read a = s.mem.read a := by
  obtain ⟨_, _, rfl⟩ | ⟨u, w, hf, hst, hwrote, hw, rfl⟩ := h
  · exact absurd (show s.status.unspec = true from ht) (by simp [hr.1.2])
  · have hresult : WroteResult s ((u.setUnspec.setRes0 w).withCode 5) s.op2.toNat s.op3.toNat := ⟨w, hw, hwrote, rfl⟩
    refine ⟨rfl, ?_, ?_, hst.trans (Stage.started_of_isIO hr.2), hresult.within hm⟩
    · show u.status.fatal = false
      rw [hf]
      exact hr.1.1
    · show u.res1 = s.res1
      rw [hf]

/-- A frame command that sets the lost-frame flag had passed its checks, and ran as `FrameRun` says. -/
theorem frame_lost_run {i : Instr} {s t : State} (hi : i = .frameContinue ∨ i = .frameEnd) (hx : exec i s = .next t)
    (hs : s.status.unspec = false) (ht : t.status.unspec = true) :
    FrameRun s t ∧ s.Ready ∧ (i = .frameContinue → FrameLaunch s false) := by
  have kept (u : State) (hu : u.status.unspec = s.status.unspec) : t ≠ u := fun h => by
    rw [h, hu, hs] at ht
    cases ht
  rcases exec_next hx with h | ⟨hl, ho, hw⟩
  · obtain ⟨c, rfl⟩ := h.withCode
    exact absurd rfl (kept _ rfl)
  have hready : s.Ready := by rcases hi with rfl | rfl <;> exact letThrough_ready hl (isIO_eq _) rfl rfl
  rcases hi with rfl | rfl
  · obtain ⟨_, h⟩ | ⟨hp, hrun⟩ := hw
    · exact absurd h (kept _ rfl)
    refine ⟨?_, hready, fun _ => .of_exec hl ho hp hx⟩
    obtain h | ⟨u, w, hf, _, _, _, h⟩ := hrun
    · exact h
    · exact absurd h (kept _ (show u.status.unspec = _ by rw [hf]))
  · refine ⟨?_, hready, nofun⟩
    obtain ⟨_, h⟩ | ⟨_, h | ⟨u, w, hf, _, _, h⟩⟩ := hw
    · exact absurd h (kept _ rfl)
    · exact h
    · exact absurd h (kept _ (show u.status.unspec = _ by rw [hf]))

/-- Settles O53: the header, the block unit, the two kinds of command, and every way to lose a frame. -/
theorem unitThatDoesNotFitIsNotWritten : Obligations.UnitThatDoesNotFitIsNotWritten := by
  refine ⟨fun s hg hst hr0 hr2 hn hc hl => ?_, fun s src n dst cap last => ⟨blockStep_none_iff s src n last dst cap, fun h => ?_⟩,
    fun m s hg hst hn hspan hr2 hc hl => ?_, fun s u w hr hm hr0 hr2 hn hc hh last hp => ?_,
    fun i s t hi hm hx hs ht => ?_⟩
  · have ho : Instr.frameEnd.operandsOk s = true := and_both (and_both hr0 hr2) (decide_eq_true hn)
    have hready : s.Ready := ⟨hg, by rw [hst]; rfl⟩
    have hh := State.writeHeader_long s.op2.toNat hst hl
    exact ⟨fun hp => exec_frame_noHeader (last := false) ⟨hready, ho, hp, hc⟩ hh,
      fun hp => exec_frame_noHeader (last := true) ⟨hready, ho, hp, hc⟩ hh⟩
  · obtain ⟨u, hu, hm, hfirst, hr⟩ := blockStep_lost_leaves h
    rw [hr]
    refine ⟨hm, ?_, hfirst⟩
    show { u.status with unspec := true } = _
    rw [hu]
  · exact exec_blockCompress_tooLong hg hst (and_both (and_both (decide_eq_true hn) hspan) hr2) hc hl
  · exact exec_frame_lost_leaves ⟨hr, and_both (and_both hr0 hr2) (decide_eq_true hn), hp, hc⟩ hm hh
  · obtain ⟨hrun, hready, hlaunch⟩ := frame_lost_run hi hx hs ht
    obtain ⟨hcode, hfatal, hres1, hstage, hres0, hmem⟩ := hrun.lost hready hm ht
    refine ⟨hcode, hfatal, hres1, hstage, hres0, hmem, fun hi => ?_⟩
    subst hi
    exact frameContinue_lost_consumed (hlaunch rfl) hx hs ht

end Sys2Proof.Machine
end

/-! ## Frames that complete (R284, R293, R295, R296) -/

section
namespace Sys2Proof.Machine

open Sys2Proof

/-! ### Bytes read back -/

theorem Memory.readBytes_congr {m m' : Memory} {a n : Nat} (h : ∀ x, a ≤ x → x < a + n → m'.read x = m.read x) :
    m'.readBytes a n = m.readBytes a n := by
  rw [Memory.readBytes_eq_bytesFrom, Memory.readBytes_eq_bytesFrom]
  exact bytesFrom_congr fun k hk => h (a + k) (by omega) (by omega)

theorem Memory.readBytes_writeBytes_same {m : Memory} (hm : m.wf = true) (a : Nat) (bytes : List Byte) :
    (m.writeBytes a bytes).readBytes a bytes.length = bytes := by
  induction bytes generalizing m a with
  | nil => rfl
  | cons b bs ih =>
    have hm' := Memory.write_wf hm a b
    rw [Memory.writeBytes, List.length_cons, Memory.readBytes, ih hm',
      Memory.read_writeBytes_outside hm' (.inl (Nat.lt_succ_self a)), Memory.read_write hm, if_pos rfl]

/-- What stands below the bytes counted before stays. -/
theorem WroteTo.readBytes_before {m m' : Memory} {dst w w' n : Nat} (h : WroteTo m m' dst w w') (hm : m.wf = true)
    (hn : n ≤ w) : m'.readBytes dst n = m.readBytes dst n :=
  Memory.readBytes_congr fun x _ hx => h.read hm (.inl (by omega))

/-- Two ranges that do not meet, neither past the end of the address space, have no address in common. -/
theorem apart_of_not_meet {aw a la b lb x : Nat} (ha : a + la ≤ 2 ^ aw) (hb : b + lb ≤ 2 ^ aw)
    (h : rangesMeet aw a la b lb = false) (hlo : b ≤ x) (hhi : x < b + lb) : x < a ∨ a + la ≤ x := by
  by_contra hin
  have hmeet : subA aw b a < la ∨ subA aw a b < lb := by
    rcases Nat.le_total a b with hab | hab
    · have hd : subA aw b a = b - a := subA_eq (by omega) (by rw [Nat.sub_add_cancel hab])
      exact .inl (by omega)
    · have hd : subA aw a b = a - b := subA_eq (by omega) (by rw [Nat.sub_add_cancel hab])
      exact .inr (by omega)
  exact absurd h (by rw [rangesMeet, decide_eq_true ⟨by omega, by omega, hmeet⟩]; nofun)

/-- A frame command's source keeps its bytes while the command writes. -/
theorem FrameLaunch.source_kept {s : State} {last : Bool} {m : Memory} {w : Nat} (h : FrameLaunch s last)
    (hm : s.mem.wf = true) (hwrote : WroteTo s.mem m s.op2.toNat 0 w) (hw : w ≤ s.op3.toNat) :
    m.readBytes s.op0.toNat s.op1.toNat = s.mem.readBytes s.op0.toNat s.op1.toNat := by
  have ho := h.operands
  simp only [Instr.operandsOk, Bool.and_eq_true] at ho
  obtain ⟨⟨hr0, hr2⟩, _⟩ := ho
  have hd := h.disjoint
  simp only [State.destClash, Bool.or_eq_false_iff] at hd
  obtain ⟨⟨hmeet, _⟩, _⟩ := hd
  refine Memory.readBytes_congr fun x hlo hhi => hwrote.read hm ?_
  rcases apart_of_not_meet (State.rangeOk_end hr2) (State.rangeOk_end hr0) hmeet hlo hhi with h | h
  · exact .inl h
  · exact .inr (by omega)

/-! ### The header and the chunk -/

theorem State.writeHeader_fits {s : State} {dst cap : Nat} (hm : s.mem.wf = true) (hl : s.frameHeader.length ≤ cap) :
    ∃ u w, s.writeHeader dst cap = some (u, w) ∧ w ≤ s.frameHeader.length ∧
      (s.stage = .initialized → w = s.frameHeader.length ∧ u.mem.readBytes dst s.frameHeader.length = s.frameHeader) ∧
      (s.stage ≠ .initialized → u = s ∧ w = 0) := by
  unfold State.writeHeader
  by_cases hi : s.stage = .initialized
  · rw [if_pos hi, if_neg (by omega)]
    exact ⟨_, _, rfl, le_rfl, fun _ => ⟨rfl, Memory.readBytes_writeBytes_same hm _ _⟩, fun h => absurd hi h⟩
  · rw [if_neg hi]
    exact ⟨s, 0, rfl, Nat.zero_le _, fun h => absurd h hi, fun _ => ⟨rfl, rfl⟩⟩

/-- What the header and the blocks of a chunk may take (R287, R293). -/
def State.chunkRoom (s : State) : Nat := 18 + s.op1.toNat + 3 * (s.op1.toNat / s.p.blockSizeMax + 1)

/-- A frame command's header and chunk, written and taken in: `x` bytes of the frame stand at the destination. -/
structure ChunkTaken (s v : State) (x : Nat) : Prop where
  frame : FlowFrame s v
  stage : v.stage = .ongoing
  wrote : WroteTo s.mem v.mem s.op2.toNat 0 x
  room : x ≤ s.chunkRoom
  header : s.stage = .initialized → s.frameHeader.length ≤ x ∧
    v.mem.readBytes s.op2.toNat s.frameHeader.length = s.frameHeader
  consumed : s.consumed.toNat + s.op1.toNat < 2 ^ 64 → v.consumed.toNat = s.consumed.toNat + s.op1.toNat
  chk : v.chk = if s.p.checksumFlag then s.chk ++ s.mem.readBytes s.op0.toNat s.op1.toNat else s.chk
  empty : s.op1.toNat = 0 → s.stage = .ongoing → v = s ∧ x = 0

/-- With room for the longest header and a raw form of each block, no unit fails to fit. -/
theorem frameWork_runs {s : State} {last : Bool} (h : FrameLaunch s last) (hm : s.mem.wf = true)
    (hcap : s.chunkRoom ≤ s.op3.toNat) :
    ∃ v x, ChunkTaken s v x ∧ ∀ finish, frameWork s last finish = finish v x := by
  unfold State.chunkRoom at hcap
  have hl := s.length_frameHeader_bounds.2
  obtain ⟨u, w, hh, hw, hinit, hon⟩ := State.writeHeader_fits (dst := s.op2.toNat) (cap := s.op3.toNat) hm (by omega)
  obtain ⟨hframe, hwrote, hwcap⟩ := State.writeHeader_some hh
  have hp : u.p = s.p := by rw [hframe]
  have hcons : u.consumed = s.consumed := by rw [hframe]
  have hchk : u.chk = s.chk := by rw [hframe]
  have hflow : FlowFrame s u := by unfold FlowFrame; rw [hframe]
  have hcount := blockCount_le (rem := s.op1.toNat) s.p.blockSizeMax_pos
  obtain ⟨v, x, hf, hst, hv, hx, hvcons, hvchk, hempty, hc⟩ :=
    frameChunk_fits u s.op0.toNat s.op1.toNat s.op2.toNat s.op3.toNat last w (by rw [hp]; omega)
  refine ⟨v, x, ⟨hflow.trans hf, ?_, hwrote.trans hv, ?_, fun hi => ?_, fun h64 => ?_, ?_, fun h0 hso => ?_⟩,
    fun finish => frameWork_done finish hh hc⟩
  · rw [hst, hframe]
    exact Stage.started_of_isIO h.ready.2
  · rw [hp] at hx
    unfold State.chunkRoom
    omega
  · obtain ⟨hwl, hread⟩ := hinit hi
    exact ⟨hwl ▸ hv.1, (hv.readBytes_before (hwrote.wf hm) hwl.ge).trans hread⟩
  · rw [hvcons, hcons]
    split
    · next h0 => rw [h0, Nat.add_zero]
    · exact fit_toNat h64
  · rw [hvchk, hp, hchk, h.source_kept hm hwrote hwcap]
    by_cases h0 : s.op1.toNat = 0
    · rw [if_neg (fun hn => hn.1 h0), h0, Memory.readBytes, List.append_nil, ite_self]
    · simp only [ne_eq, h0, not_false_eq_true, true_and]
  · obtain ⟨rfl, rfl⟩ := hempty h0
    exact hon (by rw [hso]; nofun)

/-- The state after a frame command: only the frame's own fields, the results and the code have moved. -/
theorem FlowFrame.result {s v : State} (h : FlowFrame s v) (g : Stage) (x : Nat) :
    ({ v.frameResult x s.op1.toNat with stage := g } : State).withCode 0 = { s.withCode 0 with
      mem := v.mem, freeCtr := v.freeCtr, stage := g, w := v.w, ms := v.ms, seq := v.seq, bs0 := v.bs0, bs1 := v.bs1,
      prevSel := v.prevSel, ldm := v.ldm, isFirstBlock := v.isFirstBlock, consumed := v.consumed, chk := v.chk,
      res0 := BitVec.ofNat 64 x, res1 := s.op1 } := by
  have hres1 : BitVec.ofNat 64 s.op1.toNat = s.op1 := by simp
  unfold State.frameResult State.setRes1
  rw [hres1, h]
  rfl

/-! ### FRAME_CONTINUE -/

/-- Settles O54: the header and the chunk fit, and the command ends with `frameResult`. -/
theorem frameContinueCompletes : Obligations.FrameContinueCompletes := by
  intro s hr hm hr0 hr2 hn hp hc hcap
  have hlaunch : FrameLaunch s false := ⟨hr, and_both (and_both hr0 hr2) (decide_eq_true hn), hp, hc⟩
  obtain ⟨v, x, ht, hwork⟩ := frameWork_runs hlaunch hm hcap
  have hexec : exec .frameContinue s = .next ((v.frameResult x s.op1.toNat).withCode 0) := by
    rw [exec_frameContinue_of hlaunch, hwork]
    rfl
  have hx : x ≤ s.op3.toNat := ht.room.trans hcap
  have hres0 : (BitVec.ofNat 64 x).toNat = x := toNat_ofNat_lt (hx.trans_lt s.op3.isLt) le_rfl
  have hwrote : WroteResult s ((v.frameResult x s.op1.toNat).withCode 0) s.op2.toNat s.op3.toNat := ⟨x, hx, ht.wrote, rfl⟩
  refine ⟨_, hexec, (ht.frame.result v.stage x).trans (by rw [ht.stage]; rfl), hres0.trans_le ht.room, (hwrote.within hm).2, fun hi => (ht.header hi).2, ht.consumed, ht.chk,
    fun h0 hso => ?_⟩
  obtain ⟨rfl, rfl⟩ := ht.empty (by rw [h0]; rfl) hso
  rw [h0]
  rfl

/-! ### FRAME_END -/

/-- The empty last block of a frame that ends with an empty chunk (R296). -/
def endMark (n : Nat) : List Byte := if n = 0 then emptyLast else []

/-- The checksum that ends a frame with the checksum flag (R71, R296). -/
def State.checksumTail (s : State) : List Byte := if s.p.checksumFlag then s.checksumBytes else []

theorem length_endMark_le (n : Nat) : (endMark n).length ≤ 3 := by
  unfold endMark
  split
  · exact le_rfl
  · exact Nat.zero_le 3

theorem State.length_checksumTail (s : State) : s.checksumTail.length = if s.p.checksumFlag then 4 else 0 := by
  unfold State.checksumTail
  split
  · exact length_leBytes 4 _
  · rfl

/-- A unit of the epilogue that is due, or none. -/
theorem State.writeTail_due {P : Prop} [Decidable P] {s : State} {dst cap w : Nat} {bytes : List Byte}
    (h : w + bytes.length ≤ cap) :
    (if P then s.writeTail dst cap w bytes else some (s, w)) =
      some ({ s with mem := s.mem.writeBytes (dst + w) (if P then bytes else []) },
        w + (if P then bytes else []).length) := by
  split
  · rw [State.writeTail, if_neg (by omega)]
    rfl
  · rfl

/-- Memory after the epilogue: the end mark, then the checksum (R296). -/
def State.epilogueMem (s : State) (n dst w : Nat) : Memory :=
  (s.mem.writeBytes (dst + w) (endMark n)).writeBytes (dst + (w + (endMark n).length)) s.checksumTail

def State.epilogueEnd (s : State) (n w : Nat) : Nat := w + (endMark n).length + s.checksumTail.length

/-- The state after the epilogue: the frame is at its end (R296). -/
def State.epilogueDone (s : State) (n dst w : Nat) : State :=
  { ({ s with mem := s.epilogueMem n dst w } : State).frameResult (s.epilogueEnd n w) n with stage := .created }

theorem frameEpilogue_fits {s : State} {n dst cap w : Nat} (h : w + 7 ≤ cap) :
    frameEpilogue s n dst cap w = .ok (s.epilogueDone n dst w) := by
  have he := length_endMark_le n
  have hc : s.checksumBytes.length = 4 := length_leBytes 4 _
  unfold frameEpilogue
  rw [State.writeTail_due (by have : emptyLast.length = 3 := rfl; omega)]
  dsimp only
  rw [State.writeTail_due (by rw [hc]; unfold endMark at he; omega)]
  rfl

theorem WroteTo.writeBytes (m : Memory) (dst w : Nat) (bytes : List Byte) :
    WroteTo m (m.writeBytes (dst + w) bytes) dst w (w + bytes.length) :=
  ⟨Nat.le_add_right _ _, bytes, (Nat.add_sub_cancel_left _ _).symm, rfl⟩

theorem State.epilogueMem_wrote (s : State) (n dst w : Nat) :
    WroteTo s.mem (s.epilogueMem n dst w) dst w (s.epilogueEnd n w) :=
  (WroteTo.writeBytes _ _ _ _).trans (WroteTo.writeBytes _ _ _ _)

theorem State.epilogueMem_mark {s : State} (hm : s.mem.wf = true) (n dst w : Nat) :
    (s.epilogueMem n dst w).readBytes (dst + w) (endMark n).length = endMark n := by
  have hmark := Memory.writeBytes_wf hm (dst + w) (endMark n)
  unfold State.epilogueMem
  rw [Memory.readBytes_congr fun x _ hx => Memory.read_writeBytes_outside hmark (.inl (by omega)),
    Memory.readBytes_writeBytes_same hm]

theorem State.epilogueMem_checksum {s : State} (hm : s.mem.wf = true) (n dst w : Nat) :
    (s.epilogueMem n dst w).readBytes (dst + (w + (endMark n).length)) s.checksumTail.length = s.checksumTail :=
  Memory.readBytes_writeBytes_same (Memory.writeBytes_wf hm _ _) _ _

/-- Settles O55: after the chunk the epilogue has the 7 bytes it may take. -/
theorem frameEndCompletes : Obligations.FrameEndCompletes := by
  intro s hr hm hr0 hr2 hn hp hc hcap
  have hlaunch : FrameLaunch s true := ⟨hr, and_both (and_both hr0 hr2) (decide_eq_true hn), hp, hc⟩
  obtain ⟨v, x, ht, hwork⟩ := frameWork_runs hlaunch hm (by unfold State.chunkRoom; omega)
  have hroom := ht.room
  unfold State.chunkRoom at hroom
  have hvm := ht.wrote.wf hm
  have hexec : exec .frameEnd s = .next ((v.epilogueDone s.op1.toNat s.op2.toNat x).withCode 0) := by
    rw [exec_frameEnd_of hlaunch, hwork, frameEpilogue_fits (by omega)]
    rfl
  have hp' : v.p = s.p := by rw [ht.frame]
  have himpl : v.impl = s.impl := by rw [ht.frame]
  have hmark := length_endMark_le s.op1.toNat
  have htail : v.checksumTail.length = if s.p.checksumFlag then 4 else 0 := by
    rw [v.length_checksumTail, hp']
  have hend : v.epilogueEnd s.op1.toNat x = x + (endMark s.op1.toNat).length + if s.p.checksumFlag then 4 else 0 := by
    rw [← htail]
    rfl
  have hle : v.epilogueEnd s.op1.toNat x ≤ 25 + s.op1.toNat + 3 * (s.op1.toNat / s.p.blockSizeMax + 1) := by
    rw [hend]
    split <;> omega
  have hwrote := v.epilogueMem_wrote s.op1.toNat s.op2.toNat x
  have hflow : FlowFrame s { v with mem := v.epilogueMem s.op1.toNat s.op2.toNat x } := ht.frame.trans rfl
  have hres0 : (BitVec.ofNat 64 (v.epilogueEnd s.op1.toNat x)).toNat = v.epilogueEnd s.op1.toNat x :=
    toNat_ofNat_lt (hle.trans_lt (hcap.trans_lt s.op3.isLt)) le_rfl
  have hresult : WroteResult s ((v.epilogueDone s.op1.toNat s.op2.toNat x).withCode 0) s.op2.toNat s.op3.toNat :=
    ⟨v.epilogueEnd s.op1.toNat x, hle.trans hcap, ht.wrote.trans hwrote, rfl⟩
  have hbody : v.epilogueEnd s.op1.toNat x - (if s.p.checksumFlag then 4 else 0) = x + (endMark s.op1.toNat).length := by
    rw [hend, Nat.add_sub_cancel]
  refine ⟨_, hexec, hflow.result .created _, hres0.trans_le hle, (hresult.within hm).2, fun hi => ?_, fun hck => ⟨?_, ?_⟩,
    fun h0 => ?_⟩
  · obtain ⟨hl, hread⟩ := ht.header hi
    exact (hwrote.readBytes_before hvm hl).trans hread
  · show (v.epilogueMem s.op1.toNat s.op2.toNat x).readBytes
      (s.op2.toNat + ((BitVec.ofNat 64 (v.epilogueEnd s.op1.toNat x)).toNat - _)) 4 = leBytes 4 _
    rw [hres0, hbody]
    have hread := State.epilogueMem_checksum hvm s.op1.toNat s.op2.toNat x
    rw [htail, if_pos hck] at hread
    rw [hread, show v.checksumTail = v.checksumBytes from if_pos (by rw [hp']; exact hck), State.checksumBytes, himpl]
    rfl
  · exact ht.chk.trans (if_pos hck)
  · show (v.epilogueMem s.op1.toNat s.op2.toNat x).readBytes
      (s.op2.toNat + ((BitVec.ofNat 64 (v.epilogueEnd s.op1.toNat x)).toNat - _ - 3)) 3 = emptyLast
    rw [hres0, hbody]
    have hread := State.epilogueMem_mark hvm s.op1.toNat s.op2.toNat x
    have hmarked : endMark s.op1.toNat = emptyLast := if_pos (by rw [h0]; rfl)
    rw [hmarked] at hread ⊢
    exact hread

end Sys2Proof.Machine
end

/-! # Proofs of the exceptions family (60_exceptions.md)

A command is turned away by a gate, the stage or an operand check (`TurnedAway`), or it passes them; then it ends in one of
the ways of `Ended`, which say the code, the commands and the state that is left (`Worked.ended`). -/

/-! ## The gates and the operand checks (R327) -/

section
namespace Sys2Proof.Machine

open Sys2Proof

theorem gateFatal_shut {s : State} (h : s.status.fatal = true) (k : Done) : gateFatal s k = .err .generic s := if_pos h

/-- Settles O8: every other command meets the fault gate first. -/
theorem fatalGateRefusesAllButDebug : Obligations.FatalGateRefusesAllButDebug := by
  intro i s hf hd
  cases i with
  | dbgRead => exact absurd rfl hd
  | _ => exact congrArg Done.outcome (gateFatal_shut hf _)

theorem letThrough_false_of_unspec {i : Instr} {s : State} (hu : s.status.unspec = true) (hi : i.runsWhenLost = false) :
    i.letThrough s = false := by
  simp [Instr.letThrough, hu, hi]

/-- Settles O9: the command is not let through, and the fault gate does not answer before (`exec_of_not_letThrough`). -/
theorem lostFrameGateRefusesAllButThree : Obligations.LostFrameGateRefusesAllButThree := by
  intro i s hu hc hp hd hf
  have hlost : i.runsWhenLost = false := by simp [Instr.runsWhenLost, hc, hp, hd]
  exact exec_of_not_letThrough (hf.imp_right fun h => by rw [h]; rfl) (letThrough_false_of_unspec hu hlost)

/-- A command that is let through was not turned away by a gate or the stage. -/
theorem TurnedAway.operands {i : Instr} {s t : State} (h : TurnedAway i s t) (hl : i.letThrough s = true) :
    i.operandsOk s = false ∧ t = s.withCode 2 := by
  obtain ⟨hf, hi, _⟩ | ⟨hl', _⟩ | ⟨_, ho, ht⟩ := h
  · simp [Instr.letThrough, hf, hi] at hl
  · simp [hl] at hl'
  · exact ⟨ho, ht⟩

/-- An operand precondition that fails ends the command: by O16 it is no refused launch, and `exec_next` says how it answers. -/
theorem exec_of_not_operandsOk {i : Instr} {s : State} (hl : i.letThrough s = true) (ho : i.operandsOk s = false) :
    exec i s = .next (s.withCode 2) := by
  obtain ⟨noFault, onlyChecked, _⟩ := refusalsAreTheLaunchConditions
  cases he : exec i s with
  | fault f => exact absurd he (noFault i s f)
  | refused r =>
    obtain ⟨_, h, _⟩ := onlyChecked i s r he
    simp [ho] at h
  | next t =>
    rcases exec_next he with h | ⟨_, h, _⟩
    · rw [(h.operands hl).2]
    · simp [ho] at h

end Sys2Proof.Machine
end

/-! ## The checks after the operands (R327 check 5) -/

section
namespace Sys2Proof.Machine

open Sys2Proof

/-- A command without a launch condition that passes its checks does its work. -/
theorem exec_worked_of_letThrough {i : Instr} {s : State} (hj : launchJudged i = false) (hl : i.letThrough s = true)
    (ho : i.operandsOk s = true) : ∃ t, exec i s = .next t ∧ Worked i s t := by
  obtain ⟨t, ht⟩ := exec_answers hj s
  refine ⟨t, ht, ?_⟩
  rcases exec_next ht with h | ⟨_, _, h⟩
  · obtain ⟨h, _⟩ := h.operands hl
    simp [ho] at h
  · exact h

theorem exec_ctxInit_memory {s : State} (hl : Instr.ctxInit.letThrough s = true) (ho : Instr.ctxInit.operandsOk s = true)
    (hw : s.impl.tabCap < s.cfg.workspace) : exec .ctxInit s = .next (s.withCode 4) := by
  obtain ⟨t, ht, ⟨_, rfl⟩ | ⟨h, _⟩⟩ := exec_worked_of_letThrough rfl hl ho
  · exact ht
  · omega

theorem exec_dmsBuild_memory {s : State} (hl : Instr.dmsBuild.letThrough s = true)
    (ho : Instr.dmsBuild.operandsOk s = true) (hb : s.impl.tabCap < s.cfg.baseEntries) :
    exec .dmsBuild s = .next (s.withCode 4) := by
  obtain ⟨t, ht, ⟨_, rfl⟩ | ⟨h, _⟩ | ⟨h, _⟩⟩ := exec_worked_of_letThrough rfl hl ho
  · exact ht
  all_goals omega

theorem exec_dmsBuild_corrupted {s : State} (hl : Instr.dmsBuild.letThrough s = true)
    (ho : Instr.dmsBuild.operandsOk s = true) (hb : s.cfg.baseEntries ≤ s.impl.tabCap) (hd : s.descriptorOk = false) :
    exec .dmsBuild s = .next (s.withCode 6) := by
  obtain ⟨t, ht, ⟨h, _⟩ | ⟨_, _, rfl⟩ | ⟨_, h, _⟩⟩ := exec_worked_of_letThrough rfl hl ho
  · omega
  · exact ht
  · simp [hd] at h

theorem exec_dictLoad_corrupted {m : Byte} {s : State} (hl : (Instr.dictLoad m).letThrough s = true)
    (ho : (Instr.dictLoad m).operandsOk s = true) (hd : s.descriptorOk = false) :
    exec (.dictLoad m) s = .next (s.withCode 6) := by
  obtain ⟨t, ht, ⟨_, rfl⟩ | ⟨h, _⟩⟩ := exec_worked_of_letThrough rfl hl ho
  · exact ht
  · simp [hd] at h

/-- The pledge is judged before the launch condition and the work (R294). -/
theorem frameChecked_pledge {s : State} {last : Bool} (hl : Instr.frameEnd.letThrough s = true)
    (ho : Instr.frameEnd.operandsOk s = true) (hp : s.pledgeOk s.op1.toNat last = false) (k : Done) :
    (frameChecked s last k).outcome = .next (s.withCode 7) := by
  have hr := letThrough_ready hl (isIO_eq _) rfl rfl
  simp only [Instr.operandsOk] at ho
  rw [frameChecked, gatedIO_of hr, require_of ho, hp]
  rfl

theorem State.pledgeOk_over {s : State} {n : Nat} (hk : s.p.pledged.toNat ≠ Config.pledgeUnknown)
    (h : s.p.pledged.toNat < s.consumed.toNat + n) (last : Bool) : s.pledgeOk n last = false := by
  refine decide_eq_false ?_
  rintro (hu | ⟨hle, _⟩)
  · exact hk hu
  · omega

theorem State.pledgeOk_short {s : State} {n : Nat} (hk : s.p.pledged.toNat ≠ Config.pledgeUnknown)
    (h : s.consumed.toNat + n < s.p.pledged.toNat) : s.pledgeOk n true = false := by
  refine decide_eq_false ?_
  rintro (hu | ⟨_, heq⟩)
  · exact hk hu
  · exact absurd (heq rfl) h.ne

/-- Settles O12: table storage, the descriptor, the pledge, one lemma for each command that judges it. -/
theorem laterChecksComeInOrder : Obligations.LaterChecksComeInOrder :=
  ⟨fun _ => exec_ctxInit_memory,
    fun _ hl ho => ⟨exec_dmsBuild_memory hl ho, exec_dmsBuild_corrupted hl ho⟩,
    fun _ _ => exec_dictLoad_corrupted,
    fun _ hl ho hk =>
      ⟨fun h => ⟨frameChecked_pledge hl ho (State.pledgeOk_over hk h _) _,
          frameChecked_pledge hl ho (State.pledgeOk_over hk h _) _⟩,
        fun h => frameChecked_pledge hl ho (State.pledgeOk_short hk h) _⟩⟩

end Sys2Proof.Machine
end

/-! ## How a command ends (R320 to R323, R327 to R331) -/

section
namespace Sys2Proof.Machine

open Sys2Proof

/-- The codes of the checks after the operands, and the commands that make them (R322). -/
def LaterCheck (i : Instr) (c : Byte) : Prop :=
  (c = 4 ∧ (i = .ctxInit ∨ i = .dmsBuild)) ∨ (c = 6 ∧ (i = .dmsBuild ∨ ∃ m, i = .dictLoad m)) ∨
    (c = 7 ∧ (i = .frameContinue ∨ i = .frameEnd))

/-- The commands that lose the frame when a unit does not fit (R330). -/
def LosesFrame (i : Instr) : Prop := i = .frameContinue ∨ i = .frameEnd ∨ ∃ m, i = .blockCompress m

/-- The commands that store sequences, and so can meet a second long length (R329; the matchers by log 18). -/
def StoresSequences (i : Instr) : Prop := i = .seqStore ∨ i = .blkMatch ∨ i = .ldmBlkMatch

/-- How a command that passed its operand checks ends. -/
inductive Ended (i : Instr) (s t : State) : Prop where
  /-- It succeeds, and the two sticky bits stay. -/
  | success (status : t.status = { s.status with code := 0 })
  /-- CTX_INIT succeeds, and the frame is no longer lost. -/
  | reset (init : i = .ctxInit) (status : t.status = { s.status with code := 0, unspec := false })
  /-- A later check turns it away. -/
  | check (c : Byte) (cause : LaterCheck i c) (state : t = s.withCode c)
  /-- SEQ_STORE or a matcher meets a second long length. -/
  | fatal (m : MatchState) (q : SeqStore) (l : LdmState) (cause : StoresSequences i)
      (state : t = ({ s with ms := m, seq := q, ldm := l } : State).setFatal.withCode 1)
  /-- LIT_COMPRESS or SEQ_ENCODE writes no section. -/
  | noSection (c : Byte) (q : SeqStore) (cause : (c = 1 ∧ i = .seqEncode) ∨ (c = 5 ∧ (i = .litCompress ∨ i = .seqEncode)))
      (state : t = ({ s with seq := q } : State).withCode c)
  /-- A unit of a frame does not fit: what the flow works on may have changed, and `unspec` may be set. -/
  | lost (u : State) (w : Nat) (unspec : Bool) (cause : LosesFrame i) (flow : FlowFrame s u)
      (sticky : s.status.unspec = true → unspec = true)
      (state : t = (({ u with status := { u.status with unspec := unspec } } : State).setRes0 w).withCode 5)

theorem Ended.of_status {i : Instr} {s u : State} (h : u.status = s.status) : Ended i s (u.withCode 0) :=
  .success (by rw [State.withCode_status, h])

theorem FlowFrame.status {s t : State} (h : FlowFrame s t) : t.status = s.status := by rw [h]

theorem winAppend_status (s : State) (src n : Nat) : (winAppend s src n).1.status = s.status := by rw [winAppend_frame]

theorem winEnforceMaxDist_status (s : State) (e d : Nat) : (winEnforceMaxDist s e d).status = s.status := by
  rw [winEnforceMaxDist_frame]

theorem dictLoadContent_status (s : State) (src len : Nat) (full : Bool) :
    (dictLoadContent s src len full).status = s.status := by
  unfold dictLoadContent dictContent
  split
  · rfl
  · dsimp only
    split <;> exact winAppend_status s src len

theorem finishMatch_ended {i : Instr} (hi : StoresSequences i) {s t : State} {l : LdmState} {iend : Nat} {r : MatchRun}
    (h : (finishMatch { s with ldm := l } iend r).outcome = .next t) : Ended i s t := by
  rcases finishMatch_next h with ⟨_, rfl⟩ | ⟨_, rfl⟩
  · exact .fatal r.work.ms r.work.seq l hi rfl
  · exact .of_status (State.setNextBs_status _ _)

theorem FrameRun.ended {i : Instr} (hi : LosesFrame i) {s t : State} (h : FrameRun s t) : Ended i s t := by
  rcases h with ⟨_, _, rfl⟩ | ⟨u, w, hu, _, _, _, rfl⟩
  · exact .lost s 0 s.status.unspec hi (.refl s) id rfl
  · exact .lost u w true hi hu (fun _ => rfl) rfl

/-- THE ENDS OF A COMMAND: what `Worked` says of each command is one of the ways to end. -/
theorem Worked.ended {i : Instr} {s t : State} (h : Worked i s t) : Ended i s t := by
  cases i with
  | ctxInit =>
    rcases h with ⟨_, rfl⟩ | ⟨_, rfl⟩
    · exact .check 4 (.inl ⟨rfl, .inl rfl⟩) rfl
    · exact .reset rfl rfl
  | dictLoad m =>
    rcases h with ⟨_, rfl⟩ | ⟨_, rfl⟩
    · exact .check 6 (.inr (.inl ⟨rfl, .inr ⟨m, rfl⟩⟩)) rfl
    · have hl := dictLoadContent_status s s.op0.toNat s.op1.toNat (modBit0 m)
      refine .of_status ?_
      show (if s.op2 = 0 then _ else _ : State).status = s.status
      split
      · exact hl
      · rw [State.setPrev_status, hl]
  | dictAttach =>
    subst h
    refine .of_status ?_
    split
    · rfl
    · exact State.setPrev_status _ _
  | frameContinue =>
    rcases h with ⟨_, rfl⟩ | ⟨_, h | ⟨u, w, hu, _, _, _, rfl⟩⟩
    · exact .check 7 (.inr (.inr ⟨rfl, .inl rfl⟩)) rfl
    · exact h.ended (.inl rfl)
    · exact .of_status hu.status
  | frameEnd =>
    rcases h with ⟨_, rfl⟩ | ⟨_, h | ⟨u, w, hu, _, _, rfl⟩⟩
    · exact .check 7 (.inr (.inr ⟨rfl, .inr rfl⟩)) rfl
    · exact h.ended (.inr (.inl rfl))
    · exact .of_status hu.status
  | blockCompress m =>
    rcases h with ⟨u, hu, _, _, rfl⟩ | ⟨u, k, typ, hu, _, _, rfl⟩
    · exact .lost u 0 true (.inr (.inr ⟨m, rfl⟩)) hu.flow (fun _ => rfl) rfl
    · refine .of_status ?_
      split <;> exact hu.flow.status
  | dmsBuild =>
    rcases h with ⟨_, rfl⟩ | ⟨_, _, rfl⟩ | ⟨_, _, rfl⟩
    · exact .check 4 (.inl ⟨rfl, .inr rfl⟩) rfl
    · exact .check 6 (.inr (.inl ⟨rfl, .inl rfl⟩)) rfl
    · exact .of_status rfl
  | winAppend => subst h; exact .of_status (winAppend_status s _ _)
  | winEnforceMaxdist => subst h; exact .of_status (winEnforceMaxDist_status s _ _)
  | blkMatch => exact finishMatch_ended (.inr (.inl rfl)) (l := s.ldm) h
  | ldmBlkMatch =>
    obtain ⟨_, _, h⟩ := h
    exact finishMatch_ended (.inr (.inr rfl)) h
  | seqStore =>
    rcases h with ⟨_, rfl⟩ | ⟨_, rfl⟩
    · exact .fatal s.ms _ s.ldm (.inl rfl) rfl
    · exact .of_status rfl
  | litCompress =>
    rcases h with ⟨_, rfl⟩ | ⟨_, rfl⟩
    · exact .noSection 5 s.seq (.inr ⟨rfl, .inl rfl⟩) rfl
    · exact .of_status (State.setNextBs_status _ _)
  | seqEncode =>
    rcases h with ⟨_, rfl⟩ | ⟨_, _, _, rfl⟩ | ⟨_, _, _, rfl⟩
    · exact .noSection 1 _ (.inl ⟨rfl, rfl⟩) rfl
    · exact .noSection 5 _ (.inr ⟨rfl, .inr rfl⟩) rfl
    · exact .of_status (State.setNextBs_status _ _)
  | dbgRead => obtain ⟨v, _, rfl⟩ := h; exact .of_status rfl
  | paramsDerive => subst h; exact .of_status (by rw [State.setRes1_status, State.setRes0_status])
  | winNeedsCorrection | winCorrectOverflow | tabFill _ | h1Insfind | dhInsfind | hcInsfind | hcSearch
  | btUpdate | btSearch | h3Insfind | ldmGenerate | seqReset | seqLastlit | seqToCodes => subst h; exact .of_status rfl

/-- Every answer of a command: the gates, the stage and the operand checks, or one of its ends. -/
theorem exec_ended {i : Instr} {s t : State} (h : exec i s = .next t) : TurnedAway i s t ∨ Ended i s t :=
  (exec_next h).imp_right fun ⟨_, _, hw⟩ => hw.ended

/-! ### The codes (R321, R322) -/

/-- Once the operands have passed, a command does not end with `ParamInvalid`. -/
theorem Ended.code_ne_two {i : Instr} {s t : State} (h : Ended i s t) : t.status.code ≠ 2 := by
  cases h with
  | success status | reset _ status => simp [status]
  | check c cause state => subst state; rcases cause with ⟨rfl, _⟩ | ⟨rfl, _⟩ | ⟨rfl, _⟩ <;> simp
  | fatal m q l _ state | lost u w x _ _ _ state => subst state; simp
  | noSection c q cause state => subst state; rcases cause with ⟨rfl, _⟩ | ⟨rfl, _⟩ <;> simp

/-- Settles O11: only a failing operand precondition ends with `ParamInvalid` (`Ended.code_ne_two`), and it always does
(`exec_of_not_operandsOk`). -/
theorem operandChecksAreExact : Obligations.OperandChecksAreExact := by
  intro i s hl
  refine ⟨⟨?_, fun ho => ⟨_, exec_of_not_operandsOk hl ho, rfl⟩⟩, exec_of_not_operandsOk hl⟩
  rintro ⟨t, ht, hcode⟩
  rcases exec_ended ht with h | h
  · exact (h.operands hl).1
  · exact absurd hcode h.code_ne_two

/-- Settles O13: each way to end has its code and its commands. -/
theorem resultCodesComeFromTheirCommands : Obligations.ResultCodesComeFromTheirCommands := by
  intro i s t ht
  rcases exec_ended ht with (⟨hf, _, rfl⟩ | ⟨_, rfl⟩ | ⟨_, _, rfl⟩) | h
  · simp [hf]
  · simp
  · simp
  cases h with
  | success status | reset _ status => simp [status]
  | check c cause state => subst state; rcases cause with ⟨rfl, hi⟩ | ⟨rfl, hi⟩ | ⟨rfl, hi⟩ <;> simpa using hi
  | fatal m q l cause state =>
    subst state
    rcases cause with hi | hi | hi <;> simp [hi]
  | noSection c q cause state =>
    subst state
    rcases cause with ⟨rfl, hi⟩ | ⟨rfl, hi | hi⟩ <;> simp [hi]
  | lost u w x cause _ _ state =>
    subst state
    rcases cause with hi | hi | ⟨m, hi⟩ <;> simp [hi]

/-! ### What an error leaves (R327, R328, R331) -/

/-- Settles O14: the first checks and the later ones write the code only (`TurnedAway.withCode`, `LaterCheck`); the other
errors have the codes 1 and 5, and what they leave stands in `Ended`. -/
theorem errorsLeaveTheStatedState : Obligations.ErrorsLeaveTheStatedState := by
  intro i s t ht
  rcases exec_ended ht with h | h
  · obtain ⟨c, rfl⟩ := h.withCode
    exact ⟨fun _ => rfl, fun _ => ⟨rfl, rfl, rfl, fun _ => ⟨rfl, rfl⟩⟩⟩
  cases h with
  | success status | reset _ status => simp [status]
  | check c cause state =>
    subst state
    exact ⟨fun _ => rfl, fun _ => ⟨rfl, rfl, rfl, fun _ => ⟨rfl, rfl⟩⟩⟩
  | fatal m q l _ state =>
    subst state
    exact ⟨fun hc => by simp at hc, fun _ => ⟨rfl, rfl, rfl, fun _ => ⟨rfl, rfl⟩⟩⟩
  | noSection c q cause state =>
    subst state
    refine ⟨fun hc => ?_, fun _ => ⟨rfl, rfl, rfl, fun _ => ⟨rfl, rfl⟩⟩⟩
    rcases cause with ⟨rfl, _⟩ | ⟨rfl, _⟩ <;> simp at hc
  | lost u w x cause flow _ state =>
    subst state
    refine ⟨fun hc => by simp at hc, fun _ => ?_⟩
    rw [flow]
    refine ⟨rfl, rfl, rfl, fun hi => ?_⟩
    rcases cause with rfl | rfl | ⟨m, rfl⟩ <;> simp at hi

/-! ### The sticky bits (R329, R330) -/

/-- Settles O15: the checks write `STATUS.code` only, and each way to end says what it does to the two bits. -/
theorem stickyBitsChangeOnlyAsStated : Obligations.StickyBitsChangeOnlyAsStated := by
  intro i s t ht
  rcases exec_ended ht with h | h
  · obtain ⟨c, rfl⟩ := h.withCode
    simp +contextual
  cases h with
  | success status => simp +contextual [status]
  | reset init status => simp +contextual [status, init]
  | check c _ state | noSection c _ _ state => subst state; simp +contextual
  | fatal m q l cause state =>
    subst state
    refine ⟨fun _ => rfl, fun _ _ => ⟨rfl, cause⟩, fun hs hu => ?_, fun hs hu => ?_⟩ <;> simp [hs] at hu
  | lost u w x cause flow sticky state =>
    subst state
    refine ⟨fun hs => ?_, fun hs hf => ?_, fun _ _ => ⟨rfl, cause⟩, fun hs hu => ?_⟩
    · simp [flow.status, hs]
    · simp [flow.status, hs] at hf
    · simp [sticky hs] at hu

end Sys2Proof.Machine
end

/-! ## Hardware reset (70_reset_and_hazards.md R345) -/

section
namespace Sys2Proof.Machine

open Sys2Proof

theorem step_reset {s : State} {rest : List HostAction} (h : s.host = .reset :: rest) :
    step s = .next (hardReset { s with host := rest, freeCtr := s.freeCtr + 1 }) := by
  rw [step, h]
  rfl

/-- The registers that read 1 after reset are the initial window's `nextSrc` and its two limits (10_state.md R18), the two
cursors of the tables (R21) and the first-block flag. Every defined number is below 77; an undefined number
reads 0 (`State.readReg_undefined`). -/
theorem State.reset_readReg (n : Nat) : State.reset.readReg n = if n ∈ [34, 35, 36, 37, 38, 48] then 1 else 0 := by
  by_cases hn : n < 77
  · have below : ∀ k < 77, State.reset.readReg k = if k ∈ [34, 35, 36, 37, 38, 48] then 1 else 0 := by decide
    exact below n hn
  · have hlast : ∀ k ∈ [34, 35, 36, 37, 38, 48], k < 77 := by decide
    rw [if_neg (mt (hlast n) hn)]
    refine State.readReg_undefined _ ?_
    simp only [isRegister, decide_eq_false_iff_not]
    omega

/-- Settles O7: the step is `hardReset`, the registers read as in `State.reset_readReg`, and the rest is what `State.reset`
holds. -/
theorem hardwareResetGivesTheStatedValues : Obligations.HardwareResetGivesTheStatedValues := by
  have unset : BlockState.reset.huf.mode = .none ∧ BlockState.reset.fseLL.mode = .none ∧
      BlockState.reset.fseOF.mode = .none ∧ BlockState.reset.fseML.mode = .none := ⟨rfl, rfl, rfl, rfl⟩
  refine ⟨fun s rest => step_reset, State.reset_readReg, rfl, rfl, rfl, rfl, rfl, rfl, rfl, rfl, rfl, rfl, rfl, rfl, ?_⟩
  intro b hb
  obtain rfl | rfl : b = State.reset.bs0 ∨ b = State.reset.bs1 := by simpa using hb
  · exact unset
  · exact unset

/-! ### The invariants -/

theorem State.reset_canonical : State.reset.canonical = true :=
  (State.canonical_iff _).mpr
    ⟨Memory.reset_wf, Table.absent_wf, Table.absent_wf, Table.absent_wf, ⟨rfl, rfl⟩, Table.absent_wf, Table.absent_wf⟩

/-- No frame is open. -/
theorem State.reset_tablesSized : State.reset.TablesSized := nofun

/-- The default parameters are legal, no frame is open, the window is the initial one, and no bank is valid. -/
theorem State.reset_runOk : State.reset.RunOk :=
  have hleg : State.reset.impl.legal = true := by decide
  ⟨hleg, nofun, fun _ => ⟨State.windowOk_init (Impl.legal_addrW hleg).1 rfl, nofun⟩, nofun⟩

/-- Settles O60: each invariant at `State.reset`, where the tables are absent, no frame is open and no bank is valid. -/
theorem invariantsHoldAtReset : Obligations.InvariantsHoldAtReset :=
  ⟨State.reset_canonical, State.reset_tablesSized, State.reset_runOk⟩

end Sys2Proof.Machine
end
